-- ==== Sys2Proof/Word.lean ====
section
/-! DEFINITION. The word types of the part: what crosses its ports as bits. -/

namespace Sys2Proof

/-- An octet of a record, a message or the configuration image. -/
abbrev Byte := BitVec 8

/-- A headset identity as it is carried in four bytes (R183). 0 and FFFFFFFFh are no identities (R103). -/
abbrev Headset := BitVec 32

/-- A node number; 1..254 name nodes, 255 as a destination means all nodes (R132). -/
abbrev Node := BitVec 8

/-- A talk group, 0..255. -/
abbrev Group := BitVec 8

/-- A claim tag, 0..255 wrapping (R50). -/
abbrev Tag := BitVec 8

/-- An uplink sequence, 0..63 modulo 64 (R114). -/
abbrev Seq := BitVec 6

/-- One audio sample, signed 16 bits (R121). -/
abbrev Sample := BitVec 16

/-- A headset identity is a number in 1..4,294,967,294 (chapter Introduction, terms). -/
def isIdentity (h : Headset) : Bool := h != 0 && h != 0xFFFFFFFF

end Sys2Proof
end

