-- ==== Sys2Proof/Syntax.lean ====
section
/-! DEFINITION. The commands of the part: one constructor for each row of spec/opcode_table.json. The table gives
no operands; each constructor carries what its event brings to the part (assumption 2). -/

namespace Sys2Proof

/-- The five line symbols of R131. -/
inductive LineSymbol where
  | dominant
  | recessive
  | idle
  | held
  | violation
deriving DecidableEq, Repr

/-- What makes a bit fault (R136, R141, R144). -/
inductive BitFaultCause where
  /-- This node's start bit, sent DOMINANT, read otherwise. -/
  | startBit (read : LineSymbol)
  /-- A later bit read otherwise than it was sent. -/
  | differs (read : LineSymbol)
  /-- A run of HELD that began in the frame and ended before 64 with the symbol `ended`. -/
  | heldRun (ended : LineSymbol)
deriving DecidableEq, Repr

/-- The framing faults of the table of R137. -/
inductive FramingCause where
  /-- IDLE between the arbitration field and the acknowledge slot. -/
  | stoppedShort
  /-- VIOLATION between the arbitration field and the end field. -/
  | violation
  /-- A run of HELD that ended before 64 with the symbol `ended`. -/
  | heldRun (ended : LineSymbol)
  /-- A length field above 48. -/
  | lengthOutOfRange
  /-- DOMINANT (or, where `idle`, IDLE) in the acknowledge delimiter or the end field. -/
  | frameEndNotSeen (idle : Bool)
deriving DecidableEq, Repr

/-- The commands, in the order of spec/opcode_table.json.
`record` is a whole record as its port brought it, from its kind byte on: an air port record (section 12.3) or a matrix
link record with its CRC (section 12.2). `slot` is an air slot. `line` is the run of symbols read since the last trunk
event, oldest first, and `bits` the number of bit times since then inside a frame (R131). -/
inductive Instr where
  | powerOn
  | resetLineAsserted
  | resetLineReleased
  | configLoadComplete (image : List Byte)
  | cycleMark (record : List Byte)
  | arrivalTimeout (slot : Nat)
  | handingTimeout (slot : Nat)
  | rescueTimeout (slot : Nat)
  | replyTimeout (headset : Headset)
  | settleEnd (slot : Nat)
  | cutLink (slot : Nat)
  | surveyAging (headset : Headset)
  | knowledgeExpiry (headset : Headset)
  | listenInEnd
  | seekHoldOffEnd (headset : Headset)
  | orderExpiry (slot : Nat)
  | ownHoldExpiry
  | neighbourHoldExpiry (node : Node)
  | drainEmpty (slot : Nat)
  | slotReport (record : List Byte)
  | surveyReport (record : List Byte)
  | seekCall (record : List Byte)
  | orderResult (record : List Byte)
  | trunkAttemptStart (line : List LineSymbol)
  | arbitrationLost
  | bitFault (cause : BitFaultCause)
  | delivered
  | acknowledgeFailure (read : LineSymbol)
  | backoffEnd (line : List LineSymbol)
  | frameReceived (bits : Nat) (arbitration : BitVec 13) (destination : Node) (payload : List Byte) (crc : Byte)
  | frameEnd (bits : Nat)
  | framingFault (bits : Nat) (cause : FramingCause)
  | waitIdleExit (line : List LineSymbol)
  | stuckEntry (line : List LineSymbol)
  | stuckExit (line : List LineSymbol)
  | takenHandling
  | claimHandling
  | seekClaimHandling
  | yieldHandling
  | declineHandling
  | standingHandling
  | handlingComplete
  | groupFrame (record : List Byte)
  | statusQuery (record : List Byte)
  | clear (record : List Byte)
  | evict (record : List Byte)
  | restart (record : List Byte)
  | outboundRecordStart
  | anotherNodesStartBit (line : List LineSymbol)
  | arbitrationWon
deriving DecidableEq, Repr

end Sys2Proof
end

