-- ==== Sys2Proof/Decode.lean ====
section
/-! DEFINITION. The words of commands. spec/opcode_table.json gives no bits to any of its 50 rows (spec/98_reader.md:
n_rows_with_fixed 0), so no word spells a command. -/

namespace Sys2Proof

/-- The command that a word of `nbits` bits spells: none, for every word. -/
def decodeTableWord (_nbits _w : Nat) : Option Instr := none

end Sys2Proof
end

