-- ==== Sys2Proof/Config.lean ====
section
/-! DEFINITION. What is fixed while the part runs: its capacities, and the configuration that CFL loads from the
image (R177, R178, section 12.4). The spec leaves no value of an operation undefined, so there is no free value. -/

namespace Sys2Proof

/-- Air slots of a node, and entries of its serve table (R1, R99). -/
def slotCount : Nat := 24
/-- Entries of the survey list (R38). -/
def surveyCapacity : Nat := 48
/-- Claims outstanding at one node (R48). -/
def claimCapacity : Nat := 4
/-- Frames of a rebuild ring (R117). -/
def ringCapacity : Nat := 8
/-- Groups of the group store (R121). -/
def storeCapacity : Nat := 12
/-- Buffers of the inbound pool (R156). -/
def poolCapacity : Nat := 16
/-- Depths of the four transmit queues (R148). -/
def flowDepth : Nat := 1
def urgentDepth : Nat := 4
def handoverDepth : Nat := 6
def reportDepth : Nat := 2
/-- Notices of the notice queue (R171). -/
def noticeCapacity : Nat := 16
/-- UPLINK records that wait for the matrix link (R165). -/
def uplinkCapacity : Nat := 48
/-- Counted failures after which a message is dropped (R145). -/
def attemptLimit : Nat := 8
/-- The pacing loaded after a failed NORMAL claim (R34). -/
def fullPacing : Nat := 31
/-- The age at which a pending order expires (R106). -/
def orderLimit : Nat := 4
/-- Payload bytes of the longest frame (R132). -/
def payloadLimit : Nat := 48

end Sys2Proof

namespace Sys2Proof.Machine

/-- One item of a listen list: a group and its attenuation shift 0..7 (R1). -/
structure ListenItem where
  group : Group
  shift : Nat
deriving DecidableEq, Repr

/-- A default block: a listen list and an optional talk group (R43). -/
structure DefaultBlock where
  listen : List ListenItem
  talk : Option Group
deriving DecidableEq, Repr

/-- An admission item; its default block may be absent (R43). -/
structure Admission where
  headset : Headset
  permit : Bool
  block : Option DefaultBlock
deriving DecidableEq, Repr

/-- A neighbour item: a node and the bias −15..+15 (R44). -/
structure Neighbour where
  node : Node
  bias : Int
deriving DecidableEq, Repr

/-- The four attention enables (R173). -/
structure Enables where
  trunk : Bool
  roam : Bool
  voice : Bool
  system : Bool
deriving DecidableEq, Repr

/-- The loaded configuration, every value in its clamped range (R177, R178). The letters are the manual's. -/
structure Settings where
  /-- node number, 1..254 -/
  node : Node
  /-- air channel, 0..31 -/
  channel : Nat
  /-- k, smoothing shift, 2..5 -/
  k : Nat
  /-- H, candidate hysteresis, 3..20 -/
  hysteresis : Nat
  /-- M, override margin, 10..40 -/
  margin : Nat
  /-- N, dwell requirement, 1..15 -/
  dwellNeed : Nat
  /-- F, offer floor, 0..90 -/
  floor : Nat
  /-- settle time, 0..255 -/
  settleTime : Nat
  /-- T_r, claim reply time, 4..32 -/
  replyTime : Nat
  /-- T_a, arrival time, 2..16 -/
  arrivalTime : Nat
  /-- T_h, handing time, 8..64 -/
  handingTime : Nat
  /-- T_s, seek wait, 2..20 -/
  seekWait : Nat
  /-- C, cut-link limit, 5..50 -/
  cutLink : Nat
  /-- W, rescue window, 50..500 -/
  rescueWindow : Nat
  /-- S, standing period, 5..100 -/
  standing : Nat
  /-- survey aging limit, 10..255 -/
  agingLimit : Nat
  /-- hold threshold, 1..8 -/
  holdThreshold : Nat
  /-- hold quanta T, 4..64 -/
  holdQuanta : Nat
  /-- D, playout depth, 2..6 -/
  depth : Nat
  /-- fill mode FULL; otherwise SHORT (R129) -/
  fullFill : Bool
  /-- silence octet -/
  silence : Byte
  enables : Enables
  /-- default policy PERMIT; otherwise DENY -/
  permitDefault : Bool
  defaults : DefaultBlock
  /-- up to 16 neighbour items, in image order -/
  neighbours : List Neighbour
  /-- up to 64 admission items, in image order -/
  admissions : List Admission
deriving DecidableEq, Repr

end Sys2Proof.Machine
end

