-- ==== Sys2Proof/Machine/State.lean ====
section
/-! DEFINITION. The state of the part, block by block (chapter Introduction, Block overview), its value after a cold
reset, and the reasons a step can stop. -/

namespace Sys2Proof.Machine

/-! ## Configuration Loader -/

/-- The node states (section 11.1). -/
inductive NodeState where
  | standby
  | loading
  | fault
  | joining
  | run
deriving DecidableEq, Repr

/-- CFL's state (R175 to R181). `config` is absent until a load succeeds. -/
structure Cfl where
  node : NodeState
  /-- the reset line is asserted -/
  resetLine : Bool
  trunkJoined : Bool
  airJoined : Bool
  config : Option Settings
  /-- the factory identity of the part (R143, R166): no rule ever changes it -/
  identity : BitVec 32
deriving DecidableEq, Repr

/-! ## Roaming Engine -/

/-- The states of a non-FREE serve entry (R1). -/
inductive EntryState where
  | arriving
  | served
  | offered
  | handing
  | draining
  | lost
deriving DecidableEq, Repr

/-- How an entry came to be ARRIVING (R1). -/
inductive Origin where
  | yield
  | seek
  | reclaim
deriving DecidableEq, Repr

/-- The phases of HANDING (R14, R15). -/
inductive HandPhase where
  | yieldPending
  | moveSent
deriving DecidableEq, Repr

/-- The handing record (R1); the timer is present in MOVE_SENT only (R2). -/
structure HandingRecord where
  claimant : Node
  tag : Tag
  phase : HandPhase
  channel : Nat
  slot : Nat
  timer : Option Nat
deriving DecidableEq, Repr

/-- The yield owed record of R90. -/
structure YieldOwed where
  winner : Node
  tag : Tag
deriving DecidableEq, Repr

/-- A rebuilt uplink frame: 40 octets and the silence-filled mark (R111). -/
structure VoiceFrame where
  payload : List Byte
  silence : Bool
deriving DecidableEq, Repr

/-- The rebuild ring of a serve entry, oldest frame first (R111). It exists with its entry. -/
structure Ring where
  frames : List VoiceFrame
  expected : Option Seq
  playing : Bool
deriving DecidableEq, Repr

/-- A serve entry that is not FREE (R1, R2), with the rebuild ring VP keeps for it. -/
structure ServeEntry where
  headset : Headset
  state : EntryState
  slot : Nat
  listen : List ListenItem
  talk : Option Group
  q : Nat
  r : Nat
  heard : Bool
  lossRun : Nat
  settle : Nat
  count : Nat
  lastReported : Nat
  offerChanged : Bool
  origin : Option Origin
  tag : Option Tag
  arrivalTimer : Option Nat
  rescueTimer : Option Nat
  handing : Option HandingRecord
  yieldOwed : Option YieldOwed
  previous : Option Node
  ring : Ring
deriving DecidableEq, Repr

/-- Serving knowledge (R45). -/
structure Knowledge where
  node : Node
  score : Option Nat
  offered : Bool
  count : Nat
  groups : Option (List Group)
  age : Nat
deriving DecidableEq, Repr

/-- The two kinds of claim (R48). -/
inductive ClaimKind where
  | normal
  | seek
deriving DecidableEq, Repr

/-- The phases of a claim (R48). -/
inductive ClaimPhase where
  | queued
  | sent
deriving DecidableEq, Repr

/-- The claim record (R48). -/
structure ClaimRecord where
  kind : ClaimKind
  tag : Tag
  slot : Nat
  groups : List Group
  phase : ClaimPhase
  replyTimer : Option Nat
  callListen : Option (List ListenItem)
  callTalk : Option Group
deriving DecidableEq, Repr

/-- A survey entry (R38), with the seek hold-off of R84. -/
structure SurveyEntry where
  headset : Headset
  q : Nat
  r : Nat
  lastHeard : Nat
  dwell : Nat
  pacing : Nat
  holdOff : Nat
  knowledge : Option Knowledge
  claim : Option ClaimRecord
deriving DecidableEq, Repr

/-- RE's state. `serve` holds the non-FREE entries only, in slot order (assumption 17); 24 less its length are FREE. -/
structure Re where
  serve : List ServeEntry
  survey : List SurveyEntry
  claimCounter : Tag
  listenIn : Option Nat
deriving DecidableEq, Repr

/-! ## Air Port Controller -/

/-- The three states of an air slot (R99). -/
inductive SlotState where
  | free
  | reserved (tag : Tag)
  | assigned (headset : Headset)
deriving DecidableEq, Repr

/-- The kinds of pending order (R105). -/
inductive OrderKind where
  | move
  | answer
deriving DecidableEq, Repr

/-- A pending order and its age in cycle marks (R105, R106). -/
structure PendingOrder where
  kind : OrderKind
  age : Nat
deriving DecidableEq, Repr

/-- One item of the slot map with its pending order. -/
structure AirSlot where
  state : SlotState
  order : Option PendingOrder
deriving DecidableEq, Repr

/-- APC's state. `out` is the model's own: the bytes of every record sent to the front end, in order (assumption 11). -/
structure Apc where
  slots : List AirSlot
  lastCycle : Option (BitVec 16)
  out : List (List Byte)
deriving DecidableEq, Repr

/-! ## Voice Path -/

/-- An entry of the group store (R121). -/
structure StoredGroup where
  group : Group
  refs : Nat
  current : Option (List Sample)
  lastSeq : Option Byte
deriving DecidableEq, Repr

/-- VP's state beside the rings: the group store and the listen mask (R121, R124). -/
structure Vp where
  store : List StoredGroup
  mask : BitVec 64
deriving DecidableEq, Repr

/-! ## Messages, Trunk Queue Unit -/

/-- The four transmit classes (R132, R148). -/
inductive TxClass where
  | flow
  | urgent
  | handover
  | report
deriving DecidableEq, Repr

/-- The context a YIELD carries (R63). -/
structure Context where
  headset : Headset
  tag : Tag
  expected : Seq
  count : Nat
  listen : List ListenItem
  talk : Option Group
deriving DecidableEq, Repr

/-- What a CLAIM carries (R59, R82). -/
structure ClaimBody where
  headset : Headset
  tag : Tag
  kind : ClaimKind
  score : Nat
  channel : Nat
  slot : Nat
deriving DecidableEq, Repr

/-- The reasons of a DECLINE (R65). -/
inductive Reason where
  | notServed
  | busy
  | settling
  | notOffered
deriving DecidableEq, Repr

/-- One naming of a STANDING (R52). -/
structure Naming where
  headset : Headset
  score : Nat
  offered : Bool
  count : Nat
  groups : List Group
deriving DecidableEq, Repr

/-- The six kinds of trunk message with their contents (section 12.1). -/
inductive Body where
  | hold (time : Nat)
  | taken (headset : Headset) (count : Nat) (previous : Option Node)
  | yield (context : Context)
  | claim (claim : ClaimBody)
  | decline (headset : Headset) (tag : Tag) (reason : Reason)
  | standing (namings : List Naming)
deriving DecidableEq, Repr

/-- A queued message (R148). `inHand` marks the message TLC is sending (R149); `replaced` marks a HOLD whose time was
replaced while in hand (R152). TQU owns a HOLD and RE every other message. -/
structure Queued where
  cls : TxClass
  body : Body
  destination : Node
  failures : Nat
  inHand : Bool
  replaced : Bool
deriving DecidableEq, Repr

/-- A message of the inbound pool, as TLC handed it on (R156). -/
structure Placed where
  cls : Nat
  kind : Nat
  sender : Node
  destination : Node
  payload : List Byte
deriving DecidableEq, Repr

/-- TQU's state. The oldest message of `pool` is the one RE handles: `reached` says that the point of its handling has
been reached (R159), `reply` is the reply that its completion queues (R158). `neighbourHolds` has one timer for each
neighbour item, in configuration order (R161). -/
structure Tqu where
  flow : List Queued
  urgent : List Queued
  handover : List Queued
  report : List Queued
  pool : List Placed
  reached : Bool
  reply : Option Queued
  reservations : Nat
  ownHold : Nat
  neighbourHolds : List Nat
deriving DecidableEq, Repr

/-! ## Trunk Link Controller -/

/-- The eight states of TLC (R134). -/
inductive TlcState where
  | off
  | waitIdle
  | idle
  | arbitrating
  | sending
  | receiving
  | backoff
  | stuck
deriving DecidableEq, Repr

/-- The fields of a frame between its start bit and its acknowledge slot (R132). The length field is the number of
payload bytes. -/
structure TrunkFrame where
  arbitration : BitVec 13
  destination : Node
  payload : List Byte
  crc : Byte
deriving DecidableEq, Repr

/-- The attempt under way: the message in hand with its failure count at the start, and the frame built from it (R135). -/
structure Attempt where
  message : Queued
  frame : TrunkFrame
deriving DecidableEq, Repr

/-- The frame being read. `follows`: the node follows the line after its own bit fault and hands nothing on (R141).
`crcRead`: the end of the CRC field has passed. `acknowledges`: the node drives the acknowledge slot (R140). -/
structure Reading where
  follows : Bool
  crcRead : Bool
  acknowledges : Bool
deriving DecidableEq, Repr

/-- The trap record (R138). -/
structure Trap where
  arbitration : BitVec 13
  faults : Nat
deriving DecidableEq, Repr

/-- TLC's state. `wait` is what is left of the backoff wait in bit times, 0 where none runs (R143). -/
structure Tlc where
  state : TlcState
  idleRun : Nat
  heldRun : Nat
  attempt : Option Attempt
  reading : Option Reading
  wait : Nat
  generator : BitVec 16
  trap : Option Trap
deriving DecidableEq, Repr

/-! ## Matrix Link Controller -/

/-- The counters of section 10.5, in the order of its table. -/
inductive Counter where
  | sent
  | arbitrationLosses
  | acknowledgeFailures
  | bitFaults
  | framingFaults
  | crcFaults
  | inboundOverruns
  | droppedAtLimit
  | matrixCrcDiscards
  | handoversIn
  | handoversOut
  | declinesSent
  | declinesReceived
  | seekWins
  | seekLosses
  | departures
  | duplicatesResolved
  | lateReplies
  | strays
  | ignoredSeekCalls
  | groupDrops
  | silenceInserted
  | lateFrames
  | misinserted
  | ringOverruns
  | maskMisses
  | groupOverwrites
  | clippedFrames
  | foreignFrames
deriving DecidableEq, Repr

/-- The status bits of R173. -/
structure StatusBits where
  trunkRollover : Bool
  trunkStuck : Bool
  roamRollover : Bool
  voiceRollover : Bool
  configClamped : Bool
  configFault : Bool
  noticeLoss : Bool
deriving DecidableEq, Repr

/-- The notices of section 10.4 with their items. -/
inductive Notice where
  | arrived (headset : Headset) (previous : Option Node)
  | left (headset : Headset) (node : Node)
  | reverted (headset : Headset) (claimant : Node)
  | lost (headset : Headset)
  | departed (headset : Headset)
  | evicted (headset : Headset)
  | faultTrunkStuck
deriving DecidableEq, Repr

/-- The results of an EVICT (R168). -/
inductive EvictResult where
  | done
  | notServed
  | busy
deriving DecidableEq, Repr

/-- What the answer slot can hold (R167): a gathered STATUS SNAPSHOT body, or an EVICT RESULT. -/
inductive Answer where
  | snapshot (body : List Byte)
  | evictResult (headset : Headset) (result : EvictResult)
deriving DecidableEq, Repr

/-- An UPLINK record that waits for the link (R120). -/
structure Uplink where
  headset : Headset
  talk : Group
  frame : VoiceFrame
deriving DecidableEq, Repr

/-- MLC's state. `counters` holds the 29 counters in the order of `Counter`. `evict` is the headset of an EVICT that waits
at RE; while it waits the answer slot counts as taken (R167, assumption 23). `out` is the model's own: the bytes of every
record MLC has begun to send, in order (assumption 11). -/
structure Mlc where
  counters : List (BitVec 16)
  status : StatusBits
  enables : Enables
  attention : Bool
  notices : List Notice
  answer : Option Answer
  evict : Option Headset
  uplinks : List Uplink
  out : List (List Byte)
deriving DecidableEq, Repr

/-! ## The whole part -/

/-- The state of the part, and the queue of commands that wait for it. -/
structure State where
  cfl : Cfl
  re : Re
  apc : Apc
  vp : Vp
  tqu : Tqu
  tlc : Tlc
  mlc : Mlc
  /-- the model's own: the commands that wait, first in, first out (assumption 1) -/
  pending : List Instr
deriving DecidableEq, Repr

/-! ## Values after a cold reset -/

def Re.cold : Re := { serve := [], survey := [], claimCounter := 0, listenIn := none }

def AirSlot.cold : AirSlot := { state := .free, order := none }

def Apc.cold : Apc := { slots := List.replicate slotCount AirSlot.cold, lastCycle := none, out := [] }

def Vp.cold : Vp := { store := [], mask := 0 }

def Tqu.cold : Tqu :=
  { flow := [], urgent := [], handover := [], report := [], pool := [], reached := false, reply := none,
    reservations := 0, ownHold := 0, neighbourHolds := [] }

/-- The seed of the backoff generator: the low 16 bits of the factory identity, or 1 where those are all 0 (R143). -/
def Tlc.seed (identity : BitVec 32) : BitVec 16 :=
  if identity.extractLsb' 0 16 = 0 then 1 else identity.extractLsb' 0 16

def Tlc.cold (identity : BitVec 32) : Tlc :=
  { state := .off, idleRun := 0, heldRun := 0, attempt := none, reading := none, wait := 0,
    generator := Tlc.seed identity, trap := none }

def StatusBits.clear : StatusBits :=
  { trunkRollover := false, trunkStuck := false, roamRollover := false, voiceRollover := false,
    configClamped := false, configFault := false, noticeLoss := false }

def Enables.off : Enables := { trunk := false, roam := false, voice := false, system := false }

/-- The number of counters (section 10.5). -/
def counterCount : Nat := 29

def Mlc.cold : Mlc :=
  { counters := List.replicate counterCount 0, status := StatusBits.clear, enables := Enables.off, attention := false,
    notices := [], answer := none, evict := none, uplinks := [], out := [] }

/-- CFL after a cold reset (R175). DESIGN CHOICE (assumption 33): the two join conditions are false from the cold reset on; R180
gives them at the entry to JOINING alone. -/
def Cfl.cold (identity : BitVec 32) : Cfl :=
  { node := .standby, resetLine := true, trunkJoined := false, airJoined := false, config := none,
    identity := identity }

/-- The part right after a cold reset, held in STANDBY (R175; R23, R37, R58, R95, R109, R130, R147, R162, R174).
DESIGN CHOICE (assumption 7): the factory identity is 0. Unsafe. -/
def State.reset : State :=
  { cfl := Cfl.cold 0, re := Re.cold, apc := Apc.cold, vp := Vp.cold, tqu := Tqu.cold, tlc := Tlc.cold 0,
    mlc := Mlc.cold, pending := [] }

/-! ## Reasons to stop -/

/-- The part never stops with a fault: every fault the manual names is an event with a stated effect on the state
(assumption 2), so no constructor is needed. -/
inductive Fault where
deriving DecidableEq, Repr

/-- Refusals. -/
inductive Refusal where
  /-- Raised only by an arm of `exec` whose command has no meaning yet; safe. No arm raises it. -/
  | notModelled (mnemonic : String)
deriving DecidableEq, Repr

end Sys2Proof.Machine
end

