-- ==== Sys2Proof/Machine/Flags.lean ====
section
/-! DEFINITION. Counters, status bits, the attention line and the notice queue of MLC (R171, R172, R173). -/

namespace Sys2Proof.Machine

/-- The place of a counter in the counter table of section 10.5. -/
def Counter.index : Counter → Nat
  | .sent => 0
  | .arbitrationLosses => 1
  | .acknowledgeFailures => 2
  | .bitFaults => 3
  | .framingFaults => 4
  | .crcFaults => 5
  | .inboundOverruns => 6
  | .droppedAtLimit => 7
  | .matrixCrcDiscards => 8
  | .handoversIn => 9
  | .handoversOut => 10
  | .declinesSent => 11
  | .declinesReceived => 12
  | .seekWins => 13
  | .seekLosses => 14
  | .departures => 15
  | .duplicatesResolved => 16
  | .lateReplies => 17
  | .strays => 18
  | .ignoredSeekCalls => 19
  | .groupDrops => 20
  | .silenceInserted => 21
  | .lateFrames => 22
  | .misinserted => 23
  | .ringOverruns => 24
  | .maskMisses => 25
  | .groupOverwrites => 26
  | .clippedFrames => 27
  | .foreignFrames => 28

/-- The categories of counters and status bits (section 10.5, R173). -/
inductive Category where
  | trunk
  | roam
  | voice
deriving DecidableEq, Repr

/-- The category of a counter (section 10.5). -/
def Counter.category : Counter → Category
  | .sent | .arbitrationLosses | .acknowledgeFailures | .bitFaults | .framingFaults | .crcFaults | .inboundOverruns
  | .droppedAtLimit | .matrixCrcDiscards => .trunk
  | .handoversIn | .handoversOut | .declinesSent | .declinesReceived | .seekWins | .seekLosses | .departures
  | .duplicatesResolved | .lateReplies | .strays | .ignoredSeekCalls | .groupDrops => .roam
  | .silenceInserted | .lateFrames | .misinserted | .ringOverruns | .maskMisses | .groupOverwrites | .clippedFrames
  | .foreignFrames => .voice

/-- The status bits with a category's rollover bit set (R172). -/
def StatusBits.rollover (b : StatusBits) : Category → StatusBits
  | .trunk => { b with trunkRollover := true }
  | .roam => { b with roamRollover := true }
  | .voice => { b with voiceRollover := true }

/-- Whether the attention line is asserted: a bit of an enabled category is set, or CONFIG_FAULT is (R173). -/
def attentionOf (e : Enables) (b : StatusBits) : Bool :=
  b.configFault || (e.trunk && (b.trunkRollover || b.trunkStuck)) || (e.roam && b.roamRollover) ||
    (e.voice && b.voiceRollover) || (e.system && (b.configClamped || b.configFault || b.noticeLoss))

/-- MLC with new status bits, the attention line following them (R173). -/
def Mlc.withStatus (m : Mlc) (b : StatusBits) : Mlc :=
  { m with status := b, attention := attentionOf m.enables b }

/-- The value of a counter. -/
def Mlc.counter (m : Mlc) (c : Counter) : BitVec 16 := (m.counters[c.index]?).getD 0

/-- One counted event: the counter rises by 1, and from 65535 returns to 0 with its category's rollover bit set (R172). -/
def Mlc.count (c : Counter) (m : Mlc) : Mlc :=
  let raised := { m with counters := m.counters.set c.index (m.counter c + 1) }
  if m.counter c = 0xFFFF then raised.withStatus (m.status.rollover c.category) else raised

/-- `n` counted events of one counter. -/
def Mlc.countMany (c : Counter) : Nat → Mlc → Mlc
  | 0, m => m
  | n + 1, m => Mlc.countMany c n (m.count c)

/-- A notice joins the newest end of the notice queue; where 16 wait, the oldest is discarded and NOTICE_LOSS is set (R171). -/
def Mlc.notify (n : Notice) (m : Mlc) : Mlc :=
  if m.notices.length < noticeCapacity then { m with notices := m.notices ++ [n] }
  else { m with notices := m.notices.drop 1 ++ [n] }.withStatus { m.status with noticeLoss := true }

/-- An UPLINK record joins the waiting ones; where 48 wait, the oldest is pushed out uncounted (R165). -/
def Mlc.takeUplink (u : Uplink) (m : Mlc) : Mlc :=
  if m.uplinks.length < uplinkCapacity then { m with uplinks := m.uplinks ++ [u] }
  else { m with uplinks := m.uplinks.drop 1 ++ [u] }

/-- CLEAR at MLC: every counter 0, every status bit clear, the line following (R169). -/
def Mlc.clear (m : Mlc) : Mlc :=
  { m with counters := List.replicate counterCount 0 }.withStatus StatusBits.clear

/-- Whether the answer slot can take an answer: it holds none, and no EVICT waits at RE (R167). -/
def Mlc.slotFree (m : Mlc) : Bool := m.answer.isNone && m.evict.isNone

/-- An answer placed in the answer slot; it ends the wait of an EVICT at RE (R167, R168). -/
def Mlc.place (a : Answer) (m : Mlc) : Mlc := { m with answer := some a, evict := none }

/-- A warm restart answers an EVICT that waits at RE with NOT_SERVED (R167). -/
def Mlc.answerEvict (m : Mlc) : Mlc :=
  match m.evict with
  | some h => m.place (.evictResult h .notServed)
  | none => m

/-- The two status bytes of the snapshot, bit 0 TRUNK_ROLLOVER to bit 6 NOTICE_LOSS (section 12.2). -/
def StatusBits.word (b : StatusBits) : BitVec 16 :=
  let bit (set : Bool) (place : Nat) : BitVec 16 := if set then 1 <<< place else 0
  bit b.trunkRollover 0 ||| bit b.trunkStuck 1 ||| bit b.roamRollover 2 ||| bit b.voiceRollover 3 |||
    bit b.configClamped 4 ||| bit b.configFault 5 ||| bit b.noticeLoss 6

/-! ## The same at the level of the whole state -/

/-- Apply a change to MLC alone. -/
def State.onMlc (f : Mlc → Mlc) (s : State) : State := { s with mlc := f s.mlc }

/-- Count one event (R172). -/
def State.count (c : Counter) (s : State) : State := s.onMlc (Mlc.count c)

/-- Send a notice (R171). -/
def State.notify (n : Notice) (s : State) : State := s.onMlc (Mlc.notify n)

/-- Place an answer in the answer slot (R167). -/
def State.answer (a : Answer) (s : State) : State := s.onMlc (Mlc.place a)

end Sys2Proof.Machine
end

