-- ==== Sys2Proof/Machine/Layouts.lean ====
section
/-! DEFINITION. The byte layouts of what the part sends (R183, sections 12.1 to 12.3), the frame of the trunk (R132)
and the two check sequences (R133, R163). -/

namespace Sys2Proof.Machine

/-! ## Bytes and bits -/

/-- A 16-bit field, most significant byte first (R183). -/
def word16Bytes (w : BitVec 16) : List Byte := [w.extractLsb' 8 8, w.extractLsb' 0 8]

/-- A 32-bit field, most significant byte first (R183). -/
def word32Bytes (w : BitVec 32) : List Byte :=
  [w.extractLsb' 24 8, w.extractLsb' 16 8, w.extractLsb' 8 8, w.extractLsb' 0 8]

/-- The 16-bit field of two bytes (R183). -/
def word16 (hi lo : Byte) : BitVec 16 := hi ++ lo

/-- The 32-bit field of four bytes (R183). -/
def word32 (a b c d : Byte) : BitVec 32 := a ++ b ++ c ++ d

/-- A number as one byte. -/
def byteOf (n : Nat) : Byte := BitVec.ofNat 8 n

/-- A truth value as one byte, 1 for yes. -/
def flagByte (b : Bool) : Byte := if b then 1 else 0

/-- The bits of a word of `w` bits, most significant first. -/
def bitsMsb {w : Nat} (x : BitVec w) : List Bool := (List.range w).map fun i => x.getLsbD (w - 1 - i)

/-- The bits of a run of bytes, each most significant bit first (R183). -/
def bytesBits (bs : List Byte) : List Bool := bs.flatMap bitsMsb

/-! ## CRC-8 of the trunk (R133) -/

/-- One bit taken into the CRC-8 register (R133). -/
def crc8Bit (r : Byte) (b : Bool) : Byte :=
  let shifted := r <<< 1
  if r.msb != b then shifted ^^^ 0x07 else shifted

/-- The CRC-8 of a run of bits, the register preset to FFh (R133). -/
def crc8 (bits : List Bool) : Byte := bits.foldl crc8Bit 0xFF

/-- The bits the CRC-8 covers: arbitration field, destination, length and payload (R132, R133). -/
def coveredBits (arbitration : BitVec 13) (destination : Node) (payload : List Byte) : List Bool :=
  bitsMsb arbitration ++ bitsMsb destination ++ bitsMsb (BitVec.ofNat 6 payload.length) ++ bytesBits payload

/-- The CRC-8 a frame must carry (R133). -/
def frameCrc (arbitration : BitVec 13) (destination : Node) (payload : List Byte) : Byte :=
  crc8 (coveredBits arbitration destination payload)

/-- The bits of a whole frame as its sender sends it, true for RECESSIVE: start bit, fields, acknowledge slot,
delimiter and end field (R132). -/
def TrunkFrame.lineBits (f : TrunkFrame) : List Bool :=
  [false] ++ coveredBits f.arbitration f.destination f.payload ++ bitsMsb f.crc ++ List.replicate 9 true

/-! ## CRC-16 of the matrix link and the configuration image (R163, R176) -/

/-- One bit taken into the CRC-16 register (R163). -/
def crc16Bit (r : BitVec 16) (b : Bool) : BitVec 16 :=
  let shifted := r <<< 1
  if r.msb != b then shifted ^^^ 0x1021 else shifted

/-- The CRC-16 of a run of bytes, the register preset to FFFFh (R163). -/
def crc16 (bytes : List Byte) : BitVec 16 := (bytesBits bytes).foldl crc16Bit 0xFFFF

/-! ## Trunk payloads (section 12.1) -/

/-- The class code of the arbitration field (R132). -/
def TxClass.code : TxClass → Nat
  | .flow => 0
  | .urgent => 1
  | .handover => 2
  | .report => 3

/-- The kind code of the arbitration field (R132). -/
def Body.code : Body → Nat
  | .hold _ => 0
  | .taken _ _ _ => 1
  | .yield _ => 2
  | .claim _ => 3
  | .decline _ _ _ => 4
  | .standing _ => 5

/-- The kind byte of a CLAIM (section 12.1). -/
def ClaimKind.code : ClaimKind → Byte
  | .normal => 0
  | .seek => 1

/-- The reason byte of a DECLINE (section 12.1). -/
def Reason.code : Reason → Byte
  | .notServed => 1
  | .busy => 2
  | .settling => 3
  | .notOffered => 4

/-- A listen item as group and shift (section 12.1). -/
def ListenItem.bytes (i : ListenItem) : List Byte := [i.group, byteOf i.shift]

/-- A naming in its 11 bytes (section 12.1). -/
def Naming.bytes (n : Naming) : List Byte :=
  word32Bytes n.headset ++
    [byteOf n.score, (if n.offered then 0x80 else 0) ||| byteOf n.groups.length, byteOf n.count] ++
    (n.groups ++ List.replicate 4 0).take 4

/-- The payload of a message (section 12.1). -/
def Body.payload : Body → List Byte
  | .hold time => [byteOf time]
  | .taken h count previous => word32Bytes h ++ [byteOf count, previous.getD 0]
  | .yield c =>
    word32Bytes c.headset ++
      [c.tag, c.expected.zeroExtend 8, byteOf c.count, byteOf c.listen.length, flagByte c.talk.isSome, c.talk.getD 0] ++
      c.listen.flatMap ListenItem.bytes
  | .claim c => word32Bytes c.headset ++ [c.tag, c.kind.code, byteOf c.score, byteOf c.channel, byteOf c.slot]
  | .decline h tag reason => word32Bytes h ++ [tag, reason.code]
  | .standing ns => byteOf ns.length :: ns.flatMap Naming.bytes

/-- The arbitration field: class × 2048 + kind × 256 + sender (R132). -/
def arbitrationField (cls kind : Nat) (sender : Node) : BitVec 13 :=
  BitVec.ofNat 13 (cls * 2048 + kind * 256 + sender.toNat)

/-- The frame TLC builds from a message, adding its own number, the length and the CRC (R132). -/
def buildFrame (own : Node) (m : Queued) : TrunkFrame :=
  let arbitration := arbitrationField m.cls.code m.body.code own
  let payload := m.body.payload
  { arbitration := arbitration, destination := m.destination, payload := payload,
    crc := frameCrc arbitration m.destination payload }

/-- The class code of an arbitration field. -/
def arbitrationClass (a : BitVec 13) : Nat := a.toNat / 2048
/-- The kind code of an arbitration field. -/
def arbitrationKind (a : BitVec 13) : Nat := a.toNat / 256 % 8
/-- The sender of an arbitration field. -/
def arbitrationSender (a : BitVec 13) : Node := BitVec.ofNat 8 (a.toNat % 256)

/-! ## Air port records to the front end (section 12.3) -/

/-- The five records the part sends to the front end. -/
inductive AirOrder where
  | slotAssign (slot : Nat) (headset : Headset)
  | slotClose (slot : Nat)
  | downlinkFrame (slot : Nat) (samples : List Sample)
  | moveOrder (slot channel target : Nat)
  | seekAnswer (headset : Headset) (channel slot : Nat)
deriving DecidableEq, Repr

/-- An air port record: kind, body length, body (section 12.3). -/
def airRecord (kind : Byte) (body : List Byte) : List Byte := kind :: byteOf body.length :: body

def AirOrder.bytes : AirOrder → List Byte
  | .slotAssign slot h => airRecord 0x11 (byteOf slot :: word32Bytes h)
  | .slotClose slot => airRecord 0x12 [byteOf slot]
  | .downlinkFrame slot samples => airRecord 0x13 (byteOf slot :: samples.flatMap word16Bytes)
  | .moveOrder slot channel target => airRecord 0x14 [byteOf slot, byteOf channel, byteOf target]
  | .seekAnswer h channel slot => airRecord 0x15 (word32Bytes h ++ [byteOf channel, byteOf slot])

/-! ## Matrix link records to the matrix (section 12.2) -/

/-- A matrix record: kind, body length, body, CRC-16 (R163, section 12.2). -/
def matrixRecord (kind : Byte) (body : List Byte) : List Byte :=
  let covered := kind :: word16Bytes (BitVec.ofNat 16 body.length) ++ body
  covered ++ word16Bytes (crc16 covered)

def Uplink.bytes (u : Uplink) : List Byte :=
  matrixRecord 0x81 (word32Bytes u.headset ++ [u.talk, flagByte u.frame.silence] ++ u.frame.payload)

/-- The result byte of an EVICT RESULT (section 12.2). -/
def EvictResult.code : EvictResult → Byte
  | .done => 0
  | .notServed => 1
  | .busy => 2

def Answer.bytes : Answer → List Byte
  | .snapshot body => matrixRecord 0x82 body
  | .evictResult h result => matrixRecord 0x83 (word32Bytes h ++ [result.code])

/-- The body of a NOTICE: code, headset, node, fault code (section 12.2). -/
def Notice.body : Notice → List Byte
  | .arrived h previous => 1 :: word32Bytes h ++ [previous.getD 0, 0]
  | .left h node => 2 :: word32Bytes h ++ [node, 0]
  | .reverted h claimant => 3 :: word32Bytes h ++ [claimant, 0]
  | .lost h => 4 :: word32Bytes h ++ [0, 0]
  | .departed h => 5 :: word32Bytes h ++ [0, 0]
  | .evicted h => 6 :: word32Bytes h ++ [0, 0]
  | .faultTrunkStuck => 7 :: word32Bytes 0 ++ [0, 1]

def Notice.bytes (n : Notice) : List Byte := matrixRecord 0x84 n.body

end Sys2Proof.Machine
end

