-- ==== Sys2Proof/Machine/Operands.lean ====
section
/-! DEFINITION. How the part reads what crosses its ports: air port reports (R104, R185), trunk payloads (R184), matrix
link records (R163). Each reading is total and answers none where the record cannot be read. -/

namespace Sys2Proof.Machine

/-! ## Lists of items -/

/-- The list with every later item of a group already named removed (R103, R123 step 1). -/
def firstPerGroup : List ListenItem → List ListenItem
  | [] => []
  | i :: is => i :: (firstPerGroup is).filter fun j => j.group != i.group

/-- The groups of a list, each once, in the order first named (R122). -/
def distinctGroups : List Group → List Group
  | [] => []
  | g :: gs => g :: (distinctGroups gs).filter fun h => h != g

/-- Up to `n` listen items from bytes, a shift above 7 taken as 7 (R178, R184, R185). -/
def readListen : Nat → List Byte → List ListenItem
  | n + 1, group :: shift :: rest => { group := group, shift := min 7 shift.toNat } :: readListen n rest
  | _, _ => []

/-- A talk group marked present by a nonzero byte (R184, R185, section 12.4). -/
def readTalk (present talk : Byte) : Option Group := if present = 0 then none else some talk

/-! ## Air port reports (section 12.3, R104, R185) -/

/-- The body of an air port record of a kind: the bytes that its length byte states, behind its kind byte. A record of
another kind is not this report, and of a kind that is none of the five cannot be read (R104). A record with fewer bytes
than its length byte states cannot be read, and bytes behind those stated are not part of it (assumption 30). -/
def airBody (kind : Byte) : List Byte → Option (List Byte)
  | k :: length :: rest => if k = kind ∧ length.toNat ≤ rest.length then some (rest.take length.toNat) else none
  | _ => none

/-- The body of a CYCLE MARK: the cycle number. -/
def cycleMarkBody : List Byte → Option (BitVec 16)
  | hi :: lo :: _ => some (word16 hi lo)
  | _ => none

/-- The kinds of a SLOT REPORT, a FRAME with its headset, sequence and payload. -/
inductive SlotKind where
  | frame (headset : Headset) (seq : Seq) (payload : List Byte)
  | errored
  | silent
deriving DecidableEq, Repr

/-- A SLOT REPORT that can be read. -/
structure SlotReport where
  slot : Nat
  kind : SlotKind
  level : Int
deriving DecidableEq, Repr

/-- The body of a SLOT REPORT: slot at most 23, kind 0, 1 or 2, and for a FRAME all of its 48 bytes (R104). The sequence byte is read
modulo 64 (assumption 18). -/
def slotReportBody : List Byte → Option SlotReport
  | slot :: kind :: level :: rest =>
    if slot.toNat < slotCount then
      if kind = 0 then
        match rest with
        | a :: b :: c :: d :: seq :: more =>
          if 40 ≤ more.length then
            some { slot := slot.toNat, kind := .frame (word32 a b c d) (seq.setWidth 6) (more.take 40),
                   level := level.toInt }
          else none
        | _ => none
      else if kind = 1 then some { slot := slot.toNat, kind := .errored, level := level.toInt }
      else if kind = 2 then some { slot := slot.toNat, kind := .silent, level := level.toInt }
      else none
    else none
  | _ => none

/-- A SURVEY REPORT that can be read; `good` is GOOD, otherwise ERRORED. -/
structure SurveyReport where
  headset : Headset
  level : Int
  good : Bool
deriving DecidableEq, Repr

/-- The body of a SURVEY REPORT: result GOOD 0 or ERRORED 1 (R104), and an identity (R103). -/
def surveyReportBody : List Byte → Option SurveyReport
  | a :: b :: c :: d :: level :: result :: _ =>
    if (result = 0 ∨ result = 1) ∧ isIdentity (word32 a b c d) then
      some { headset := word32 a b c d, level := level.toInt, good := result = 0 }
    else none
  | _ => none

/-- A SEEK CALL that can be read, as APC passes it on: each group once, an empty list absent (R103). -/
structure SeekCall where
  headset : Headset
  level : Int
  listen : Option (List ListenItem)
  talk : Option Group
deriving DecidableEq, Repr

/-- The body of a SEEK CALL: listen count at most 4 with all its items (R185), and an identity (R103). -/
def seekCallBody : List Byte → Option SeekCall
  | a :: b :: c :: d :: level :: n :: present :: talk :: items =>
    if n.toNat ≤ 4 ∧ 2 * n.toNat ≤ items.length ∧ isIdentity (word32 a b c d) then
      some { headset := word32 a b c d, level := level.toInt,
             listen := if n = 0 then none else some (firstPerGroup (readListen n.toNat items)),
             talk := readTalk present talk }
    else none
  | _ => none

/-- An ORDER RESULT that can be read. -/
structure OrderResult where
  slot : Nat
  acknowledged : Bool
deriving DecidableEq, Repr

/-- The body of an ORDER RESULT: slot at most 23, result 0 or 1 (R104, R185). -/
def orderResultBody : List Byte → Option OrderResult
  | slot :: result :: _ =>
    if slot.toNat < slotCount ∧ (result = 0 ∨ result = 1) then
      some { slot := slot.toNat, acknowledged := result = 0 }
    else none
  | _ => none

/-- The five reports, read from their whole records: kind 01h to 05h, body length, body (section 12.3). -/
def readCycleMark (record : List Byte) : Option (BitVec 16) := (airBody 0x01 record).bind cycleMarkBody
def readSlotReport (record : List Byte) : Option SlotReport := (airBody 0x02 record).bind slotReportBody
def readSurveyReport (record : List Byte) : Option SurveyReport := (airBody 0x03 record).bind surveyReportBody
def readSeekCall (record : List Byte) : Option SeekCall := (airBody 0x04 record).bind seekCallBody
def readOrderResult (record : List Byte) : Option OrderResult := (airBody 0x05 record).bind orderResultBody

/-! ## Matrix link records (R163) -/

/-- What the check of an inbound matrix record finds. -/
inductive RecordCheck where
  /-- The CRC does not match: discarded and counted. -/
  | badCrc
  /-- The CRC matches and the kind or a length does not: discarded without a count. -/
  | discarded
  | sound (body : List Byte)
deriving DecidableEq, Repr

/-- The check of R163 on a record, for a kind whose body is `need` bytes: the last two bytes are its CRC, over every byte
before them; then the kind byte must be `kind`, and the body length field and the body received must both be `need` bytes.
A record of fewer than two bytes has no two bytes to read as a CRC and counts as damaged (assumption 15). A sound record
of another kind is discarded where its kind is none of the five, and is another row's where it is (assumption 2). -/
def checkRecord (kind : Byte) (need : Nat) (record : List Byte) : RecordCheck :=
  let covered := record.take (record.length - 2)
  match record.drop (record.length - 2) with
  | [hi, lo] =>
    if crc16 covered = word16 hi lo then
      match covered with
      | k :: lenHi :: lenLo :: body =>
        if k = kind ∧ (word16 lenHi lenLo).toNat = need ∧ body.length = need then .sound body else .discarded
      | _ => .discarded
    else .badCrc
  | _ => .badCrc

/-- Samples of two bytes each, in order (section 12.2). -/
def readSamples : List Byte → List Sample
  | hi :: lo :: rest => word16 hi lo :: readSamples rest
  | _ => []

/-! ## Trunk payloads (R184) -/

/-- HOLD: length 1, a time above 64 taken as 64 (R161, R184). -/
def readHold : List Byte → Option Nat
  | [time] => some (min 64 time.toNat)
  | _ => none

/-- TAKEN: headset, handover count, previous holder with 0 and 255 read as none (R184). -/
def readTaken : List Byte → Option (Headset × Nat × Option Node)
  | [a, b, c, d, count, previous] =>
    if isIdentity (word32 a b c d) then
      some (word32 a b c d, count.toNat, if previous = 0 ∨ previous = 255 then none else some previous)
    else none
  | _ => none

/-- CLAIM: kind byte 0 or 1, an identity; a claim score above 90 taken as 90 (R184). -/
def readClaim : List Byte → Option ClaimBody
  | [a, b, c, d, tag, kind, score, channel, slot] =>
    if (kind = 0 ∨ kind = 1) ∧ isIdentity (word32 a b c d) then
      some { headset := word32 a b c d, tag := tag, kind := if kind = 1 then .seek else .normal,
             score := min 90 score.toNat, channel := channel.toNat, slot := slot.toNat }
    else none
  | _ => none

/-- The reason of a reason byte; outside 1..4 it is NOT_SERVED (R65, R184). -/
def readReason (b : Byte) : Reason :=
  if b = 2 then .busy else if b = 3 then .settling else if b = 4 then .notOffered else .notServed

/-- DECLINE: headset, claim tag, reason (R184). -/
def readDecline : List Byte → Option (Headset × Tag × Reason)
  | [a, b, c, d, tag, reason] =>
    if isIdentity (word32 a b c d) then some (word32 a b c d, tag, readReason reason) else none
  | _ => none

/-- YIELD: 10 + 2n bytes with n in 0..4 its own listen count; the sequence modulo 64 (R184). -/
def readYield : List Byte → Option Context
  | a :: b :: c :: d :: tag :: seq :: count :: n :: present :: talk :: items =>
    if n.toNat ≤ 4 ∧ items.length = 2 * n.toNat ∧ isIdentity (word32 a b c d) then
      some { headset := word32 a b c d, tag := tag, expected := seq.setWidth 6, count := count.toNat,
             listen := readListen n.toNat items, talk := readTalk present talk }
    else none
  | _ => none

/-- The namings of 11 bytes each: a score above 90 taken as 90, a group count above 4 as 4 (R184, section 12.1). -/
def readNamings : Nat → List Byte → List Naming
  | n + 1, a :: b :: c :: d :: score :: flags :: count :: g0 :: g1 :: g2 :: g3 :: rest =>
    { headset := word32 a b c d, score := min 90 score.toNat, offered := flags.getLsbD 7, count := count.toNat,
      groups := [g0, g1, g2, g3].take (min 4 (flags.toNat % 8)) } :: readNamings n rest
  | _, _ => []

/-- STANDING: 1 + 11e bytes with e in 1..4; a naming that names no identity is skipped (R184). -/
def readStanding : List Byte → Option (List Naming)
  | e :: rest =>
    if 1 ≤ e.toNat ∧ e.toNat ≤ 4 ∧ rest.length = 11 * e.toNat then
      some ((readNamings e.toNat rest).filter fun n => isIdentity n.headset)
    else none
  | _ => none

end Sys2Proof.Machine
end

