-- ==== Sys2Proof/Machine/Scores.lean ====
section
/-! DEFINITION. The link quality arithmetic, from reported level to claim decision (chapter Link Quality Scores). -/

namespace Sys2Proof.Machine

/-- The kinds of report that make a sample (R25). -/
inductive SampleKind where
  | frame
  | erroredReport
  | silentReport
  | good
  | seekCall
deriving DecidableEq, Repr

/-- The level clamped into −110..−20 (R25). -/
def clampLevel (level : Int) : Int := max (-110) (min (-20) level)

/-- The sample value s of a report, 0..90 (R25). -/
def sampleValue (kind : SampleKind) (level : Int) : Nat :=
  match kind with
  | .silentReport => 0
  | .erroredReport => (clampLevel level + 110 - 12).toNat
  | .frame | .good | .seekCall => (clampLevel level + 110).toNat

/-- The step of R26 for a difference d: d over 2^k truncated toward zero, at least one toward the target. -/
def smoothStep (k : Nat) (d : Int) : Int :=
  let step := d.tdiv (2 ^ k)
  if step = 0 then d.sign else step

/-- Q after a sample s with smoothing shift k (R26). -/
def smooth (k q s : Nat) : Nat := ((q : Int) + smoothStep k (16 * (s : Int) - (q : Int))).toNat

/-- Q seeded from a sample (R27). -/
def seeded (s : Nat) : Nat := 16 * s

/-- The reported score of Q: a sixteenth, rounded with halves up (R28). -/
def reported (q : Nat) : Nat := (q + 8) / 16

/-- The claim score: R plus the bias, clamped into 0..90 (R29). -/
def claimScore (r : Nat) (bias : Int) : Nat := (max 0 (min 90 ((r : Int) + bias))).toNat

/-- The neighbour item of a node: the earliest that names it decides (R44). -/
def Settings.neighbour (cfg : Settings) (n : Node) : Option Neighbour :=
  cfg.neighbours.find? fun i => i.node = n

/-- Whether a node is a neighbour (R44). -/
def Settings.isNeighbour (cfg : Settings) (n : Node) : Bool := (cfg.neighbour n).isSome

/-- The claim score of a survey entry against its serving node: absent where there is no knowledge or its node is no
neighbour (R29). -/
def SurveyEntry.claimScore (cfg : Settings) (e : SurveyEntry) : Option Nat := do
  let k ← e.knowledge
  let n ← cfg.neighbour k.node
  return Machine.claimScore e.r n.bias

/-- The candidate test: knowledge with R_s from a neighbour, and a claim score of at least R_s + H (R30). -/
def SurveyEntry.candidate (cfg : Settings) (e : SurveyEntry) : Bool :=
  match e.knowledge, e.claimScore cfg with
  | some k, some score =>
    match k.score with
    | some rs => decide (rs + cfg.hysteresis ≤ score)
    | none => false
  | _, _ => false

/-- The candidate test made and dwell updated (R30). -/
def SurveyEntry.testDwell (cfg : Settings) (e : SurveyEntry) : SurveyEntry :=
  { e with dwell := if e.candidate cfg then min 15 (e.dwell + 1) else 0 }

/-- A sample of a survey entry: Q, R, last heard, then the candidate test and dwell (R24, R39, R40). -/
def SurveyEntry.sample (cfg : Settings) (s : Nat) (e : SurveyEntry) : SurveyEntry :=
  let q := smooth cfg.k e.q s
  SurveyEntry.testDwell cfg { e with q := q, r := reported q, lastHeard := 0 }

/-- A new survey entry with a given Q: no knowledge, no claim, dwell, pacing and hold-off 0 (R39, R84). -/
def SurveyEntry.fresh (h : Headset) (q : Nat) : SurveyEntry :=
  { headset := h, q := q, r := reported q, lastHeard := 0, dwell := 0, pacing := 0, holdOff := 0, knowledge := none,
    claim := none }

/-- A sample smoothed into a serve entry (R36). -/
def ServeEntry.sample (cfg : Settings) (s : Nat) (e : ServeEntry) : ServeEntry :=
  let q := smooth cfg.k e.q s
  { e with q := q, r := reported q }

/-- A serve entry's Q seeded from a seek call (R27, R36). -/
def ServeEntry.reseed (s : Nat) (e : ServeEntry) : ServeEntry :=
  { e with q := seeded s, r := reported (seeded s) }

/-- The offered test of R10. -/
def ServeEntry.offeredTest (cfg : Settings) (e : ServeEntry) : ServeEntry :=
  match e.state with
  | .served => if e.r < cfg.floor then { e with state := .offered, offerChanged := true } else e
  | .offered => if cfg.floor + 4 ≤ e.r then { e with state := .served, offerChanged := true } else e
  | _ => e

/-- The score conditions of R31 other than those that concern other blocks: dwell, pacing, R_s, offered or override. -/
def SurveyEntry.bidWarranted (cfg : Settings) (e : SurveyEntry) : Bool :=
  match e.knowledge, e.claimScore cfg with
  | some k, some score =>
    match k.score with
    | some rs =>
      decide (cfg.dwellNeed ≤ e.dwell) && e.pacing == 0 && (k.offered || decide (rs + cfg.margin ≤ score)) &&
        k.groups.isSome
    | none => false
  | _, _ => false

/-- The serving-side check of R33: an OFFERED entry makes none, a SERVED one needs R + M. -/
def ServeEntry.scoreAdmits (cfg : Settings) (score : Nat) (e : ServeEntry) : Bool :=
  e.state == .offered || decide (e.r + cfg.margin ≤ score)

/-- Admission of a headset: the earliest item that names it, else the default policy (R43). -/
def Settings.permits (cfg : Settings) (h : Headset) : Bool :=
  match cfg.admissions.find? fun a => a.headset = h with
  | some a => a.permit
  | none => cfg.permitDefault

/-- The default block of a headset (R43). -/
def Settings.defaultsFor (cfg : Settings) (h : Headset) : DefaultBlock :=
  match cfg.admissions.find? fun a => a.headset = h with
  | some a => a.block.getD cfg.defaults
  | none => cfg.defaults

end Sys2Proof.Machine
end

