-- ==== Sys2Proof/Machine/Ops.lean ====
section
/-! DEFINITION. The named operations over the state of one block: the slot map and orders of APC, the rings and the
group store of VP, the queues of TQU, the serve table and the survey list of RE. -/

namespace Sys2Proof.Machine

/-! ## One block of the whole state -/

def State.onCfl (f : Cfl → Cfl) (s : State) : State := { s with cfl := f s.cfl }
def State.onRe (f : Re → Re) (s : State) : State := { s with re := f s.re }
def State.onApc (f : Apc → Apc) (s : State) : State := { s with apc := f s.apc }
def State.onVp (f : Vp → Vp) (s : State) : State := { s with vp := f s.vp }
def State.onTqu (f : Tqu → Tqu) (s : State) : State := { s with tqu := f s.tqu }
def State.onTlc (f : Tlc → Tlc) (s : State) : State := { s with tlc := f s.tlc }

/-- What a rule does while the node is in RUN, with the loaded configuration; nothing in any other node state. -/
def State.whenRun (s : State) (f : Settings → State → State) : State :=
  match s.cfl.node, s.cfl.config with
  | .run, some cfg => f cfg s
  | _, _ => s

/-! ## Slot map and orders (chapter Air Port) -/

/-- The item of an air slot; a number that is no slot reads as FREE. -/
def Apc.slot (a : Apc) (k : Nat) : AirSlot := (a.slots[k]?).getD AirSlot.cold

/-- Whether a slot is ASSIGNED (R99). -/
def SlotState.isAssigned : SlotState → Bool
  | .assigned _ => true
  | .free | .reserved _ => false

/-- Send a record to the front end, behind those sent before it (R108). -/
def Apc.send (o : AirOrder) (a : Apc) : Apc := { a with out := a.out ++ [o.bytes] }

/-- The lowest-numbered FREE slot (R4, R99). -/
def Apc.lowestFree (a : Apc) : Option Nat := a.slots.findIdx? fun x => x.state == .free

/-- Mark a slot RESERVED with a claim's tag (R99). -/
def Apc.reserve (k : Nat) (tag : Tag) (a : Apc) : Apc :=
  { a with slots := a.slots.modify k fun x => { x with state := .reserved tag } }

/-- A release asked for a slot and tag: FREE where RESERVED with that tag, else refused (R100). -/
def Apc.release (k : Nat) (tag : Tag) (a : Apc) : Apc :=
  if (a.slot k).state = .reserved tag then { a with slots := a.slots.modify k fun x => { x with state := .free } }
  else a

/-- An assignment: ASSIGNED with SLOT ASSIGN sent where RESERVED with the tag, else refused (R100). -/
def Apc.assign (k : Nat) (tag : Tag) (h : Headset) (a : Apc) : Apc :=
  if (a.slot k).state = .reserved tag then
    Apc.send (.slotAssign k h) { a with slots := a.slots.modify k fun x => { x with state := .assigned h } }
  else a

/-- A close: an ASSIGNED slot becomes FREE, its order is discarded and SLOT CLOSE is sent (R101). -/
def Apc.close (k : Nat) (a : Apc) : Apc :=
  if (a.slot k).state.isAssigned then
    Apc.send (.slotClose k) { a with slots := a.slots.modify k fun _ => AirSlot.cold }
  else a

/-- A request for an order on a slot, taken where the slot is ASSIGNED without a pending order, else refused (R105). -/
def Apc.order (k : Nat) (kind : OrderKind) (o : AirOrder) (a : Apc) : Option Apc :=
  if (a.slot k).state.isAssigned ∧ (a.slot k).order = none then
    some (Apc.send o { a with slots := a.slots.modify k fun x => { x with order := some { kind := kind, age := 0 } } })
  else none

/-- The pending order of a slot removed (R106). -/
def Apc.endOrder (k : Nat) (a : Apc) : Apc :=
  { a with slots := a.slots.modify k fun x => { x with order := none } }

/-- A DOWNLINK FRAME is sent where its slot is ASSIGNED and discarded otherwise (R107). -/
def Apc.downlink (k : Nat) (samples : List Sample) (a : Apc) : Apc :=
  if (a.slot k).state.isAssigned then a.send (.downlinkFrame k samples) else a

/-- The sweep at the entry to JOINING: SLOT CLOSE for each slot in slot order (R109). -/
def Apc.sweep (a : Apc) : Apc :=
  { a with out := a.out ++ (List.range slotCount).map fun k => (AirOrder.slotClose k).bytes }

/-! ## Group store and listen mask (R121 to R124) -/

/-- The bin of a group: g XOR (g shifted right by 3), modulo 64 (R124). -/
def binOf (g : Group) : Nat := (g ^^^ (g >>> 3)).toNat % 64

/-- The mask with a bin set exactly when some stored group maps to it (R124). -/
def maskOf (store : List StoredGroup) : BitVec 64 :=
  store.foldr (fun e m => m ||| (1#64 <<< binOf e.group)) 0

/-- VP with a new store, the mask recomputed (R124). -/
def Vp.withStore (store : List StoredGroup) (v : Vp) : Vp := { v with store := store, mask := maskOf store }

/-- The store entry of a group. -/
def Vp.find (v : Vp) (g : Group) : Option StoredGroup := v.store.find? fun e => e.group = g

/-- Whether a group is stored. -/
def Vp.stored (v : Vp) (g : Group) : Bool := (v.find g).isSome

/-- An acquire: the count of a stored group rises, a new group is created while fewer than 12 are stored, and is
refused otherwise (R121). -/
def Vp.acquire (g : Group) (v : Vp) : Option Vp :=
  if v.stored g then
    some (v.withStore (v.store.map fun e => if e.group = g then { e with refs := e.refs + 1 } else e))
  else if v.store.length < storeCapacity then
    some (v.withStore (v.store ++ [{ group := g, refs := 1, current := none, lastSeq := none }]))
  else none

/-- A release: the count falls, and an entry whose count reaches 0 is removed (R121). -/
def Vp.release (g : Group) (v : Vp) : Vp :=
  v.withStore (v.store.filterMap fun e =>
    if e.group = g then (if e.refs ≤ 1 then none else some { e with refs := e.refs - 1 }) else some e)

/-- One release for each group of a list. -/
def Vp.releaseAll (gs : List Group) (v : Vp) : Vp := gs.foldl (fun v g => v.release g) v

/-- One acquire for each group of a list whose fit has been found (R122). -/
def Vp.acquireAll (gs : List Group) (v : Vp) : Vp := gs.foldl (fun v g => (v.acquire g).getD v) v

/-- Whether a set of groups fits: those not stored are no more than the free places (R122). -/
def Vp.fits (v : Vp) (gs : List Group) : Bool :=
  decide (((distinctGroups gs).filter fun g => !v.stored g).length ≤ storeCapacity - v.store.length)

/-- Step 3 of R123: walk the list, taking over held references and acquiring others, up to the first refusal. Answers
the store, the items kept and the items cut off. -/
def fitWalk (held : List Group) : List ListenItem → Vp → Vp × List ListenItem × List ListenItem
  | [], v => (v, [], [])
  | i :: is, v =>
    if i.group ∈ held then
      let w := fitWalk held is v
      (w.1, i :: w.2.1, w.2.2)
    else
      match v.acquire i.group with
      | some v' =>
        let w := fitWalk held is v'
        (w.1, i :: w.2.1, w.2.2)
      | none => (v, [], i :: is)

/-- What a fit answers: the store, the list kept, and whether an item was dropped. -/
structure Fit where
  vp : Vp
  kept : List ListenItem
  dropped : Bool
deriving DecidableEq, Repr

/-- The exchange of R123 of held references for those of a new listen list. -/
def Vp.fit (held : List Group) (list : List ListenItem) (v : Vp) : Fit :=
  let new := firstPerGroup list
  let named := new.map ListenItem.group
  let w := fitWalk held new (v.releaseAll (held.filter fun g => !named.contains g))
  { vp := w.1.releaseAll ((w.2.2.map ListenItem.group).filter fun g => held.contains g)
    kept := w.2.1
    dropped := !w.2.2.isEmpty }

/-! ## Rebuild rings (R111 to R117) -/

/-- An empty ring, not playing (R112). -/
def Ring.start (expected : Option Seq) : Ring := { frames := [], expected := expected, playing := false }

/-- The fill limit L: 2 for SHORT, 6 for FULL (R115, R129). -/
def Settings.fillLimit (cfg : Settings) : Nat := if cfg.fullFill then 6 else 2

/-- A silence frame (R111). -/
def silenceFrame (cfg : Settings) : VoiceFrame := { payload := List.replicate 40 cfg.silence, silence := true }

/-- What placing a frame does: the ring after it, and what is counted. -/
structure Placement where
  ring : Ring
  silence : Nat
  overruns : Nat
  misinserted : Nat
deriving DecidableEq, Repr

/-- Frames appended one after another to a ring of at most 8, the oldest pushed out (R117). -/
def Ring.append (fs : List VoiceFrame) (r : Ring) : Ring :=
  { r with frames := (r.frames ++ fs).drop (r.frames.length + fs.length - ringCapacity) }

/-- A good frame with sequence q placed in a ring (R114, R115, R116, R117). -/
def Ring.place (cfg : Settings) (q : Seq) (payload : List Byte) (r : Ring) : Placement :=
  let n := (q - r.expected.getD q).toNat
  if n ≤ 31 then
    let fill := min n cfg.fillLimit
    let fs := List.replicate fill (silenceFrame cfg) ++ [{ payload := payload, silence := false }]
    { ring := { r.append fs with expected := some (q + 1) }
      silence := fill
      overruns := r.frames.length + fs.length - ringCapacity
      misinserted := 0 }
  else { ring := r, silence := 0, overruns := 0, misinserted := 1 }

/-- What a placement counts (R115, R116, R117). -/
def Mlc.countPlacement (p : Placement) (m : Mlc) : Mlc :=
  ((m.countMany .silenceInserted p.silence).countMany .ringOverruns p.overruns).countMany .misinserted p.misinserted

/-! ## Transmit queues (R148 to R155) -/

/-- A message as it is queued: failure count 0, not in hand. -/
def Queued.new (cls : TxClass) (body : Body) (destination : Node) : Queued :=
  { cls := cls, body := body, destination := destination, failures := 0, inHand := false, replaced := false }

/-- The destination of a broadcast (R132). -/
def broadcast : Node := 255

def Tqu.urgentRoom (t : Tqu) : Bool := decide (t.urgent.length < urgentDepth)
/-- Room in HANDOVER: occupancy plus reply reservations below 6 (R148, R158). -/
def Tqu.handoverRoom (t : Tqu) : Bool := decide (t.handover.length + t.reservations < handoverDepth)
def Tqu.reportRoom (t : Tqu) : Bool := decide (t.report.length < reportDepth)

/-- Apply a change to the queue of a class. -/
def Tqu.onQueue (c : TxClass) (f : List Queued → List Queued) (t : Tqu) : Tqu :=
  match c with
  | .flow => { t with flow := f t.flow }
  | .urgent => { t with urgent := f t.urgent }
  | .handover => { t with handover := f t.handover }
  | .report => { t with report := f t.report }

/-- The queue of a class. -/
def Tqu.queue (t : Tqu) : TxClass → List Queued
  | .flow => t.flow
  | .urgent => t.urgent
  | .handover => t.handover
  | .report => t.report

/-- A message joins the newest end of its class's queue (R148). -/
def Tqu.push (m : Queued) (t : Tqu) : Tqu := t.onQueue m.cls (· ++ [m])

/-- Whether a message is the CLAIM of a headset under a tag. -/
def Body.isClaimOf (h : Headset) (tag : Tag) : Body → Bool
  | .claim c => c.headset == h && c.tag == tag
  | _ => false

/-- Whether a message is a SEEK CLAIM (R82). -/
def Body.isSeekClaim : Body → Bool
  | .claim c => c.kind == .seek
  | _ => false

/-- RE's removal of a queued CLAIM, in hand or not (R155). -/
def Tqu.dropClaim (h : Headset) (tag : Tag) (t : Tqu) : Tqu :=
  { t with
    urgent := t.urgent.filter fun m => !m.body.isClaimOf h tag
    handover := t.handover.filter fun m => !m.body.isClaimOf h tag }

/-- A HOLD queued: it joins an empty FLOW queue, or replaces the time of the HOLD that waits there (R152). -/
def Tqu.queueHold (time : Nat) (t : Tqu) : Tqu :=
  match t.flow with
  | [] => { t with flow := [Queued.new .flow (.hold time) broadcast] }
  | m :: ms => { t with flow := { m with body := .hold time, failures := 0, replaced := m.inHand } :: ms }

/-- The pool's free count (R156). -/
def Tqu.freeCount (t : Tqu) : Nat := poolCapacity - t.pool.length

/-- A placement or an expiry that finds the pool congested queues HOLD(T) and starts the own timer (R160). -/
def Tqu.holdOnset (cfg : Settings) (t : Tqu) : Tqu :=
  if t.freeCount ≤ cfg.holdThreshold ∧ t.ownHold = 0 then { t.queueHold cfg.holdQuanta with ownHold := cfg.holdQuanta }
  else t

/-- The hold timer of a node: that of the earliest item that names it, 0 where none does (R44, R161). -/
def Tqu.holdOf (cfg : Settings) (t : Tqu) (n : Node) : Nat :=
  match cfg.neighbours.findIdx? fun i => i.node = n with
  | some k => (t.neighbourHolds[k]?).getD 0
  | none => 0

/-- Set the hold timer of a neighbour (R161). -/
def Tqu.setHold (cfg : Settings) (n : Node) (time : Nat) (t : Tqu) : Tqu :=
  match cfg.neighbours.findIdx? fun i => i.node = n with
  | some k => { t with neighbourHolds := t.neighbourHolds.set k time }
  | none => t

/-- Whether a queued message is eligible (R150). -/
def Tqu.eligible (cfg : Settings) (t : Tqu) (m : Queued) : Bool :=
  match m.cls with
  | .flow | .urgent => true
  | .handover => t.holdOf cfg m.destination == 0
  | .report => t.neighbourHolds.all (· == 0)

/-- The message TQU offers: the oldest eligible one of the lowest class that holds one (R149). -/
def Tqu.select (cfg : Settings) (t : Tqu) : Option Queued :=
  (t.flow ++ t.urgent ++ t.handover ++ t.report).find? (t.eligible cfg)

/-- The first message of a list that `p` holds of, changed by `f`. -/
def changeFirst (p : Queued → Bool) (f : Queued → Queued) : List Queued → List Queued
  | [] => []
  | m :: ms => if p m then f m :: ms else m :: changeFirst p f ms

/-- The first message of a list that `p` holds of, removed. -/
def removeFirst (p : Queued → Bool) : List Queued → List Queued
  | [] => []
  | m :: ms => if p m then ms else m :: removeFirst p ms

/-! ## Serve table and survey list (R1, R38, R41) -/

/-- The entry that holds an air slot (R1). -/
def State.entryAt (s : State) (slot : Nat) : Option ServeEntry := s.re.serve.find? fun e => e.slot = slot

/-- The entry of a headset (R1). -/
def State.entryFor (s : State) (h : Headset) : Option ServeEntry := s.re.serve.find? fun e => e.headset = h

/-- Change the entry at a slot. -/
def State.updateEntry (slot : Nat) (f : ServeEntry → ServeEntry) (s : State) : State :=
  s.onRe fun r => { r with serve := r.serve.map fun e => if e.slot = slot then f e else e }

/-- Take the entry at a slot out of the table. -/
def State.removeEntry (slot : Nat) (s : State) : State :=
  s.onRe fun r => { r with serve := r.serve.filter fun e => e.slot != slot }

/-- An entry put into a list kept in slot order (assumption 17). -/
def insertBySlot (e : ServeEntry) : List ServeEntry → List ServeEntry
  | [] => [e]
  | x :: xs => if e.slot ≤ x.slot then e :: x :: xs else x :: insertBySlot e xs

def State.insertEntry (e : ServeEntry) (s : State) : State :=
  s.onRe fun r => { r with serve := insertBySlot e r.serve }

/-- The survey entry of a headset (R38). -/
def State.surveyFor (s : State) (h : Headset) : Option SurveyEntry := s.re.survey.find? fun e => e.headset = h

/-- Change the survey entry of a headset. -/
def State.updateSurvey (h : Headset) (f : SurveyEntry → SurveyEntry) (s : State) : State :=
  s.onRe fun r => { r with survey := r.survey.map fun e => if e.headset = h then f e else e }

/-- Take a headset out of the survey list. -/
def State.removeSurvey (h : Headset) (s : State) : State :=
  s.onRe fun r => { r with survey := r.survey.filter fun e => e.headset != h }

/-- Whether one survey entry is a weaker holder of its place than another: lower R, then greater last heard, then
lower identity (R41). -/
def SurveyEntry.weaker (a b : SurveyEntry) : Bool :=
  decide (a.r < b.r) || (a.r == b.r &&
    (decide (b.lastHeard < a.lastHeard) || (a.lastHeard == b.lastHeard && decide (a.headset.toNat < b.headset.toNat))))

/-- The victim of R41 among entries that hold no claim record. -/
def victim : List SurveyEntry → Option SurveyEntry
  | [] => none
  | e :: es =>
    if e.claim.isSome then victim es
    else
      match victim es with
      | none => some e
      | some v => some (if e.weaker v then e else v)

/-- A newcomer entered where there is room, or in the place of a victim of lower R; otherwise dropped (R39, R41). -/
def enterSurveyList (new : SurveyEntry) (survey : List SurveyEntry) : List SurveyEntry :=
  if survey.length < surveyCapacity then survey ++ [new]
  else
    match victim survey with
    | some v => if v.r < new.r then (survey.filter fun e => e.headset != v.headset) ++ [new] else survey
    | none => survey

def State.enterSurvey (new : SurveyEntry) (s : State) : State :=
  s.onRe fun r => { r with survey := enterSurveyList new r.survey }

/-- Claim records that stand (R48). -/
def Re.claimsOutstanding (r : Re) : Nat := (r.survey.filter fun e => e.claim.isSome).length

/-- A claim tag taken from the rolling claim counter (R50). -/
def State.advanceTag (s : State) : State := s.onRe fun r => { r with claimCounter := r.claimCounter + 1 }

end Sys2Proof.Machine
end

