-- ==== Sys2Proof/Machine/Entries.lean ====
section
/-! DEFINITION. What RE does to serve entries and claims: release, loss, departure, the end of a claim, arrival, the
YIELD owed to a seek winner, and the queueing of TAKEN. Each is written once here and shared by the commands. -/

namespace Sys2Proof.Machine

/-! ## Ends -/

/-- Every change of an entry to FREE: slot closed, ring and fields gone, references released, an outstanding reclaim
withdrawn from the URGENT queue (R3). -/
def State.releaseEntry (slot : Nat) (s : State) : State :=
  match s.entryAt slot with
  | none => s
  | some e =>
    let s := (s.onApc (Apc.close slot)).onVp (Vp.releaseAll (e.listen.map ListenItem.group))
    let s :=
      match e.state, e.tag with
      | .lost, some tag => s.onTqu (Tqu.dropClaim e.headset tag)
      | _, _ => s
    s.removeEntry slot

/-- A release with notice DEPARTED and a departure counted (R9, R20, R92). -/
def State.departEntry (slot : Nat) (s : State) : State :=
  match s.entryAt slot with
  | none => s
  | some e => ((s.releaseEntry slot).notify (.departed e.headset)).count .departures

/-- The claim record of a headset removed: slot freed, references released, the CLAIM taken out of its queue, dwell 0 (R49). -/
def State.endClaim (h : Headset) (s : State) : State :=
  match (s.surveyFor h).bind SurveyEntry.claim with
  | none => s
  | some c =>
    (((s.onApc (Apc.release c.slot c.tag)).onVp (Vp.releaseAll c.groups)).onTqu (Tqu.dropClaim h c.tag)).updateSurvey h
      fun e => { e with claim := none, dwell := 0 }

/-- A NORMAL claim that fails: its record ends and pacing is loaded with 31 (R34, R49). -/
def State.failClaim (h : Headset) (s : State) : State :=
  (s.endClaim h).updateSurvey h fun e => { e with pacing := fullPacing }

/-- Serving knowledge removed, dwell 0 (R30, R47). -/
def SurveyEntry.forget (e : SurveyEntry) : SurveyEntry := { e with knowledge := none, dwell := 0 }

/-- A SEEK claim withdrawn and counted as a seek loss (R86). -/
def State.withdrawSeek (h : Headset) (s : State) : State := (s.endClaim h).count .seekLosses

/-! ## Loss -/

/-- The entry as it is in LOST (R12, R20, R112): rescue timer W, no handing record, ring playing. -/
def ServeEntry.toLost (cfg : Settings) (e : ServeEntry) : ServeEntry :=
  { e with state := .lost, rescueTimer := some cfg.rescueWindow, handing := none, lossRun := 0, heard := false,
           ring := { e.ring with playing := true } }

/-- An entry enters LOST with notice LOST (R20). -/
def State.enterLost (cfg : Settings) (slot : Nat) (s : State) : State :=
  match s.entryAt slot with
  | none => s
  | some e => (s.updateEntry slot (ServeEntry.toLost cfg)).notify (.lost e.headset)

/-- The state an entry returns to from HANDING: OFFERED where R is below F, else SERVED, without the band (R10). -/
def ServeEntry.fromHanding (cfg : Settings) (e : ServeEntry) : ServeEntry :=
  if e.r < cfg.floor then { e with state := .offered, offerChanged := true, handing := none, lossRun := 0 }
  else { e with state := .served, handing := none, lossRun := 0 }

/-- A revert: the entry returns from HANDING and notice REVERTED names the claimant (R17). -/
def State.revert (cfg : Settings) (slot : Nat) (s : State) : State :=
  match s.entryAt slot with
  | some e =>
    match e.handing with
    | some rec => (s.updateEntry slot (ServeEntry.fromHanding cfg)).notify (.reverted e.headset rec.claimant)
    | none => s
  | none => s

/-! ## SEEK ANSWER -/

/-- A request to APC for a SEEK ANSWER with the node's air channel; a refusal changes nothing (R88, R105). -/
def State.askAnswer (cfg : Settings) (h : Headset) (slot : Nat) (s : State) : State :=
  s.onApc fun a => (a.order slot .answer (.seekAnswer h cfg.channel slot)).getD a

/-! ## Entry into the serve table -/

/-- What differs between an arrival after a YIELD and one after a won seek (table of R6). -/
structure ArrivalTerms where
  origin : Origin
  listen : List ListenItem
  talk : Option Group
  count : Nat
  timer : Nat
  previous : Option Node
  expected : Option Seq
deriving DecidableEq, Repr

/-- The ARRIVING entry that a survey entry with a claim becomes (R6, R112). -/
def arrivingEntry (e : SurveyEntry) (c : ClaimRecord) (t : ArrivalTerms) (kept : List ListenItem) : ServeEntry :=
  { headset := e.headset, state := .arriving, slot := c.slot, listen := kept, talk := t.talk, q := e.q,
    r := reported e.q, heard := false, lossRun := 0, settle := 0, count := t.count, lastReported := 0,
    offerChanged := false, origin := some t.origin, tag := some c.tag, arrivalTimer := some t.timer,
    rescueTimer := none, handing := none, yieldOwed := none, previous := t.previous, ring := Ring.start t.expected }

/-- A claim that succeeds: its slot becomes ASSIGNED, its references are exchanged for those of the list, the survey
entry leaves the list and the headset's entry is ARRIVING (R6, R49, R66, R87). A CLAIM still queued is removed (R60, R89). -/
def State.enterServe (e : SurveyEntry) (c : ClaimRecord) (t : ArrivalTerms) (s : State) : State :=
  let fit := s.vp.fit c.groups t.listen
  let s := (s.onApc (Apc.assign c.slot c.tag e.headset)).onVp fun _ => fit.vp
  let s := ((s.onTqu (Tqu.dropClaim e.headset c.tag)).removeSurvey e.headset).insertEntry (arrivingEntry e c t fit.kept)
  if fit.dropped then s.count .groupDrops else s

/-- The listen list and talk group of a won seek: the call's where it carried them, else the admission defaults (R87). -/
def seekContext (cfg : Settings) (h : Headset) (c : ClaimRecord) : List ListenItem × Option Group :=
  match c.callListen with
  | some listen => (listen, c.callTalk)
  | none =>
    let d := cfg.defaultsFor h
    (d.listen, if c.callTalk.isSome then c.callTalk else d.talk)

/-- A SEEK claim of a survey entry that wins: ARRIVING of origin SEEK, SLOT ASSIGN then SEEK ANSWER, a seek win
counted (R87). -/
def State.winSeek (cfg : Settings) (e : SurveyEntry) (c : ClaimRecord) (s : State) : State :=
  let ctx := seekContext cfg e.headset c
  let s := s.enterServe e c
    { origin := .seek, listen := ctx.1, talk := ctx.2, count := 0, timer := cfg.seekWait, previous := none, expected := none }
  (s.askAnswer cfg e.headset c.slot).count .seekWins

/-- The entry as a won reclaim makes it (R13, R21, R112). -/
def ServeEntry.reclaimed (cfg : Settings) (e : ServeEntry) : ServeEntry :=
  { e with state := .arriving, origin := some .reclaim, rescueTimer := none, arrivalTimer := some cfg.seekWait,
           previous := some cfg.node, lastReported := 0, offerChanged := false, ring := Ring.start none }

/-- A reclaim that wins: LOST to ARRIVING, SEEK ANSWER for the entry's own slot, a seek win counted (R21, R92). -/
def State.winReclaim (cfg : Settings) (slot : Nat) (s : State) : State :=
  match s.entryAt slot with
  | none => s
  | some e => ((s.updateEntry slot (ServeEntry.reclaimed cfg)).askAnswer cfg e.headset slot).count .seekWins

/-! ## The YIELD owed to a seek winner (R90, R91) -/

/-- The context of an entry as it stands (R63). An entry whose ring has no expected sequence yet carries 0
(assumption 16). -/
def ServeEntry.context (tag : Tag) (e : ServeEntry) : Context :=
  { headset := e.headset, tag := tag, expected := e.ring.expected.getD 0, count := e.count, listen := e.listen,
    talk := e.talk }

/-- The end of a YIELD owed: release, notice LEFT, and a survey entry with the hold-off loaded (R91). -/
def State.concludeYield (cfg : Settings) (slot : Nat) (winner : Node) (s : State) : State :=
  match s.entryAt slot with
  | none => s
  | some e =>
    ((s.releaseEntry slot).notify (.left e.headset winner)).enterSurvey
      { SurveyEntry.fresh e.headset e.q with r := e.r, holdOff := cfg.seekWait }

/-- A YIELD owed to the sender of a SEEK CLAIM: queued in URGENT, or, where that has no room, dropped and counted with
the entry released at once (R90). -/
def State.oweYield (cfg : Settings) (slot : Nat) (winner : Node) (tag : Tag) (s : State) : State :=
  match s.entryAt slot with
  | none => s
  | some e =>
    if s.tqu.urgentRoom then
      (s.onTqu (Tqu.push (Queued.new .urgent (.yield (e.context tag)) winner))).updateEntry slot
        fun e => { e with yieldOwed := some { winner := winner, tag := tag } }
    else (s.count .droppedAtLimit).concludeYield cfg slot winner

/-! ## Reclaims that do not win (R92) -/

/-- The reclaim of a LOST entry is no longer outstanding. -/
def ServeEntry.endReclaim (e : ServeEntry) : ServeEntry := { e with tag := none }

/-- A reclaim ends undelivered or displaced: the entry stays LOST, or departs where its rescue timer has reached 0 (R20, R92). -/
def State.failReclaim (slot : Nat) (s : State) : State :=
  let s := s.updateEntry slot ServeEntry.endReclaim
  match s.entryAt slot with
  | some e => if e.rescueTimer = some 0 then s.departEntry slot else s
  | none => s

/-- A reclaim withdrawn for a rival: its SEEK CLAIM removed, a seek loss counted (R86, R92). -/
def State.withdrawReclaim (slot : Nat) (s : State) : State :=
  match s.entryAt slot with
  | some e =>
    match e.tag with
    | some tag => ((s.onTqu (Tqu.dropClaim e.headset tag)).updateEntry slot ServeEntry.endReclaim).count .seekLosses
    | none => s
  | none => s

/-- The serve entry whose outstanding reclaim a SEEK CLAIM is: LOST, with that headset and tag (R21, R80). -/
def State.reclaimOf (s : State) (h : Headset) (tag : Tag) : Option ServeEntry :=
  (s.entryFor h).filter fun e => e.state == .lost && e.tag == some tag

/-- The survey entry and claim record that a CLAIM of this node belongs to (R48). -/
def State.claimOf (s : State) (h : Headset) (tag : Tag) : Option (SurveyEntry × ClaimRecord) :=
  match s.surveyFor h with
  | some e => (e.claim.filter fun c => c.tag == tag).map fun c => (e, c)
  | none => none

/-- RE is told that one of its SEEK CLAIMs was removed to make room for a TAKEN: the claim or reclaim ends uncounted
(R86, R92, R153). -/
def State.seekDisplaced (c : ClaimBody) (s : State) : State :=
  match s.claimOf c.headset c.tag with
  | some _ => s.endClaim c.headset
  | none =>
    match s.reclaimOf c.headset c.tag with
    | some e => s.failReclaim e.slot
    | none => s

/-- Whether a queued message may give its place to a TAKEN: a SEEK CLAIM not in hand (R153). -/
def Queued.givesWay (m : Queued) : Bool := m.body.isSeekClaim && !m.inHand

/-- A TAKEN queued: in URGENT; where that is full, in the place of the oldest SEEK CLAIM not in hand; else in HANDOVER;
else dropped and counted (R153). -/
def State.queueTaken (h : Headset) (count : Nat) (previous : Option Node) (s : State) : State :=
  let taken := Body.taken h count previous
  let urgent := Queued.new .urgent taken broadcast
  if s.tqu.urgentRoom then s.onTqu (Tqu.push urgent)
  else
    match s.tqu.urgent.find? Queued.givesWay with
    | some m =>
      let s := s.onTqu fun t => Tqu.push urgent { t with urgent := removeFirst Queued.givesWay t.urgent }
      match m.body with
      | .claim c => s.seekDisplaced c
      | _ => s
    | none =>
      if s.tqu.handoverRoom then s.onTqu (Tqu.push (Queued.new .handover taken broadcast))
      else s.count .droppedAtLimit

/-! ## Voice frames at an entry -/

/-- A good frame goes to the ring where the entry has a talk group, and is dropped otherwise (R7, R113, R114). -/
def State.toRing (cfg : Settings) (slot : Nat) (q : Seq) (payload : List Byte) (s : State) : State :=
  match s.entryAt slot with
  | none => s
  | some e =>
    if e.talk.isSome then
      let p := e.ring.place cfg q payload
      (s.updateEntry slot fun e => { e with ring := p.ring }).onMlc (Mlc.countPlacement p)
    else s

/-- The entry as the arrival of R8 leaves it, before its frame goes to the ring: SERVED, settle loaded, the expected
sequence set from the frame where absent, the count raised for origin YIELD. -/
def ServeEntry.arrive (cfg : Settings) (q : Seq) (e : ServeEntry) : ServeEntry :=
  { e with state := .served, origin := none, arrivalTimer := none, tag := none, settle := cfg.settleTime, heard := true,
           lossRun := 0, lastReported := 0,
           ring := { e.ring with expected := some (e.ring.expected.getD q) },
           count := if e.origin = some .yield then min 255 (e.count + 1) else e.count }

/-- The first good frame of an ARRIVING entry, already scored (R8). -/
def State.arrival (cfg : Settings) (slot : Nat) (q : Seq) (payload : List Byte) (s : State) : State :=
  match s.entryAt slot with
  | none => s
  | some e =>
    let s := (s.updateEntry slot (ServeEntry.arrive cfg q)).toRing cfg slot q payload
    let s := if e.origin = some .yield then s.count .handoversIn else s
    let s := s.queueTaken e.headset (e.arrive cfg q).count e.previous
    (s.notify (.arrived e.headset e.previous)).updateEntry slot (ServeEntry.offeredTest cfg)

/-! ## Reclaims and seek claims begun by a call (R80, R81, R82) -/

/-- A SEEK CLAIM as RE queues it (R82). -/
def seekClaimBody (cfg : Settings) (h : Headset) (tag : Tag) (score slot : Nat) : Body :=
  .claim { headset := h, tag := tag, kind := .seek, score := score, channel := cfg.channel, slot := slot }

/-- A seek call with sample s at a LOST entry: a reclaim starts, or the call is smoothed in (R36, R80). -/
def State.callAtLost (cfg : Settings) (slot : Nat) (sample : Nat) (s : State) : State :=
  match s.entryAt slot with
  | none => s
  | some e =>
    if e.tag = none ∧ e.yieldOwed = none ∧ s.tqu.urgentRoom then
      let tag := s.re.claimCounter
      let body := seekClaimBody cfg e.headset tag (reported (seeded sample)) slot
      ((s.updateEntry slot fun e => { e.reseed sample with tag := some tag }).advanceTag).onTqu
        (Tqu.push (Queued.new .urgent body broadcast))
    else s.updateEntry slot (ServeEntry.sample cfg sample)

/-- The groups a SEEK claim reserves: the call's listen list, else the admission defaults (R81). -/
def seekGroups (cfg : Settings) (h : Headset) (listen : Option (List ListenItem)) : List Group :=
  distinctGroups ((listen.getD (cfg.defaultsFor h).listen).map ListenItem.group)

/-- The SEEK claim decision after a call was taken as a sample of a survey entry (R81). -/
def State.decideSeek (cfg : Settings) (call : SeekCall) (s : State) : State :=
  match s.surveyFor call.headset, s.apc.lowestFree with
  | some e, some slot =>
    let groups := seekGroups cfg call.headset call.listen
    if cfg.permits call.headset ∧ e.holdOff = 0 ∧ e.claim = none ∧ s.re.claimsOutstanding < claimCapacity ∧
        s.vp.fits groups ∧ s.tqu.urgentRoom then
      let tag := s.re.claimCounter
      let record : ClaimRecord :=
        { kind := .seek, tag := tag, slot := slot, groups := groups, phase := .queued, replyTimer := none,
          callListen := call.listen, callTalk := call.talk }
      let s := ((s.advanceTag).onApc (Apc.reserve slot tag)).onVp (Vp.acquireAll groups)
      (s.updateSurvey call.headset fun e => { e with claim := some record }).onTqu
        (Tqu.push (Queued.new .urgent (seekClaimBody cfg call.headset tag e.r slot) broadcast))
    else s
  | _, _ => s

/-! ## NORMAL claims begun by a survey report (R31, R59) -/

/-- The NORMAL claim decision and, where every condition of R31 holds, the claim of R59. -/
def State.decideNormal (cfg : Settings) (h : Headset) (s : State) : State :=
  match s.surveyFor h, s.apc.lowestFree with
  | some e, some slot =>
    match e.knowledge, e.claimScore cfg with
    | some k, some score =>
      let groups := distinctGroups (k.groups.getD [])
      if e.bidWarranted cfg ∧ cfg.permits h ∧ e.claim = none ∧ s.re.claimsOutstanding < claimCapacity ∧
          s.vp.fits groups ∧ s.re.listenIn = some 0 ∧ s.tqu.handoverRoom then
        let tag := s.re.claimCounter
        let record : ClaimRecord :=
          { kind := .normal, tag := tag, slot := slot, groups := groups, phase := .queued, replyTimer := none,
            callListen := none, callTalk := none }
        let body := Body.claim
          { headset := h, tag := tag, kind := .normal, score := score, channel := cfg.channel, slot := slot }
        let s := ((s.advanceTag).onApc (Apc.reserve slot tag)).onVp (Vp.acquireAll groups)
        (s.updateSurvey h fun e => { e with claim := some record }).onTqu
          (Tqu.push (Queued.new .handover body k.node))
      else s
    | _, _ => s
  | _, _ => s

/-! ## EVICT (R22, R168) -/

/-- RE's decision on an EVICT, answered from the headset's entry (R22). -/
def State.evict (h : Headset) (s : State) : State :=
  match s.entryFor h with
  | none => s.answer (.evictResult h .notServed)
  | some e =>
    match e.state with
    | .served | .offered | .lost =>
      ((s.releaseEntry e.slot).notify (.evicted h)).answer (.evictResult h .done)
    | .arriving | .handing => s.answer (.evictResult h .busy)
    | .draining => s.answer (.evictResult h .notServed)

/-! ## Duplicate service (R56) -/

/-- The comparison of R56: a LEFT release where the other node keeps the headset, nothing otherwise. -/
def State.resolveDuplicate (cfg : Settings) (h : Headset) (other : Node) (count : Nat) (s : State) : State :=
  match s.entryFor h with
  | none => s
  | some e =>
    if e.count < count ∨ (count = e.count ∧ other.toNat < cfg.node.toNat) then
      (((s.releaseEntry e.slot).count .duplicatesResolved).notify (.left h other))
    else s

/-! ## Rivals in the pool (R85) -/

/-- The messages of the pool whose point has not been reached (R159). -/
def Tqu.waiting (t : Tqu) : List Placed := if t.reached then t.pool.drop 1 else t.pool

/-- Whether a placed message is a SEEK CLAIM for a headset that RE will act on: of kind CLAIM, readable, kind SEEK, a
broadcast (R82, R184). -/
def Placed.isRival (h : Headset) (p : Placed) : Bool :=
  p.kind == 3 && p.destination == broadcast &&
    match readClaim p.payload with
    | some c => c.kind == .seek && c.headset == h
    | none => false

/-- Whether a rival's SEEK CLAIM for a headset waits in the pool (R85). -/
def Tqu.rivalWaits (t : Tqu) (h : Headset) : Bool := t.waiting.any (Placed.isRival h)

end Sys2Proof.Machine
end

