-- ==== Sys2Proof/Machine/Image.lean ====
section
/-! DEFINITION. The configuration image: its layout (section 12.4), its checks (R176), and the clamping of its values
(R177, R178). -/

namespace Sys2Proof.Machine

/-- The byte of the serial memory at an address. A byte the operand does not give reads FFh, as of an absent memory
(assumption 14). -/
def imageByte (image : List Byte) (a : Nat) : Byte := (image[a]?).getD 0xFF

/-- A two-byte field of the image. -/
def imageWord (image : List Byte) (a : Nat) : BitVec 16 := word16 (imageByte image a) (imageByte image (a + 1))

/-- The format mark (section 12.4). -/
def formatMark : BitVec 16 := 0x7C31
/-- The length of the fixed part with its CRC (section 12.4). -/
def fixedLength : Nat := 43
/-- The longest stated length (R176). -/
def imageLimit : Nat := 2048

/-- The stated length, and the two item counts (section 12.4). -/
def statedLength (image : List Byte) : Nat := (imageWord image 2).toNat
def neighbourCount (image : List Byte) : Nat := (imageByte image 39).toNat
def admissionCount (image : List Byte) : Nat := (imageByte image 40).toNat

/-- Every byte from address 0 up to the CRC. -/
def coveredImage (image : List Byte) : List Byte := (List.range (statedLength image - 2)).map (imageByte image)

/-- The checks of R176 in order. -/
def imagePasses (image : List Byte) : Bool :=
  imageWord image 0 == formatMark &&
    (decide (statedLength image ≤ imageLimit) && decide (fixedLength ≤ statedLength image)) &&
    decide (fixedLength + 2 * neighbourCount image + 16 * admissionCount image ≤ statedLength image) &&
    crc16 (coveredImage image) == imageWord image (statedLength image - 2)

/-- A value clamped into a range (R177). -/
def clampNat (lo hi v : Nat) : Nat := max lo (min hi v)

/-- A signed value clamped into a range (R178). -/
def clampInt (lo hi v : Int) : Int := max lo (min hi v)

/-- Whether clamping into a range changes a value. -/
def outside (lo hi v : Nat) : Bool := clampNat lo hi v != v

/-- A default block of 11 bytes with its count clamped into `lo`..4 (R178, section 12.4). -/
def readBlock (lo : Nat) (image : List Byte) (a : Nat) : DefaultBlock :=
  let count := clampNat lo 4 (imageByte image a).toNat
  { listen := readListen count ((List.range 8).map fun i => imageByte image (a + 3 + i))
    talk := readTalk (imageByte image (a + 1)) (imageByte image (a + 2)) }

/-- Whether reading a default block changes its count or a shift of an item it keeps (R178). -/
def blockChanged (lo : Nat) (image : List Byte) (a : Nat) : Bool :=
  let count := (imageByte image a).toNat
  outside lo 4 count ||
    (List.range (clampNat lo 4 count)).any fun i => outside 0 7 (imageByte image (a + 4 + 2 * i)).toNat

/-- The addresses of the neighbour items, and those of the admission items (section 12.4). -/
def neighbourAddresses (image : List Byte) : List Nat := (List.range (neighbourCount image)).map fun i => 41 + 2 * i
def admissionAddresses (image : List Byte) : List Nat :=
  (List.range (admissionCount image)).map fun i => 41 + 2 * neighbourCount image + 16 * i

/-- A neighbour item, clamped (R178). -/
def readNeighbour (image : List Byte) (a : Nat) : Neighbour :=
  { node := byteOf (clampNat 1 254 (imageByte image a).toNat)
    bias := clampInt (-15) 15 (imageByte image (a + 1)).toInt }

def neighbourChanged (image : List Byte) (a : Nat) : Bool :=
  outside 1 254 (imageByte image a).toNat ||
    clampInt (-15) 15 (imageByte image (a + 1)).toInt != (imageByte image (a + 1)).toInt

/-- The headset an admission item names. -/
def admissionHeadset (image : List Byte) (a : Nat) : Headset :=
  word32 (imageByte image a) (imageByte image (a + 1)) (imageByte image (a + 2)) (imageByte image (a + 3))

/-- An admission item; a listen count of 0 means no default block, a policy code other than PERMIT's is DENY (R178). -/
def readAdmission (image : List Byte) (a : Nat) : Admission :=
  { headset := admissionHeadset image a
    permit := imageByte image (a + 4) == 1
    block := if imageByte image (a + 5) = 0 then none else some (readBlock 1 image (a + 5)) }

def admissionChanged (image : List Byte) (a : Nat) : Bool :=
  outside 0 1 (imageByte image (a + 4)).toNat || blockChanged 0 image (a + 5)

/-- The admission items taken: those that name an identity, the first 64 of them (R178). -/
def takenAdmissions (image : List Byte) : List Nat :=
  ((admissionAddresses image).filter fun a => isIdentity (admissionHeadset image a)).take 64

/-- A parameter of one byte: its address and its range (R177, section 12.4). -/
def byteParameters : List (Nat × Nat × Nat) :=
  [(4, 1, 254), (5, 0, 31), (6, 2, 5), (7, 3, 20), (8, 10, 40), (9, 1, 15), (10, 0, 90), (11, 0, 255), (12, 4, 32),
   (13, 2, 16), (14, 8, 64), (15, 2, 20), (16, 5, 50), (19, 5, 100), (20, 10, 255), (21, 1, 8), (22, 4, 64),
   (23, 2, 6), (24, 0, 1), (27, 0, 1)]

/-- A one-byte parameter clamped into its range. -/
def parameter (image : List Byte) (a lo hi : Nat) : Nat := clampNat lo hi (imageByte image a).toNat

/-- The values of an image clamped into their ranges, before the two relations (R177, R178). -/
def clampedImage (image : List Byte) : Settings :=
  { node := byteOf (parameter image 4 1 254)
    channel := parameter image 5 0 31
    k := parameter image 6 2 5
    hysteresis := parameter image 7 3 20
    margin := parameter image 8 10 40
    dwellNeed := parameter image 9 1 15
    floor := parameter image 10 0 90
    settleTime := parameter image 11 0 255
    replyTime := parameter image 12 4 32
    arrivalTime := parameter image 13 2 16
    handingTime := parameter image 14 8 64
    seekWait := parameter image 15 2 20
    cutLink := parameter image 16 5 50
    rescueWindow := clampNat 50 500 (imageWord image 17).toNat
    standing := parameter image 19 5 100
    agingLimit := parameter image 20 10 255
    holdThreshold := parameter image 21 1 8
    holdQuanta := parameter image 22 4 64
    depth := parameter image 23 2 6
    fullFill := imageByte image 24 == 1
    silence := imageByte image 25
    enables :=
      { trunk := (imageByte image 26).getLsbD 0, roam := (imageByte image 26).getLsbD 1,
        voice := (imageByte image 26).getLsbD 2, system := (imageByte image 26).getLsbD 3 }
    permitDefault := imageByte image 27 == 1
    defaults := readBlock 1 image 28
    neighbours := ((neighbourAddresses image).take 16).map (readNeighbour image)
    admissions := (takenAdmissions image).map (readAdmission image) }

/-- Whether any value or list item was changed or ignored (R177, R178). -/
def imageChanged (image : List Byte) : Bool :=
  byteParameters.any (fun p => outside p.2.1 p.2.2 (imageByte image p.1).toNat) ||
    outside 50 500 (imageWord image 17).toNat || blockChanged 1 image 28 ||
    decide (16 < neighbourCount image) || ((neighbourAddresses image).take 16).any (neighbourChanged image) ||
    decide ((takenAdmissions image).length < admissionCount image) ||
    (takenAdmissions image).any (admissionChanged image)

/-- M raised to H where below it (R32). -/
def raisedMargin (cfg : Settings) : Nat := if cfg.margin < cfg.hysteresis then cfg.hysteresis else cfg.margin

/-- T_h raised to T_a + 5 where it is T_a + 4 or less (R68). -/
def raisedHanding (cfg : Settings) : Nat :=
  if cfg.handingTime ≤ cfg.arrivalTime + 4 then cfg.arrivalTime + 5 else cfg.handingTime

/-- The configuration that an image that passes its checks loads (R177). -/
def loadedSettings (image : List Byte) : Settings :=
  let cfg := clampedImage image
  { cfg with margin := raisedMargin cfg, handingTime := raisedHanding cfg }

/-- Whether loading an image sets CONFIG_CLAMPED (R177, R178). -/
def loadClamps (image : List Byte) : Bool :=
  let cfg := clampedImage image
  imageChanged image || raisedMargin cfg != cfg.margin || raisedHanding cfg != cfg.handingTime

end Sys2Proof.Machine
end

