-- ==== Sys2Proof/Machine/StartUp.lean ====
section
/-! DEFINITION. Start-up: cold reset, loading, joining, the entry to RUN, and the warm restart (chapter Start-up and the
Configuration Image). -/

namespace Sys2Proof.Machine

/-- A cold reset of every block: the node is in STANDBY with every value after a cold reset. The factory identity is
kept, the generator is seeded from it, and what was already sent stays sent (R175, assumption 11). -/
def State.coldReset (s : State) : State :=
  { cfl := Cfl.cold s.cfl.identity
    re := Re.cold
    apc := { Apc.cold with out := s.apc.out }
    vp := Vp.cold
    tqu := Tqu.cold
    tlc := Tlc.cold s.cfl.identity
    mlc := { Mlc.cold with out := s.mlc.out }
    pending := s.pending }

/-- TLC at an entry to JOINING: WAIT_IDLE, both runs 0, no attempt and no wait; the trap record and the generator's
place are kept (R134, R147). -/
def Tlc.rejoin (t : Tlc) : Tlc :=
  { t with state := .waitIdle, idleRun := 0, heldRun := 0, attempt := none, reading := none, wait := 0 }

/-- The entry to JOINING: both conditions false, TLC in WAIT_IDLE, the SLOT CLOSE sweep, the last cycle number absent (R180).
DESIGN CHOICE (assumption 29): the listen-in countdown is absent while the node is JOINING, after a warm restart too;
R182 states it after a cold reset and from the entry to RUN on alone. -/
def State.enterJoining (s : State) : State :=
  let s := s.onCfl fun c => { c with node := .joining, trunkJoined := false, airJoined := false }
  let s := (s.onTlc Tlc.rejoin).onRe fun r => { r with listenIn := none }
  s.onApc fun a => { a.sweep with lastCycle := none }

/-- The entry to RUN once both conditions hold, with the listen-in countdown loaded (R180, R182). -/
def State.runIfJoined (s : State) : State :=
  match s.cfl.node, s.cfl.trunkJoined, s.cfl.airJoined, s.cfl.config with
  | .joining, true, true, some cfg =>
    (s.onCfl fun c => { c with node := .run }).onRe fun r => { r with listenIn := some cfg.standing }
  | _, _, _, _ => s

/-- TLC reports the trunk joined (R134, R180). Outside JOINING the report has no effect. -/
def State.reportTrunk (s : State) : State :=
  match s.cfl.node with
  | .joining => (s.onCfl fun c => { c with trunkJoined := true }).runIfJoined
  | _ => s

/-- APC passes CFL the first cycle mark taken in JOINING (R97, R180). -/
def State.reportAir (s : State) : State := (s.onCfl fun c => { c with airJoined := true }).runIfJoined

/-- The blocks after a warm restart, before the node enters JOINING: tables, queues, pool, store and slot map empty; the
configuration, the claim counter and MLC as it stands kept (R181; R23, R58, R95, R109, R130, R162, R170). -/
def State.warmClear (s : State) : State :=
  { s with
    re := { s.re with serve := [], survey := [], listenIn := none }
    apc := { s.apc with slots := List.replicate slotCount AirSlot.cold, lastCycle := none }
    vp := Vp.cold
    tqu := { Tqu.cold with neighbourHolds := List.replicate s.tqu.neighbourHolds.length 0 } }

/-- A warm restart (R181); an EVICT that waits at RE is answered NOT_SERVED (R167). -/
def State.warmRestart (s : State) : State := (s.onMlc Mlc.answerEvict).warmClear.enterJoining

/-- The configuration handed to every block at the end of LOADING: CONFIG_CLAMPED where something was changed, one hold
timer for each neighbour item, the attention enables taken and the line following them (R174, R177). -/
def State.takeSettings (cfg : Settings) (clamped : Bool) (s : State) : State :=
  let s := s.onCfl fun c => { c with config := some cfg }
  let s := s.onTqu fun t => { t with neighbourHolds := List.replicate cfg.neighbours.length 0 }
  s.onMlc fun m =>
    { m with enables := cfg.enables }.withStatus
      { m.status with configClamped := m.status.configClamped || clamped }

/-- A failed load: FAULT, CONFIG_FAULT set, no configuration (R179). -/
def State.failLoad (s : State) : State :=
  (s.onCfl fun c => { c with node := .fault }).onMlc fun m => m.withStatus { m.status with configFault := true }

/-! ## Commands -/

/-- POWER_ON (R175). -/
def execPowerOn (s : State) : Host.Outcome State Fault Refusal := .next s.coldReset

/-- RESET_LINE_ASSERTED (R175, R110). -/
def execResetLineAsserted (s : State) : Host.Outcome State Fault Refusal := .next s.coldReset

/-- RESET_LINE_RELEASED: from STANDBY the node enters LOADING (R175, assumption 8). -/
def execResetLineReleased (s : State) : Host.Outcome State Fault Refusal :=
  .next <|
    match s.cfl.node with
    | .standby => s.onCfl fun c => { c with node := .loading, resetLine := false }
    | .loading | .fault | .joining | .run => s

/-- CONFIG_LOAD_COMPLETE in LOADING: FAULT at a failed check, else the clamped configuration and JOINING (R176 to R180). -/
def execConfigLoadComplete (image : List Byte) (s : State) : Host.Outcome State Fault Refusal :=
  .next <|
    match s.cfl.node with
    | .loading =>
      if imagePasses image then (s.takeSettings (loadedSettings image) (loadClamps image)).enterJoining
      else s.failLoad
    | .standby | .fault | .joining | .run => s

end Sys2Proof.Machine
end

