-- ==== Sys2Proof/Machine/Marks.lean ====
section
/-! DEFINITION. The cycle mark and what it drives: every per-mark counter, the expiries, the STANDING of the mark, the
playout and the mix (R97), and the rows of the table that are one of these expiries taken alone (assumption 3). -/

namespace Sys2Proof.Machine

/-! ## The counters of one mark -/

/-- The counters of a serve entry at a mark (R9, R11, R12, R13, R18, R20). -/
def ServeEntry.tick (e : ServeEntry) : ServeEntry :=
  let serving := e.state == .served || e.state == .offered
  { e with
    settle := e.settle - 1
    arrivalTimer := e.arrivalTimer.map (· - 1)
    rescueTimer := e.rescueTimer.map (· - 1)
    handing := e.handing.map fun h => { h with timer := h.timer.map (· - 1) }
    heard := if serving then false else e.heard
    lossRun := if serving then (if e.heard then 0 else min 255 (e.lossRun + 1)) else e.lossRun
    lastReported := if serving || e.state == .handing then min 255 (e.lastReported + 1) else e.lastReported }

/-- The counters of a survey entry at a mark (R42, R47, R61, R84). -/
def SurveyEntry.tick (e : SurveyEntry) : SurveyEntry :=
  { e with
    lastHeard := min 255 (e.lastHeard + 1)
    holdOff := e.holdOff - 1
    knowledge := e.knowledge.map fun k => { k with age := k.age + 1 }
    claim := e.claim.map fun c => { c with replyTimer := c.replyTimer.map (· - 1) } }

/-! ## What a mark brings to an end -/

/-- The expiries of a serve entry. -/
inductive Expiry where
  | arrival
  | handing
  | rescue
  | cutLink
deriving DecidableEq, Repr

/-- Whether a LOST entry whose rescue timer ends has something left to wait for: a reclaim outstanding (R20), or, where
the timer had ended before, the YIELD owed to a rival or the rival itself waiting in the pool (R92, assumption 19). -/
def State.rescueWaits (s : State) (e : ServeEntry) : Bool :=
  e.tag.isSome || (e.rescueTimer == some 0 && (e.yieldOwed.isSome || s.tqu.rivalWaits e.headset))

/-- The expiry that the next mark brings to a serve entry, if any: its timer stands one mark from its end or at it, or
its loss run reaches C at the mark (R9, R12, R18, R20). -/
def State.entryDue (cfg : Settings) (s : State) (e : ServeEntry) : Option Expiry :=
  match e.state with
  | .arriving => if e.arrivalTimer.any (· ≤ 1) then some .arrival else none
  | .handing =>
    if e.handing.any (fun h => h.phase == .moveSent && h.timer.any (· ≤ 1)) then some .handing else none
  | .lost => if e.rescueTimer.any (· ≤ 1) && !s.rescueWaits e then some .rescue else none
  | .served | .offered => if !e.heard && decide (cfg.cutLink ≤ min 255 (e.lossRun + 1)) then some .cutLink else none
  | .draining => none

/-- Whether the next mark removes a survey entry by age (R42). -/
def SurveyEntry.agesOut (cfg : Settings) (e : SurveyEntry) : Bool :=
  e.claim.isNone && decide (cfg.agingLimit ≤ min 255 (e.lastHeard + 1))

/-- Whether the next mark ends an entry's serving knowledge (R47). -/
def SurveyEntry.knowledgeEnds (cfg : Settings) (e : SurveyEntry) : Bool :=
  e.knowledge.any fun k => decide (4 * cfg.standing ≤ k.age + 1)

/-- Whether the next mark ends the reply timer of an entry's claim (R61). -/
def SurveyEntry.replyEnds (e : SurveyEntry) : Bool :=
  e.claim.any fun c => c.kind == .normal && c.phase == .sent && c.replyTimer.any (· ≤ 1)

/-- The arrival timer has run out: released; by origin, back to the survey list with pacing 31, or DEPARTED (R9). -/
def State.expireArrival (slot : Nat) (s : State) : State :=
  match s.entryAt slot with
  | none => s
  | some e =>
    if e.origin = some .reclaim then s.departEntry slot
    else (s.releaseEntry slot).enterSurvey { SurveyEntry.fresh e.headset e.q with pacing := fullPacing }

/-- What an expiry does to the entry at a slot (R9, R12, R18, R20). -/
def State.expire (cfg : Settings) (slot : Nat) (x : Expiry) (s : State) : State :=
  match x with
  | .arrival => s.expireArrival slot
  | .handing => s.enterLost cfg slot
  | .rescue => s.departEntry slot
  | .cutLink => s.enterLost cfg slot

/-- The expiry row of a serve entry: the expiry takes place where the entry is due for it (assumption 3). -/
def State.expireIfDue (slot : Nat) (x : Expiry) (s : State) : State :=
  s.whenRun fun cfg s =>
    match s.entryAt slot with
    | some e => if s.entryDue cfg e = some x then s.expire cfg slot x else s
    | none => s

/-! ## Orders (R106) -/

/-- An order's result at RE: R17 for a MOVE, R88 for an ANSWER; ignored where the entry is in another state. -/
def State.takeResult (cfg : Settings) (slot : Nat) (kind : OrderKind) (acknowledged : Bool) (s : State) : State :=
  if acknowledged then s
  else
    match s.entryAt slot with
    | none => s
    | some e =>
      match kind, e.state with
      | .move, .handing => if e.handing.any (fun h => h.phase == .moveSent) then s.revert cfg slot else s
      | .answer, .arriving => s.askAnswer cfg e.headset slot
      | _, _ => s

/-- Whether the next mark brings an order to age 4 (R106). -/
def PendingOrder.due (o : PendingOrder) : Bool := decide (orderLimit ≤ o.age + 1)

/-- A slot's order expires where it is due: removed, with an unacknowledged result passed to RE (R106). -/
def State.expireOrder (cfg : Settings) (slot : Nat) (s : State) : State :=
  match (s.apc.slot slot).order with
  | some o => if o.due then (s.onApc (Apc.endOrder slot)).takeResult cfg slot o.kind false else s
  | none => s

/-- An order's age rises by 1 (R106). -/
def AirSlot.ageOrder (x : AirSlot) : AirSlot :=
  { x with order := x.order.map fun o => { o with age := o.age + 1 } }

/-- The slots whose orders the next mark brings to their expiry. -/
def Apc.dueOrders (a : Apc) : List Nat :=
  (List.range slotCount).filter fun k => ((a.slot k).order.any PendingOrder.due)

/-- APC's part of a mark: the orders due expire in slot order, the others age (R97, R106). -/
def State.markOrders (cfg : Settings) (s : State) : State :=
  let due := s.apc.dueOrders
  let s := s.onApc fun a => { a with slots := a.slots.map AirSlot.ageOrder }
  due.foldl (fun s k => s.expireOrder cfg k) s

/-! ## Hold timers (R160, R161) -/

/-- The own hold timer at a mark: from 1 to 0 it is renewed where the pool is still congested (R160). -/
def Tqu.markOwn (cfg : Settings) (t : Tqu) : Tqu :=
  if t.ownHold = 1 then Tqu.holdOnset cfg { t with ownHold := 0 } else { t with ownHold := t.ownHold - 1 }

/-- TQU's part of a mark (R160, R161). -/
def Tqu.mark (cfg : Settings) (t : Tqu) : Tqu :=
  Tqu.markOwn cfg { t with neighbourHolds := t.neighbourHolds.map (· - 1) }

/-! ## The STANDING of a mark (R51, R52) -/

/-- Whether an entry is due for a STANDING (R13, R51). -/
def ServeEntry.standingDue (cfg : Settings) (e : ServeEntry) : Bool :=
  (e.state == .served || e.state == .offered || e.state == .handing) &&
    (decide (cfg.standing ≤ e.lastReported) || e.offerChanged)

/-- An entry put in the order of R51: greatest last reported first, ties by lower slot. -/
def insertDue (e : ServeEntry) : List ServeEntry → List ServeEntry
  | [] => [e]
  | x :: xs =>
    if x.lastReported < e.lastReported ∨ (x.lastReported = e.lastReported ∧ e.slot ≤ x.slot) then e :: x :: xs
    else x :: insertDue e xs

/-- The due entries a STANDING names, at most four (R51). -/
def State.named (cfg : Settings) (s : State) : List ServeEntry :=
  ((s.re.serve.filter (ServeEntry.standingDue cfg)).foldr insertDue []).take 4

/-- What a STANDING says of an entry (R52). -/
def ServeEntry.naming (e : ServeEntry) : Naming :=
  { headset := e.headset, score := e.r, offered := e.state == .offered, count := e.count,
    groups := e.listen.map ListenItem.group }

/-- An entry after a STANDING that names the given entries: where it is one of them, last reported becomes 0 and
offer-changed is cleared (R13, R51). -/
def ServeEntry.markNamed (named : List ServeEntry) (e : ServeEntry) : ServeEntry :=
  if named.any (fun n => n.slot == e.slot) then { e with lastReported := 0, offerChanged := false } else e

/-- One STANDING where the REPORT queue has room and an entry is due (R51, R52). -/
def State.buildStanding (cfg : Settings) (s : State) : State :=
  let named := s.named cfg
  if s.tqu.reportRoom ∧ named ≠ [] then
    let s := s.onTqu (Tqu.push (Queued.new .report (.standing (named.map ServeEntry.naming)) broadcast))
    s.onRe fun r => { r with serve := r.serve.map (ServeEntry.markNamed named) }
  else s

/-! ## RE's part of a mark -/

/-- Every counter of RE moves by one mark (R42, R182 and the rules of the two ticks). -/
def Re.tick (r : Re) : Re :=
  { r with
    serve := r.serve.map ServeEntry.tick
    survey := r.survey.map SurveyEntry.tick
    listenIn := r.listenIn.map (· - 1) }

/-- The headsets of the survey entries that a test picks out. -/
def Re.surveyed (r : Re) (p : SurveyEntry → Bool) : List Headset := (r.survey.filter p).map SurveyEntry.headset

/-- RE's part of a mark: all counters, then what they bring to an end, survey list first and serve entries in slot
order, then the STANDING (R42, R47, R51, R61; order of assumption 4). -/
def State.markRe (cfg : Settings) (s : State) : State :=
  let aged := s.re.surveyed (SurveyEntry.agesOut cfg)
  let stale := s.re.surveyed (SurveyEntry.knowledgeEnds cfg)
  let unanswered := s.re.surveyed SurveyEntry.replyEnds
  let due := s.re.serve.filterMap fun e => (s.entryDue cfg e).map fun x => (e.slot, x)
  let s := s.onRe Re.tick
  let s := aged.foldl (fun s h => s.removeSurvey h) s
  let s := stale.foldl (fun s h => s.updateSurvey h SurveyEntry.forget) s
  let s := unanswered.foldl (fun s h => s.failClaim h) s
  let s := due.foldl (fun s d => s.expire cfg d.1 d.2) s
  s.buildStanding cfg

/-! ## VP's part of a mark (R118, R119, R120, R127, R128) -/

/-- What the ring of an entry does at a mark: the ring after it, the frame sent, and whether it was a late silence
frame (R118, R119). A listen-only entry's ring sends nothing (R113). -/
def ServeEntry.play (cfg : Settings) (e : ServeEntry) : Ring × Option VoiceFrame × Bool :=
  match e.talk, e.state with
  | none, _ => (e.ring, none, false)
  | some _, .arriving => (e.ring, none, false)
  | some _, .draining | some _, .lost =>
    match e.ring.frames with
    | f :: fs => ({ e.ring with frames := fs }, some f, false)
    | [] => (e.ring, none, false)
  | some _, .served | some _, .offered | some _, .handing =>
    if e.ring.playing || decide (cfg.depth ≤ e.ring.frames.length) then
      match e.ring.frames with
      | f :: fs => ({ e.ring with frames := fs, playing := true }, some f, false)
      | [] => ({ e.ring with playing := true }, some (silenceFrame cfg), true)
    else (e.ring, none, false)

/-- One ring played at a mark: its frame goes to MLC as an UPLINK record, a late frame is counted (R118, R119, R120). -/
def State.playRing (cfg : Settings) (s : State) (e : ServeEntry) : State :=
  let p := e.play cfg
  let s := s.updateEntry e.slot fun e => { e with ring := p.1 }
  let s :=
    match p.2.1, e.talk with
    | some f, some g => s.onMlc (Mlc.takeUplink { headset := e.headset, talk := g, frame := f })
    | _, _ => s
  if p.2.2 then s.count .lateFrames else s

/-- Whether a mark finds a DRAINING entry's ring empty (R119). -/
def ServeEntry.drained (e : ServeEntry) : Bool := e.state == .draining && e.ring.frames.isEmpty

/-- The totals of the 80 sample positions: each listed group with a current frame, shifted right arithmetically (R127). -/
def mixTotals (v : Vp) (listen : List ListenItem) : List Int :=
  listen.foldl (fun totals i =>
    match (v.find i.group).bind StoredGroup.current with
    | some samples => List.zipWith (fun t x => t + x.toInt / 2 ^ i.shift) totals samples
    | none => totals) (List.replicate 80 0)

/-- A total clamped into the range of a sample (R127). -/
def clampTotal (t : Int) : Int := max (-32768) (min 32767 t)

/-- Whether a serve entry is mixed (R127). -/
def ServeEntry.mixed (e : ServeEntry) : Bool := e.state == .served || e.state == .offered || e.state == .handing

/-- One downlink frame mixed and handed to APC; a frame with a clamped total is counted once (R107, R127). -/
def State.mixEntry (s : State) (e : ServeEntry) : State :=
  let totals := mixTotals s.vp e.listen
  let s := if totals.any (fun t => clampTotal t != t) then s.count .clippedFrames else s
  s.onApc (Apc.downlink e.slot (totals.map fun t => BitVec.ofInt 16 (clampTotal t)))

/-- Every current frame removed after the mix (R128). -/
def Vp.consume (v : Vp) : Vp := { v with store := v.store.map fun e => { e with current := none } }

/-- VP's part of a mark: playout and mix in slot order, the current frames consumed, then the DRAINING entries whose
rings were found empty released (R97, R118, R119, R127, R128). -/
def State.markVp (cfg : Settings) (s : State) : State :=
  let drained := (s.re.serve.filter ServeEntry.drained).map ServeEntry.slot
  let s := s.re.serve.foldl (State.playRing cfg) s
  let s := (s.re.serve.filter ServeEntry.mixed).foldl State.mixEntry s
  let s := s.onVp Vp.consume
  drained.foldl (fun s k => s.releaseEntry k) s

/-! ## The whole mark -/

/-- A mark taken in RUN: APC's orders, TQU's timers, RE, then VP (R97, R106, R160, R161; order of assumption 4). -/
def State.mark (cfg : Settings) (s : State) : State :=
  (((s.markOrders cfg).onTqu (Tqu.mark cfg)).markRe cfg).markVp cfg

/-- The number of a taken mark kept as the last cycle number (R97). -/
def State.noteCycle (n : BitVec 16) (s : State) : State := s.onApc fun a => { a with lastCycle := some n }

/-! ## Commands -/

/-- CYCLE_MARK: a repeat is discarded; in JOINING the mark goes to CFL, in RUN to every block (R97, R104). -/
def execCycleMark (record : List Byte) (s : State) : Host.Outcome State Fault Refusal :=
  .next <|
    match readCycleMark record with
    | none => s
    | some n =>
      if s.apc.lastCycle = some n then s
      else
        match s.cfl.node with
        | .joining => (s.noteCycle n).reportAir
        | .run => (s.noteCycle n).whenRun State.mark
        | .standby | .loading | .fault => s

/-- ARRIVAL_TIMEOUT (R9, assumption 3). -/
def execArrivalTimeout (slot : Nat) (s : State) : Host.Outcome State Fault Refusal := .next (s.expireIfDue slot .arrival)

/-- HANDING_TIMEOUT (R18, assumption 3). -/
def execHandingTimeout (slot : Nat) (s : State) : Host.Outcome State Fault Refusal := .next (s.expireIfDue slot .handing)

/-- CUT_LINK (R12, assumption 3). -/
def execCutLink (slot : Nat) (s : State) : Host.Outcome State Fault Refusal := .next (s.expireIfDue slot .cutLink)

/-- RESCUE_TIMEOUT: the entry departs, or stays LOST with the timer at 0 while it waits (R20, assumption 3). -/
def execRescueTimeout (slot : Nat) (s : State) : Host.Outcome State Fault Refusal :=
  .next <| s.whenRun fun cfg s =>
    match s.entryAt slot with
    | some e =>
      if s.entryDue cfg e = some .rescue then s.expire cfg slot .rescue
      else if e.state = .lost ∧ e.rescueTimer.any (· ≤ 1) then
        s.updateEntry slot fun e => { e with rescueTimer := some 0 }
      else s
    | none => s

/-- REPLY_TIMEOUT (R61, assumption 3). -/
def execReplyTimeout (h : Headset) (s : State) : Host.Outcome State Fault Refusal :=
  .next <| s.whenRun fun _ s => if (s.surveyFor h).any SurveyEntry.replyEnds then s.failClaim h else s

/-- SETTLE_END (R11, assumption 3). -/
def execSettleEnd (slot : Nat) (s : State) : Host.Outcome State Fault Refusal :=
  .next <| s.whenRun fun _ s => s.updateEntry slot fun e => if e.settle ≤ 1 then { e with settle := 0 } else e

/-- SURVEY_AGING (R42, assumption 3). -/
def execSurveyAging (h : Headset) (s : State) : Host.Outcome State Fault Refusal :=
  .next <| s.whenRun fun cfg s => if (s.surveyFor h).any (SurveyEntry.agesOut cfg) then s.removeSurvey h else s

/-- KNOWLEDGE_EXPIRY (R47, assumption 3). -/
def execKnowledgeExpiry (h : Headset) (s : State) : Host.Outcome State Fault Refusal :=
  .next <| s.whenRun fun cfg s =>
    s.updateSurvey h fun e => if e.knowledgeEnds cfg then e.forget else e

/-- LISTEN_IN_END (R182, assumption 3). -/
def execListenInEnd (s : State) : Host.Outcome State Fault Refusal :=
  .next <| s.whenRun fun _ s =>
    s.onRe fun r => { r with listenIn := r.listenIn.map fun n => if n ≤ 1 then 0 else n }

/-- SEEK_HOLD_OFF_END (R84, assumption 3). -/
def execSeekHoldOffEnd (h : Headset) (s : State) : Host.Outcome State Fault Refusal :=
  .next <| s.whenRun fun _ s =>
    s.updateSurvey h fun e => if e.holdOff ≤ 1 then { e with holdOff := 0 } else e

/-- ORDER_EXPIRY (R106, assumption 3). -/
def execOrderExpiry (slot : Nat) (s : State) : Host.Outcome State Fault Refusal :=
  .next <| s.whenRun fun cfg s => s.expireOrder cfg slot

/-- OWN_HOLD_EXPIRY: the own hold timer goes from 1 to 0 (R160, assumption 3). -/
def execOwnHoldExpiry (s : State) : Host.Outcome State Fault Refusal :=
  .next <| s.whenRun fun cfg s => s.onTqu fun t => if t.ownHold = 1 then t.markOwn cfg else t

/-- NEIGHBOUR_HOLD_EXPIRY: a neighbour's timer reaches 0 (R161, assumption 3). -/
def execNeighbourHoldExpiry (n : Node) (s : State) : Host.Outcome State Fault Refusal :=
  .next <| s.whenRun fun cfg s => s.onTqu fun t => if t.holdOf cfg n ≤ 1 then t.setHold cfg n 0 else t

/-- DRAIN_EMPTY: a DRAINING entry whose ring is empty is released (R19, R119). -/
def execDrainEmpty (slot : Nat) (s : State) : Host.Outcome State Fault Refusal :=
  .next <| s.whenRun fun _ s => if (s.entryAt slot).any ServeEntry.drained then s.releaseEntry slot else s

end Sys2Proof.Machine
end

