-- ==== Sys2Proof/Machine/AirPort.lean ====
section
/-! DEFINITION. The reports of the front end at APC and at RE: slot reports, survey reports, seek calls and order results
(chapters The Serve Table, Survey List, Seek and Rescue, Air Port). APC takes them in RUN only (R98). -/

namespace Sys2Proof.Machine

/-! ## Slot reports at RE (R7) -/

/-- A good frame at a SERVED or OFFERED entry: scored, heard, to ring, offered test (R7, R10, R36). -/
def State.servedFrame (cfg : Settings) (slot sample : Nat) (q : Seq) (payload : List Byte) (s : State) : State :=
  ((s.updateEntry slot fun e => { e.sample cfg sample with heard := true }).toRing cfg slot q payload).updateEntry slot
    (ServeEntry.offeredTest cfg)

/-- A slot report that APC has passed on, at the entry of its slot (table of R7). -/
def State.reportAtEntry (cfg : Settings) (r : SlotReport) (e : ServeEntry) (s : State) : State :=
  match e.state, r.kind with
  | .arriving, .frame _ q payload =>
    (s.updateEntry r.slot (ServeEntry.sample cfg (sampleValue .frame r.level))).arrival cfg r.slot q payload
  | .arriving, .errored | .arriving, .silent => s
  | .served, .frame _ q payload | .offered, .frame _ q payload =>
    s.servedFrame cfg r.slot (sampleValue .frame r.level) q payload
  | .served, .errored | .offered, .errored =>
    s.updateEntry r.slot fun e => (e.sample cfg (sampleValue .erroredReport r.level)).offeredTest cfg
  | .served, .silent | .offered, .silent =>
    s.updateEntry r.slot fun e => (e.sample cfg (sampleValue .silentReport r.level)).offeredTest cfg
  | .handing, .frame _ q payload =>
    if e.handing.any (fun h => h.phase == .moveSent) then
      (s.revert cfg r.slot).servedFrame cfg r.slot (sampleValue .frame r.level) q payload
    else
      (s.updateEntry r.slot (ServeEntry.sample cfg (sampleValue .frame r.level))).toRing cfg r.slot q payload
  | .handing, .errored =>
    if e.handing.any (fun h => h.phase == .moveSent) then s
    else s.updateEntry r.slot (ServeEntry.sample cfg (sampleValue .erroredReport r.level))
  | .handing, .silent =>
    if e.handing.any (fun h => h.phase == .moveSent) then s
    else s.updateEntry r.slot (ServeEntry.sample cfg (sampleValue .silentReport r.level))
  | .draining, .frame _ _ _ | .lost, .frame _ _ _ => s.count .strays
  | .draining, .errored | .draining, .silent | .lost, .errored | .lost, .silent => s

/-- Whether a report is a FRAME that names another headset than the slot's (R102). -/
def SlotKind.isForeign (h : Headset) : SlotKind → Bool
  | .frame h' _ _ => h' != h
  | .errored | .silent => false

/-- A SLOT REPORT that could be read, checked against the slot map (R102). -/
def State.slotReport (cfg : Settings) (r : SlotReport) (s : State) : State :=
  match (s.apc.slot r.slot).state with
  | .free | .reserved _ => s.count .strays
  | .assigned h =>
    if r.kind.isForeign h then s.count .foreignFrames
    else
      match s.entryAt r.slot with
      | some e => s.reportAtEntry cfg r e
      | none => s

/-! ## Survey reports and seek calls at RE (R39, R78) -/

/-- The sample kind of a survey report (R25). -/
def SurveyReport.sampleKind (r : SurveyReport) : SampleKind := if r.good then .good else .erroredReport

/-- A SURVEY REPORT (R39). -/
def State.surveyReport (cfg : Settings) (r : SurveyReport) (s : State) : State :=
  let sample := sampleValue r.sampleKind r.level
  if (s.entryFor r.headset).isSome || !cfg.permits r.headset then s
  else
    match s.surveyFor r.headset with
    | some _ => (s.updateSurvey r.headset (SurveyEntry.sample cfg sample)).decideNormal cfg r.headset
    | none => s.enterSurvey (SurveyEntry.fresh r.headset (seeded sample))

/-- A SEEK CALL as APC passes it on (R78, R79, R80, R81). -/
def State.seekCall (cfg : Settings) (c : SeekCall) (s : State) : State :=
  let sample := sampleValue .seekCall c.level
  match s.entryFor c.headset with
  | some e =>
    match e.state with
    | .served | .offered => (s.enterLost cfg e.slot).callAtLost cfg e.slot sample
    | .lost => s.callAtLost cfg e.slot sample
    | .arriving | .handing | .draining => s.count .ignoredSeekCalls
  | none =>
    if !cfg.permits c.headset then s
    else
      match s.surveyFor c.headset with
      | some _ => (s.updateSurvey c.headset (SurveyEntry.sample cfg sample)).decideSeek cfg c
      | none => (s.enterSurvey (SurveyEntry.fresh c.headset (seeded sample))).decideSeek cfg c

/-- An ORDER RESULT that could be read: it ends the slot's pending order and passes to RE; without one it is discarded
(R106). -/
def State.orderResult (cfg : Settings) (r : OrderResult) (s : State) : State :=
  match (s.apc.slot r.slot).order with
  | some o => (s.onApc (Apc.endOrder r.slot)).takeResult cfg r.slot o.kind r.acknowledged
  | none => s

/-! ## Commands -/

/-- SLOT_REPORT (R98, R102, R104). -/
def execSlotReport (record : List Byte) (s : State) : Host.Outcome State Fault Refusal :=
  .next <| s.whenRun fun cfg s =>
    match readSlotReport record with
    | some r => s.slotReport cfg r
    | none => s

/-- SURVEY_REPORT (R39, R98, R103, R104). -/
def execSurveyReport (record : List Byte) (s : State) : Host.Outcome State Fault Refusal :=
  .next <| s.whenRun fun cfg s =>
    match readSurveyReport record with
    | some r => s.surveyReport cfg r
    | none => s

/-- SEEK_CALL (R78, R98, R103, R104, R185). -/
def execSeekCall (record : List Byte) (s : State) : Host.Outcome State Fault Refusal :=
  .next <| s.whenRun fun cfg s =>
    match readSeekCall record with
    | some c => s.seekCall cfg c
    | none => s

/-- ORDER_RESULT (R98, R104, R106). -/
def execOrderResult (record : List Byte) (s : State) : Host.Outcome State Fault Refusal :=
  .next <| s.whenRun fun cfg s =>
    match readOrderResult record with
    | some r => s.orderResult cfg r
    | none => s

end Sys2Proof.Machine
end

