-- ==== Sys2Proof/Machine/Handling.lean ====
section
/-! DEFINITION. RE's handling of the messages of the inbound pool, the oldest first: its point, one row for each kind, and
its completion (chapters Handover Between Antennas, Survey List, Seek and Rescue, Transmit Classes). -/

namespace Sys2Proof.Machine

/-- Reach the point of the oldest message's handling, where it has not been reached and `p` says that the row is this
message's: `f` is the handling's effect on RE's tables (R159). RE handles messages in RUN. -/
def State.handle (s : State) (p : Placed → Bool) (f : Settings → Placed → State → State) : State :=
  s.whenRun fun cfg s =>
    match s.tqu.pool with
    | m :: _ =>
      if !s.tqu.reached && p m then (s.onTqu fun t => { t with reached := true }) |> f cfg m else s
    | [] => s

/-! ## TAKEN (R70) -/

/-- Serving knowledge set from a TAKEN (R46). -/
def SurveyEntry.learnTaken (sender : Node) (count : Nat) (e : SurveyEntry) : SurveyEntry :=
  { e with
    knowledge := some { node := sender, score := none, offered := false, count := count,
                        groups := e.knowledge.bind Knowledge.groups, age := 0 }
    dwell := 0 }

/-- A TAKEN at a survey entry: the knowledge set, then any claim of this node cancelled (R46, R71, R86). -/
def State.takenAtSurvey (h : Headset) (sender : Node) (count : Nat) (s : State) : State :=
  let s := s.updateSurvey h (SurveyEntry.learnTaken sender count)
  match (s.surveyFor h).bind SurveyEntry.claim with
  | some c =>
    match c.kind with
    | .normal => s.failClaim h
    | .seek => s.withdrawSeek h
  | none => s

/-- A HANDING entry drains: no handing record, ring playing, notice LEFT, a handover out counted (R16, R19). -/
def State.drain (slot : Nat) (h : Headset) (sender : Node) (s : State) : State :=
  ((s.updateEntry slot fun e =>
      { e with state := .draining, handing := none, ring := { e.ring with playing := true } }).notify
    (.left h sender)).count .handoversOut

/-- A TAKEN at a HANDING entry: it drains where the sender is the claimant or the count is higher (R16). -/
def State.takenAtHanding (e : ServeEntry) (sender : Node) (count : Nat) (s : State) : State :=
  if e.handing.any (fun h => h.claimant == sender) ∨ e.count < count then s.drain e.slot e.headset sender else s

/-- A TAKEN by where this node holds the headset (R57, R70). -/
def State.handleTaken (cfg : Settings) (h : Headset) (sender : Node) (count : Nat) (s : State) : State :=
  match s.entryFor h with
  | some e =>
    match e.state with
    | .arriving => s.releaseEntry e.slot
    | .served | .offered | .lost => s.resolveDuplicate cfg h sender count
    | .handing => s.takenAtHanding e sender count
    | .draining => s
  | none => s.takenAtSurvey h sender count

/-! ## NORMAL CLAIM (R62, R63) -/

/-- The entry after a claim is accepted (R14). -/
def ServeEntry.accept (claimant : Node) (c : ClaimBody) (e : ServeEntry) : ServeEntry :=
  { e with
    state := .handing
    handing := some { claimant := claimant, tag := c.tag, phase := .yieldPending, channel := c.channel, slot := c.slot,
                      timer := none }
    lossRun := 0
    heard := false
    offerChanged := e.offerChanged || e.state == .offered }

/-- The answer to a NORMAL CLAIM by the checks of R62 in order: a DECLINE reason, or the entry that is accepted. -/
def State.answerClaim (cfg : Settings) (sender : Node) (c : ClaimBody) (s : State) : Reason ⊕ ServeEntry :=
  if !cfg.isNeighbour sender then .inl .notServed
  else if 31 < c.channel ∨ 23 < c.slot then .inl .notServed
  else
    match s.entryFor c.headset with
    | none => .inl .notServed
    | some e =>
      match e.state with
      | .arriving | .draining | .lost => .inl .notServed
      | .handing => .inl .busy
      | .served | .offered =>
        if 0 < e.settle then .inl .settling
        else if e.scoreAdmits cfg c.score then .inr e
        else .inl .notOffered

/-- The reply kept for the completion of the handling (R158, assumption 9). -/
def State.keepReply (m : Queued) (s : State) : State := s.onTqu fun t => { t with reply := some m }

/-- A NORMAL CLAIM addressed to this node (R62, R63). -/
def State.handleClaim (cfg : Settings) (sender : Node) (c : ClaimBody) (s : State) : State :=
  match s.answerClaim cfg sender c with
  | .inl reason => s.keepReply (Queued.new .handover (.decline c.headset c.tag reason) sender)
  | .inr e =>
    (s.updateEntry e.slot (ServeEntry.accept sender c)).keepReply
      (Queued.new .handover (.yield (e.context c.tag)) sender)

/-! ## SEEK CLAIM (R83) -/

/-- A rival's SEEK CLAIM at a survey entry: an own SEEK claim is withdrawn, the hold-off is loaded (R83, R84). -/
def State.rivalAtSurvey (cfg : Settings) (e : SurveyEntry) (s : State) : State :=
  let s := if e.claim.any (fun c => c.kind == .seek) then s.withdrawSeek e.headset else s
  s.updateSurvey e.headset fun e => { e with holdOff := cfg.seekWait }

/-- A rival's SEEK CLAIM by where this node holds the headset (R83, R90, R92). -/
def State.handleSeekClaim (cfg : Settings) (sender : Node) (c : ClaimBody) (s : State) : State :=
  match s.entryFor c.headset with
  | some e =>
    match e.state with
    | .served | .offered => (s.enterLost cfg e.slot).oweYield cfg e.slot sender c.tag
    | .lost =>
      if e.yieldOwed.isSome then s
      else (s.withdrawReclaim e.slot).oweYield cfg e.slot sender c.tag
    | .arriving | .handing | .draining => s
  | none =>
    match s.surveyFor c.headset with
    | some e => s.rivalAtSurvey cfg e
    | none => s

/-! ## YIELD (R64, R66, R89, R93) -/

/-- A YIELD that matches a NORMAL claim: the headset is ARRIVING with the context (R66). -/
def State.yieldMatched (cfg : Settings) (e : SurveyEntry) (r : ClaimRecord) (sender : Node) (c : Context) (s : State) :
    State :=
  s.enterServe e r
    { origin := .yield, listen := c.listen, talk := c.talk, count := c.count, timer := cfg.arrivalTime,
      previous := some sender, expected := some c.expected }

/-- A YIELD replaces the context of an ARRIVING entry of origin SEEK (R6, R89). -/
def State.replaceContext (slot : Nat) (sender : Node) (c : Context) (s : State) : State :=
  match s.entryAt slot with
  | none => s
  | some e =>
    let fit := s.vp.fit (e.listen.map ListenItem.group) c.listen
    let s := (s.onVp fun _ => fit.vp).updateEntry slot fun e =>
      { e with listen := fit.kept, talk := c.talk, count := c.count, origin := some .yield, previous := some sender }
    if fit.dropped then s.count .groupDrops else s

/-- A YIELD at a reclaim: the higher count is taken (R93). -/
def ServeEntry.raiseCount (count : Nat) (e : ServeEntry) : ServeEntry := { e with count := max e.count count }

/-- A YIELD at a serve entry that carries its tag: an ARRIVING seek, an ARRIVING reclaim, or a LOST entry's reclaim; late
otherwise (R64, R89, R93). -/
def State.yieldAtEntry (e : ServeEntry) (sender : Node) (c : Context) (s : State) : State :=
  match e.state, e.origin with
  | .arriving, some .seek => s.replaceContext e.slot sender c
  | .arriving, some .reclaim => s.updateEntry e.slot (ServeEntry.raiseCount c.count)
  | .lost, _ => s.updateEntry e.slot (ServeEntry.raiseCount c.count)
  | _, _ => s.count .lateReplies

/-- A YIELD matched by tag and headset together (R64). -/
def State.handleYield (cfg : Settings) (sender : Node) (c : Context) (s : State) : State :=
  match s.claimOf c.headset c.tag with
  | some (e, r) =>
    match r.kind with
    | .normal => s.yieldMatched cfg e r sender c
    | .seek => (s.winSeek cfg e r).replaceContext r.slot sender c
  | none =>
    match (s.entryFor c.headset).filter fun e => e.tag == some c.tag with
    | some e => s.yieldAtEntry e sender c
    | none => s.count .lateReplies

/-! ## DECLINE (R65) -/

/-- A DECLINE matched by tag and headset with a NORMAL claim ends it; any other is late (R64, R65). -/
def State.handleDecline (h : Headset) (tag : Tag) (reason : Reason) (s : State) : State :=
  match s.claimOf h tag with
  | some (_, r) =>
    match r.kind with
    | .normal =>
      let s := (s.failClaim h).count .declinesReceived
      if reason = .notServed then s.updateSurvey h SurveyEntry.forget else s
    | .seek => s.count .lateReplies
  | none => s.count .lateReplies

/-! ## STANDING (R54) -/

/-- Whether a naming is stale: from a node other than the knowledge's, with a lower count (R45). -/
def Knowledge.outdates (k : Knowledge) (sender : Node) (n : Naming) : Bool :=
  k.node != sender && decide (n.count < k.count)

/-- Serving knowledge set from a naming, then pacing lowered by 1; a stale naming changes nothing (R35, R45). -/
def SurveyEntry.learnNaming (sender : Node) (n : Naming) (e : SurveyEntry) : SurveyEntry :=
  if e.knowledge.any (fun k => k.outdates sender n) then e
  else
    { e with
      knowledge := some { node := sender, score := some n.score, offered := n.offered, count := n.count,
                          groups := some n.groups, age := 0 }
      pacing := e.pacing - 1 }

/-- One naming by where this node holds the headset (R54, R57). -/
def State.handleNaming (cfg : Settings) (sender : Node) (s : State) (n : Naming) : State :=
  match s.entryFor n.headset with
  | some e =>
    match e.state with
    | .served | .offered | .lost => s.resolveDuplicate cfg n.headset sender n.count
    | .arriving | .handing | .draining => s
  | none => s.updateSurvey n.headset (SurveyEntry.learnNaming sender n)

/-! ## Completion (R158, R159, R160) -/

/-- The reply of a handling queued, a DECLINE counted as sent (R62, R158). -/
def State.queueReply (s : State) : State :=
  match s.tqu.reply with
  | some m =>
    let s := s.onTqu fun t => Tqu.push m { t with reply := none }
    match m.body with
    | .decline _ _ _ => s.count .declinesSent
    | _ => s
  | none => s

/-- A completion that leaves the free count above the threshold with the own timer running queues HOLD(0) (R160). -/
def Tqu.holdRelease (cfg : Settings) (t : Tqu) : Tqu :=
  if cfg.holdThreshold < t.freeCount ∧ 0 < t.ownHold then { t.queueHold 0 with ownHold := 0 } else t

/-- The buffer of the handled message freed and, for an addressed CLAIM, its reply reservation lowered (R158, R159). -/
def Tqu.freeBuffer (own : Node) (t : Tqu) : Tqu :=
  { t with
    pool := t.pool.drop 1
    reached := false
    reservations :=
      if t.pool.head?.any (fun p => p.kind == 3 && p.destination == own) then t.reservations - 1 else t.reservations }

/-- RE decides the EVICT that waits for it, if one does (R167, R168). -/
def State.decideEvict (s : State) : State :=
  match s.mlc.evict with
  | some h => s.evict h
  | none => s

/-! ## Commands -/

/-- The kind of a message read as a SEEK CLAIM: kind CLAIM with kind byte 1 (assumption 20). -/
def Placed.isSeek (p : Placed) : Bool := p.kind == 3 && p.payload[5]? == some 1

/-- TAKEN_HANDLING (R70, R184). -/
def execTakenHandling (s : State) : Host.Outcome State Fault Refusal :=
  .next <| s.handle (fun p => p.kind == 1) fun cfg p s =>
    match readTaken p.payload with
    | some (h, count, _) => s.handleTaken cfg h p.sender count
    | none => s

/-- CLAIM_HANDLING: a NORMAL CLAIM; a broadcast one is discarded without a reply (R62, R184). -/
def execClaimHandling (s : State) : Host.Outcome State Fault Refusal :=
  .next <| s.handle (fun p => p.kind == 3 && !p.isSeek) fun cfg p s =>
    match readClaim p.payload with
    | some c => if p.destination = cfg.node then s.handleClaim cfg p.sender c else s
    | none => s

/-- SEEK_CLAIM_HANDLING: a rival's SEEK CLAIM; an addressed one is discarded without effect (R82, R83, R184). -/
def execSeekClaimHandling (s : State) : Host.Outcome State Fault Refusal :=
  .next <| s.handle Placed.isSeek fun cfg p s =>
    match readClaim p.payload with
    | some c => if p.destination = broadcast then s.handleSeekClaim cfg p.sender c else s
    | none => s

/-- YIELD_HANDLING (R64, R66, R89, R93, R184). -/
def execYieldHandling (s : State) : Host.Outcome State Fault Refusal :=
  .next <| s.handle (fun p => p.kind == 2) fun cfg p s =>
    match readYield p.payload with
    | some c => s.handleYield cfg p.sender c
    | none => s

/-- DECLINE_HANDLING (R64, R65, R184). -/
def execDeclineHandling (s : State) : Host.Outcome State Fault Refusal :=
  .next <| s.handle (fun p => p.kind == 4) fun _ p s =>
    match readDecline p.payload with
    | some (h, tag, reason) => s.handleDecline h tag reason
    | none => s

/-- STANDING_HANDLING: each naming in turn (R54, R184). -/
def execStandingHandling (s : State) : Host.Outcome State Fault Refusal :=
  .next <| s.handle (fun p => p.kind == 5) fun cfg p s =>
    match readStanding p.payload with
    | some ns => ns.foldl (State.handleNaming cfg p.sender) s
    | none => s

/-- HANDLING_COMPLETE: once the point of the oldest message is reached, its buffer is freed, its reservation lowered with
its reply queued at the same point, and HOLD(0) may be queued; an EVICT that waits for RE is then decided, ahead of the
next message (R158, R159, R160, R168; assumption 23). -/
def execHandlingComplete (s : State) : Host.Outcome State Fault Refusal :=
  .next <| s.whenRun fun cfg s =>
    match s.tqu.pool with
    | _ :: _ =>
      if s.tqu.reached then
        (((s.onTqu (Tqu.freeBuffer cfg.node)).queueReply).onTqu (Tqu.holdRelease cfg)).decideEvict
      else s
    | [] => s

end Sys2Proof.Machine
end

