-- ==== Sys2Proof/Machine/Matrix.lean ====
section
/-! DEFINITION. The matrix link: its inbound records, the snapshot, and the outbound direction (chapter Matrix Link and
Status), with VP's taking of GROUP FRAMEs (R125, R126). -/

namespace Sys2Proof.Machine

/-- A record taken in: in STANDBY nothing is received; a CRC mismatch is counted and the record discarded; one of another
kind or a wrong length is discarded; a sound one of the kind is acted on (R163, R164). -/
def State.takeRecord (kind : Byte) (need : Nat) (record : List Byte) (act : List Byte → State → State) (s : State) : State :=
  match s.cfl.node with
  | .standby => s
  | .loading | .fault | .joining | .run =>
    match checkRecord kind need record with
    | .badCrc => s.count .matrixCrcDiscards
    | .discarded => s
    | .sound body => act body s

/-! ## GROUP FRAME (R125, R126) -/

/-- Whether the bin of a group is set (R124). -/
def Vp.binSet (v : Vp) (g : Group) : Bool := v.mask.getLsbD (binOf g)

/-- A store entry with a frame taken (R126). -/
def StoredGroup.take (seq : Byte) (samples : List Sample) (e : StoredGroup) : StoredGroup :=
  { e with current := some samples, lastSeq := some seq }

/-- A GROUP FRAME at VP: dropped at a clear bin, a mask miss where not stored, a repeat discarded, else taken with an
overwrite counted where a current frame is replaced (R125, R126). -/
def State.groupFrame (g : Group) (seq : Byte) (samples : List Sample) (s : State) : State :=
  if !s.vp.binSet g then s
  else
    match s.vp.find g with
    | none => s.count .maskMisses
    | some e =>
      if e.lastSeq = some seq then s
      else
        let s := s.onVp fun v =>
          { v with store := v.store.map fun e => if e.group = g then e.take seq samples else e }
        if e.current.isSome then s.count .groupOverwrites else s

/-! ## The status snapshot (R166, section 12.2) -/

/-- The node state byte; STANDBY is never reported (R166). -/
def NodeState.code : NodeState → Byte
  | .standby => 0
  | .loading => 1
  | .fault => 2
  | .joining => 3
  | .run => 4

def TlcState.code : TlcState → Byte
  | .off => 0
  | .waitIdle => 1
  | .idle => 2
  | .arbitrating => 3
  | .sending => 4
  | .receiving => 5
  | .backoff => 6
  | .stuck => 7

/-- The number of serve entries in a state. -/
def Re.inState (r : Re) (x : EntryState) : Nat := (r.serve.filter fun e => e.state == x).length

/-- The serve entries by state, FREE first (R166). -/
def Re.census (r : Re) : List Byte :=
  byteOf (slotCount - r.serve.length) ::
    [EntryState.arriving, .served, .offered, .handing, .draining, .lost].map fun x => byteOf (r.inState x)

/-- The neighbour items with their timers, in configuration order; none without a configuration (R166). -/
def State.holdItems (s : State) : List Byte :=
  match s.cfl.config with
  | some cfg =>
    byteOf cfg.neighbours.length ::
      (List.zipWith (fun n t => [Neighbour.node n, byteOf t]) cfg.neighbours s.tqu.neighbourHolds).flatten
  | none => [0]

/-- The body of a STATUS SNAPSHOT, every item as it stands (R166, section 12.2). -/
def State.snapshot (s : State) : List Byte :=
  [s.cfl.node.code, s.tlc.state.code] ++ word32Bytes s.cfl.identity ++
    [(s.cfl.config.map Settings.node).getD 0] ++ s.re.census ++
    [byteOf s.re.survey.length, byteOf s.re.claimsOutstanding, byteOf s.tqu.freeCount,
     byteOf s.tqu.flow.length, byteOf s.tqu.urgent.length, byteOf s.tqu.handover.length, byteOf s.tqu.report.length,
     byteOf s.tqu.ownHold] ++
    word16Bytes s.mlc.status.word ++
    [flagByte s.tlc.trap.isSome] ++
    word16Bytes ((s.tlc.trap.map fun t => t.arbitration.setWidth 16).getD 0) ++
    word16Bytes ((s.tlc.trap.map fun t => BitVec.ofNat 16 t.faults).getD 0) ++
    s.mlc.counters.flatMap word16Bytes ++ s.holdItems

/-! ## EVICT (R22, R168) -/

/-- The headset of an EVICT body. -/
def evictHeadset : List Byte → Headset
  | [a, b, c, d] => word32 a b c d
  | _ => 0

/-- An EVICT by node state, where the answer slot is free. In RUN it goes to RE, which decides it at once, or, where a
handling is past its point, at that handling's completion (R159, R164, R167, R168; assumption 23). -/
def State.takeEvict (body : List Byte) (s : State) : State :=
  if s.mlc.slotFree then
    match s.cfl.node with
    | .run =>
      if s.tqu.reached then s.onMlc fun m => { m with evict := some (evictHeadset body) }
      else s.evict (evictHeadset body)
    | .joining => s.answer (.evictResult (evictHeadset body) .notServed)
    | .standby | .loading | .fault => s
  else s

/-! ## The outbound direction (R165) -/

/-- The next outbound record begun: the oldest UPLINK, else the answer, else the oldest notice (R165). -/
def Mlc.startRecord (m : Mlc) : Mlc :=
  match m.uplinks, m.answer, m.notices with
  | u :: us, _, _ => { m with uplinks := us, out := m.out ++ [u.bytes] }
  | [], some a, _ => { m with answer := none, out := m.out ++ [a.bytes] }
  | [], none, n :: ns => { m with notices := ns, out := m.out ++ [n.bytes] }
  | [], none, [] => m

/-! ## Commands -/

/-- GROUP_FRAME: passed to VP in JOINING and RUN (R125, R163, R164). -/
def execGroupFrame (record : List Byte) (s : State) : Host.Outcome State Fault Refusal :=
  .next <| s.takeRecord 0x01 162 record fun body s =>
    match s.cfl.node, body with
    | .joining, g :: seq :: samples | .run, g :: seq :: samples => s.groupFrame g seq (readSamples samples)
    | _, _ => s

/-- STATUS_QUERY: a snapshot is gathered into the answer slot where it is free (R164, R166, R167). -/
def execStatusQuery (record : List Byte) (s : State) : Host.Outcome State Fault Refusal :=
  .next <| s.takeRecord 0x02 0 record fun _ s =>
    if s.mlc.slotFree then s.answer (.snapshot s.snapshot) else s

/-- CLEAR, taken in JOINING and RUN: counters, status bits and the trap record (R164, R169). -/
def execClear (record : List Byte) (s : State) : Host.Outcome State Fault Refusal :=
  .next <| s.takeRecord 0x03 0 record fun _ s =>
    match s.cfl.node with
    | .joining | .run => (s.onMlc Mlc.clear).onTlc fun t => { t with trap := none }
    | .standby | .loading | .fault => s

/-- EVICT (R22, R164, R167, R168). -/
def execEvict (record : List Byte) (s : State) : Host.Outcome State Fault Refusal :=
  .next <| s.takeRecord 0x04 4 record State.takeEvict

/-- RESTART, taken in JOINING and RUN: a warm restart (R164, R170, R181). -/
def execRestart (record : List Byte) (s : State) : Host.Outcome State Fault Refusal :=
  .next <| s.takeRecord 0x05 0 record fun _ s =>
    match s.cfl.node with
    | .joining | .run => s.warmRestart
    | .standby | .loading | .fault => s

/-- OUTBOUND_RECORD_START: with the link free, the next record begins to be sent; in STANDBY the link is silent (R164, R165). -/
def execOutboundRecordStart (s : State) : Host.Outcome State Fault Refusal :=
  .next <|
    match s.cfl.node with
    | .standby => s
    | .loading | .fault | .joining | .run => s.onMlc Mlc.startRecord

end Sys2Proof.Machine
end

