-- ==== Sys2Proof/Machine/Trunk.lean ====
section
/-! DEFINITION. TLC and the outcomes of its attempts: run counts, access, arbitration, reading, placement, faults,
backoff and the held line (chapters Trunk Signalling and Access, Transmit Classes and Inbound Flow Control). -/

namespace Sys2Proof.Machine

/-! ## Bit times and runs (R131, R143) -/

/-- The idle run counts up to 11, the held run up to 64 (R131). -/
def idleLimit : Nat := 11
def heldLimit : Nat := 64
/-- The idle run after which the line is free (R135). -/
def gapLength : Nat := 3

/-- `n` bit times pass: a running backoff wait counts them, whatever the line carries (R143). -/
def Tlc.elapse (n : Nat) (t : Tlc) : Tlc := { t with wait := t.wait - n }

/-- One symbol read (R131). -/
def Tlc.read (x : LineSymbol) (t : Tlc) : Tlc :=
  match x with
  | .idle => { t with idleRun := min idleLimit (t.idleRun + 1), heldRun := 0 }
  | .held => { t with idleRun := 0, heldRun := min heldLimit (t.heldRun + 1) }
  | .dominant | .recessive | .violation => { t with idleRun := 0, heldRun := 0 }

/-- Both runs 0, as after the bits of a frame (R131). -/
def Tlc.noRun (t : Tlc) : Tlc := { t with idleRun := 0, heldRun := 0 }

/-- The state between frames: BACKOFF while a wait runs, else IDLE (R134). -/
def Tlc.restState (t : Tlc) : TlcState := if t.wait = 0 then .idle else .backoff

/-- TLC between frames, nothing being read. -/
def Tlc.rest (t : Tlc) : Tlc := { t with state := t.restState, reading := none }

/-- TLC begins to read a frame, the runs as the symbol read left them; `follows` after its own bit fault (R135, R136, R141). -/
def Tlc.startReading (follows : Bool) (t : Tlc) : Tlc :=
  { t with state := .receiving, attempt := none
           reading := some { follows := follows, crcRead := false, acknowledges := false } }

/-- TLC loses its frame timing: it enters WAIT_IDLE (R137), and where the idle run stands at 11 by then, as it does where the
line was quiet before a start bit that came back as IDLE, it leaves it at once (R134; assumption 31). -/
def Tlc.loseTiming (t : Tlc) : Tlc :=
  if t.idleRun = idleLimit then t.rest else { t with state := .waitIdle, reading := none }

/-- The symbol of a fault, `bits` bit times after the last trunk event. The symbols between are bits of the frame or a run of
HELD (`held`), which end the idle run; where there are none, the symbol follows that event's own symbol and goes on with its
run (R131). -/
def Tlc.readFault (bits : Nat) (held : Bool) (x : LineSymbol) (t : Tlc) : Tlc :=
  (if held || decide (1 < bits) then (t.elapse bits).noRun else t.elapse bits).read x

/-! ## Backoff (R143) -/

/-- The generator advanced: shifted toward its high end, bits 15, 13, 12 and 10 combined into the lowest place (R143). -/
def advanceGenerator (g : BitVec 16) : BitVec 16 :=
  (g <<< 1) ||| (BitVec.ofBool (g.getLsbD 15 ^^ g.getLsbD 13 ^^ g.getLsbD 12 ^^ g.getLsbD 10)).setWidth 16

/-- The draw r for a failure count n: the advanced register modulo 2^min(n, 5) (R143). -/
def drawBackoff (g : BitVec 16) (n : Nat) : Nat := (advanceGenerator g).toNat % 2 ^ min n 5

/-- A backoff wait of r × 32 bit times started for a failure count n (R143). -/
def Tlc.startBackoff (n : Nat) (t : Tlc) : Tlc :=
  { t with generator := advanceGenerator t.generator, wait := drawBackoff t.generator n * 32 }

/-! ## The message in hand at TQU (R149, R151) -/

/-- Whether a message is in hand. -/
def Queued.held (m : Queued) : Bool := m.inHand

/-- A message out of TLC's hand. -/
def Queued.letGo (m : Queued) : Queued := { m with inHand := false, replaced := false }

/-- The message that is in hand and still in its queue. -/
def Tqu.inHand (t : Tqu) : Option Queued := (t.flow ++ t.urgent ++ t.handover ++ t.report).find? Queued.held

/-- Change the message in hand in its queue. -/
def Tqu.changeInHand (f : Queued → Queued) (t : Tqu) : Tqu :=
  match t.inHand with
  | some m => t.onQueue m.cls (changeFirst Queued.held f)
  | none => t

/-- Remove the message in hand from its queue. -/
def Tqu.removeInHand (t : Tqu) : Tqu :=
  match t.inHand with
  | some m => t.onQueue m.cls (removeFirst Queued.held)
  | none => t

/-- TQU's selected message marked in hand; it stays in its queue (R149). -/
def Tqu.takeInHand (cfg : Settings) (m : Queued) (t : Tqu) : Tqu :=
  t.onQueue m.cls (changeFirst (t.eligible cfg) fun m => { m with inHand := true })

/-! ## Outcomes at RE (R15, R60, R85, R91, R151) -/

/-- The entry in HANDING (YIELD_PENDING) that a YIELD's outcome belongs to (R15). -/
def State.pendingYield (s : State) (c : Context) (claimant : Node) : Option (ServeEntry × HandingRecord) :=
  match s.entryFor c.headset with
  | some e =>
    match e.state, e.handing with
    | .handing, some h =>
      if h.phase = .yieldPending ∧ h.claimant = claimant ∧ h.tag = c.tag then some (e, h) else none
    | _, _ => none
  | none => none

/-- A delivered YIELD of a handover: MOVE_SENT with the timer T_h, and the MOVE ORDER; a refused order reverts the entry
at once (R15). -/
def State.sendMove (cfg : Settings) (e : ServeEntry) (h : HandingRecord) (s : State) : State :=
  let s := s.updateEntry e.slot fun e =>
    { e with handing := some { h with phase := .moveSent, timer := some cfg.handingTime } }
  match s.apc.order e.slot .move (.moveOrder e.slot h.channel h.slot) with
  | some a => { s with apc := a }
  | none => s.revert cfg e.slot

/-- The outcome of a YIELD for a NORMAL claim (R15). -/
def State.yieldOutcome (cfg : Settings) (delivered : Bool) (c : Context) (claimant : Node) (s : State) : State :=
  match s.pendingYield c claimant with
  | some (e, h) =>
    if delivered then s.sendMove cfg e h else s.updateEntry e.slot (ServeEntry.fromHanding cfg)
  | none => s

/-- The outcome of a YIELD owed to a seek winner (R91). -/
def State.owedOutcome (cfg : Settings) (c : Context) (winner : Node) (s : State) : State :=
  match s.entryFor c.headset with
  | some e =>
    if e.state = .lost ∧ e.yieldOwed = some { winner := winner, tag := c.tag } then s.concludeYield cfg e.slot winner
    else s
  | none => s

/-- The outcome of a NORMAL CLAIM: SENT with the reply timer, or failed with its knowledge removed (R60). -/
def State.claimOutcome (cfg : Settings) (delivered : Bool) (c : ClaimBody) (s : State) : State :=
  match s.claimOf c.headset c.tag with
  | some (_, r) =>
    if r.kind = .normal ∧ r.phase = .queued then
      if delivered then
        s.updateSurvey c.headset fun e =>
          { e with claim := some { r with phase := .sent, replyTimer := some cfg.replyTime } }
      else (s.failClaim c.headset).updateSurvey c.headset SurveyEntry.forget
    else s
  | none => s

/-- The outcome of a SEEK CLAIM: undeliverable, it fails; delivered, it wins unless a rival waits in the pool (R85, R92). -/
def State.seekOutcome (cfg : Settings) (delivered : Bool) (c : ClaimBody) (s : State) : State :=
  match s.claimOf c.headset c.tag with
  | some (e, r) =>
    if r.kind = .seek then
      if !delivered then s.endClaim c.headset
      else if s.tqu.rivalWaits c.headset then s.withdrawSeek c.headset
      else s.winSeek cfg e r
    else s
  | none =>
    match s.reclaimOf c.headset c.tag with
    | some e =>
      if !delivered then s.failReclaim e.slot
      else if s.tqu.rivalWaits c.headset then s.withdrawReclaim e.slot
      else s.winReclaim cfg e.slot
    | none => s

/-- The owner of a message is told its outcome; TAKEN, DECLINE, STANDING and HOLD change nothing (R151). -/
def State.tellOwner (cfg : Settings) (delivered : Bool) (m : Queued) (s : State) : State :=
  match m.body, m.cls with
  | .yield c, .urgent => s.owedOutcome cfg c m.destination
  | .yield c, _ => s.yieldOutcome cfg delivered c m.destination
  | .claim c, _ =>
    match c.kind with
    | .normal => s.claimOutcome cfg delivered c
    | .seek => s.seekOutcome cfg delivered c
  | .hold _, _ | .taken _ _ _, _ | .decline _ _ _, _ | .standing _, _ => s

/-- A counted failure of the attempt's message: the count rises; below 8 the message stays and a backoff wait starts, at 8
it is dropped, counted and reported undeliverable. A message RE has removed meanwhile only starts the wait
(R143, R145, R151; R152 and assumption 12 for a replaced HOLD). -/
def State.failAttempt (a : Attempt) (s : State) : State :=
  match s.tqu.inHand with
  | some m =>
    if m.failures + 1 < attemptLimit then
      (s.onTqu (Tqu.changeInHand fun m => { m.letGo with failures := m.failures + 1 })).onTlc
        (Tlc.startBackoff (m.failures + 1))
    else
      ((s.onTqu Tqu.removeInHand).count .droppedAtLimit).whenRun fun cfg s => s.tellOwner cfg false m
  | none =>
    if a.message.failures + 1 < attemptLimit then s.onTlc (Tlc.startBackoff (a.message.failures + 1)) else s

/-! ## Placement (R139, R157, R160, R161) -/

/-- Whether a sound frame concerns this node (R139). -/
def concernsNode (own : Node) (arbitration : BitVec 13) (destination : Node) : Bool :=
  let sender := arbitrationSender arbitration
  (destination == own || destination == broadcast) && sender != own && sender != 0 && sender != 255 &&
    decide (arbitrationKind arbitration ≤ 5)

/-- The message as a buffer holds it (R156). -/
def placedMessage (arbitration : BitVec 13) (destination : Node) (payload : List Byte) : Placed :=
  { cls := arbitrationClass arbitration, kind := arbitrationKind arbitration, sender := arbitrationSender arbitration,
    destination := destination, payload := payload }

/-- Whether a placed message is a CLAIM addressed to this node, for which a reply place is reserved (R157, R158). -/
def Placed.isAddressedClaim (own : Node) (p : Placed) : Bool := p.kind == 3 && p.destination == own

/-- Whether a buffer, and for an addressed CLAIM a reply place, is free for a message (R157). -/
def Tqu.canPlace (own : Node) (p : Placed) (t : Tqu) : Bool :=
  decide (0 < t.freeCount) && (!p.isAddressedClaim own || t.handoverRoom)

/-- A message placed: a buffer taken, for an addressed CLAIM a reservation made, and the onset of a hold (R157, R158, R160). -/
def Tqu.place (cfg : Settings) (p : Placed) (t : Tqu) : Tqu :=
  Tqu.holdOnset cfg
    { t with pool := t.pool ++ [p]
             reservations := if p.isAddressedClaim cfg.node then t.reservations + 1 else t.reservations }

/-- The acknowledge slot of the frame being read is driven (R140). -/
def Tlc.acknowledge (t : Tlc) : Tlc := { t with reading := t.reading.map fun r => { r with acknowledges := true } }

/-- TQU's decision on a sound frame in RUN (table of R157). -/
def State.offerFrame (cfg : Settings) (p : Placed) (s : State) : State :=
  if p.kind = 0 then
    match readHold p.payload with
    | some time =>
      if cfg.isNeighbour p.sender then (s.onTqu (Tqu.setHold cfg p.sender time)).onTlc Tlc.acknowledge else s
    | none => s
  else if p.kind = 5 ∧ !cfg.isNeighbour p.sender then s
  else if s.tqu.canPlace cfg.node p then (s.onTqu (Tqu.place cfg p)).onTlc Tlc.acknowledge
  else s.count .inboundOverruns

/-- The trap record after a CRC fault (R138). -/
def trapAfter (arbitration : BitVec 13) : Option Trap → Option Trap
  | none => some { arbitration := arbitration, faults := 1 }
  | some t => some { t with faults := min 65535 (t.faults + 1) }

/-- A CRC fault: counted, the trap record loaded or its count raised (R138). -/
def State.crcFault (arbitration : BitVec 13) (s : State) : State :=
  (s.count .crcFaults).onTlc fun t => { t with trap := trapAfter arbitration t.trap }

/-! ## The held line, and symbols outside a frame (R131, R134, R135, R143, R144, R146) -/

/-- TLC in STUCK: the attempt, the reading and a running wait are over (R144, assumption 13). -/
def Tlc.stick (t : Tlc) : Tlc := { t with state := .stuck, attempt := none, reading := none, wait := 0 }

/-- The entry to STUCK: the message in hand stays queued uncounted, TRUNK_STUCK is set, notice FAULT is sent (R144). -/
def State.enterStuck (s : State) : State :=
  (((s.onTqu (Tqu.changeInHand Queued.letGo)).onTlc Tlc.stick).onMlc fun m =>
    m.withStatus { m.status with trunkStuck := true }).notify .faultTrunkStuck

/-- A held run of 64 is the entry to STUCK; a shorter one has no effect by itself (R144). -/
def State.stickIfHeld (s : State) : State := if s.tlc.heldRun = heldLimit then s.enterStuck else s

/-- TLC reports to CFL that it has entered IDLE or RECEIVING (R134, R180). -/
def State.reportEntry (s : State) : State :=
  match s.tlc.state with
  | .idle | .receiving => s.reportTrunk
  | .off | .waitIdle | .arbitrating | .sending | .backoff | .stuck => s

/-- One symbol of the line. In every state but OFF it is a bit time and moves the runs, and a held run of 64 is the entry to
STUCK (R131, R143, R144). Outside a frame it has the effect of TLC's state: in WAIT_IDLE a DOMINANT after 3 IDLE is a start
bit and an idle run of 11 leads on; in IDLE and BACKOFF a DOMINANT is another node's start bit; in BACKOFF the end of the
wait leads to IDLE; in STUCK an idle run of 11 does (R134, R135, R146). Every other symbol only moves the runs. -/
def State.hear (x : LineSymbol) (s : State) : State :=
  let t := s.onTlc fun t => (t.elapse 1).read x
  match s.tlc.state with
  | .off => s
  | .arbitrating | .sending | .receiving => t.stickIfHeld
  | .waitIdle =>
    if x = .dominant ∧ gapLength ≤ s.tlc.idleRun then (t.onTlc (Tlc.startReading false)).reportEntry
    else if t.tlc.idleRun = idleLimit then (t.onTlc Tlc.rest).reportEntry
    else t.stickIfHeld
  | .idle => if x = .dominant then t.onTlc (Tlc.startReading false) else t.stickIfHeld
  | .backoff =>
    if x = .dominant then (t.onTlc (Tlc.startReading false)).reportEntry
    else (t.onTlc Tlc.rest).reportEntry.stickIfHeld
  | .stuck => if t.tlc.idleRun = idleLimit then (t.onTlc fun t => { t with state := .idle }).reportEntry else t

/-- A run of symbols, in the order received (R131). -/
def State.hearAll (line : List LineSymbol) (s : State) : State := line.foldl (fun s x => s.hear x) s

/-! ## Commands -/

/-- TRUNK_ATTEMPT_START: in IDLE, the symbols of `line` heard; where the line is then free and TQU offers a message, TLC sends
its start bit with that message in hand (R135, R149). The start bit is not read yet, so the runs are those of the line. -/
def execTrunkAttemptStart (line : List LineSymbol) (s : State) : Host.Outcome State Fault Refusal :=
  .next <|
    match s.tlc.state, s.cfl.config with
    | .idle, some cfg =>
      let s := s.hearAll line
      if s.tlc.state = .idle ∧ gapLength ≤ s.tlc.idleRun then
        match s.tqu.select cfg with
        | some m =>
          (s.onTqu (Tqu.takeInHand cfg m)).onTlc fun t =>
            { t with state := .arbitrating, attempt := some { message := m, frame := buildFrame cfg.node m } }
        | none => s
      else s
    | _, _ => s

/-- ARBITRATION_WON: the bits of the arbitration field, read as sent, have ended both runs (R131, R136). -/
def execArbitrationWon (s : State) : Host.Outcome State Fault Refusal :=
  .next <|
    match s.tlc.state with
    | .arbitrating => s.onTlc fun t => { t.noRun with state := .sending }
    | _ => s

/-- ARBITRATION_LOST: counted; the message returns to its queue uncounted and TLC reads the winner's frame (R136, R151). -/
def execArbitrationLost (s : State) : Host.Outcome State Fault Refusal :=
  .next <|
    match s.tlc.state with
    | .arbitrating =>
      ((s.count .arbitrationLosses).onTqu (Tqu.changeInHand Queued.letGo)).onTlc fun t =>
        (t.read .dominant).startReading false
    | _ => s

/-- Whether something read makes a bit fault in the state TLC is in. In ARBITRATING a DOMINANT read for a RECESSIVE sent is
an arbitration loss instead, and the start bit is sent there; a HELD makes one only as its run ends before 64 (R136, R141,
R144). -/
def bitFaultIn (state : TlcState) : BitFaultCause → Bool
  | .startBit read => read != .dominant && read != .held && state == .arbitrating
  | .differs read =>
    read != .held && (state == .sending || (state == .arbitrating && read != .dominant))
  | .heldRun ended => ended != .held && (state == .sending || state == .arbitrating)

/-- The symbol at which a bit fault is found, read. The bits of the frame before it, or its run of HELD, have ended both runs;
a start bit follows the quiet line and goes on with its run (R131). -/
def Tlc.readBitFault (cause : BitFaultCause) (t : Tlc) : Tlc :=
  match cause with
  | .startBit read => t.read read
  | .differs read => t.noRun.read read
  | .heldRun ended => t.noRun.read ended

/-- BIT_FAULT: counted, a counted failure of the message in hand, and TLC follows the rest of the frame (R141, R144).
DESIGN CHOICE (assumption 32): it follows in RECEIVING where the faulted bit itself was read as IDLE or VIOLATION too, and goes
to WAIT_IDLE only as a later symbol shows the line IDLE or a framing fault. Unsafe. -/
def execBitFault (cause : BitFaultCause) (s : State) : Host.Outcome State Fault Refusal :=
  .next <|
    match s.tlc.attempt with
    | some a =>
      if bitFaultIn s.tlc.state cause then
        ((s.count .bitFaults).onTlc fun t => (t.readBitFault cause).startReading true).failAttempt a
      else s
    | none => s

/-- DELIVERED: counted as sent, the message removed from its queue and its owner told; a HOLD replaced while in hand stays
with its new time (R142, R151, R152). -/
def execDelivered (s : State) : Host.Outcome State Fault Refusal :=
  .next <|
    match s.tlc.state, s.tlc.attempt with
    | .sending, some _ =>
      let s := (s.count .sent).onTlc fun t => { t.noRun with attempt := none }
      match s.tqu.inHand with
      | some m =>
        if m.replaced then s.onTqu (Tqu.changeInHand fun m => { m.letGo with failures := 0 })
        else (s.onTqu Tqu.removeInHand).whenRun fun cfg s => s.tellOwner cfg true m
      | none => s
    | _, _ => s

/-- ACKNOWLEDGE_FAILURE: counted, and a counted failure of the message in hand; TLC finishes the frame (R142, R143). -/
def execAcknowledgeFailure (read : LineSymbol) (s : State) : Host.Outcome State Fault Refusal :=
  .next <|
    match s.tlc.state, s.tlc.attempt with
    | .sending, some a =>
      if read = .dominant ∨ read = .held then s
      else
        ((s.count .acknowledgeFailures).onTlc fun t => { t.noRun.read read with attempt := none }).failAttempt a
    | _, _ => s

/-- BACKOFF_END: the symbols of `line` pass while a wait can run; with its end TLC goes from BACKOFF to IDLE (R143). -/
def execBackoffEnd (line : List LineSymbol) (s : State) : Host.Outcome State Fault Refusal :=
  .next <|
    match s.tlc.state with
    | .backoff | .waitIdle | .arbitrating | .sending | .receiving => s.hearAll line
    | .off | .idle | .stuck => s

/-- ANOTHER_NODES_START_BIT: the symbols of `line` and a DOMINANT behind them, outside a frame. In IDLE and BACKOFF it begins
another node's frame (R135); in STUCK it is not read as one and only ends the runs (R146); in WAIT_IDLE it begins a frame
after 3 IDLE alone (R134). -/
def execAnotherNodesStartBit (line : List LineSymbol) (s : State) : Host.Outcome State Fault Refusal :=
  .next <|
    match s.tlc.state with
    | .idle | .backoff | .waitIdle | .stuck => s.hearAll (line ++ [.dominant])
    | .off | .arbitrating | .sending | .receiving => s

/-- A framing fault: counted, timing lost (R137). -/
def State.framingFault (s : State) : State := (s.count .framingFaults).onTlc Tlc.loseTiming

/-- FRAME_RECEIVED: at the end of the CRC field of a frame being read, `bits` bit times on, the CRC and the header are
checked and a sound frame for this node goes to TQU (R138, R139, R157). In JOINING nothing is placed (R180), and a node
that follows after its own bit fault hands nothing on (R141, assumption 10). A payload above 48 bytes is a length out of
range (R137). -/
def execFrameReceived (bits : Nat) (arbitration : BitVec 13) (destination : Node) (payload : List Byte) (crc : Byte)
    (s : State) : Host.Outcome State Fault Refusal :=
  .next <|
    match s.tlc.state, s.tlc.reading with
    | .receiving, some r =>
      if r.crcRead then s
      else
        let s := s.onTlc fun t => { (t.elapse bits).noRun with reading := some { r with crcRead := true } }
        if payloadLimit < payload.length then s.framingFault
        else if crc ≠ frameCrc arbitration destination payload then s.crcFault arbitration
        else if r.follows then s
        else
          s.whenRun fun cfg s =>
            if concernsNode cfg.node arbitration destination then
              s.offerFrame cfg (placedMessage arbitration destination payload)
            else s
    | _, _ => s

/-- FRAME_END: the last bit of the end field, `bits` bit times on, of a frame read, or of a frame sent whose outcome is
known; TLC goes to IDLE, or to BACKOFF while a wait runs (R140, R142). -/
def execFrameEnd (bits : Nat) (s : State) : Host.Outcome State Fault Refusal :=
  .next <|
    match s.tlc.state, s.tlc.attempt with
    | .receiving, _ | .sending, none => s.onTlc fun t => (t.elapse bits).noRun.rest
    | _, _ => s

/-- The symbol last read at a framing fault, as the runs take it. -/
def faultSymbol : FramingCause → LineSymbol
  | .stoppedShort => .idle
  | .frameEndNotSeen idle => if idle then .idle else .dominant
  | .violation => .violation
  | .heldRun ended => ended
  | .lengthOutOfRange => .recessive

/-- Whether a run of HELD lies before the symbol at which a framing fault is found. -/
def framingAfterHeld : FramingCause → Bool
  | .heldRun _ => true
  | .stoppedShort | .violation | .lengthOutOfRange | .frameEndNotSeen _ => false

/-- A run of HELD that goes on is no framing fault (R144). -/
def framingStands : FramingCause → Bool
  | .heldRun ended => ended != .held
  | .stoppedShort | .violation | .lengthOutOfRange | .frameEndNotSeen _ => true

/-- Whether a framing fault can be found after the outcome of a frame this node sends: in its delimiter or end field (R141, R142). -/
def faultAfterOutcome : FramingCause → Bool
  | .violation | .heldRun _ | .frameEndNotSeen _ => true
  | .stoppedShort | .lengthOutOfRange => false

/-- FRAMING_FAULT: counted, the frame discarded, TLC in WAIT_IDLE (R137). A node that follows after its own bit fault and
finds the line gone IDLE goes to WAIT_IDLE without a count (R141, assumption 10). -/
def execFramingFault (bits : Nat) (cause : FramingCause) (s : State) : Host.Outcome State Fault Refusal :=
  .next <|
    let lost := s.onTlc (Tlc.readFault bits (framingAfterHeld cause) (faultSymbol cause))
    match s.tlc.state, s.tlc.attempt with
    | .receiving, _ =>
      if cause = .stoppedShort ∧ s.tlc.reading.any Reading.follows then lost.onTlc Tlc.loseTiming
      else if framingStands cause then lost.framingFault
      else s
    | .sending, none => if framingStands cause && faultAfterOutcome cause then lost.framingFault else s
    | _, _ => s

/-- WAIT_IDLE_EXIT: the symbols of `line` heard in WAIT_IDLE. An idle run of 11 leads to IDLE, or to BACKOFF while a wait
runs; a DOMINANT symbol after an idle run of 3 or more is a start bit (R134). -/
def execWaitIdleExit (line : List LineSymbol) (s : State) : Host.Outcome State Fault Refusal :=
  .next <|
    match s.tlc.state with
    | .waitIdle => s.hearAll line
    | .off | .idle | .arbitrating | .sending | .receiving | .backoff | .stuck => s

/-- STUCK_ENTRY: the symbols of `line` heard, inside a frame or outside one; the 64th HELD in a row takes TLC into STUCK
(R144). -/
def execStuckEntry (line : List LineSymbol) (s : State) : Host.Outcome State Fault Refusal :=
  .next <| s.hearAll line

/-- STUCK_EXIT: the symbols of `line` heard in STUCK. An idle run of 11 takes TLC to IDLE, every other symbol sets it to 0
(R146); in JOINING the trunk is reported joined (R134). -/
def execStuckExit (line : List LineSymbol) (s : State) : Host.Outcome State Fault Refusal :=
  .next <|
    match s.tlc.state with
    | .stuck => s.hearAll line
    | .off | .waitIdle | .idle | .arbitrating | .sending | .receiving | .backoff => s

end Sys2Proof.Machine
end

