-- ==== Sys2Proof/Machine/Dispatch.lean ====
section
/-! DEFINITION. The dispatch of commands to their meanings, in the order of spec/opcode_table.json. -/

namespace Sys2Proof.Machine

def exec (i : Instr) (s : State) : Host.Outcome State Fault Refusal :=
  match i with
  | .powerOn => Sys2Proof.Machine.execPowerOn s
  | .resetLineAsserted => Sys2Proof.Machine.execResetLineAsserted s
  | .resetLineReleased => Sys2Proof.Machine.execResetLineReleased s
  | .configLoadComplete image => Sys2Proof.Machine.execConfigLoadComplete image s
  | .cycleMark record => Sys2Proof.Machine.execCycleMark record s
  | .arrivalTimeout slot => Sys2Proof.Machine.execArrivalTimeout slot s
  | .handingTimeout slot => Sys2Proof.Machine.execHandingTimeout slot s
  | .rescueTimeout slot => Sys2Proof.Machine.execRescueTimeout slot s
  | .replyTimeout headset => Sys2Proof.Machine.execReplyTimeout headset s
  | .settleEnd slot => Sys2Proof.Machine.execSettleEnd slot s
  | .cutLink slot => Sys2Proof.Machine.execCutLink slot s
  | .surveyAging headset => Sys2Proof.Machine.execSurveyAging headset s
  | .knowledgeExpiry headset => Sys2Proof.Machine.execKnowledgeExpiry headset s
  | .listenInEnd => Sys2Proof.Machine.execListenInEnd s
  | .seekHoldOffEnd headset => Sys2Proof.Machine.execSeekHoldOffEnd headset s
  | .orderExpiry slot => Sys2Proof.Machine.execOrderExpiry slot s
  | .ownHoldExpiry => Sys2Proof.Machine.execOwnHoldExpiry s
  | .neighbourHoldExpiry node => Sys2Proof.Machine.execNeighbourHoldExpiry node s
  | .drainEmpty slot => Sys2Proof.Machine.execDrainEmpty slot s
  | .slotReport record => Sys2Proof.Machine.execSlotReport record s
  | .surveyReport record => Sys2Proof.Machine.execSurveyReport record s
  | .seekCall record => Sys2Proof.Machine.execSeekCall record s
  | .orderResult record => Sys2Proof.Machine.execOrderResult record s
  | .trunkAttemptStart line => Sys2Proof.Machine.execTrunkAttemptStart line s
  | .arbitrationLost => Sys2Proof.Machine.execArbitrationLost s
  | .bitFault cause => Sys2Proof.Machine.execBitFault cause s
  | .delivered => Sys2Proof.Machine.execDelivered s
  | .acknowledgeFailure read => Sys2Proof.Machine.execAcknowledgeFailure read s
  | .backoffEnd line => Sys2Proof.Machine.execBackoffEnd line s
  | .frameReceived bits arbitration destination payload crc => Sys2Proof.Machine.execFrameReceived bits arbitration destination payload crc s
  | .frameEnd bits => Sys2Proof.Machine.execFrameEnd bits s
  | .framingFault bits cause => Sys2Proof.Machine.execFramingFault bits cause s
  | .waitIdleExit line => Sys2Proof.Machine.execWaitIdleExit line s
  | .stuckEntry line => Sys2Proof.Machine.execStuckEntry line s
  | .stuckExit line => Sys2Proof.Machine.execStuckExit line s
  | .takenHandling => Sys2Proof.Machine.execTakenHandling s
  | .claimHandling => Sys2Proof.Machine.execClaimHandling s
  | .seekClaimHandling => Sys2Proof.Machine.execSeekClaimHandling s
  | .yieldHandling => Sys2Proof.Machine.execYieldHandling s
  | .declineHandling => Sys2Proof.Machine.execDeclineHandling s
  | .standingHandling => Sys2Proof.Machine.execStandingHandling s
  | .handlingComplete => Sys2Proof.Machine.execHandlingComplete s
  | .groupFrame record => Sys2Proof.Machine.execGroupFrame record s
  | .statusQuery record => Sys2Proof.Machine.execStatusQuery record s
  | .clear record => Sys2Proof.Machine.execClear record s
  | .evict record => Sys2Proof.Machine.execEvict record s
  | .restart record => Sys2Proof.Machine.execRestart record s
  | .outboundRecordStart => Sys2Proof.Machine.execOutboundRecordStart s
  | .anotherNodesStartBit line => Sys2Proof.Machine.execAnotherNodesStartBit line s
  | .arbitrationWon => Sys2Proof.Machine.execArbitrationWon s

end Sys2Proof.Machine
end

