-- ==== Sys2Proof/Safety.lean ====
section
/-! DEFINITION. What the manual says holds of the part at all times, block by block, as predicates on the state. A run is
safe when each of its states meets them; nothing stops a run. -/

namespace Sys2Proof.Machine

/-- MLC: 29 counters, at most 16 notices and 48 UPLINK records, the attention line as R173 says, and no answer in the slot
while an EVICT waits for it (R165, R167, R171, R173). -/
structure Mlc.Sound (m : Mlc) : Prop where
  counters : m.counters.length = counterCount
  notices : m.notices.length ≤ noticeCapacity
  uplinks : m.uplinks.length ≤ uplinkCapacity
  attention : m.attention = attentionOf m.enables m.status
  evict : m.evict.isSome = true → m.answer = none

/-- A status bit set in `b` is set in `c` (R173). -/
structure StatusBits.Within (b c : StatusBits) : Prop where
  trunkRollover : b.trunkRollover = true → c.trunkRollover = true
  trunkStuck : b.trunkStuck = true → c.trunkStuck = true
  roamRollover : b.roamRollover = true → c.roamRollover = true
  voiceRollover : b.voiceRollover = true → c.voiceRollover = true
  configClamped : b.configClamped = true → c.configClamped = true
  configFault : b.configFault = true → c.configFault = true
  noticeLoss : b.noticeLoss = true → c.noticeLoss = true

/-- The longest backoff wait, 31 × 32 bit times (R143). -/
def longestWait : Nat := 992

/-- TLC: the generator is never 0 and the wait and the runs are bounded (R131, R143); a message is in hand in ARBITRATING
and at no time outside ARBITRATING and SENDING (R134, R135); a frame is being read in RECEIVING alone (R134); the trap record
counts from 1 to 65535 (R138). -/
structure Tlc.Sound (t : Tlc) : Prop where
  generator : t.generator ≠ 0
  wait : t.wait ≤ longestWait
  idleRun : t.idleRun ≤ idleLimit
  heldRun : t.heldRun ≤ heldLimit
  attempt : t.attempt.isSome = true → t.state = .arbitrating ∨ t.state = .sending
  arbitrating : t.state = .arbitrating → t.attempt.isSome = true
  reading : t.reading.isSome = true ↔ t.state = .receiving
  trap : ∀ r, t.trap = some r → 1 ≤ r.faults ∧ r.faults ≤ 65535

/-- APC: 24 slots, and an order pending on an ASSIGNED slot alone (R99, R101, R105). -/
structure Apc.Sound (a : Apc) : Prop where
  slots : a.slots.length = slotCount
  orders : ∀ x ∈ a.slots, x.order.isSome = true → x.state.isAssigned = true

/-- VP: at most 12 groups, none twice, each with a reference, and the mask of the store (R121, R124). -/
structure Vp.Sound (v : Vp) : Prop where
  capacity : v.store.length ≤ storeCapacity
  distinct : (v.store.map StoredGroup.group).Nodup
  referenced : ∀ e ∈ v.store, 1 ≤ e.refs
  mask : v.mask = maskOf v.store

/-- TQU: the depths of the queues and of the pool (R148, R156); HANDOVER with the places kept for replies stays within
6 (R158). -/
structure Tqu.Sound (t : Tqu) : Prop where
  flow : t.flow.length ≤ flowDepth
  urgent : t.urgent.length ≤ urgentDepth
  handover : t.handover.length + t.reservations ≤ handoverDepth
  report : t.report.length ≤ reportDepth
  pool : t.pool.length ≤ poolCapacity

/-- The reservations of a node numbered `own` are the CLAIMs addressed to it in the pool, a reply kept belongs to the
oldest of them, its point reached, and a point reached is that of a message in the pool (R158, R159). -/
structure Tqu.Reserved (own : Node) (t : Tqu) : Prop where
  point : t.reached = true → t.pool ≠ []
  count : t.reservations = (t.pool.filter (Placed.isAddressedClaim own)).length
  reply : ∀ m, t.reply = some m →
    m.cls = .handover ∧ t.reached = true ∧ (t.pool.head?.any (Placed.isAddressedClaim own)) = true

/-- The queue law of the whole part: TQU sound, its reservations those of the configured node, and outside RUN nothing in
the pool and no handling past its point (R148, R156, R158, R159, R162, R180). -/
structure State.QueueLaw (s : State) : Prop where
  sound : s.tqu.Sound
  reserved : ∀ cfg, s.cfl.config = some cfg → s.tqu.Reserved cfg.node
  quiet : s.cfl.node ≠ .run →
    s.tqu.pool = [] ∧ s.tqu.reached = false ∧ s.tqu.reservations = 0 ∧ s.tqu.reply = none

/-- The largest smoothed score (R26). -/
def qLimit : Nat := 1440

/-- A serve entry: Q in range, R read from Q, at most 8 frames in its ring (R26, R28, R111). -/
structure ServeEntry.Sound (e : ServeEntry) : Prop where
  q : e.q ≤ qLimit
  r : e.r = reported e.q
  ring : e.ring.frames.length ≤ ringCapacity

/-- A survey entry: Q in range, R read from Q, dwell and pacing in range (R26, R28, R30, R34). -/
structure SurveyEntry.Sound (e : SurveyEntry) : Prop where
  q : e.q ≤ qLimit
  r : e.r = reported e.q
  dwell : e.dwell ≤ 15
  pacing : e.pacing ≤ fullPacing

/-- RE: sound entries; a headset stands in at most one serve entry, in at most one survey entry, and not in both; at most
48 survey entries and 4 claims (R1, R38, R48). -/
structure Re.Sound (r : Re) : Prop where
  serve : ∀ e ∈ r.serve, e.Sound
  survey : ∀ e ∈ r.survey, e.Sound
  serveOnce : (r.serve.map ServeEntry.headset).Nodup
  surveyOnce : (r.survey.map SurveyEntry.headset).Nodup
  apart : ∀ e ∈ r.serve, ∀ x ∈ r.survey, e.headset ≠ x.headset
  capacity : r.survey.length ≤ surveyCapacity
  claims : r.claimsOutstanding ≤ claimCapacity

/-- The claim records that stand. -/
def Re.claimRecords (r : Re) : List ClaimRecord := r.survey.filterMap SurveyEntry.claim

/-- The slot law between RE and APC: the slot of a serve entry is ASSIGNED to its headset, the slot of a claim RESERVED
with its tag, and no two claims hold one slot (R4, R99). -/
structure State.SlotLaw (s : State) : Prop where
  entries : ∀ e ∈ s.re.serve, (s.apc.slot e.slot).state = .assigned e.headset
  claims : ∀ c ∈ s.re.claimRecords, (s.apc.slot c.slot).state = .reserved c.tag
  once : (s.re.claimRecords.map ClaimRecord.slot).Nodup

/-- The references to a group: its count in the store, 0 where it is not stored (R121). -/
def Vp.refs (v : Vp) (g : Group) : Nat := ((v.find g).map StoredGroup.refs).getD 0

/-- The serve entries that list a group and the claims that reserve it (R121). -/
def Re.holders (r : Re) (g : Group) : Nat :=
  (r.serve.filter fun e => g ∈ e.listen.map ListenItem.group).length +
    (r.claimRecords.filter fun c => g ∈ c.groups).length

/-- The reference law between RE and VP: no listen list and no claim names a group twice, and the references to each group
are the serve entries and claims that hold it (R5, R121, R122, R123). -/
structure State.RefLaw (s : State) : Prop where
  listed : ∀ e ∈ s.re.serve, (e.listen.map ListenItem.group).Nodup
  reserved : ∀ c ∈ s.re.claimRecords, c.groups.Nodup
  counts : ∀ g : Group, s.vp.refs g = s.re.holders g

/-- The optional fields of a serve entry stand in the states of R2 alone: origin and arrival timer in ARRIVING, the claim tag
in ARRIVING and in LOST with a reclaim outstanding, the rescue timer in LOST, the handing record in HANDING with its timer
in MOVE_SENT, and a YIELD owed in LOST without a reclaim (R2, R90, R92). -/
structure ServeEntry.Fields (e : ServeEntry) : Prop where
  origin : e.origin.isSome = true ↔ e.state = .arriving
  arrivalTimer : e.arrivalTimer.isSome = true ↔ e.state = .arriving
  tagArriving : e.state = .arriving → e.tag.isSome = true
  tag : e.tag.isSome = true → e.state = .arriving ∨ e.state = .lost
  rescueTimer : e.rescueTimer.isSome = true ↔ e.state = .lost
  handing : e.handing.isSome = true ↔ e.state = .handing
  handingTimer : ∀ h, e.handing = some h → (h.timer.isSome = true ↔ h.phase = .moveSent)
  yieldOwed : e.yieldOwed.isSome = true → e.state = .lost ∧ e.tag = none

/-- The optional fields of a claim record: the reply timer in phase SENT, which a NORMAL claim alone reaches, and what a seek
call carried in a SEEK claim alone (R48). -/
structure ClaimRecord.Fields (c : ClaimRecord) : Prop where
  replyTimer : c.replyTimer.isSome = true ↔ c.phase = .sent
  seek : c.kind = .seek → c.phase = .queued
  call : c.kind = .normal → c.callListen = none ∧ c.callTalk = none

/-- The field law of RE: every optional field stands exactly where R2 and R48 let it. -/
structure State.FieldLaw (s : State) : Prop where
  entries : ∀ e ∈ s.re.serve, e.Fields
  claims : ∀ c ∈ s.re.claimRecords, c.Fields

/-- An EVICT waits at RE only in RUN, while a handling is past its point (R159, R167; assumption 23). -/
def State.EvictLaw (s : State) : Prop := s.mlc.evict.isSome = true → s.cfl.node = .run ∧ s.tqu.reached = true

/-- The node is in RUN with its loaded configuration (R177, R180). -/
structure State.InRun (cfg : Settings) (s : State) : Prop where
  node : s.cfl.node = .run
  config : s.cfl.config = some cfg

/-- The oldest message of the pool is `m`, and the point of its handling has not been reached (R159). -/
structure State.Handles (cfg : Settings) (m : Placed) (s : State) : Prop where
  run : s.InRun cfg
  oldest : s.tqu.pool.head? = some m
  waiting : s.tqu.reached = false

/-- The commands that act in RUN alone: the reports of the front end other than cycle marks (R98), the timers of RE, APC and
TQU, and the handlings (R58, R95, R160, R180). -/
def runOnly : Instr → Bool
  | .arrivalTimeout _ | .handingTimeout _ | .rescueTimeout _ | .replyTimeout _ | .settleEnd _ | .cutLink _
  | .surveyAging _ | .knowledgeExpiry _ | .listenInEnd | .seekHoldOffEnd _ | .orderExpiry _ | .ownHoldExpiry
  | .neighbourHoldExpiry _ | .drainEmpty _ | .slotReport _ | .surveyReport _ | .seekCall _ | .orderResult _
  | .takenHandling | .claimHandling | .seekClaimHandling | .yieldHandling | .declineHandling | .standingHandling
  | .handlingComplete => true
  | .powerOn | .resetLineAsserted | .resetLineReleased | .configLoadComplete _ | .cycleMark _ | .trunkAttemptStart _
  | .arbitrationLost | .bitFault _ | .delivered | .acknowledgeFailure _ | .backoffEnd _ | .frameReceived _ _ _ _ _
  | .frameEnd _ | .framingFault _ _ | .waitIdleExit _ | .stuckEntry _ | .stuckExit _ | .groupFrame _ | .statusQuery _
  | .clear _ | .evict _ | .restart _ | .outboundRecordStart | .anotherNodesStartBit _ | .arbitrationWon => false

/-- A safe state meets every one of these laws. -/
structure State.Safe (s : State) : Prop where
  mlc : s.mlc.Sound
  tlc : s.tlc.Sound
  apc : s.apc.Sound
  vp : s.vp.Sound
  queues : s.QueueLaw
  re : s.re.Sound
  slots : s.SlotLaw
  refs : s.RefLaw
  fields : s.FieldLaw
  evict : s.EvictLaw

end Sys2Proof.Machine
end

