-- ==== Sys2Proof/Certificates/Slice0/Obligations.lean ====
section
/-! DEFINITION. The statements for the provers, in the order of OBLIGATIONS.json: the machine and its start-up, the cycle
mark and the timers, the air port, the scores, the voice path, the trunk, the handlings, the matrix link, and the
invariants. Each docstring names the rules of spec/ a statement formalises. -/

section

open Sys2Proof Sys2Proof.Machine

/-! ## The queue of commands -/

/-- A step takes the command at the front of the queue and is its meaning on the state with the rest of the queue. -/
def Obligations.StepTakesFront : Prop :=
  ∀ (c : Instr) (rest : List Instr) (s : State), s.pending = c :: rest → step s = exec c { s with pending := rest }

/-- Every command completes from every state; none touches the queue of commands or the factory identity (R143, R166).
That a command whose condition does not hold completes too is the model's choice of assumption 2.
With no command waiting the part idles, by the model's choice of assumption 1. -/
def Obligations.EveryCommandCompletes : Prop :=
  (∀ (c : Instr) (s : State), ∃ t : State, exec c s = .next t ∧ t.pending = s.pending ∧ t.cfl.identity = s.cfl.identity) ∧
  (∀ s : State, s.pending = [] → step s = .next s)

/-! ## Reset and start-up -/

/-- The values of R23, R58, R109, R130, R147, R162 and R174 after a cold reset, in STANDBY (R175).
That state meets every law of Safety.lean. -/
def Obligations.ResetValues : Prop :=
  (let s := State.reset
   s.cfl.node = .standby ∧ s.cfl.config = none ∧
   s.re.serve = [] ∧ s.re.survey = [] ∧ s.re.claimCounter = 0 ∧ s.re.listenIn = none ∧
   s.apc.slots = List.replicate 24 { state := .free, order := none } ∧ s.apc.lastCycle = none ∧
   s.vp.store = [] ∧ s.vp.mask = 0 ∧
   s.tqu.flow = [] ∧ s.tqu.urgent = [] ∧ s.tqu.handover = [] ∧ s.tqu.report = [] ∧ s.tqu.pool = [] ∧
   s.tqu.freeCount = 16 ∧ s.tqu.reservations = 0 ∧ s.tqu.ownHold = 0 ∧
   s.tlc.state = .off ∧ s.tlc.idleRun = 0 ∧ s.tlc.heldRun = 0 ∧ s.tlc.attempt = none ∧ s.tlc.wait = 0 ∧
   s.tlc.trap = none ∧
   s.mlc.counters = List.replicate 29 0 ∧ s.mlc.status.word = 0 ∧ s.mlc.enables = ⟨false, false, false, false⟩ ∧
   s.mlc.attention = false ∧ s.mlc.notices = [] ∧ s.mlc.answer = none ∧ s.mlc.evict = none ∧ s.mlc.uplinks = []) ∧
  (State.reset.Safe)

/-- POWER_ON and RESET_LINE_ASSERTED are a cold reset of every block from every state (R175); only the factory identity,
what was already sent and the waiting commands are kept. RESET_LINE_RELEASED takes STANDBY to LOADING and does nothing in
another node state (R175; assumption 8). That the two join conditions are false from the cold reset on is the model's choice of
assumption 33. -/
def Obligations.ColdReset : Prop :=
  (∀ (c : Instr) (s : State), c = .powerOn ∨ c = .resetLineAsserted →
    exec c s = .next
      { cfl := { node := .standby, resetLine := true, trunkJoined := false, airJoined := false, config := none,
                 identity := s.cfl.identity }
        re := { serve := [], survey := [], claimCounter := 0, listenIn := none }
        apc := { slots := List.replicate 24 { state := .free, order := none }, lastCycle := none, out := s.apc.out }
        vp := { store := [], mask := 0 }
        tqu := { flow := [], urgent := [], handover := [], report := [], pool := [], reached := false, reply := none,
                 reservations := 0, ownHold := 0, neighbourHolds := [] }
        tlc := { state := .off, idleRun := 0, heldRun := 0, attempt := none, reading := none, wait := 0,
                 generator := if s.cfl.identity.setWidth 16 = (0 : BitVec 16) then 1 else s.cfl.identity.setWidth 16
                 trap := none }
        mlc := { counters := List.replicate 29 0
                 status := { trunkRollover := false, trunkStuck := false, roamRollover := false, voiceRollover := false,
                             configClamped := false, configFault := false, noticeLoss := false }
                 enables := ⟨false, false, false, false⟩, attention := false, notices := [], answer := none,
                 evict := none, uplinks := [], out := s.mlc.out }
        pending := s.pending }) ∧
  (∀ s : State, s.cfl.node = .standby →
    exec .resetLineReleased s = .next { s with cfl := { s.cfl with node := .loading, resetLine := false } }) ∧
  (∀ s : State, s.cfl.node ≠ .standby → exec .resetLineReleased s = .next s)

/-- The end of LOADING (R176 to R180). An image passes where its format mark is 7C31h, its stated length lies in 43..2048 and
holds the list items it counts, and its last two bytes are the CRC-16 of those before them. It then gives its configuration,
the enables and CONFIG_CLAMPED where something was changed, and the node joins with TLC in WAIT_IDLE and SLOT CLOSE sent for
each slot; an image that fails puts the node in FAULT with CONFIG_FAULT set and the attention line asserted. In another node
state the row changes nothing (assumption 2). The image is taken whole (assumption 28) and a byte it does not give reads FFh
(assumption 14). What the configuration holds is stated in LoadedValuesInRange. -/
def Obligations.ImageLoadEnds : Prop :=
  ∀ (image : List Byte) (s : State),
    let byte (a : Nat) : Byte := (image[a]?).getD 0xFF
    let word (a : Nat) : Nat := (byte a).toNat * 256 + (byte (a + 1)).toNat
    let passes : Prop :=
      word 0 = 0x7C31 ∧ 43 ≤ word 2 ∧ word 2 ≤ 2048 ∧ 43 + 2 * (byte 39).toNat + 16 * (byte 40).toNat ≤ word 2 ∧
        crc16 ((List.range (word 2 - 2)).map byte) = byte (word 2 - 2) ++ byte (word 2 - 1)
    let cfg := loadedSettings image
    let bits := { s.mlc.status with configClamped := s.mlc.status.configClamped || loadClamps image }
    let run (t : State) : Prop := exec (.configLoadComplete image) s = .next t
    (s.cfl.node = .loading → passes →
      run
        { s with
          cfl := { s.cfl with node := .joining, trunkJoined := false, airJoined := false, config := some cfg }
          re := { s.re with listenIn := none }
          apc := { s.apc with lastCycle := none, out := s.apc.out ++ (List.range 24).map fun k => [0x12, 1, byteOf k] }
          tqu := { s.tqu with neighbourHolds := List.replicate cfg.neighbours.length 0 }
          tlc := { s.tlc with state := .waitIdle, idleRun := 0, heldRun := 0, attempt := none, reading := none, wait := 0 }
          mlc := { s.mlc with enables := cfg.enables, status := bits, attention := attentionOf cfg.enables bits } }) ∧
    (s.cfl.node = .loading → ¬passes →
      run
        { s with
          cfl := { s.cfl with node := .fault }
          mlc := { s.mlc with status := { s.mlc.status with configFault := true }, attention := true } }) ∧
    (s.cfl.node ≠ .loading → run s)

/-- Every value of a loaded configuration is the image's (section 12.4), clamped into its range, with M raised to H and T_h to
T_a + 5 where they are below (R32, R68, R177). Of the lists the first 16 neighbour items and the first 64 admission items
that name an identity are taken, their values clamped, a listen count of 0 leaving an admission item without a default block
and counting as 1 in the image's own (R43, R44, R178). So every value lies in its range, those of the default blocks among
them. CONFIG_CLAMPED is due exactly where a value or an item was changed or ignored. A byte that the image does not give reads
FFh (assumption 14). -/
def Obligations.LoadedValuesInRange : Prop :=
  ∀ image : List Byte,
    let cfg := loadedSettings image
    let byte (a : Nat) : Nat := ((image[a]?).getD 0xFF).toNat
    let word (a : Nat) : Nat := byte a * 256 + byte (a + 1)
    let signed (a : Nat) : Int := if byte a < 128 then byte a else (byte a : Int) - 256
    let clamp (lo hi v : Nat) : Nat := max lo (min hi v)
    let identity (a : Nat) : Nat := word a * 65536 + word (a + 2)
    let named (a : Nat) : Prop := identity a ≠ 0 ∧ identity a ≠ 4294967295
    let items : List Nat := (List.range (byte 40)).map fun i => 41 + 2 * byte 39 + 16 * i
    let taken : List Nat := (items.filter fun a => identity a ≠ 0 && identity a ≠ 4294967295).take 64
    let isBlock (b : DefaultBlock) (a : Nat) : Prop :=
      b.listen.length = clamp 1 4 (byte a) ∧
      (∀ (i : Nat) (x : ListenItem), b.listen[i]? = some x →
        x.group.toNat = byte (a + 3 + 2 * i) ∧ x.shift = min 7 (byte (a + 4 + 2 * i))) ∧
      b.talk = if byte (a + 1) = 0 then none else some (BitVec.ofNat 8 (byte (a + 2)))
    let blockKept (lo a : Nat) : Prop := lo ≤ byte a ∧ byte a ≤ 4 ∧ ∀ i < byte a, byte (a + 4 + 2 * i) ≤ 7
    -- the values
    (cfg.node.toNat = clamp 1 254 (byte 4) ∧ cfg.channel = clamp 0 31 (byte 5) ∧ cfg.k = clamp 2 5 (byte 6) ∧
      cfg.hysteresis = clamp 3 20 (byte 7) ∧ cfg.margin = max (clamp 3 20 (byte 7)) (clamp 10 40 (byte 8)) ∧
      cfg.dwellNeed = clamp 1 15 (byte 9) ∧ cfg.floor = clamp 0 90 (byte 10) ∧ cfg.settleTime = byte 11 ∧
      cfg.replyTime = clamp 4 32 (byte 12) ∧ cfg.arrivalTime = clamp 2 16 (byte 13) ∧
      cfg.handingTime = max (clamp 2 16 (byte 13) + 5) (clamp 8 64 (byte 14)) ∧ cfg.seekWait = clamp 2 20 (byte 15) ∧
      cfg.cutLink = clamp 5 50 (byte 16) ∧ cfg.rescueWindow = clamp 50 500 (word 17) ∧ cfg.standing = clamp 5 100 (byte 19) ∧
      cfg.agingLimit = clamp 10 255 (byte 20) ∧ cfg.holdThreshold = clamp 1 8 (byte 21) ∧
      cfg.holdQuanta = clamp 4 64 (byte 22) ∧ cfg.depth = clamp 2 6 (byte 23) ∧ (cfg.fullFill = true ↔ byte 24 = 1) ∧
      cfg.silence.toNat = byte 25 ∧ cfg.enables.trunk = (byte 26).testBit 0 ∧ cfg.enables.roam = (byte 26).testBit 1 ∧
      cfg.enables.voice = (byte 26).testBit 2 ∧ cfg.enables.system = (byte 26).testBit 3 ∧
      (cfg.permitDefault = true ↔ byte 27 = 1) ∧ isBlock cfg.defaults 28) ∧
    (cfg.neighbours.length = min 16 (byte 39) ∧
      ∀ (i : Nat) (n : Neighbour), cfg.neighbours[i]? = some n →
        n.node.toNat = clamp 1 254 (byte (41 + 2 * i)) ∧ n.bias = max (-15) (min 15 (signed (42 + 2 * i)))) ∧
    (cfg.admissions.length = taken.length ∧
      ∀ (i : Nat) (x : Admission) (a : Nat), cfg.admissions[i]? = some x → taken[i]? = some a →
        x.headset.toNat = identity a ∧ (x.permit = true ↔ byte (a + 4) = 1) ∧ (x.block = none ↔ byte (a + 5) = 0) ∧
        ∀ b : DefaultBlock, x.block = some b → isBlock b (a + 5)) ∧
    -- their ranges
    ((1 ≤ cfg.node.toNat ∧ cfg.node.toNat ≤ 254) ∧ cfg.channel ≤ 31 ∧ (2 ≤ cfg.k ∧ cfg.k ≤ 5) ∧
      (3 ≤ cfg.hysteresis ∧ cfg.hysteresis ≤ 20) ∧ (10 ≤ cfg.margin ∧ cfg.margin ≤ 40) ∧
      cfg.hysteresis ≤ cfg.margin ∧ (1 ≤ cfg.dwellNeed ∧ cfg.dwellNeed ≤ 15) ∧ cfg.floor ≤ 90 ∧ cfg.settleTime ≤ 255 ∧
      (4 ≤ cfg.replyTime ∧ cfg.replyTime ≤ 32) ∧ (2 ≤ cfg.arrivalTime ∧ cfg.arrivalTime ≤ 16) ∧
      (8 ≤ cfg.handingTime ∧ cfg.handingTime ≤ 64) ∧ cfg.arrivalTime + 5 ≤ cfg.handingTime ∧
      (2 ≤ cfg.seekWait ∧ cfg.seekWait ≤ 20) ∧ (5 ≤ cfg.cutLink ∧ cfg.cutLink ≤ 50) ∧
      (50 ≤ cfg.rescueWindow ∧ cfg.rescueWindow ≤ 500) ∧ (5 ≤ cfg.standing ∧ cfg.standing ≤ 100) ∧
      (10 ≤ cfg.agingLimit ∧ cfg.agingLimit ≤ 255) ∧ (1 ≤ cfg.holdThreshold ∧ cfg.holdThreshold ≤ 8) ∧
      (4 ≤ cfg.holdQuanta ∧ cfg.holdQuanta ≤ 64) ∧ (2 ≤ cfg.depth ∧ cfg.depth ≤ 6) ∧
      (1 ≤ cfg.defaults.listen.length ∧ cfg.defaults.listen.length ≤ 4) ∧
      (∀ i ∈ cfg.defaults.listen, i.shift ≤ 7) ∧
      cfg.neighbours.length ≤ 16 ∧
      (∀ n ∈ cfg.neighbours, 1 ≤ n.node.toNat ∧ n.node.toNat ≤ 254 ∧ -15 ≤ n.bias ∧ n.bias ≤ 15) ∧
      cfg.admissions.length ≤ 64 ∧
      (∀ a ∈ cfg.admissions, isIdentity a.headset = true ∧
        ∀ b : DefaultBlock, a.block = some b →
          1 ≤ b.listen.length ∧ b.listen.length ≤ 4 ∧ ∀ i ∈ b.listen, i.shift ≤ 7)) ∧
    -- CONFIG_CLAMPED
    (loadClamps image = false ↔
      (∀ p ∈ ([(4, 1, 254), (5, 0, 31), (6, 2, 5), (7, 3, 20), (8, 10, 40), (9, 1, 15), (10, 0, 90), (12, 4, 32),
          (13, 2, 16), (14, 8, 64), (15, 2, 20), (16, 5, 50), (19, 5, 100), (20, 10, 255), (21, 1, 8), (22, 4, 64),
          (23, 2, 6), (24, 0, 1), (27, 0, 1)] : List (Nat × Nat × Nat)), p.2.1 ≤ byte p.1 ∧ byte p.1 ≤ p.2.2) ∧
      (50 ≤ word 17 ∧ word 17 ≤ 500) ∧ byte 7 ≤ byte 8 ∧ byte 13 + 5 ≤ byte 14 ∧ blockKept 1 28 ∧
      byte 39 ≤ 16 ∧
      (∀ i < byte 39, 1 ≤ byte (41 + 2 * i) ∧ byte (41 + 2 * i) ≤ 254 ∧
        -15 ≤ signed (42 + 2 * i) ∧ signed (42 + 2 * i) ≤ 15) ∧
      byte 40 ≤ 64 ∧ ∀ a ∈ items, named a ∧ byte (a + 4) ≤ 1 ∧ blockKept 0 (a + 5))

/-- JOINING ends in either order (R97, R134, R180, R182): an idle run of 11 with no wait running takes TLC to IDLE, a start
bit after an idle run of 3 takes it to RECEIVING, and both make trunk joined; a taken cycle mark makes air joined, and
whichever comes second takes the node to RUN with the listen-in countdown at S. The mark that completes joining does not
reach RE, VP or TQU. -/
def Obligations.JoiningEnds : Prop :=
  ∀ (cfg : Settings) (s : State), s.cfl.node = .joining → s.cfl.config = some cfg →
    (∀ (record : List Byte) (n : BitVec 16), readCycleMark record = some n → s.apc.lastCycle ≠ some n →
      exec (.cycleMark record) s = .next
        { s with
          cfl := { s.cfl with airJoined := true, node := if s.cfl.trunkJoined then .run else .joining }
          re := { s.re with listenIn := if s.cfl.trunkJoined then some cfg.standing else s.re.listenIn }
          apc := { s.apc with lastCycle := some n } }) ∧
    (∀ n : Nat, s.tlc.state = .waitIdle → 1 ≤ n → 11 ≤ s.tlc.idleRun + n → s.tlc.wait ≤ n →
      exec (.waitIdleExit (List.replicate n .idle)) s = .next
        { s with
          cfl := { s.cfl with trunkJoined := true, node := if s.cfl.airJoined then .run else .joining }
          re := { s.re with listenIn := if s.cfl.airJoined then some cfg.standing else s.re.listenIn }
          tlc := { s.tlc with state := .idle, idleRun := 11, heldRun := 0, wait := 0, reading := none } }) ∧
    (∀ n : Nat, s.tlc.state = .waitIdle → 3 ≤ s.tlc.idleRun + n →
      exec (.waitIdleExit (List.replicate n .idle ++ [.dominant])) s = .next
        { s with
          cfl := { s.cfl with trunkJoined := true, node := if s.cfl.airJoined then .run else .joining }
          re := { s.re with listenIn := if s.cfl.airJoined then some cfg.standing else s.re.listenIn }
          tlc := { s.tlc with
            state := .receiving, wait := s.tlc.wait - n - 1, idleRun := 0, heldRun := 0, attempt := none
            reading := some { follows := false, crcRead := false, acknowledges := false } } })

/-- A sound RESTART taken in JOINING or RUN is a warm restart (R181; R23, R58, R95, R109, R130, R147, R162, R170): tables,
slot map, store, queues, pool and timers are emptied, the configuration, claim counter, generator, trap record and all of
MLC are kept, and the node joins again with the SLOT CLOSE sweep. An EVICT that waits at RE (assumption 23) is answered
NOT_SERVED (R167). That the listen-in countdown is absent while the node joins again is the model's choice of assumption 29.
In LOADING and FAULT a RESTART has no effect (R164). -/
def Obligations.WarmRestart : Prop :=
  (∀ (record : List Byte) (s : State), checkRecord 0x05 0 record = .sound [] →
    s.cfl.node = .joining ∨ s.cfl.node = .run →
    exec (.restart record) s = .next
      { s with
        cfl := { s.cfl with node := .joining, trunkJoined := false, airJoined := false }
        re := { serve := [], survey := [], claimCounter := s.re.claimCounter, listenIn := none }
        apc := { slots := List.replicate 24 { state := .free, order := none }, lastCycle := none
                 out := s.apc.out ++ (List.range 24).map fun k => [0x12, 1, byteOf k] }
        vp := { store := [], mask := 0 }
        tqu := { flow := [], urgent := [], handover := [], report := [], pool := [], reached := false, reply := none,
                 reservations := 0, ownHold := 0
                 neighbourHolds := List.replicate s.tqu.neighbourHolds.length 0 }
        tlc := { s.tlc with state := .waitIdle, idleRun := 0, heldRun := 0, attempt := none, reading := none, wait := 0 }
        mlc := match s.mlc.evict with
          | some h => { s.mlc with answer := some (.evictResult h .notServed), evict := none }
          | none => s.mlc }) ∧
  (∀ (record : List Byte) (s : State), checkRecord 0x05 0 record = .sound [] →
    s.cfl.node = .loading ∨ s.cfl.node = .fault → exec (.restart record) s = .next s)

/-- The changes of node state there are (table of section 11.1; R175, R179, R180, R181): whatever the command, the node
stays as it is or makes one of these changes, and FAULT is left by a cold reset alone. -/
def Obligations.NodeStateChanges : Prop :=
  ∀ (c : Instr) (s t : State), exec c s = .next t → t.cfl.node ≠ s.cfl.node →
    (t.cfl.node = .standby ∧ (c = .powerOn ∨ c = .resetLineAsserted)) ∨
    (s.cfl.node = .standby ∧ t.cfl.node = .loading ∧ c = .resetLineReleased) ∨
    (s.cfl.node = .loading ∧ (t.cfl.node = .joining ∨ t.cfl.node = .fault) ∧ ∃ image, c = .configLoadComplete image) ∨
    (s.cfl.node = .joining ∧ t.cfl.node = .run ∧ t.cfl.trunkJoined = true ∧ t.cfl.airJoined = true) ∨
    (s.cfl.node = .run ∧ t.cfl.node = .joining ∧ ∃ rest, c = .restart rest)

/-- Outside RUN both tables are empty, no slot is taken and no group is stored, and every step keeps it so (R23, R58, R98,
R109, R130). -/
def Obligations.NothingServedBeforeRun : Prop :=
  ∀ s t : State,
    (s.cfl.node ≠ .run →
      s.re.serve = [] ∧ s.re.survey = [] ∧ s.apc.slots = List.replicate 24 { state := .free, order := none } ∧
        s.vp.store = []) →
    step s = .next t →
    t.cfl.node ≠ .run →
      t.re.serve = [] ∧ t.re.survey = [] ∧ t.apc.slots = List.replicate 24 { state := .free, order := none } ∧
        t.vp.store = []

/-- Outside RUN a report of the front end other than a cycle mark is discarded without a count (R98), no timer of RE, APC
or TQU runs, and no message is handled (R58, R95, R162); that a timer's row and a handling's then change nothing is the
model's choice of assumption 2.
Inbound matrix records that are not sound (R163, R164): in STANDBY nothing is received; elsewhere a record whose last two
bytes are not the CRC of those before them is counted and discarded, and one that passes its CRC and whose kind is not the
row's, or whose length field or body is not of the length that the kind requires, is discarded without a count. A record of
fewer than two bytes is counted as damaged, by the model's choice of assumption 15. -/
def Obligations.CommandsTurnedAway : Prop :=
  (∀ (c : Instr) (s : State), runOnly c = true → s.cfl.node ≠ .run → exec c s = .next s) ∧
  (∀ (record : List Byte) (s : State) (c : Instr) (kind : Byte) (need : Nat),
     (c, kind, need) ∈ [(Instr.groupFrame record, (1 : Byte), 162), (.statusQuery record, 2, 0), (.clear record, 3, 0),
       (.evict record, 4, 4), (.restart record, 5, 0)] →
     (s.cfl.node = .standby → exec c s = .next s) ∧
     (s.cfl.node ≠ .standby → record.length < 2 → exec c s = .next { s with mlc := s.mlc.count .matrixCrcDiscards }) ∧
     (∀ (covered : List Byte) (hi lo : Byte), s.cfl.node ≠ .standby → record = covered ++ [hi, lo] →
       (crc16 covered ≠ hi ++ lo → exec c s = .next { s with mlc := s.mlc.count .matrixCrcDiscards }) ∧
       (crc16 covered = hi ++ lo →
         (¬∃ body : List Byte, covered = kind :: word16Bytes (BitVec.ofNat 16 need) ++ body ∧ body.length = need) →
         exec c s = .next s)))

/-! ## The cycle mark and the timers -/

/-- CYCLE MARK (R97, R104): a record that cannot be read, a repeat of the last number taken, and a mark in STANDBY, LOADING or
FAULT change nothing. A mark taken in RUN is remembered, moves the listen-in countdown and the neighbour hold timers by one
(R161, R182), leaves no current frame stored (R128), brings no headset into the serve table and no claim, and touches
neither CFL, TLC, the inbound pool, the enables nor the answer slot.
What the mark does at the survey list, the slot map, the group store and TQU, whatever their contents: in each survey entry last
heard and the knowledge age rise and the reply timer and the hold-off fall (R42, R47, R61, R84); one without a claim whose
last heard comes to the aging limit leaves, knowledge that comes to age 4·S goes with dwell, and a SENT NORMAL claim whose reply
timer ends fails with pacing 31, its slot FREE and its CLAIM out of the queues; a headset whose arrival runs out, of another
origin than RECLAIM, enters the list (R9, R41; last heard and dwell by assumption 25). A pending order grows older; at age 4 it
ends, and an ANSWER at an ARRIVING entry is then sent again (R88, R106). The slot of an entry that the mark releases is FREE, with
SLOT CLOSE sent. The own hold timer falls, and from 1 it is renewed with HOLD(T) where the pool is still congested (R152,
R160). The order of these within one mark is the model's choice of assumption 4, and a LOST entry that waits with its timer at 0
that of assumption 19. What the mark does at the serve table is stated in StandingBuilt. -/
def Obligations.CycleMarks : Prop :=
  (∀ (record : List Byte) (s : State),
    readCycleMark record = none ∨ readCycleMark record = s.apc.lastCycle ∨ s.cfl.node = .standby ∨ s.cfl.node = .loading ∨
      s.cfl.node = .fault → exec (.cycleMark record) s = .next s) ∧
  (∀ (cfg : Settings) (record : List Byte) (n : BitVec 16) (s : State), s.InRun cfg → readCycleMark record = some n →
    s.apc.lastCycle ≠ some n →
    ∃ t : State, exec (.cycleMark record) s = .next t ∧
      t.apc.lastCycle = some n ∧ t.re.listenIn = s.re.listenIn.map (· - 1) ∧
      t.tqu.neighbourHolds = s.tqu.neighbourHolds.map (· - 1) ∧ (∀ e ∈ t.vp.store, e.current = none) ∧
      (∀ e ∈ t.re.serve, ∃ x ∈ s.re.serve, e.headset = x.headset ∧ e.slot = x.slot) ∧
      t.re.claimCounter = s.re.claimCounter ∧ t.tqu.pool = s.tqu.pool ∧ t.tqu.reservations = s.tqu.reservations ∧
      t.tqu.reply = s.tqu.reply ∧ t.mlc.enables = s.mlc.enables ∧ t.mlc.answer = s.mlc.answer ∧
      t.mlc.evict = s.mlc.evict ∧ t.cfl = s.cfl ∧ t.tlc = s.tlc ∧ t.pending = s.pending) ∧
  (∀ (cfg : Settings) (record : List Byte) (n : BitVec 16) (s : State), s.InRun cfg → readCycleMark record = some n →
    s.apc.lastCycle ≠ some n → s.re.Sound → s.SlotLaw → s.apc.Sound →
    -- what the mark brings to an end: entries released (R9, R19, R20), claims unanswered (R61)
    let leaves (e : ServeEntry) : Bool :=
      match e.state with
      | .arriving => e.arrivalTimer.any (· ≤ 1)
      | .lost =>
        e.rescueTimer.any (· ≤ 1) && e.tag.isNone &&
          !(e.rescueTimer == some 0 && (e.yieldOwed.isSome || s.tqu.rivalWaits e.headset))
      | _ => false
    let drained (e : ServeEntry) : Bool := e.state == .draining && e.ring.frames.isEmpty
    let groups (es : List ServeEntry) : List Group := es.flatMap fun e => e.listen.map ListenItem.group
    let unanswered (y : SurveyEntry) : Bool :=
      y.claim.any fun c => c.kind == .normal && c.phase == .sent && c.replyTimer.any (· ≤ 1)
    let failed : List ClaimRecord := (s.re.survey.filter unanswered).filterMap SurveyEntry.claim
    let withdrawn (m : Queued) : Bool :=
      s.re.survey.any fun y => unanswered y && y.claim.any fun c => m.body.isClaimOf y.headset c.tag
    let ages (y : SurveyEntry) : Bool := y.claim.isNone && decide (cfg.agingLimit ≤ min 255 (y.lastHeard + 1))
    let stale (y : SurveyEntry) : Bool := y.knowledge.any fun k => decide (4 * cfg.standing ≤ k.age + 1)
    let returning (e : ServeEntry) : Bool := e.state == .arriving && leaves e && e.origin != some .reclaim
    let congested : Bool := decide (16 - s.tqu.pool.length ≤ cfg.holdThreshold)
    ∃ t : State, exec (.cycleMark record) s = .next t ∧
      -- the survey list: its counters, what ages out or grows stale, claims that fail, headsets that did not arrive
      t.re.survey = (s.re.serve.filter returning).foldl
        (fun l e => enterSurveyList
          { headset := e.headset, q := e.q, r := (e.q + 8) / 16, lastHeard := 0, dwell := 0, pacing := 31, holdOff := 0,
            knowledge := none, claim := none } l)
        ((s.re.survey.filter fun y => !ages y).map fun y =>
          { y with
            lastHeard := min 255 (y.lastHeard + 1), holdOff := y.holdOff - 1
            dwell := if stale y || unanswered y then 0 else y.dwell
            pacing := if unanswered y then 31 else y.pacing
            knowledge := if stale y then none else y.knowledge.map fun k => { k with age := k.age + 1 }
            claim := if unanswered y then none
                     else y.claim.map fun c => { c with replyTimer := c.replyTimer.map (· - 1) } }) ∧
      -- the slot map and the pending orders (R3, R49, R88, R106)
      (∀ k : Nat, t.apc.slot k =
        if (∃ e ∈ s.re.serve, e.slot = k ∧ (leaves e || drained e) = true) ∨ ∃ c ∈ failed, c.slot = k then
          { state := .free, order := none }
        else
          { state := (s.apc.slot k).state
            order := (s.apc.slot k).order.bind fun o =>
              if o.age + 1 < 4 then some { o with age := o.age + 1 }
              else if o.kind = .answer ∧ (s.entryAt k).any (fun e => e.state == .arriving) = true then
                some { kind := .answer, age := 0 }
              else none }) ∧
      (∃ sent : List (List Byte), t.apc.out = s.apc.out ++ sent ∧
        ∀ e ∈ s.re.serve,
          ((leaves e || drained e) = true → [0x12, 1, byteOf e.slot] ∈ sent) ∧
          (e.state = .arriving →
            ((s.apc.slot e.slot).order.any fun o => o.kind == .answer && decide (4 ≤ o.age + 1)) = true →
            (AirOrder.seekAnswer e.headset cfg.channel e.slot).bytes ∈ sent)) ∧
      -- the group store: what left gives its references back (R121), and no frame is current (R128)
      (let v := s.vp.releaseAll
         (failed.flatMap ClaimRecord.groups ++ groups (s.re.serve.filter leaves) ++ groups (s.re.serve.filter drained))
       t.vp = { store := v.store.map fun x => { x with current := none }, mask := v.mask }) ∧
      -- TQU: the hold timers (R160, R161), and the CLAIMs of claims that failed
      t.tqu =
        { s.tqu with
          neighbourHolds := s.tqu.neighbourHolds.map (· - 1)
          ownHold := if s.tqu.ownHold = 1 then (if congested then cfg.holdQuanta else 0) else s.tqu.ownHold - 1
          flow :=
            if s.tqu.ownHold = 1 ∧ congested = true then
              match s.tqu.flow with
              | [] => [{ cls := .flow, body := .hold cfg.holdQuanta, destination := 255, failures := 0, inHand := false,
                         replaced := false }]
              | x :: xs => { x with body := .hold cfg.holdQuanta, failures := 0, replaced := x.inHand } :: xs
            else s.tqu.flow
          urgent := s.tqu.urgent.filter fun m => !withdrawn m
          handover := s.tqu.handover.filter fun m => !withdrawn m
          report := t.tqu.report })

/-- The whole of a mark in RUN at a node with one serve entry that the mark brings to no expiry and that is due for no STANDING,
no survey entry, no pending order and no own hold (R9, R11, R12, R13, R18, R19, R20, R97, R113, R118 to R120, R127, R128,
R161, R182). The entry's counters and timers move by one. A SERVED or OFFERED entry's loss run becomes 0 where it was heard
and rises by 1 where it was not, and heard becomes no. In SERVED, OFFERED and HANDING a ring that plays or has come to D
frames sends its oldest frame, or a silence frame that is counted late, and one downlink frame is mixed and sent, counted
where a total was clamped; a shorter ring that does not play, and a listen-only entry's, sends nothing. In DRAINING and
LOST the ring sends its oldest frame while it has one, and a DRAINING entry whose ring the mark finds empty is released; in
ARRIVING nothing is sent. -/
def Obligations.MarkOfOneServedEntry : Prop :=
  ∀ (cfg : Settings) (record : List Byte) (n : BitVec 16) (s : State) (e : ServeEntry),
    s.InRun cfg → readCycleMark record = some n → s.apc.lastCycle ≠ some n →
    s.re.serve = [e] → s.re.survey = [] → e.offerChanged = false → e.lastReported + 1 < cfg.standing →
    (∀ x ∈ s.apc.slots, x.order = none) → (s.apc.slot e.slot).state = .assigned e.headset → s.tqu.ownHold = 0 →
    let silence : VoiceFrame := { payload := List.replicate 40 cfg.silence, silence := true }
    let totals := mixTotals s.vp e.listen
    let mixed := totals.map fun x => BitVec.ofInt 16 (max (-32768) (min 32767 x))
    let ticked : ServeEntry :=
      { e with settle := e.settle - 1, arrivalTimer := e.arrivalTimer.map (· - 1)
               rescueTimer := e.rescueTimer.map (· - 1)
               handing := e.handing.map fun h => { h with timer := h.timer.map (· - 1) } }
    -- the state with the entry `x` and MLC as `m` after the ring, a downlink frame mixed where `mixes`
    let after (x : ServeEntry) (m : Mlc) (mixes : Bool) : State :=
      { s with
        re := { s.re with serve := [x], listenIn := s.re.listenIn.map (· - 1) }
        apc := { s.apc with lastCycle := some n
                            out := s.apc.out ++ if mixes then [(AirOrder.downlinkFrame e.slot mixed).bytes] else [] }
        vp := { s.vp with store := s.vp.store.map fun x => { x with current := none } }
        tqu := { s.tqu with neighbourHolds := s.tqu.neighbourHolds.map (· - 1) }
        mlc := if mixes = true ∧ ∃ x ∈ totals, x < -32768 ∨ 32767 < x then m.count .clippedFrames else m }
    let run (t : State) : Prop := exec (.cycleMark record) s = .next t
    let sent (g : Group) (f : VoiceFrame) : Mlc := s.mlc.takeUplink { headset := e.headset, talk := g, frame := f }
    let rest : Machine.Ring := { e.ring with frames := e.ring.frames.drop 1 }
    -- the mark of an entry that is mixed, `x` being the entry but for its ring
    let playing (x : ServeEntry) : Prop :=
      (∀ g : Group, e.talk = some g → e.ring.playing = true ∨ cfg.depth ≤ e.ring.frames.length →
        run (after { x with ring := { rest with playing := true } }
          (if e.ring.frames = [] then (sent g silence).count .lateFrames
           else sent g (e.ring.frames.head?.getD silence)) true)) ∧
      (e.talk = none ∨ (e.ring.playing = false ∧ e.ring.frames.length < cfg.depth) → run (after x s.mlc true))
    (e.state = .served ∨ e.state = .offered → e.heard = true ∨ min 255 (e.lossRun + 1) < cfg.cutLink →
      playing { ticked with heard := false, lossRun := if e.heard then 0 else min 255 (e.lossRun + 1)
                            lastReported := min 255 (e.lastReported + 1) }) ∧
    (e.state = .handing → (∀ h m, e.handing = some h → h.phase = .moveSent → h.timer = some m → 1 < m) →
      playing { ticked with lastReported := min 255 (e.lastReported + 1) }) ∧
    (e.state = .draining ∨ e.state = .lost → (e.state = .lost → ∀ m, e.rescueTimer = some m → 1 < m) →
      (∀ (g : Group) (f : VoiceFrame) (fs : List VoiceFrame), e.talk = some g → e.ring.frames = f :: fs →
        run (after { ticked with ring := rest } (sent g f) false)) ∧
      ((e.ring.frames = [] ∧ e.state = .lost) ∨ (e.ring.frames ≠ [] ∧ e.talk = none) →
        run (after ticked s.mlc false)) ∧
      (e.ring.frames = [] → e.state = .draining → run ((after ticked s.mlc false).releaseEntry e.slot))) ∧
    (e.state = .arriving → (∀ m, e.arrivalTimer = some m → 1 < m) → run (after ticked s.mlc false))

/-- The rows that end a counter of an entry, taken alone (assumption 3): settle (R11), serving knowledge with dwell (R30,
R47), the seek hold-off (R84) and the listen-in countdown (R182). Each changes that counter and nothing else, and only in
an entry whose counter the next mark would end or that stands at its end.
SURVEY_AGING and REPLY_TIMEOUT, taken alone (R42, R61; assumption 3). A survey entry without a claim leaves the list
when last heard reaches the aging limit; one with a claim stays. A NORMAL claim whose reply timer ends fails: its slot
is FREE again, its references are released, its CLAIM leaves its queue, dwell is 0 and pacing 31 (R34, R49). -/
def Obligations.CountersEnd : Prop :=
  (∀ (cfg : Settings) (s : State), s.InRun cfg →
     (∀ k : Nat, exec (.settleEnd k) s = .next
       { s with re := { s.re with serve := s.re.serve.map fun e =>
           if e.slot = k ∧ e.settle ≤ 1 then { e with settle := 0 } else e } }) ∧
     (∀ h : Headset, exec (.knowledgeExpiry h) s = .next
       { s with re := { s.re with survey := s.re.survey.map fun e =>
           if e.headset = h ∧ (∃ k, e.knowledge = some k ∧ 4 * cfg.standing ≤ k.age + 1) then
             { e with knowledge := none, dwell := 0 } else e } }) ∧
     (∀ h : Headset, exec (.seekHoldOffEnd h) s = .next
       { s with re := { s.re with survey := s.re.survey.map fun e =>
           if e.headset = h ∧ e.holdOff ≤ 1 then { e with holdOff := 0 } else e } }) ∧
     (∀ n : Nat, s.re.listenIn = some n → exec .listenInEnd s = .next
       { s with re := { s.re with listenIn := some (if n ≤ 1 then 0 else n) } })) ∧
  (∀ (cfg : Settings) (s : State) (e : SurveyEntry), s.InRun cfg → s.surveyFor e.headset = some e →
     (e.claim = none → cfg.agingLimit ≤ min 255 (e.lastHeard + 1) → exec (.surveyAging e.headset) s = .next
       { s with re := { s.re with survey := s.re.survey.filter fun x => x.headset != e.headset } }) ∧
     (∀ c : ClaimRecord, e.claim = some c → exec (.surveyAging e.headset) s = .next s) ∧
     (∀ (c : ClaimRecord) (n : Nat), e.claim = some c → c.kind = .normal → c.phase = .sent → c.replyTimer = some n →
       n ≤ 1 → (s.apc.slot c.slot).state = .reserved c.tag →
       exec (.replyTimeout e.headset) s = .next
         { s with
           re := { s.re with survey := s.re.survey.map fun x =>
                     if x.headset = e.headset then { x with claim := none, dwell := 0, pacing := 31 } else x }
           apc := { s.apc with slots := s.apc.slots.modify c.slot fun x => { x with state := .free } }
           vp := s.vp.releaseAll c.groups
           tqu := { s.tqu with
             urgent := s.tqu.urgent.filter fun m => !m.body.isClaimOf e.headset c.tag
             handover := s.tqu.handover.filter fun m => !m.body.isClaimOf e.headset c.tag } }) ∧
     (∀ (c : ClaimRecord) (n : Nat), e.claim = some c → c.replyTimer = some n → 1 < n →
       exec (.replyTimeout e.headset) s = .next s))

/-- Every release of an entry frees it as R3 says: the entry leaves the table, its slot is FREE without an order and SLOT
CLOSE is sent (R101), one reference is released for each listed group, a LOST entry's outstanding reclaim leaves its queue,
and nothing else changes. DRAIN_EMPTY releases a DRAINING entry whose ring is empty, with no notice and no count, and no other
entry (R19, R119); that it does so taken apart from a cycle mark is the model's choice of assumption 3. -/
def Obligations.ReleaseFreesEntry : Prop :=
  (∀ (s : State) (e : ServeEntry), s.entryAt e.slot = some e → (s.apc.slot e.slot).state = .assigned e.headset →
    s.releaseEntry e.slot =
      { s with
        re := { s.re with serve := s.re.serve.filter fun x => x.slot != e.slot }
        apc := { s.apc with slots := s.apc.slots.modify e.slot fun _ => { state := .free, order := none }
                            out := s.apc.out ++ [[0x12, 1, byteOf e.slot]] }
        vp := s.vp.releaseAll (e.listen.map ListenItem.group)
        tqu := match e.state, e.tag with
          | .lost, some tag => { s.tqu with
              urgent := s.tqu.urgent.filter fun m => !m.body.isClaimOf e.headset tag
              handover := s.tqu.handover.filter fun m => !m.body.isClaimOf e.headset tag }
          | _, _ => s.tqu }) ∧
  (∀ (cfg : Settings) (s : State) (e : ServeEntry), s.InRun cfg → s.entryAt e.slot = some e →
    exec (.drainEmpty e.slot) s =
      .next (if e.state = .draining ∧ e.ring.frames = [] then s.releaseEntry e.slot else s))

/-- ARRIVAL_TIMEOUT, taken alone (R9; assumption 3): the entry is released; one of origin RECLAIM departs with notice
DEPARTED and a departure counted, one of another origin returns to the survey list with its Q and pacing 31 (R34, R41). An
entry whose timer has more than one mark left, or that is not ARRIVING, stays as it is.
HANDING_TIMEOUT, CUT_LINK and RESCUE_TIMEOUT, taken alone (R12, R18, R20, R112; assumption 3): the entry goes to LOST with
notice LOST, the rescue timer at W, no handing record and its ring playing; a LOST entry whose rescue timer ends departs, or
waits at 0 while its reclaim is outstanding. -/
def Obligations.EntriesTimeOut : Prop :=
  (∀ (cfg : Settings) (s : State) (e : ServeEntry) (n : Nat), s.InRun cfg → s.entryAt e.slot = some e →
     e.arrivalTimer = some n →
     (e.state = .arriving → n ≤ 1 → e.origin = some .reclaim → exec (.arrivalTimeout e.slot) s =
       .next (((s.releaseEntry e.slot).notify (.departed e.headset)).count .departures)) ∧
     (e.state = .arriving → n ≤ 1 → e.origin ≠ some .reclaim → exec (.arrivalTimeout e.slot) s =
       .next ((s.releaseEntry e.slot).enterSurvey
         { headset := e.headset, q := e.q, r := (e.q + 8) / 16, lastHeard := 0, dwell := 0, pacing := 31, holdOff := 0,
           knowledge := none, claim := none })) ∧
     (1 < n ∨ e.state ≠ .arriving → exec (.arrivalTimeout e.slot) s = .next s)) ∧
  (∀ (cfg : Settings) (s : State) (e : ServeEntry), s.InRun cfg → s.entryAt e.slot = some e →
     let lost : State :=
       { s with
         re := { s.re with serve := s.re.serve.map fun x =>
                   if x.slot = e.slot then
                     { x with state := .lost, rescueTimer := some cfg.rescueWindow, handing := none, lossRun := 0,
                              heard := false, ring := { x.ring with playing := true } }
                   else x }
         mlc := s.mlc.notify (.lost e.headset) }
     (∀ (h : HandingRecord) (n : Nat), e.state = .handing → e.handing = some h → h.phase = .moveSent →
       h.timer = some n → n ≤ 1 → exec (.handingTimeout e.slot) s = .next lost) ∧
     (e.state = .served ∨ e.state = .offered → e.heard = false → cfg.cutLink ≤ min 255 (e.lossRun + 1) →
       exec (.cutLink e.slot) s = .next lost) ∧
     (e.state = .served ∨ e.state = .offered → e.heard = true → exec (.cutLink e.slot) s = .next s) ∧
     (e.state = .lost → e.tag = none → e.rescueTimer = some 1 → exec (.rescueTimeout e.slot) s =
       .next (((s.releaseEntry e.slot).notify (.departed e.headset)).count .departures)) ∧
     (∀ (tag : Tag) (n : Nat), e.state = .lost → e.tag = some tag → e.rescueTimer = some n → n ≤ 1 →
       exec (.rescueTimeout e.slot) s = .next
         { s with re := { s.re with serve := s.re.serve.map fun x =>
                           if x.slot = e.slot then { x with rescueTimer := some 0 } else x } }))

/-- An order ends by its ORDER RESULT, or by ORDER_EXPIRY at age 4, which counts as unacknowledged (R105, R106; the row taken
alone: assumption 3). Unacknowledged, a MOVE at an entry in HANDING (MOVE_SENT) reverts it with notice REVERTED (R10, R17),
and an ANSWER at an ARRIVING entry is sent again (R88); acknowledged, the order just ends. A result for a slot without an
order is discarded. -/
def Obligations.OrdersEnd : Prop :=
  (∀ (cfg : Settings) (s : State) (c : Instr) (k : Nat) (o : PendingOrder), s.InRun cfg →
    (s.apc.slot k).order = some o →
    (∀ record, readOrderResult record = some ⟨k, true⟩ → exec (.orderResult record) s = .next
      { s with apc := { s.apc with slots := s.apc.slots.modify k fun x => { x with order := none } } }) ∧
    ((∃ record, c = .orderResult record ∧ readOrderResult record = some ⟨k, false⟩) ∨
        (c = .orderExpiry k ∧ 4 ≤ o.age + 1) →
      (∀ (e : ServeEntry) (h : HandingRecord), o.kind = .move → s.entryAt k = some e → e.state = .handing →
        e.handing = some h → h.phase = .moveSent → exec c s = .next
          { s with
            apc := { s.apc with slots := s.apc.slots.modify k fun x => { x with order := none } }
            re := { s.re with serve := s.re.serve.map fun x =>
                      if x.slot = k then
                        if x.r < cfg.floor then { x with state := .offered, offerChanged := true, handing := none, lossRun := 0 }
                        else { x with state := .served, handing := none, lossRun := 0 }
                      else x }
            mlc := s.mlc.notify (.reverted e.headset h.claimant) }) ∧
      (∀ e : ServeEntry, o.kind = .answer → s.entryAt k = some e → e.state = .arriving →
        (s.apc.slot k).state = .assigned e.headset → exec c s = .next
          { s with
            apc := { s.apc with
              slots := s.apc.slots.modify k fun x => { x with order := some { kind := .answer, age := 0 } }
              out := s.apc.out ++ [(AirOrder.seekAnswer e.headset cfg.channel k).bytes] } }) ∧
      (∀ e : ServeEntry, s.entryAt k = some e → e.state ≠ .handing → e.state ≠ .arriving → exec c s = .next
          { s with apc := { s.apc with slots := s.apc.slots.modify k fun x => { x with order := none } } })) ∧
    (o.age + 1 < 4 → exec (.orderExpiry k) s = .next s)) ∧
  (∀ (s : State) (k : Nat), (s.apc.slot k).order = none →
    exec (.orderExpiry k) s = .next s ∧
    ∀ (record : List Byte) (a : Bool), readOrderResult record = some ⟨k, a⟩ → exec (.orderResult record) s = .next s)

/-- OWN_HOLD_EXPIRY and NEIGHBOUR_HOLD_EXPIRY, taken alone (R160, R161; assumption 3). An own timer at 1 becomes 0, and where
the pool is still congested HOLD(T) is queued and the timer is T again; a neighbour's timer at 1 or 0 becomes 0, every other
as it was. -/
def Obligations.HoldTimersEnd : Prop :=
  ∀ (cfg : Settings) (s : State), s.InRun cfg →
    (s.tqu.ownHold = 1 → cfg.holdThreshold < s.tqu.freeCount →
      exec .ownHoldExpiry s = .next { s with tqu := { s.tqu with ownHold := 0 } }) ∧
    (s.tqu.ownHold = 1 → s.tqu.freeCount ≤ cfg.holdThreshold → s.tqu.flow = [] →
      exec .ownHoldExpiry s = .next
        { s with tqu := { s.tqu with
            ownHold := cfg.holdQuanta
            flow := [{ cls := .flow, body := .hold cfg.holdQuanta, destination := 255, failures := 0, inHand := false,
                       replaced := false }] } }) ∧
    (∀ (m : Queued) (ms : List Queued), s.tqu.ownHold = 1 → s.tqu.freeCount ≤ cfg.holdThreshold → s.tqu.flow = m :: ms →
      exec .ownHoldExpiry s = .next
        { s with tqu := { s.tqu with
            ownHold := cfg.holdQuanta
            flow := { m with body := .hold cfg.holdQuanta, failures := 0, replaced := m.inHand } :: ms } }) ∧
    (s.tqu.ownHold ≠ 1 → exec .ownHoldExpiry s = .next s) ∧
    (∀ (n : Node) (i : Nat), cfg.neighbours.findIdx? (fun x => x.node = n) = some i →
      exec (.neighbourHoldExpiry n) s = .next
        { s with tqu := { s.tqu with
            neighbourHolds := if (s.tqu.neighbourHolds[i]?).getD 0 ≤ 1 then s.tqu.neighbourHolds.set i 0
                              else s.tqu.neighbourHolds } })

/-! ## Reports of the front end -/

/-- What APC does with a SLOT REPORT before RE sees it (R102, R104), and with a frame that comes late to a DRAINING or LOST
entry (R7): an unreadable report changes nothing, one for a FREE or RESERVED slot is a stray, a FRAME of another headset is a
foreign frame, a frame at DRAINING or LOST is a stray. -/
def Obligations.SlotReportChecks : Prop :=
  ∀ (cfg : Settings) (s : State) (record : List Byte), s.InRun cfg →
    (readSlotReport record = none → exec (.slotReport record) s = .next s) ∧
    (∀ r : SlotReport, readSlotReport record = some r → (s.apc.slot r.slot).state.isAssigned = false →
      exec (.slotReport record) s = .next { s with mlc := s.mlc.count .strays }) ∧
    (∀ (r : SlotReport) (h h' : Headset) (q : Seq) (payload : List Byte), readSlotReport record = some r →
      r.kind = .frame h' q payload → (s.apc.slot r.slot).state = .assigned h → h' ≠ h →
      exec (.slotReport record) s = .next { s with mlc := s.mlc.count .foreignFrames }) ∧
    (∀ (r : SlotReport) (e : ServeEntry) (q : Seq) (payload : List Byte), readSlotReport record = some r →
      r.kind = .frame e.headset q payload → (s.apc.slot r.slot).state = .assigned e.headset →
      s.entryAt r.slot = some e → e.state = .draining ∨ e.state = .lost →
      exec (.slotReport record) s = .next { s with mlc := s.mlc.count .strays })

/-- A slot report at its entry, the arrival and the strays apart (table of R7; R10, R17, R25, R26, R28, R36, R113, R114). At a
SERVED or OFFERED entry a good frame is scored with the sample of its level, heard is yes, it goes to the ring where the
entry has a talk group, and the offered test is applied; ERRORED and SILENT are scored and tested alone. In HANDING
(YIELD_PENDING) every report is scored, a frame goes to the ring, and nothing is tested. In HANDING (MOVE_SENT) a frame
reverts the entry, with notice REVERTED, and is then taken as a frame of the returned state, by the model's choice of
assumption 21 tested after it; ERRORED and SILENT change nothing, as in ARRIVING, DRAINING and LOST. A sequence byte is
read modulo 64 (assumption 18). The other entries, the survey list, the slot map, the store, the queues and the trunk are as
they were. -/
def Obligations.ServedFrame : Prop :=
  ∀ (cfg : Settings) (s : State) (record : List Byte) (r : SlotReport) (e : ServeEntry),
    s.InRun cfg → readSlotReport record = some r → (s.apc.slot r.slot).state = .assigned e.headset →
    s.entryAt r.slot = some e →
    let level := max (-110) (min (-20) r.level)
    -- the report taken: the entry of the slot becomes `x`, MLC becomes `m`, and nothing else changes
    let becomes (x : ServeEntry) (m : Mlc) : Prop :=
      ∃ t : State, exec (.slotReport record) s = .next t ∧ t.entryAt r.slot = some x ∧
        (∀ j : Nat, j ≠ r.slot → t.entryAt j = s.entryAt j) ∧
        t.re.serve.map ServeEntry.slot = s.re.serve.map ServeEntry.slot ∧ t.re.survey = s.re.survey ∧
        t.re.claimCounter = s.re.claimCounter ∧ t.re.listenIn = s.re.listenIn ∧ t.mlc = m ∧
        t.apc = s.apc ∧ t.vp = s.vp ∧ t.tqu = s.tqu ∧ t.tlc = s.tlc ∧ t.cfl = s.cfl ∧ t.pending = s.pending
    let scored (sample : Nat) (x : ServeEntry) : ServeEntry :=
      { x with q := smooth cfg.k x.q sample, r := (smooth cfg.k x.q sample + 8) / 16 }
    let tested (x : ServeEntry) : ServeEntry :=
      if x.state = .served ∧ x.r < cfg.floor then { x with state := .offered, offerChanged := true }
      else if x.state = .offered ∧ cfg.floor + 4 ≤ x.r then { x with state := .served, offerChanged := true }
      else x
    let returned : ServeEntry :=
      if e.r < cfg.floor then { e with state := .offered, offerChanged := true, handing := none, lossRun := 0 }
      else { e with state := .served, handing := none, lossRun := 0 }
    (∀ (seq : Seq) (payload : List Byte), r.kind = .frame e.headset seq payload →
      let sample := (level + 110).toNat
      let placed := e.ring.place cfg seq payload
      let toRing (x : ServeEntry) : ServeEntry := if e.talk = none then x else { x with ring := placed.ring }
      let counted (m : Mlc) : Mlc := if e.talk = none then m else m.countPlacement placed
      (e.state = .served ∨ e.state = .offered →
        becomes (tested (toRing { scored sample e with heard := true })) (counted s.mlc)) ∧
      (∀ h : HandingRecord, e.state = .handing → e.handing = some h →
        (h.phase = .yieldPending → becomes (toRing (scored sample e)) (counted s.mlc)) ∧
        (h.phase = .moveSent →
          becomes (tested (toRing { scored sample returned with heard := true }))
            (counted (s.mlc.notify (.reverted e.headset h.claimant)))))) ∧
    (∀ sample : Nat,
      (r.kind = .errored ∧ sample = (level + 110 - 12).toNat) ∨ (r.kind = .silent ∧ sample = 0) →
      (e.state = .served ∨ e.state = .offered → becomes (tested (scored sample e)) s.mlc) ∧
      (∀ h : HandingRecord, e.state = .handing → e.handing = some h → h.phase = .yieldPending →
        becomes (scored sample e) s.mlc) ∧
      (∀ h : HandingRecord, e.state = .handing → e.handing = some h → h.phase = .moveSent →
        exec (.slotReport record) s = .next s) ∧
      (e.state = .arriving ∨ e.state = .draining ∨ e.state = .lost → exec (.slotReport record) s = .next s))

/-- The first good frame of an ARRIVING entry completes the arrival (R8, R10, R153): the frame is scored, the entry is SERVED,
or OFFERED where its R is below F, settle is loaded, the frame goes to the ring against the expected sequence or its own,
the count rises for origin YIELD, TAKEN is queued and notice ARRIVED sent. The TAKEN goes to URGENT; where that is full it
takes the place of the oldest SEEK CLAIM not in hand, whose claim or reclaim ends uncounted (R49, R86, R92); where no SEEK
CLAIM gives way it goes to HANDOVER, and where that has no room either it is dropped and counted. The sequence byte is read
modulo 64 (assumption 18). -/
def Obligations.ArrivalCompletes : Prop :=
  ∀ (cfg : Settings) (s : State) (record : List Byte) (r : SlotReport) (e : ServeEntry) (seq : Seq) (payload : List Byte),
    s.InRun cfg → readSlotReport record = some r → r.kind = .frame e.headset seq payload →
    (s.apc.slot r.slot).state = .assigned e.headset → s.entryAt r.slot = some e → e.state = .arriving →
    let q := smooth cfg.k e.q (max (-110) (min (-20) r.level) + 110).toNat
    let score := (q + 8) / 16
    let count := if e.origin = some .yield then min 255 (e.count + 1) else e.count
    let ring := { e.ring with expected := some (e.ring.expected.getD seq) }
    let placed := ring.place cfg seq payload
    let voiced := if e.talk = none then s.mlc else s.mlc.countPlacement placed
    let counted := if e.origin = some .yield then voiced.count .handoversIn else voiced
    let arrived : ServeEntry :=
      { e with q := q, r := score, state := if score < cfg.floor then .offered else .served
               offerChanged := e.offerChanged || decide (score < cfg.floor)
               origin := none, arrivalTimer := none, tag := none, settle := cfg.settleTime, heard := true, lossRun := 0,
               lastReported := 0, count := count, ring := if e.talk = none then ring else placed.ring }
    let taken (cls : TxClass) : Queued :=
      { cls := cls, body := .taken e.headset count e.previous, destination := 255, failures := 0, inHand := false,
        replaced := false }
    -- the arrival, with TQU as `tqu`, the counters as `m` before the notice, and `rest` for what else it changes
    let completes (tqu : Tqu) (m : Mlc) (rest : State → Prop) : Prop :=
      ∃ t : State, exec (.slotReport record) s = .next t ∧ t.entryAt r.slot = some arrived ∧
        t.tqu = tqu ∧ t.mlc = m.notify (.arrived e.headset e.previous) ∧ rest t ∧
        t.re.claimCounter = s.re.claimCounter ∧ t.re.listenIn = s.re.listenIn ∧ t.tlc = s.tlc ∧ t.cfl = s.cfl ∧
        t.pending = s.pending
    let served (t : State) : Prop :=
      (∀ j : Nat, j ≠ r.slot → t.entryAt j = s.entryAt j) ∧
        t.re.serve.map ServeEntry.slot = s.re.serve.map ServeEntry.slot
    let alone (t : State) : Prop := served t ∧ t.re.survey = s.re.survey ∧ t.apc = s.apc ∧ t.vp = s.vp
    let gives (m : Queued) : Prop := (∃ c : ClaimBody, m.body = .claim c ∧ c.kind = .seek) ∧ m.inHand = false
    (s.tqu.urgent.length < 4 →
      completes { s.tqu with urgent := s.tqu.urgent ++ [taken .urgent] } counted alone) ∧
    (4 ≤ s.tqu.urgent.length → (∀ m ∈ s.tqu.urgent, ¬gives m) →
      (s.tqu.handover.length + s.tqu.reservations < 6 →
        completes { s.tqu with handover := s.tqu.handover ++ [taken .handover] } counted alone) ∧
      (6 ≤ s.tqu.handover.length + s.tqu.reservations → completes s.tqu (counted.count .droppedAtLimit) alone)) ∧
    (∀ (older younger : List Queued) (m : Queued) (c : ClaimBody), 4 ≤ s.tqu.urgent.length →
      s.tqu.urgent = older ++ m :: younger → (∀ x ∈ older, ¬gives x) → gives m → m.body = .claim c →
      let urgent := older ++ younger ++ [taken .urgent]
      let unclaimed : Prop := ∀ x k, s.surveyFor c.headset = some x → x.claim = some k → k.tag ≠ c.tag
      (∀ (x : SurveyEntry) (k : ClaimRecord), s.surveyFor c.headset = some x → x.claim = some k → k.tag = c.tag →
        (s.apc.slot k.slot).state = .reserved k.tag →
        completes { s.tqu with urgent := urgent.filter fun y => !y.body.isClaimOf c.headset k.tag
                               handover := s.tqu.handover.filter fun y => !y.body.isClaimOf c.headset k.tag }
          counted fun t =>
            served t ∧ t.vp = s.vp.releaseAll k.groups ∧
            t.re.survey = (s.re.survey.map fun y =>
              if y.headset = c.headset then { y with claim := none, dwell := 0 } else y) ∧
            t.apc = { s.apc with slots := s.apc.slots.modify k.slot fun y => { y with state := .free } }) ∧
      (∀ x : ServeEntry, unclaimed → s.entryFor c.headset = some x → s.entryAt x.slot = some x →
        x.slot ≠ r.slot → x.state = .lost → x.tag = some c.tag →
        (x.rescueTimer ≠ some 0 →
          completes { s.tqu with urgent := urgent } counted fun t =>
            t.entryAt x.slot = some { x with tag := none } ∧
            (∀ j : Nat, j ≠ r.slot → j ≠ x.slot → t.entryAt j = s.entryAt j) ∧
            t.re.survey = s.re.survey ∧ t.apc = s.apc ∧ t.vp = s.vp) ∧
        (x.rescueTimer = some 0 → (s.apc.slot x.slot).state = .assigned x.headset →
          completes { s.tqu with urgent := urgent }
            ((counted.notify (.departed x.headset)).count .departures) fun t =>
            t.entryAt x.slot = none ∧ (∀ j : Nat, j ≠ r.slot → j ≠ x.slot → t.entryAt j = s.entryAt j) ∧
            t.re.survey = s.re.survey ∧ t.vp = s.vp.releaseAll (x.listen.map ListenItem.group) ∧
            t.apc = { s.apc with slots := s.apc.slots.modify x.slot fun _ => { state := .free, order := none }
                                 out := s.apc.out ++ [[0x12, 1, byteOf x.slot]] })) ∧
      (unclaimed → (∀ x : ServeEntry, s.entryFor c.headset = some x → x.state ≠ .lost ∨ x.tag ≠ some c.tag) →
        completes { s.tqu with urgent := urgent } counted alone))

/-- SURVEY REPORT at RE (R25, R27, R29 to R31, R39, R43, R59). A headset in the serve table or denied admission is left alone; a
newcomer is entered, seeded from its first sample. A known headset is sampled: Q is smoothed, R read from it, last heard 0,
and dwell rises by 1 up to 15 where the candidate test of R30 passes, and is else 0. Where every condition of R31 then holds
a NORMAL claim is made with the lowest FREE slot and the rolling tag and its CLAIM queued to the serving node; where any one
fails the report is the sample alone. -/
def Obligations.SurveyReports : Prop :=
  ∀ (cfg : Settings) (s : State) (record : List Byte) (r : SurveyReport), s.InRun cfg → readSurveyReport record = some r →
    let sample := ((max (-110) (min (-20) r.level) + 110) - if r.good then 0 else 12).toNat
    let newcomer : SurveyEntry :=
      { headset := r.headset, q := 16 * sample, r := (16 * sample + 8) / 16, lastHeard := 0, dwell := 0, pacing := 0,
        holdOff := 0, knowledge := none, claim := none }
    -- R29: the claim score of an entry of reported score `x` against the serving node of `k`
    let claimScoreOf (x : Nat) (k : Knowledge) : Option Nat :=
      (cfg.neighbours.find? fun n => n.node = k.node).map fun n => (max 0 (min 90 ((x : Int) + n.bias))).toNat
    -- R26, R28, R30
    let sampled (y : SurveyEntry) : SurveyEntry :=
      let q := smooth cfg.k y.q sample
      let reportedScore := (q + 8) / 16
      let passes : Bool :=
        match y.knowledge with
        | none => false
        | some k =>
          match k.score, claimScoreOf reportedScore k with
          | some rs, some score => decide (rs + cfg.hysteresis ≤ score)
          | _, _ => false
      { y with q := q, r := reportedScore, lastHeard := 0, dwell := if passes then min 15 (y.dwell + 1) else 0 }
    let run (t : State) : Prop := exec (.surveyReport record) s = .next t
    (s.entryFor r.headset ≠ none ∨ cfg.permits r.headset = false → run s) ∧
    (s.entryFor r.headset = none → cfg.permits r.headset = true → s.surveyFor r.headset = none →
      run { s with re := { s.re with survey := enterSurveyList newcomer s.re.survey } }) ∧
    (∀ e : SurveyEntry, s.entryFor r.headset = none → cfg.permits r.headset = true → s.surveyFor r.headset = some e →
      let x := sampled e
      -- the conditions of R31, admission apart
      let bids (k : Knowledge) (rs score slot : Nat) (groups : List Group) : Prop :=
        cfg.dwellNeed ≤ x.dwell ∧ x.pacing = 0 ∧ x.knowledge = some k ∧ k.score = some rs ∧ claimScoreOf x.r k = some score ∧
        (k.offered = true ∨ rs + cfg.margin ≤ score) ∧ k.groups = some groups ∧ x.claim = none ∧
        (s.re.survey.filter fun y => y.claim.isSome).length < 4 ∧ s.apc.lowestFree = some slot ∧
        s.vp.fits (distinctGroups groups) = true ∧ s.re.listenIn = some 0 ∧
        s.tqu.handover.length + s.tqu.reservations < 6
      ((∀ (k : Knowledge) (rs score slot : Nat) (groups : List Group), ¬bids k rs score slot groups) →
        run { s with re := { s.re with survey := s.re.survey.map fun y => if y.headset = r.headset then sampled y else y } }) ∧
      (∀ (k : Knowledge) (rs score slot : Nat) (groups : List Group), bids k rs score slot groups →
        run
          { s with
            re := { s.re with
              claimCounter := s.re.claimCounter + 1
              survey := s.re.survey.map fun y =>
                if y.headset = r.headset then
                  { sampled y with
                    claim := some
                      { kind := .normal, tag := s.re.claimCounter, slot := slot, groups := distinctGroups groups,
                        phase := .queued, replyTimer := none, callListen := none, callTalk := none } }
                else y }
            apc := { s.apc with slots := s.apc.slots.modify slot fun y => { y with state := .reserved s.re.claimCounter } }
            vp := s.vp.acquireAll (distinctGroups groups)
            tqu := { s.tqu with handover := s.tqu.handover ++
              [{ cls := .handover
                 body := .claim { headset := r.headset, tag := s.re.claimCounter, kind := .normal, score := score,
                                  channel := cfg.channel, slot := slot }
                 destination := k.node, failures := 0, inHand := false, replaced := false }] } }))

/-- SEEK CALL at RE (R78 to R82, R36, R39 to R41): at an ARRIVING, HANDING or DRAINING entry it is counted and ignored; at a
LOST entry without reclaim and yield owed, with room in URGENT, it reseeds the entry and starts a reclaim, and otherwise it
is a sample; at a SERVED or OFFERED entry it first sends the entry to LOST with notice LOST (R20, R79). From a headset that
may not be admitted it is ignored. At a survey entry it is a sample, and a headset in neither table is entered in the survey
list, seeded from the call, where the list takes it; where the headset then stands in the list and may bid, a SEEK claim
starts with the lowest FREE slot, and otherwise the call is the sample alone. -/
def Obligations.SeekCalls : Prop :=
  ∀ (cfg : Settings) (s : State) (record : List Byte) (c : SeekCall), s.InRun cfg → readSeekCall record = some c →
    let sample := (max (-110) (min (-20) c.level) + 110).toNat
    let run (t : State) : Prop := exec (.seekCall record) s = .next t
    let claim (e : Headset) (slot score : Nat) : Queued :=
      { cls := .urgent
        body := .claim { headset := e, tag := s.re.claimCounter, kind := .seek, score := score, channel := cfg.channel,
                         slot := slot }
        destination := 255, failures := 0, inHand := false, replaced := false }
    (∀ e : ServeEntry, s.entryFor c.headset = some e → e.state = .arriving ∨ e.state = .handing ∨ e.state = .draining →
      run { s with mlc := s.mlc.count .ignoredSeekCalls }) ∧
    (∀ e : ServeEntry, s.entryFor c.headset = some e → s.entryAt e.slot = some e →
      e.state = .served ∨ e.state = .offered ∨ e.state = .lost →
      -- the entry as it stands in LOST when the call is taken
      let lost (x : ServeEntry) : ServeEntry :=
        if e.state = .lost then x
        else { x with state := .lost, rescueTimer := some cfg.rescueWindow, handing := none, lossRun := 0, heard := false
                      ring := { x.ring with playing := true } }
      let noticed : Mlc := if e.state = .lost then s.mlc else s.mlc.notify (.lost e.headset)
      (e.tag = none → e.yieldOwed = none → s.tqu.urgent.length < 4 →
        run
          { s with
            re := { s.re with
              claimCounter := s.re.claimCounter + 1
              serve := s.re.serve.map fun x =>
                if x.slot = e.slot then
                  { lost x with q := 16 * sample, r := (16 * sample + 8) / 16, tag := some s.re.claimCounter }
                else x }
            tqu := { s.tqu with urgent := s.tqu.urgent ++ [claim e.headset e.slot ((16 * sample + 8) / 16)] }
            mlc := noticed }) ∧
      (e.tag ≠ none ∨ e.yieldOwed ≠ none ∨ 4 ≤ s.tqu.urgent.length →
        run
          { s with
            re := { s.re with serve := s.re.serve.map fun x =>
              if x.slot = e.slot then
                { lost x with q := smooth cfg.k x.q sample, r := (smooth cfg.k x.q sample + 8) / 16 }
              else x }
            mlc := noticed })) ∧
    (s.entryFor c.headset = none → cfg.permits c.headset = false → run s) ∧
    (s.entryFor c.headset = none → cfg.permits c.headset = true →
      let newcomer : SurveyEntry :=
        { headset := c.headset, q := 16 * sample, r := (16 * sample + 8) / 16, lastHeard := 0, dwell := 0, pacing := 0,
          holdOff := 0, knowledge := none, claim := none }
      let groups := distinctGroups ((c.listen.getD (cfg.defaultsFor c.headset).listen).map ListenItem.group)
      -- the survey list with the call taken as a sample
      let list :=
        if s.surveyFor c.headset = none then enterSurveyList newcomer s.re.survey
        else s.re.survey.map fun x => if x.headset = c.headset then x.sample cfg sample else x
      let sampled : State := { s with re := { s.re with survey := list } }
      (∀ (x : SurveyEntry) (slot : Nat), sampled.surveyFor c.headset = some x → x.holdOff = 0 → x.claim = none →
        (list.filter fun y => y.claim.isSome).length < 4 → s.apc.lowestFree = some slot → s.tqu.urgent.length < 4 →
        s.vp.fits groups = true →
        run
          { s with
            re := { s.re with
              claimCounter := s.re.claimCounter + 1
              survey := list.map fun y =>
                if y.headset = c.headset then
                  { y with
                    claim := some
                      { kind := .seek, tag := s.re.claimCounter, slot := slot, groups := groups, phase := .queued,
                        replyTimer := none, callListen := c.listen, callTalk := c.talk } }
                else y }
            apc := { s.apc with slots := s.apc.slots.modify slot fun y => { y with state := .reserved s.re.claimCounter } }
            vp := s.vp.acquireAll groups
            tqu := { s.tqu with urgent := s.tqu.urgent ++ [claim c.headset slot x.r] } }) ∧
      (∀ x : SurveyEntry, sampled.surveyFor c.headset = some x →
        x.holdOff ≠ 0 ∨ x.claim ≠ none ∨ 4 ≤ (list.filter fun y => y.claim.isSome).length ∨ s.apc.lowestFree = none ∨
          4 ≤ s.tqu.urgent.length ∨ s.vp.fits groups = false → run sampled) ∧
      (sampled.surveyFor c.headset = none → run sampled))

/-! ## Scores and the survey list -/

/-- Smoothing (R26): with d the target 16·s less Q, the step is d over 2^k truncated toward zero, or one toward the target
where that is 0 and d is not; Q stays within 0..1440 and between its old value and the target, keeps a Q on the target, and
a run of equal samples brings it there; the reported score and every claim score made of it lie in 0..90. -/
def Obligations.SmoothedScore : Prop :=
  ∀ (k q s : Nat), 2 ≤ k → k ≤ 5 → q ≤ 1440 → s ≤ 90 →
    let d : Int := 16 * (s : Int) - (q : Int)
    let quotient : Int := if 0 ≤ d then d / 2 ^ k else -((-d) / 2 ^ k)
    let step : Int := if quotient ≠ 0 then quotient else if 0 < d then 1 else if d < 0 then -1 else 0
    ((smooth k q s : Int) = q + step) ∧ smooth k q s ≤ 1440 ∧ |step| ≤ |d| ∧
    (q ≤ 16 * s → q ≤ smooth k q s ∧ smooth k q s ≤ 16 * s) ∧
    (16 * s ≤ q → 16 * s ≤ smooth k q s ∧ smooth k q s ≤ q) ∧
    (∃ n : Nat, (fun x => smooth k x s)^[n] q = 16 * s) ∧
    reported (smooth k q s) ≤ 90 ∧ ∀ bias : Int, claimScore (reported (smooth k q s)) bias ≤ 90

/-- The claim score (R29, R44): R plus the bias of the earliest neighbour item that names the serving node, clamped into
0..90; none without knowledge or where no item names the node. -/
def Obligations.ClaimScores : Prop :=
  ∀ (cfg : Settings) (e : SurveyEntry),
    (e.knowledge = none → e.claimScore cfg = none) ∧
    (∀ k : Knowledge, e.knowledge = some k → (∀ n ∈ cfg.neighbours, n.node ≠ k.node) → e.claimScore cfg = none) ∧
    (∀ (k : Knowledge) (before after : List Neighbour) (n : Neighbour), e.knowledge = some k →
      cfg.neighbours = before ++ n :: after → n.node = k.node → (∀ x ∈ before, x.node ≠ k.node) →
      ∃ score : Nat, e.claimScore cfg = some score ∧ (score : Int) = max 0 (min 90 ((e.r : Int) + n.bias)))

/-- The replacement rule of a full survey list (R41): among the entries without a claim record there is a victim, of lowest R,
then greatest last heard, then lowest identity; a newcomer of higher R takes its place, any other leaves the list as it
is; where every entry holds a claim the newcomer is dropped. Nothing but the list changes, and nothing is counted. -/
def Obligations.SurveyReplacement : Prop :=
  ∀ (survey : List SurveyEntry) (new : SurveyEntry), survey.length = 48 → (survey.map SurveyEntry.headset).Nodup →
    (∀ s : State, s.enterSurvey new = { s with re := { s.re with survey := enterSurveyList new s.re.survey } }) ∧
    ((∀ e ∈ survey, e.claim ≠ none) → enterSurveyList new survey = survey) ∧
    ((∃ e ∈ survey, e.claim = none) →
      ∃ v ∈ survey, v.claim = none ∧
        (∀ e ∈ survey, e.claim = none →
          v.r < e.r ∨ (v.r = e.r ∧ (e.lastHeard < v.lastHeard ∨
            (v.lastHeard = e.lastHeard ∧ v.headset.toNat ≤ e.headset.toNat)))) ∧
        enterSurveyList new survey =
          if v.r < new.r then (survey.filter fun e => e.headset != v.headset) ++ [new] else survey)

/-! ## Rings, store and mask -/

/-- Placing a good frame in a ring with expected sequence e (R114 to R117): with n = q − e modulo 64, a frame 0..31 ahead is
appended behind min(n, L) silence frames and moves the expected sequence to q + 1, one further ahead is misinserted and
leaves the ring; the ring keeps the newest 8 frames, and each frame lost from its oldest end counts one overrun. The counters
rise by what the placement finds. -/
def Obligations.RingPlacement : Prop :=
  ∀ (cfg : Settings) (ring : Machine.Ring) (expected q : Seq) (payload : List Byte), ring.expected = some expected →
    ring.frames.length ≤ 8 →
    let n := (q - expected).toNat
    let fill := min n (if cfg.fullFill then 6 else 2)
    let appended := ring.frames ++ List.replicate fill { payload := List.replicate 40 cfg.silence, silence := true } ++
      [{ payload := payload, silence := false }]
    let p := ring.place cfg q payload
    (n ≤ 31 →
      p.ring = { frames := appended.drop (appended.length - 8), expected := some (q + 1), playing := ring.playing } ∧
      p.ring.frames.length ≤ 8 ∧ p.silence = fill ∧ p.overruns + p.ring.frames.length = appended.length ∧
      p.misinserted = 0) ∧
    (32 ≤ n → p.ring = ring ∧ p.silence = 0 ∧ p.overruns = 0 ∧ p.misinserted = 1) ∧
    ∀ m : Mlc, m.Sound →
      (m.countPlacement p).counter .silenceInserted = m.counter .silenceInserted + BitVec.ofNat 16 p.silence ∧
      (m.countPlacement p).counter .ringOverruns = m.counter .ringOverruns + BitVec.ofNat 16 p.overruns ∧
      (m.countPlacement p).counter .misinserted = m.counter .misinserted + BitVec.ofNat 16 p.misinserted

/-- The mix of one sample position (R127): with every current frame 80 samples long, the total is the sum over the listen
list's items whose group has a current frame of that frame's sample divided by 2 to the item's shift, rounding down. -/
def Obligations.MixedSamples : Prop :=
  ∀ (v : Vp) (listen : List ListenItem),
    (∀ e ∈ v.store, ∀ samples, e.current = some samples → samples.length = 80) →
    (mixTotals v listen).length = 80 ∧
    ∀ i : Nat, i < 80 →
      (mixTotals v listen)[i]? = some ((listen.map fun item =>
        match (v.find item.group).bind StoredGroup.current with
        | some samples => ((samples[i]?).getD 0).toInt / 2 ^ item.shift
        | none => (0 : Int)).sum)

/-- The listen mask (R124): of a store of the part, bin b is set exactly where a stored group g has g XOR (g shifted right by
3) equal to b modulo 64, and four group numbers map to each bin; it is recomputed at each creation and removal, and an acquire
or release that neither creates nor removes an entry leaves it. -/
def Obligations.ListenMask : Prop :=
  ∀ v : Vp, v.Sound →
    (∀ b : Nat, b < 64 →
      (v.mask.getLsbD b = true ↔ ∃ e ∈ v.store, (e.group ^^^ (e.group >>> 3)).toNat % 64 = b) ∧
        ((List.range 256).filter fun g => binOf (BitVec.ofNat 8 g) = b).length = 4) ∧
    (∀ (g : Group) (w : Vp), v.acquire g = some w → w.mask = maskOf w.store ∧ (v.stored g = true → w.mask = v.mask)) ∧
    (∀ g : Group, (v.release g).mask = maskOf (v.release g).store ∧
      ((∀ e ∈ v.store, e.group = g → 2 ≤ e.refs) → (v.release g).mask = v.mask))

/-- References to a group (R121): an acquire of a stored group raises its count by 1, one of a new group creates it with count
1 while fewer than 12 are stored and is refused otherwise; a release lowers the count by 1 and removes the group at 0.
A claim's groups, each named once, fit where those not stored find free places, and then each gets one reference (R122).
The exchange of a listen list for held references (R123) walks the first item of each group: the list kept is a prefix of
those items, a drop is counted exactly where it is cut off, and of a cut list the first item removed had no held reference
and met a full store; each group's references fall by 1 where one was held and rise by 1 where the list kept names it. -/
def Obligations.GroupReferences : Prop :=
  ∀ v : Vp, v.Sound →
    (∀ g : Group,
      (∀ e : StoredGroup, v.find g = some e →
        (∃ w : Vp, v.acquire g = some w ∧ w.find g = some { e with refs := e.refs + 1 } ∧
          ∀ h : Group, h ≠ g → w.find h = v.find h) ∧
        (v.release g).find g = (if e.refs = 1 then none else some { e with refs := e.refs - 1 }) ∧
        ∀ h : Group, h ≠ g → (v.release g).find h = v.find h) ∧
      (v.find g = none → v.store.length < 12 →
        ∃ w : Vp, v.acquire g = some w ∧ w.find g = some { group := g, refs := 1, current := none, lastSeq := none } ∧
          ∀ h : Group, h ≠ g → w.find h = v.find h) ∧
      (v.find g = none → v.store.length = 12 → v.acquire g = none)) ∧
    (∀ gs : List Group, gs.Nodup →
      (v.fits gs = true ↔ v.store.length + (gs.filter fun g => v.find g = none).length ≤ 12) ∧
      (v.fits gs = true → ∀ g : Group, (v.acquireAll gs).refs g = v.refs g + if g ∈ gs then 1 else 0)) ∧
    (∀ (held : List Group) (list : List ListenItem), held.Nodup → (∀ g ∈ held, v.find g ≠ none) →
      let items := firstPerGroup list
      let fit := v.fit held list
      let named := fit.kept.map ListenItem.group
      ((items.map ListenItem.group).Nodup ∧
        ∀ g : Group, (items.find? fun i => i.group = g) = list.find? fun i => i.group = g) ∧
      (∀ g : Group, fit.vp.refs g + (if g ∈ held then 1 else 0) = v.refs g + if g ∈ named then 1 else 0) ∧
      ∃ cut : List ListenItem, items = fit.kept ++ cut ∧ (fit.dropped = true ↔ cut ≠ []) ∧
        ∀ (i : ListenItem) (rest : List ListenItem), cut = i :: rest → i.group ∉ held ∧
          ∃ w : Vp, w.Sound ∧ w.acquire i.group = none ∧
            ∀ g : Group, w.refs g + (if g ∈ held ∧ g ∉ items.map ListenItem.group then 1 else 0) =
              v.refs g + if g ∈ named ∧ g ∉ held then 1 else 0)

/-- A sound GROUP FRAME in RUN (R125, R126): where its bin is clear it is dropped; where the bin is set and the group not
stored a mask miss is counted; a repeat of the last sequence is discarded; otherwise its samples become the group's
current frame, an overwrite being counted where one was there. Outside JOINING and RUN it has no effect (R164). -/
def Obligations.GroupFrames : Prop :=
  ∀ (s : State) (record : List Byte) (g : Group) (seq : Byte) (samples : List Byte),
    checkRecord 0x01 162 record = .sound (g :: seq :: samples) →
    (s.cfl.node ≠ .joining → s.cfl.node ≠ .run → exec (.groupFrame record) s = .next s) ∧
    (s.cfl.node = .joining ∨ s.cfl.node = .run →
      (s.vp.mask.getLsbD (binOf g) = false → exec (.groupFrame record) s = .next s) ∧
      (s.vp.mask.getLsbD (binOf g) = true → s.vp.find g = none →
        exec (.groupFrame record) s = .next { s with mlc := s.mlc.count .maskMisses }) ∧
      (∀ e : StoredGroup, s.vp.mask.getLsbD (binOf g) = true → s.vp.find g = some e → e.lastSeq = some seq →
        exec (.groupFrame record) s = .next s) ∧
      (∀ e : StoredGroup, s.vp.mask.getLsbD (binOf g) = true → s.vp.find g = some e → e.lastSeq ≠ some seq →
        exec (.groupFrame record) s = .next
          { s with
            vp := { s.vp with store := s.vp.store.map fun x =>
              if x.group = g then { x with current := some (readSamples samples), lastSeq := some seq } else x }
            mlc := if e.current = none then s.mlc else s.mlc.count .groupOverwrites }))

/-! ## The trunk -/

/-- TRUNK_ATTEMPT_START (R131, R135, R149): in IDLE, with the line free after `idle` more IDLE symbols, the message TQU
offers is taken in hand, stays in its queue, and its frame is built and begun; where the line is not free or nothing is
offered only the symbols are counted, and another symbol ends the idle run. The end of arbitration (R136, R151): won, TLC
goes on to SENDING, the bits of the field having ended both runs; lost, the loss is counted, the message returns to its
place in its queue with its failure count, and TLC reads the winner's frame. That the row brings a line of symbols, and that
its start bit is read by the row that follows, is the model's choice of assumption 5; that these rows do nothing in every
other state of TLC is its choice of assumption 2. -/
def Obligations.AttemptsBegin : Prop :=
  (∀ (cfg : Settings) (s : State) (idle : Nat), s.cfl.config = some cfg →
     let line : List LineSymbol := List.replicate idle .idle
     let waited : Tlc :=
       { s.tlc with
         wait := s.tlc.wait - idle, idleRun := if idle = 0 then s.tlc.idleRun else min 11 (s.tlc.idleRun + idle)
         heldRun := if idle = 0 then s.tlc.heldRun else 0 }
     (∀ m : Queued, s.tlc.state = .idle → 3 ≤ s.tlc.idleRun + idle → s.tqu.select cfg = some m →
       exec (.trunkAttemptStart line) s = .next
         { s with
           tqu := s.tqu.onQueue m.cls (changeFirst (s.tqu.eligible cfg) fun x => { x with inHand := true })
           tlc := { waited with state := .arbitrating
                                attempt := some { message := m, frame := buildFrame cfg.node m } } }) ∧
     (s.tlc.state = .idle → s.tlc.idleRun + idle < 3 ∨ s.tqu.select cfg = none →
       exec (.trunkAttemptStart line) s = .next { s with tlc := waited }) ∧
     (∀ x : LineSymbol, s.tlc.state = .idle → x = .recessive ∨ x = .violation →
       exec (.trunkAttemptStart (line ++ [x])) s = .next
         { s with tlc := { s.tlc with wait := s.tlc.wait - idle - 1, idleRun := 0, heldRun := 0 } })) ∧
  (∀ (s : State) (line : List LineSymbol), s.tlc.state ≠ .idle → exec (.trunkAttemptStart line) s = .next s) ∧
  (∀ s : State,
     (s.tlc.state = .arbitrating →
       exec .arbitrationWon s = .next { s with tlc := { s.tlc with state := .sending, idleRun := 0, heldRun := 0 } } ∧
       ∀ m : Queued, s.tqu.inHand = some m →
         exec .arbitrationLost s = .next
           { s with
             tqu := s.tqu.onQueue m.cls (changeFirst Queued.inHand fun x => { x with inHand := false, replaced := false })
             tlc := { s.tlc with
               state := .receiving, idleRun := 0, heldRun := 0, attempt := none
               reading := some { follows := false, crcRead := false, acknowledges := false } }
             mlc := s.mlc.count .arbitrationLosses }) ∧
     (s.tlc.state ≠ .arbitrating → exec .arbitrationWon s = .next s ∧ exec .arbitrationLost s = .next s))

/-- DELIVERED at the acknowledge slot (R142, R151, R152, R155): the frame is counted as sent and the attempt ends; the message
leaves its queue and in RUN its owner is told; a HOLD replaced while in hand stays with its new time and count 0; where RE
had removed the message nobody is told. -/
def Obligations.DeliveredMessages : Prop :=
  ∀ (s : State) (a : Attempt), s.tlc.state = .sending → s.tlc.attempt = some a →
    let ended : State :=
      { s with
        tlc := { s.tlc with attempt := none, idleRun := 0, heldRun := 0 }
        mlc := s.mlc.count .sent }
    (s.tqu.inHand = none → exec .delivered s = .next ended) ∧
    (∀ m : Queued, s.tqu.inHand = some m → m.replaced = true →
      exec .delivered s = .next
        { ended with tqu := s.tqu.onQueue m.cls (changeFirst Queued.inHand fun x =>
            { x with inHand := false, replaced := false, failures := 0 }) }) ∧
    (∀ m : Queued, s.tqu.inHand = some m → m.replaced = false →
      let removed : State := { ended with tqu := s.tqu.onQueue m.cls (removeFirst Queued.inHand) }
      (s.cfl.node ≠ .run → exec .delivered s = .next removed) ∧
      (∀ cfg : Settings, s.InRun cfg → exec .delivered s = .next (removed.tellOwner cfg true m)))

/-- BIT_FAULT and ACKNOWLEDGE_FAILURE (R136, R141 to R145, R151): the fault is counted and the attempt ends; after a bit fault
TLC follows the rest of the frame, after an acknowledge failure it finishes its own. A bit read otherwise than sent is a
bit fault, but for the DOMINANT that loses arbitration and for HELD; a run of HELD is one as it ends before 64. That TLC still
follows where the faulted bit itself was read as IDLE or VIOLATION is the model's choice of assumption 32. A start bit
read as IDLE goes on with the idle run of the line before it, an IDLE read for a later bit begins one. A message
below its eighth failure stays with its count raised by 1 and a wait of r × 32 bit times starts, r drawn from the advanced
generator; at the eighth it is dropped and counted and its owner told in RUN. For a HOLD replaced while in hand the count
that rises is the one begun again at the replacement, by the model's choice of assumption 12. Where RE has removed the
message meanwhile, the failure only starts the wait that its count would have had, and nobody is told (R145). -/
def Obligations.FailedAttempts : Prop :=
  ∀ (s : State) (a : Attempt) (c : Instr) (x : LineSymbol) (counter : Counter) (tlc : Tlc),
    s.tlc.attempt = some a → x ≠ .held →
    ((∃ cause, c = .bitFault cause ∧ counter = .bitFaults ∧
        ((cause = .startBit x ∧ s.tlc.state = .arbitrating ∧ x ≠ .dominant) ∨
          (cause = .differs x ∧ (s.tlc.state = .sending ∨ (s.tlc.state = .arbitrating ∧ x ≠ .dominant))) ∨
          (cause = .heldRun x ∧ (s.tlc.state = .sending ∨ s.tlc.state = .arbitrating))) ∧
        tlc = { s.tlc with
          state := .receiving, attempt := none, heldRun := 0
          idleRun := if x = .idle then (if cause = .startBit x then min 11 (s.tlc.idleRun + 1) else 1) else 0
          reading := some { follows := true, crcRead := false, acknowledges := false } }) ∨
      (c = .acknowledgeFailure x ∧ counter = .acknowledgeFailures ∧ s.tlc.state = .sending ∧ x ≠ .dominant ∧
        tlc = { s.tlc with attempt := none, idleRun := if x = .idle then 1 else 0, heldRun := 0 })) →
    let waits (failures : Nat) : Tlc :=
      { tlc with
        generator := advanceGenerator s.tlc.generator
        wait := (advanceGenerator s.tlc.generator).toNat % 2 ^ (min failures 5) * 32 }
    (∀ m : Queued, s.tqu.inHand = some m →
      (m.failures < 7 →
        exec c s = .next
          { s with
            tqu := s.tqu.onQueue m.cls (changeFirst Queued.inHand fun x =>
              { x with inHand := false, replaced := false, failures := x.failures + 1 })
            tlc := waits (m.failures + 1)
            mlc := s.mlc.count counter }) ∧
      (7 ≤ m.failures →
        let dropped : State :=
          { s with tqu := s.tqu.onQueue m.cls (removeFirst Queued.inHand), tlc := tlc
                   mlc := (s.mlc.count counter).count .droppedAtLimit }
        (s.cfl.node ≠ .run → exec c s = .next dropped) ∧
        (∀ cfg : Settings, s.InRun cfg → exec c s = .next (dropped.tellOwner cfg false m)))) ∧
    (s.tqu.inHand = none →
      exec c s = .next
        { s with tlc := if a.message.failures < 7 then waits (a.message.failures + 1) else tlc
                 mlc := s.mlc.count counter })

/-- What RE does with the outcome of each kind of message but the SEEK CLAIM, which has its own statement: of a HOLD, TAKEN,
DECLINE or STANDING nothing (R151), of a YIELD for a handover (R15, R17), of a YIELD owed to a seek winner (R91) and of a
NORMAL CLAIM (R49, R60). A delivered YIELD makes MOVE_SENT with the timer T_h and sends the MOVE ORDER, and where APC refuses
the order the entry reverts at once with notice REVERTED; an undeliverable one returns the entry to service; a YIELD without
its entry in YIELD_PENDING is ignored. Either outcome of a YIELD owed releases its LOST entry with notice LEFT, and the
headset enters the survey list with the hold-off at T_s; that last heard and dwell are 0 there is the model's choice of
assumption 25. A delivered CLAIM is SENT with the reply timer T_r; an
undeliverable one fails with pacing 31 and its knowledge gone; without its record it is ignored. -/
def Obligations.OutcomesAtRe : Prop :=
  ∀ (cfg : Settings) (s : State) (m : Queued),
    (∀ delivered : Bool,
      (∃ t, m.body = .hold t) ∨ (∃ h n p, m.body = .taken h n p) ∨ (∃ h t r, m.body = .decline h t r) ∨
        (∃ ns, m.body = .standing ns) → s.tellOwner cfg delivered m = s) ∧
    (∀ (c : Context) (e : ServeEntry) (h : HandingRecord), m.body = .yield c → m.cls ≠ .urgent →
      s.entryFor c.headset = some e → s.entryAt e.slot = some e → e.state = .handing → e.handing = some h →
      h.phase = .yieldPending → h.claimant = m.destination → h.tag = c.tag →
      let returned : Re :=
        { s.re with serve := s.re.serve.map fun x =>
          if x.slot = e.slot then
            if x.r < cfg.floor then { x with state := .offered, offerChanged := true, handing := none, lossRun := 0 }
            else { x with state := .served, handing := none, lossRun := 0 }
          else x }
      ((s.apc.slot e.slot).state = .assigned e.headset → (s.apc.slot e.slot).order = none →
        s.tellOwner cfg true m =
          { s with
            re := { s.re with serve := s.re.serve.map fun x =>
              if x.slot = e.slot then
                { x with handing := some { h with phase := .moveSent, timer := some cfg.handingTime } }
              else x }
            apc := { s.apc with
              slots := s.apc.slots.modify e.slot fun x => { x with order := some { kind := .move, age := 0 } }
              out := s.apc.out ++ [[0x14, 3, byteOf e.slot, byteOf h.channel, byteOf h.slot]] } }) ∧
      ((s.apc.slot e.slot).order ≠ none →
        s.tellOwner cfg true m = { s with re := returned, mlc := s.mlc.notify (.reverted e.headset h.claimant) }) ∧
      s.tellOwner cfg false m = { s with re := returned }) ∧
    (∀ (c : Context) (delivered : Bool), m.body = .yield c → m.cls ≠ .urgent →
      (∀ (e : ServeEntry) (h : HandingRecord), s.entryFor c.headset = some e → e.handing = some h →
        e.state ≠ .handing ∨ h.phase ≠ .yieldPending ∨ h.claimant ≠ m.destination ∨ h.tag ≠ c.tag) →
      s.tellOwner cfg delivered m = s) ∧
    (∀ (c : Context) (delivered : Bool), m.body = .yield c → m.cls = .urgent →
      (∀ e : ServeEntry, s.entryFor c.headset = some e → s.entryAt e.slot = some e → e.state = .lost →
        e.yieldOwed = some { winner := m.destination, tag := c.tag } →
        s.tellOwner cfg delivered m =
          ((s.releaseEntry e.slot).notify (.left e.headset m.destination)).enterSurvey
            { headset := e.headset, q := e.q, r := e.r, lastHeard := 0, dwell := 0, pacing := 0, holdOff := cfg.seekWait,
              knowledge := none, claim := none }) ∧
      ((∀ e : ServeEntry, s.entryFor c.headset = some e →
          e.state ≠ .lost ∨ e.yieldOwed ≠ some { winner := m.destination, tag := c.tag }) →
        s.tellOwner cfg delivered m = s)) ∧
    (∀ (c : ClaimBody) (e : SurveyEntry) (r : ClaimRecord), m.body = .claim c → c.kind = .normal →
      s.surveyFor c.headset = some e → e.claim = some r → r.tag = c.tag → r.kind = .normal → r.phase = .queued →
      s.tellOwner cfg true m =
        { s with
          re := { s.re with survey := s.re.survey.map fun x =>
            if x.headset = c.headset then
              { x with claim := some { r with phase := .sent, replyTimer := some cfg.replyTime } }
            else x } } ∧
      ((s.apc.slot r.slot).state = .reserved r.tag →
        s.tellOwner cfg false m =
          { s with
            re := { s.re with survey := s.re.survey.map fun x =>
              if x.headset = c.headset then { x with claim := none, dwell := 0, pacing := 31, knowledge := none } else x }
            apc := { s.apc with slots := s.apc.slots.modify r.slot fun x => { x with state := .free } }
            vp := s.vp.releaseAll r.groups
            tqu := { s.tqu with
              urgent := s.tqu.urgent.filter fun x => !x.body.isClaimOf c.headset r.tag
              handover := s.tqu.handover.filter fun x => !x.body.isClaimOf c.headset r.tag } })) ∧
    (∀ (c : ClaimBody) (delivered : Bool), m.body = .claim c → c.kind = .normal →
      (∀ (e : SurveyEntry) (r : ClaimRecord), s.surveyFor c.headset = some e → e.claim = some r →
        r.tag ≠ c.tag ∨ r.kind ≠ .normal ∨ r.phase ≠ .queued) → s.tellOwner cfg delivered m = s)

/-- The outcome of a SEEK CLAIM (R21, R49, R85, R86, R87, R92). Undeliverable, its record ends; delivered with a rival's waiting
in the pool, it is withdrawn and a seek loss counted; delivered with none, the headset is ARRIVING in its reserved slot,
now ASSIGNED, with the call's context or, for what the call did not carry, the admission defaults; SLOT ASSIGN goes before
SEEK ANSWER and a seek win is counted. A delivered reclaim with no rival waiting makes its LOST entry ARRIVING with origin
RECLAIM; with one it is withdrawn and a seek loss counted; undeliverable it ends, and its entry departs where the rescue
timer has reached 0. An outcome that finds neither is ignored. -/
def Obligations.SeekOutcomes : Prop :=
  ∀ (cfg : Settings) (s : State) (m : Queued) (c : ClaimBody), m.body = .claim c → c.kind = .seek →
    (∀ (e : SurveyEntry) (r : ClaimRecord), s.surveyFor c.headset = some e → e.claim = some r → r.tag = c.tag →
      r.kind = .seek → s.apc.slot r.slot = { state := .reserved r.tag, order := none } →
      let tqu : Tqu :=
        { s.tqu with
          urgent := s.tqu.urgent.filter fun x => !x.body.isClaimOf c.headset r.tag
          handover := s.tqu.handover.filter fun x => !x.body.isClaimOf c.headset r.tag }
      let freed : State :=
        { s with
          re := { s.re with survey := s.re.survey.map fun x =>
            if x.headset = c.headset then { x with claim := none, dwell := 0 } else x }
          apc := { s.apc with slots := s.apc.slots.modify r.slot fun x => { x with state := .free } }
          vp := s.vp.releaseAll r.groups
          tqu := tqu }
      s.tellOwner cfg false m = freed ∧
      (s.tqu.rivalWaits c.headset = true →
        s.tellOwner cfg true m = { freed with mlc := s.mlc.count .seekLosses }) ∧
      (∀ (listen : List ListenItem) (talk : Option Group), s.tqu.rivalWaits c.headset = false →
        (r.callListen = some listen ∧ talk = r.callTalk) ∨
          (r.callListen = none ∧ listen = (cfg.defaultsFor c.headset).listen ∧
            talk = if r.callTalk = none then (cfg.defaultsFor c.headset).talk else r.callTalk) →
        let fit := s.vp.fit r.groups listen
        s.tellOwner cfg true m =
          { s with
            re := { s.re with
              survey := s.re.survey.filter fun x => x.headset != c.headset
              serve := insertBySlot
                { headset := c.headset, state := .arriving, slot := r.slot, listen := fit.kept, talk := talk, q := e.q,
                  r := (e.q + 8) / 16, heard := false, lossRun := 0, settle := 0, count := 0, lastReported := 0,
                  offerChanged := false, origin := some .seek, tag := some r.tag, arrivalTimer := some cfg.seekWait,
                  rescueTimer := none, handing := none, yieldOwed := none, previous := none,
                  ring := { frames := [], expected := none, playing := false } } s.re.serve }
            apc := { s.apc with
              slots := s.apc.slots.modify r.slot fun _ =>
                { state := .assigned c.headset, order := some { kind := .answer, age := 0 } }
              out := s.apc.out ++ [(AirOrder.slotAssign r.slot c.headset).bytes,
                (AirOrder.seekAnswer c.headset cfg.channel r.slot).bytes] }
            vp := fit.vp
            tqu := tqu
            mlc := (if fit.dropped then s.mlc.count .groupDrops else s.mlc).count .seekWins })) ∧
    (∀ (e : SurveyEntry) (r : ClaimRecord) (delivered : Bool), s.surveyFor c.headset = some e → e.claim = some r →
      r.tag = c.tag → r.kind = .normal → s.tellOwner cfg delivered m = s) ∧
    ((∀ x r, s.surveyFor c.headset = some x → x.claim = some r → r.tag ≠ c.tag) →
      (∀ e : ServeEntry, s.entryFor c.headset = some e → s.entryAt e.slot = some e → e.state = .lost →
        e.tag = some c.tag →
        let ended : State :=
          { s with re := { s.re with serve := s.re.serve.map fun x =>
              if x.slot = e.slot then { x with tag := none } else x } }
        (s.tqu.rivalWaits c.headset = false → s.apc.slot e.slot = { state := .assigned e.headset, order := none } →
          s.tellOwner cfg true m =
            { s with
              re := { s.re with serve := s.re.serve.map fun x =>
                if x.slot = e.slot then
                  { x with state := .arriving, origin := some .reclaim, rescueTimer := none
                           arrivalTimer := some cfg.seekWait, previous := some cfg.node, lastReported := 0
                           offerChanged := false, ring := { frames := [], expected := none, playing := false } }
                else x }
              apc := { s.apc with
                slots := s.apc.slots.modify e.slot fun x => { x with order := some { kind := .answer, age := 0 } }
                out := s.apc.out ++ [(AirOrder.seekAnswer e.headset cfg.channel e.slot).bytes] }
              mlc := s.mlc.count .seekWins }) ∧
        (s.tqu.rivalWaits c.headset = true →
          s.tellOwner cfg true m =
            { ended with
              tqu := { s.tqu with
                urgent := s.tqu.urgent.filter fun x => !x.body.isClaimOf e.headset c.tag
                handover := s.tqu.handover.filter fun x => !x.body.isClaimOf e.headset c.tag }
              mlc := s.mlc.count .seekLosses }) ∧
        s.tellOwner cfg false m =
          if e.rescueTimer = some 0 then ((ended.releaseEntry e.slot).notify (.departed e.headset)).count .departures
          else ended) ∧
      (∀ delivered : Bool,
        (∀ e : ServeEntry, s.entryFor c.headset = some e → e.state ≠ .lost ∨ e.tag ≠ some c.tag) →
        s.tellOwner cfg delivered m = s))

/-- The symbols of the line and the frames they begin and end (R131, R134, R135, R140, R142, R143, R146). In every state of TLC
but OFF a symbol is a bit time of a running wait and moves the runs: an IDLE raises the idle run, a HELD the held run, every
other symbol ends both. Outside a frame a DOMINANT in IDLE and BACKOFF, and in WAIT_IDLE after 3 IDLE, is the start bit of
another node's frame; an idle run of 11 leads from WAIT_IDLE to IDLE, or to BACKOFF while a wait runs; the end of the wait
leads from BACKOFF to IDLE. BACKOFF_END, ANOTHER_NODES_START_BIT, WAIT_IDLE_EXIT, STUCK_ENTRY and STUCK_EXIT take their
symbols one after another, in the states of TLC in which each is met: that each row brings a line of symbols and hears it in
those states alone is the model's choice of assumption 5, and that a row changes nothing elsewhere that of assumption 2. The end
of a frame read,
or of one sent whose outcome is known, leads to IDLE, or to BACKOFF while the wait runs. What JOINING adds is stated in
JoiningEnds, and a held run of 64 and STUCK in LineFaults. -/
def Obligations.FramesBeginAndEnd : Prop :=
  ∀ s : State,
    let moved (x : LineSymbol) : Tlc :=
      { s.tlc with
        wait := s.tlc.wait - 1
        idleRun := if x = .idle then min 11 (s.tlc.idleRun + 1) else 0
        heldRun := if x = .held then min 64 (s.tlc.heldRun + 1) else 0 }
    let rested (t : Tlc) : Tlc := { t with reading := none, state := if t.wait = 0 then .idle else .backoff }
    let begun (t : Tlc) : Tlc :=
      { t with state := .receiving, idleRun := 0, heldRun := 0, attempt := none
               reading := some { follows := false, crcRead := false, acknowledges := false } }
    let heard (line : List LineSymbol) : State := line.foldl (fun t x => t.hear x) s
    -- one symbol
    (∀ x : LineSymbol,
      (s.tlc.state = .off → s.hear x = s) ∧
      ((s.tlc.state = .arbitrating ∨ s.tlc.state = .sending ∨ s.tlc.state = .receiving ∨
          (s.tlc.state = .idle ∧ x ≠ .dominant) ∨
          (s.tlc.state = .waitIdle ∧ (x = .dominant → s.tlc.idleRun < 3) ∧ (x = .idle → s.tlc.idleRun < 10))) →
        (x = .held → s.tlc.heldRun < 63) → s.hear x = { s with tlc := moved x }) ∧
      (s.tlc.state = .backoff → s.cfl.node ≠ .joining → x ≠ .dominant → (x = .held → s.tlc.heldRun < 63) →
        s.hear x = { s with tlc := rested (moved x) })) ∧
    (s.tlc.state = .waitIdle → s.cfl.node ≠ .joining → 10 ≤ s.tlc.idleRun →
      s.hear .idle = { s with tlc := rested (moved .idle) }) ∧
    (s.tlc.state = .idle ∨ (s.cfl.node ≠ .joining ∧
        (s.tlc.state = .backoff ∨ (s.tlc.state = .waitIdle ∧ 3 ≤ s.tlc.idleRun))) →
      s.hear .dominant = { s with tlc := begun (moved .dominant) }) ∧
    -- the commands that bring a line of symbols
    (∀ line : List LineSymbol,
      exec (.stuckEntry line) s = .next (heard line) ∧
      (s.tlc.state = .waitIdle → exec (.waitIdleExit line) s = .next (heard line)) ∧
      (s.tlc.state ≠ .waitIdle → exec (.waitIdleExit line) s = .next s) ∧
      (s.tlc.state = .stuck → exec (.stuckExit line) s = .next (heard line)) ∧
      (s.tlc.state ≠ .stuck → exec (.stuckExit line) s = .next s) ∧
      (s.tlc.state = .off ∨ s.tlc.state = .idle ∨ s.tlc.state = .stuck → exec (.backoffEnd line) s = .next s) ∧
      (s.tlc.state ≠ .off → s.tlc.state ≠ .idle → s.tlc.state ≠ .stuck →
        exec (.backoffEnd line) s = .next (heard line)) ∧
      (s.tlc.state = .idle ∨ s.tlc.state = .backoff ∨ s.tlc.state = .waitIdle ∨ s.tlc.state = .stuck →
        exec (.anotherNodesStartBit line) s = .next (heard (line ++ [.dominant]))) ∧
      (s.tlc.state = .off ∨ s.tlc.state = .arbitrating ∨ s.tlc.state = .sending ∨ s.tlc.state = .receiving →
        exec (.anotherNodesStartBit line) s = .next s)) ∧
    -- runs of IDLE
    (∀ n : Nat, s.tlc.state = .backoff → s.cfl.node ≠ .joining → 1 ≤ n →
      exec (.backoffEnd (List.replicate n .idle)) s = .next
        { s with tlc := { s.tlc with
            wait := s.tlc.wait - n, idleRun := min 11 (s.tlc.idleRun + n), heldRun := 0, reading := none
            state := if s.tlc.wait ≤ n then .idle else .backoff } }) ∧
    (∀ n : Nat, s.tlc.state = .idle ∨ (s.tlc.state = .backoff ∧ s.cfl.node ≠ .joining) →
      exec (.anotherNodesStartBit (List.replicate n .idle)) s = .next
        { s with tlc := begun { s.tlc with wait := s.tlc.wait - n - 1 } }) ∧
    (∀ n : Nat, s.tlc.state = .waitIdle → s.cfl.node ≠ .joining → 1 ≤ n → 11 ≤ s.tlc.idleRun + n →
      exec (.waitIdleExit (List.replicate n .idle)) s = .next
        { s with tlc := { s.tlc with
            wait := s.tlc.wait - n, idleRun := 11, heldRun := 0, reading := none
            state := if s.tlc.wait ≤ n then .idle else .backoff } }) ∧
    -- the end of a frame
    (∀ n : Nat,
      (s.tlc.state = .receiving ∨ (s.tlc.state = .sending ∧ s.tlc.attempt = none) →
        exec (.frameEnd n) s = .next
          { s with tlc := { s.tlc with
              wait := s.tlc.wait - n, idleRun := 0, heldRun := 0, reading := none
              state := if s.tlc.wait ≤ n then .idle else .backoff } }) ∧
      (s.tlc.state ≠ .receiving → s.tlc.state ≠ .sending ∨ s.tlc.attempt ≠ none → exec (.frameEnd n) s = .next s))

/-- FRAME_RECEIVED, the end of the CRC field of a frame being read (R133, R137 to R140, R152, R157, R158, R160, R161, R184). A payload
above 48 bytes is a framing fault; a CRC that does not match is counted and loads or counts up the trap record; a sound
frame of another node for this one in RUN is placed where a buffer, and for an addressed CLAIM a HANDOVER place, is free,
and acknowledged, and is an inbound overrun otherwise. A placement that finds the pool congested with the own timer at 0 sets
the timer to T and queues HOLD(T), in place of the time of a HOLD that waits in FLOW. A HOLD from a neighbour sets its timer,
to 64 at most; a HOLD whose length is not 1, a frame for another node, a HOLD or STANDING from no neighbour, and a frame in
another node state are neither placed nor acknowledged. A frame followed
after an own bit fault has its CRC checked and is not handed on (assumption 10). -/
def Obligations.FramesReceived : Prop :=
  ∀ (s : State) (bits : Nat) (arbitration : BitVec 13) (destination : Node) (payload : List Byte) (crc : Byte) (r : Reading),
    s.tlc.state = .receiving → s.tlc.reading = some r → r.crcRead = false →
    let run (t : State) : Prop := exec (.frameReceived bits arbitration destination payload crc) s = .next t
    let tlc : Tlc :=
      { s.tlc with wait := s.tlc.wait - bits, idleRun := 0, heldRun := 0, reading := some { r with crcRead := true } }
    let driven : Tlc := { tlc with reading := some { r with crcRead := true, acknowledges := true } }
    let sound := payload.length ≤ 48 ∧ crc = frameCrc arbitration destination payload
    let kind := arbitrationKind arbitration
    let sender := arbitrationSender arbitration
    let placed : Placed :=
      { cls := arbitrationClass arbitration, kind := kind, sender := sender, destination := destination, payload := payload }
    (48 < payload.length →
      run { s with tlc := { tlc with state := .waitIdle, reading := none }, mlc := s.mlc.count .framingFaults }) ∧
    (payload.length ≤ 48 → crc ≠ frameCrc arbitration destination payload →
      (s.tlc.trap = none →
        run { s with tlc := { tlc with trap := some { arbitration := arbitration, faults := 1 } }
                     mlc := s.mlc.count .crcFaults }) ∧
      (∀ x : Trap, s.tlc.trap = some x →
        run { s with tlc := { tlc with trap := some { x with faults := min 65535 (x.faults + 1) } }
                     mlc := s.mlc.count .crcFaults })) ∧
    (sound → s.cfl.node ≠ .run ∨ r.follows = true → run { s with tlc := tlc }) ∧
    (∀ cfg : Settings, sound → s.InRun cfg → r.follows = false →
      ((destination ≠ cfg.node ∧ destination ≠ 255) ∨ sender = cfg.node ∨ sender = 0 ∨ sender = 255 ∨ 5 < kind →
        run { s with tlc := tlc }) ∧
      (destination = cfg.node ∨ destination = 255 → sender ≠ cfg.node → sender ≠ 0 → sender ≠ 255 →
        (kind = 0 ∨ kind = 5 → (∀ n ∈ cfg.neighbours, n.node ≠ sender) → run { s with tlc := tlc }) ∧
        (kind = 0 → payload.length ≠ 1 → run { s with tlc := tlc }) ∧
        (∀ (time : Byte) (i : Nat), kind = 0 → payload = [time] →
          cfg.neighbours.findIdx? (fun x => x.node = sender) = some i →
          run { s with tlc := driven, tqu := { s.tqu with neighbourHolds := s.tqu.neighbourHolds.set i (min 64 time.toNat) } }) ∧
        (1 ≤ kind → kind ≤ 5 → (kind = 5 → ∃ n ∈ cfg.neighbours, n.node = sender) →
          (s.tqu.pool.length < 16 → (kind = 3 → destination = cfg.node → s.tqu.handover.length + s.tqu.reservations < 6) →
            let taken : Tqu :=
              { s.tqu with
                pool := s.tqu.pool ++ [placed]
                reservations := if kind = 3 ∧ destination = cfg.node then s.tqu.reservations + 1 else s.tqu.reservations }
            (cfg.holdThreshold < 16 - (s.tqu.pool.length + 1) ∨ s.tqu.ownHold ≠ 0 → run { s with tlc := driven, tqu := taken }) ∧
            (16 - (s.tqu.pool.length + 1) ≤ cfg.holdThreshold → s.tqu.ownHold = 0 →
              (s.tqu.flow = [] →
                run { s with tlc := driven, tqu := { taken with
                  ownHold := cfg.holdQuanta
                  flow := [{ cls := .flow, body := .hold cfg.holdQuanta, destination := 255, failures := 0, inHand := false,
                             replaced := false }] } }) ∧
              (∀ (x : Queued) (xs : List Queued), s.tqu.flow = x :: xs →
                run { s with tlc := driven, tqu := { taken with
                  ownHold := cfg.holdQuanta
                  flow := { x with body := .hold cfg.holdQuanta, failures := 0, replaced := x.inHand } :: xs } }))) ∧
          (16 ≤ s.tqu.pool.length ∨
              (kind = 3 ∧ destination = cfg.node ∧ 6 ≤ s.tqu.handover.length + s.tqu.reservations) →
            run { s with tlc := tlc, mlc := s.mlc.count .inboundOverruns }))))

/-- FRAMING_FAULT (R131, R134, R137, R141, R142): a fault in a frame being read, or in the delimiter or end field of a frame sent
whose outcome is known, is counted and takes TLC to WAIT_IDLE; an idle line met while following after an own bit fault does
so uncounted (assumption 10). That nothing happens elsewhere is the model's choice of assumption 2, and that the rows bring the
bit times since the last trunk event and a line of symbols that of assumption 5. An IDLE at which the fault is found goes on with the idle run where
no bit of the frame lies between it and the last trunk event, and else begins one; where the run stands at 11 by then, as
after a start bit that came back as IDLE, WAIT_IDLE is left at once, by the model's choice of assumption 31.
The held line (R131, R134, R144, R146, R180): a held run of 64 takes TLC from any state but OFF into STUCK, the message in
hand stays queued uncounted, a wait ends (assumption 13), TRUNK_STUCK is set and notice FAULT sent; a shorter run only
counts. In STUCK every symbol but IDLE sets the idle run to 0, a start bit among them, and an idle run of 11 leads to IDLE;
in JOINING that makes trunk joined and, with air joined already, takes the node to RUN with the listen-in countdown at S. -/
def Obligations.LineFaults : Prop :=
  (∀ (s : State) (bits : Nat) (cause : FramingCause),
     let idle := cause = .stoppedShort ∨ cause = .frameEndNotSeen true ∨ cause = .heldRun .idle
     let line : Nat :=
       if idle then (if bits ≤ 1 ∧ cause ≠ .heldRun .idle then min 11 (s.tlc.idleRun + 1) else 1) else 0
     let lost : Tlc :=
       { s.tlc with
         state := if line = 11 then (if s.tlc.wait ≤ bits then .idle else .backoff) else .waitIdle
         reading := none, heldRun := 0, wait := s.tlc.wait - bits, idleRun := line }
     let counted : State := { s with tlc := lost, mlc := s.mlc.count .framingFaults }
     (∀ r : Reading, s.tlc.state = .receiving → s.tlc.reading = some r →
       (cause = .stoppedShort → r.follows = true → exec (.framingFault bits cause) s = .next { s with tlc := lost }) ∧
       (cause ≠ .stoppedShort ∨ r.follows = false → cause ≠ .heldRun .held →
         exec (.framingFault bits cause) s = .next counted)) ∧
     (s.tlc.state = .sending → s.tlc.attempt = none → cause ≠ .stoppedShort → cause ≠ .lengthOutOfRange →
       cause ≠ .heldRun .held → exec (.framingFault bits cause) s = .next counted) ∧
     (s.tlc.state ≠ .receiving →
       s.tlc.state ≠ .sending ∨ s.tlc.attempt ≠ none ∨ cause = .stoppedShort ∨ cause = .lengthOutOfRange →
       exec (.framingFault bits cause) s = .next s) ∧
     (cause = .heldRun .held → exec (.framingFault bits cause) s = .next s)) ∧
  (∀ (s : State) (n : Nat), 1 ≤ n →
     let bits := { s.mlc.status with trunkStuck := true }
     (s.tlc.state ≠ .off → s.tlc.state ≠ .stuck → s.tlc.state ≠ .backoff ∨ s.cfl.node ≠ .joining →
       64 ≤ s.tlc.heldRun + n →
       exec (.stuckEntry (List.replicate n .held)) s = .next
         { s with
           tqu := match s.tqu.inHand with
             | some m =>
               s.tqu.onQueue m.cls (changeFirst Queued.inHand fun x => { x with inHand := false, replaced := false })
             | none => s.tqu
           tlc := { s.tlc with
             state := .stuck, idleRun := 0, heldRun := 64, attempt := none, reading := none, wait := 0 }
           mlc := Mlc.notify .faultTrunkStuck
             { s.mlc with status := bits, attention := attentionOf s.mlc.enables bits } }) ∧
     (s.tlc.state ≠ .off → s.tlc.state ≠ .stuck → s.tlc.state ≠ .backoff → s.tlc.heldRun + n < 64 →
       exec (.stuckEntry (List.replicate n .held)) s = .next
         { s with tlc := { s.tlc with
             idleRun := 0, heldRun := s.tlc.heldRun + n, wait := s.tlc.wait - n } }) ∧
     (s.tlc.state = .stuck → 11 ≤ s.tlc.idleRun + n →
       let left : State :=
         { s with tlc := { s.tlc with state := .idle, idleRun := 11, heldRun := 0, wait := s.tlc.wait - n } }
       (s.cfl.node ≠ .joining → exec (.stuckExit (List.replicate n .idle)) s = .next left) ∧
       (∀ cfg : Settings, s.cfl.node = .joining → s.cfl.config = some cfg →
         exec (.stuckExit (List.replicate n .idle)) s = .next
           { left with
             cfl := { s.cfl with trunkJoined := true, node := if s.cfl.airJoined then .run else .joining }
             re := { s.re with listenIn := if s.cfl.airJoined then some cfg.standing else s.re.listenIn } })) ∧
     (s.tlc.state = .stuck → s.tlc.idleRun + n < 11 →
       exec (.stuckExit (List.replicate n .idle)) s = .next
         { s with tlc := { s.tlc with idleRun := s.tlc.idleRun + n, heldRun := 0, wait := s.tlc.wait - n } })) ∧
  (∀ (s : State) (x : LineSymbol), s.tlc.state = .stuck → x ≠ .idle →
     exec (.stuckExit [x]) s = .next
       { s with tlc := { s.tlc with
           idleRun := 0, heldRun := if x = .held then min 64 (s.tlc.heldRun + 1) else 0, wait := s.tlc.wait - 1 } } ∧
     exec (.anotherNodesStartBit []) s = .next
       { s with tlc := { s.tlc with idleRun := 0, heldRun := 0, wait := s.tlc.wait - 1 } })

/-- The backoff generator (R143): each advance shifts it one place toward its high end and puts the combination of bits 15,
13, 12 and 10 in the lowest place (taken before the shift: assumption 22); no register but 0 leads to 0 and no two lead to
the same one, so from its seed it never becomes 0; a draw for a count n lies below 2 to the least of n and 5, so a wait
is at most 992 bit times. -/
def Obligations.BackoffGenerator : Prop :=
  ∀ g : BitVec 16,
    (∀ i : Nat, i < 15 → (advanceGenerator g).getLsbD (i + 1) = g.getLsbD i) ∧
    (advanceGenerator g).getLsbD 0 = (g.getLsbD 15 ^^ g.getLsbD 13 ^^ g.getLsbD 12 ^^ g.getLsbD 10) ∧
    (g ≠ 0 → advanceGenerator g ≠ 0) ∧ (∀ h : BitVec 16, advanceGenerator g = advanceGenerator h → g = h) ∧
    (∀ identity : BitVec 32, Tlc.seed identity ≠ 0) ∧
    (∀ (n : Nat) (t : Tlc), t.generator = g →
      (t.startBackoff n).generator = advanceGenerator g ∧
      ∃ r : Nat, r < 2 ^ (min n 5) ∧ (t.startBackoff n).wait = r * 32 ∧ (t.startBackoff n).wait ≤ 992)

/-- TQU's selection (R149, R150): the message offered is eligible, no eligible message is older in its queue, and no queue of
a lower class holds an eligible one; none is offered only where none is eligible. FLOW and URGENT are always eligible,
HANDOVER while its destination's hold timer is 0, REPORT while every neighbour's is. -/
def Obligations.SelectedMessage : Prop :=
  ∀ (cfg : Settings) (t : Tqu),
    (∀ m : Queued, t.select cfg = some m →
      t.eligible cfg m = true ∧
      ∃ (c : TxClass) (older younger : List Queued), t.queue c = older ++ m :: younger ∧
        (∀ x ∈ older, t.eligible cfg x = false) ∧
        ∀ lower : TxClass, lower.code < c.code → ∀ x ∈ t.queue lower, t.eligible cfg x = false) ∧
    (t.select cfg = none → ∀ (c : TxClass), ∀ x ∈ t.queue c, t.eligible cfg x = false) ∧
    (∀ m : Queued,
      (m.cls = .flow ∨ m.cls = .urgent → t.eligible cfg m = true) ∧
      (m.cls = .handover → (t.eligible cfg m = true ↔ t.holdOf cfg m.destination = 0)) ∧
      (m.cls = .report → (t.eligible cfg m = true ↔ ∀ x ∈ t.neighbourHolds, x = 0)))

/-- The STANDING of a mark (R13, R51, R52): an entry is due in SERVED, OFFERED and HANDING where its last reported is S or more or
its offer-changed is set. Where REPORT has room and an entry is due, the STANDING names at most four due entries, each once,
greatest last reported first with ties by lower slot, no due entry left out ranks before one named, and in each named entry
last reported is 0 and offer-changed clear; every other entry is as it was.
A CYCLE_MARK in RUN builds it from the serve table as the mark's counters and expiries leave it, and then plays every ring, whatever
the table holds (R9, R11 to R13, R17 to R20, R106, R113, R118, R119): a HANDING entry whose MOVE comes to age 4 is reverted, with
notice REVERTED, before the counters move; an entry whose loss run or handing timer ends is LOST with notice LOST; one whose arrival
or rescue timer ends leaves the table, and departs with notice DEPARTED where it was LOST or a reclaim; a DRAINING entry whose ring
the mark finds empty leaves it without a notice. The order of these within the mark is the model's choice of assumption 4, and a
LOST entry that waits with its timer at 0 that of assumption 19. -/
def Obligations.StandingBuilt : Prop :=
  ∀ cfg : Settings,
    let due (e : ServeEntry) : Prop :=
      (e.state = .served ∨ e.state = .offered ∨ e.state = .handing) ∧
        (cfg.standing ≤ e.lastReported ∨ e.offerChanged = true)
    let before (x y : ServeEntry) : Prop :=
      y.lastReported < x.lastReported ∨ (x.lastReported = y.lastReported ∧ x.slot < y.slot)
    -- `named` are the entries of `l` that a STANDING names
    let picks (l named : List ServeEntry) : Prop :=
      named.length ≤ 4 ∧ named.Pairwise before ∧ (∀ e ∈ named, e ∈ l ∧ due e) ∧
        ∀ e ∈ l, due e → e ∉ named → named.length = 4 ∧ ∀ x ∈ named, before x e
    let message (named : List ServeEntry) : Queued :=
      { cls := .report
        body := .standing (named.map fun e =>
          { headset := e.headset, score := e.r, offered := e.state == .offered, count := e.count,
            groups := e.listen.map ListenItem.group })
        destination := 255, failures := 0, inHand := false, replaced := false }
    let told (named : List ServeEntry) (e : ServeEntry) : ServeEntry :=
      if ∃ x ∈ named, x.slot = e.slot then { e with lastReported := 0, offerChanged := false } else e
    (∀ s : State, (s.re.serve.map ServeEntry.slot).Nodup →
      let t := s.buildStanding cfg
      (2 ≤ s.tqu.report.length ∨ (∀ e ∈ s.re.serve, ¬due e) → t = s) ∧
      (s.tqu.report.length < 2 → (∃ e ∈ s.re.serve, due e) →
        ∃ named : List ServeEntry, named ≠ [] ∧ picks s.re.serve named ∧
          t = { s with
            re := { s.re with serve := s.re.serve.map (told named) }
            tqu := { s.tqu with report := s.tqu.report ++ [message named] } })) ∧
    (∀ (record : List Byte) (n : BitVec 16) (s : State), s.InRun cfg → readCycleMark record = some n →
      s.apc.lastCycle ≠ some n → s.re.Sound → s.SlotLaw → s.apc.Sound → s.mlc.Sound →
      -- an entry after the orders of the mark: a MOVE that comes to age 4 reverts it (R17, R106)
      let reverts (e : ServeEntry) : Bool :=
        e.state == .handing && (e.handing.any fun h => h.phase == .moveSent) &&
          (s.apc.slot e.slot).order.any fun o => o.kind == .move && decide (4 ≤ o.age + 1)
      let ordered (e : ServeEntry) : ServeEntry :=
        if reverts e then
          if e.r < cfg.floor then { e with state := .offered, offerChanged := true, handing := none, lossRun := 0 }
          else { e with state := .served, handing := none, lossRun := 0 }
        else e
      -- what the mark brings to an end (R9, R12, R18, R20)
      let leaves (e : ServeEntry) : Bool :=
        match e.state with
        | .arriving => e.arrivalTimer.any (· ≤ 1)
        | .lost =>
          e.rescueTimer.any (· ≤ 1) && e.tag.isNone &&
            !(e.rescueTimer == some 0 && (e.yieldOwed.isSome || s.tqu.rivalWaits e.headset))
        | _ => false
      let falls (e : ServeEntry) : Bool :=
        match e.state with
        | .served | .offered => !e.heard && decide (cfg.cutLink ≤ min 255 (e.lossRun + 1))
        | .handing => e.handing.any fun h => h.phase == .moveSent && h.timer.any (· ≤ 1)
        | _ => false
      -- the counters of an entry (R9, R11, R12, R13, R18, R20)
      let ticked (e : ServeEntry) : ServeEntry :=
        let serving := e.state = .served ∨ e.state = .offered
        { e with
          settle := e.settle - 1, arrivalTimer := e.arrivalTimer.map (· - 1), rescueTimer := e.rescueTimer.map (· - 1)
          handing := e.handing.map fun h => { h with timer := h.timer.map (· - 1) }
          heard := if serving then false else e.heard
          lossRun := if serving then (if e.heard then 0 else min 255 (e.lossRun + 1)) else e.lossRun
          lastReported := if serving ∨ e.state = .handing then min 255 (e.lastReported + 1) else e.lastReported }
      let marked (e : ServeEntry) : ServeEntry :=
        if falls e then
          { ticked e with state := .lost, rescueTimer := some cfg.rescueWindow, handing := none, lossRun := 0, heard := false
                          ring := { e.ring with playing := true } }
        else ticked e
      let left : List ServeEntry := ((s.re.serve.map ordered).filter fun e => !leaves e).map marked
      -- the rings at the mark, and the entries it releases (R113, R118, R119)
      let played (e : ServeEntry) : Machine.Ring :=
        if e.talk = none ∨ e.state = .arriving then e.ring
        else if e.state = .draining ∨ e.state = .lost then { e.ring with frames := e.ring.frames.drop 1 }
        else if e.ring.playing = true ∨ cfg.depth ≤ e.ring.frames.length then
          { e.ring with frames := e.ring.frames.drop 1, playing := true }
        else e.ring
      let stays (e : ServeEntry) : Bool := e.state != .draining || !e.ring.frames.isEmpty
      let departs (e : ServeEntry) : Bool := leaves e && (e.state == .lost || e.origin == some .reclaim)
      let notices : List Notice :=
        ((List.range 24).filterMap fun k => ((s.entryAt k).filter reverts).bind fun e =>
          e.handing.map fun h => .reverted e.headset h.claimant) ++
        (s.re.serve.map ordered).filterMap fun e =>
          if falls e then some (.lost e.headset) else if departs e then some (.departed e.headset) else none
      ∃ t : State, exec (.cycleMark record) s = .next t ∧
        (∃ named : List ServeEntry,
          (if s.tqu.report.length < 2 then picks left named else named = []) ∧
          t.tqu.report = s.tqu.report ++ (if named = [] then [] else [message named]) ∧
          t.re.serve = ((left.map (told named)).filter stays).map fun e => { e with ring := played e }) ∧
        t.mlc.notices =
          notices.foldl (fun l x => if l.length < 16 then l ++ [x] else l.drop 1 ++ [x]) s.mlc.notices ∧
        t.mlc.counter .departures =
          s.mlc.counter .departures + BitVec.ofNat 16 (s.re.serve.filter departs).length)

/-! ## The handling of placed messages -/

/-- A TAKEN at its point (R9, R16, R46, R56, R57, R70, R71, R86): by where this node holds the headset, an ARRIVING entry is
released; a HANDING one drains with notice LEFT and a handover out where the sender is its claimant or the count is
higher, and stays otherwise; a SERVED, OFFERED or LOST one is released as a duplicate where the sender keeps the
headset; a DRAINING one stays; a survey entry learns the serving node, and then its NORMAL claim fails, or its SEEK claim
is withdrawn with a seek loss counted and its pacing left as it stands. A TAKEN whose length is not 6 or that names no headset has
no effect (R184); that its handling reaches its point all the same is the model's choice of assumption 20. -/
def Obligations.TakenHandled : Prop :=
  (∀ (cfg : Settings) (s : State) (p : Placed), s.Handles cfg p → p.kind = 1 →
    p.payload.length ≠ 6 ∨ p.payload.take 4 = [0, 0, 0, 0] ∨ p.payload.take 4 = [0xFF, 0xFF, 0xFF, 0xFF] →
    exec .takenHandling s = .next { s with tqu := { s.tqu with reached := true } }) ∧
  (∀ (cfg : Settings) (s : State) (p : Placed) (h : Headset) (n : Nat) (previous : Option Node), s.Handles cfg p →
    p.kind = 1 → readTaken p.payload = some (h, n, previous) →
    let begun : State := { s with tqu := { s.tqu with reached := true } }
    let known (e : SurveyEntry) : Knowledge :=
      { node := p.sender, score := none, offered := false, count := n, groups := e.knowledge.bind Knowledge.groups, age := 0 }
    (s.entryFor h = none → s.surveyFor h = none → exec .takenHandling s = .next begun) ∧
    (∀ e : SurveyEntry, s.entryFor h = none → s.surveyFor h = some e → e.claim = none →
      exec .takenHandling s = .next
        { begun with re := { s.re with survey := s.re.survey.map fun x =>
            if x.headset = h then { x with knowledge := some (known x), dwell := 0 } else x } }) ∧
    (∀ (e : SurveyEntry) (r : ClaimRecord), s.entryFor h = none → s.surveyFor h = some e → e.claim = some r →
      (s.apc.slot r.slot).state = .reserved r.tag →
      exec .takenHandling s = .next
        { begun with
          re := { s.re with survey := s.re.survey.map fun x =>
            if x.headset = h then
              { x with knowledge := some (known x), dwell := 0, claim := none
                       pacing := if r.kind = .normal then 31 else x.pacing }
            else x }
          apc := { s.apc with slots := s.apc.slots.modify r.slot fun x => { x with state := .free } }
          vp := s.vp.releaseAll r.groups
          tqu := { begun.tqu with
            urgent := s.tqu.urgent.filter fun x => !x.body.isClaimOf h r.tag
            handover := s.tqu.handover.filter fun x => !x.body.isClaimOf h r.tag }
          mlc := if r.kind = .normal then s.mlc else s.mlc.count .seekLosses }) ∧
    (∀ e : ServeEntry, s.entryFor h = some e → s.entryAt e.slot = some e →
      (e.state = .arriving → exec .takenHandling s = .next (begun.releaseEntry e.slot)) ∧
      (e.state = .draining → exec .takenHandling s = .next begun) ∧
      (e.state = .served ∨ e.state = .offered ∨ e.state = .lost →
        exec .takenHandling s = .next
          (if e.count < n ∨ (n = e.count ∧ p.sender.toNat < cfg.node.toNat) then
            ((begun.releaseEntry e.slot).count .duplicatesResolved).notify (.left h p.sender)
          else begun)) ∧
      (∀ r : HandingRecord, e.state = .handing → e.handing = some r →
        (r.claimant = p.sender ∨ e.count < n → exec .takenHandling s = .next
          { begun with
            re := { s.re with serve := s.re.serve.map fun x =>
              if x.slot = e.slot then
                { x with state := .draining, handing := none, ring := { x.ring with playing := true } }
              else x }
            mlc := (s.mlc.notify (.left h p.sender)).count .handoversOut }) ∧
        (r.claimant ≠ p.sender → n ≤ e.count → exec .takenHandling s = .next begun))))

/-- A NORMAL CLAIM addressed to this node at its point (R14, R33, R62, R63, R65). It is declined NOT_SERVED where the sender is
no neighbour, the channel or slot is out of range, or the headset is not served; BUSY in HANDING; SETTLING while settle
runs; NOT_OFFERED where a SERVED entry's R plus M exceeds the claim score. Otherwise the entry goes to HANDING with the
handing record of the CLAIM. The reply goes out at the completion of the handling (R158; assumption 9). A CLAIM whose length is not
9, whose kind byte is neither 0 nor 1, or that names no headset has no effect and no reply (R184); that its handling reaches its
point all the same, in the row of the NORMAL CLAIM, is the model's choice of assumption 20. -/
def Obligations.ClaimAnswered : Prop :=
  (∀ (cfg : Settings) (s : State) (p : Placed), s.Handles cfg p → p.kind = 3 → p.payload[5]? ≠ some 1 →
    p.payload.length ≠ 9 ∨ p.payload[5]? ≠ some 0 ∨ p.payload.take 4 = [0, 0, 0, 0] ∨
      p.payload.take 4 = [0xFF, 0xFF, 0xFF, 0xFF] →
    exec .claimHandling s = .next { s with tqu := { s.tqu with reached := true } }) ∧
  (∀ (cfg : Settings) (s : State) (p : Placed) (c : ClaimBody), s.Handles cfg p → p.kind = 3 → p.payload[5]? ≠ some 1 →
    readClaim p.payload = some c →
    let replies (b : Body) : Tqu :=
      { s.tqu with
        reached := true
        reply := some { cls := .handover, body := b, destination := p.sender, failures := 0, inHand := false,
                        replaced := false } }
    let declines (r : Reason) : Prop := exec .claimHandling s = .next { s with tqu := replies (.decline c.headset c.tag r) }
    let inRange := (∃ n ∈ cfg.neighbours, n.node = p.sender) ∧ c.channel ≤ 31 ∧ c.slot ≤ 23
    (p.destination ≠ cfg.node → exec .claimHandling s = .next { s with tqu := { s.tqu with reached := true } }) ∧
    (p.destination = cfg.node →
      (¬inRange → declines .notServed) ∧
      (inRange →
        (s.entryFor c.headset = none → declines .notServed) ∧
        (∀ e : ServeEntry, s.entryFor c.headset = some e →
          (e.state = .arriving ∨ e.state = .draining ∨ e.state = .lost → declines .notServed) ∧
          (e.state = .handing → declines .busy) ∧
          (e.state = .served ∨ e.state = .offered → 0 < e.settle → declines .settling) ∧
          (e.state = .served → e.settle = 0 → c.score < e.r + cfg.margin → declines .notOffered) ∧
          (e.settle = 0 → e.state = .offered ∨ (e.state = .served ∧ e.r + cfg.margin ≤ c.score) →
            exec .claimHandling s = .next
              { s with
                re := { s.re with serve := s.re.serve.map fun x =>
                  if x.slot = e.slot then
                    { x with
                      state := .handing, lossRun := 0, heard := false
                      offerChanged := x.offerChanged || x.state == .offered
                      handing := some { claimant := p.sender, tag := c.tag, phase := .yieldPending, channel := c.channel,
                                        slot := c.slot, timer := none } }
                  else x }
                tqu := replies (.yield { headset := e.headset, tag := c.tag, expected := e.ring.expected.getD 0,
                                         count := e.count, listen := e.listen, talk := e.talk }) })))))

/-- A rival's SEEK CLAIM at its point (R20, R82 to R84, R86, R90 to R92). At a SERVED or OFFERED entry the headset is LOST to
this node and a YIELD is owed and queued to the rival; a LOST entry owes one likewise unless it owes one already, its own
reclaim withdrawn and counted as a seek loss. Where URGENT has no room for the YIELD it is dropped and counted, and the entry
is released at once with notice LEFT, its headset entering the survey list with the hold-off loaded, last heard and dwell 0
by the model's choice of assumption 25. At ARRIVING, HANDING and DRAINING nothing happens; a survey entry's own SEEK claim is
withdrawn and its hold-off loaded. One that is not a broadcast has no effect, nor has one whose length is not 9 or that names no headset (R184); that its handling reaches its point
all the same is the model's choice of assumption 20. -/
def Obligations.SeekClaimHandled : Prop :=
  (∀ (cfg : Settings) (s : State) (p : Placed), s.Handles cfg p → p.kind = 3 → p.payload[5]? = some 1 →
    p.payload.length ≠ 9 ∨ p.payload.take 4 = [0, 0, 0, 0] ∨ p.payload.take 4 = [0xFF, 0xFF, 0xFF, 0xFF] →
    exec .seekClaimHandling s = .next { s with tqu := { s.tqu with reached := true } }) ∧
  (∀ (cfg : Settings) (s : State) (p : Placed) (c : ClaimBody), s.Handles cfg p → p.kind = 3 → p.payload[5]? = some 1 →
    readClaim p.payload = some c →
    let begun : State := { s with tqu := { s.tqu with reached := true } }
    let run (t : State) : Prop := exec .seekClaimHandling s = .next t
    (p.destination ≠ 255 → run begun) ∧
    (p.destination = 255 →
      (∀ e : ServeEntry, s.entryFor c.headset = some e → s.entryAt e.slot = some e →
        -- the YIELD owed by the entry changed by `f`, on the state `t` in which it stands
        let owes (t : State) (f : ServeEntry → ServeEntry) : Prop :=
          let entries (g : ServeEntry → ServeEntry) : Re :=
            { s.re with serve := s.re.serve.map fun x => if x.slot = e.slot then g x else x }
          (t.tqu.urgent.length < 4 →
            run { t with
              re := entries fun x => { f x with yieldOwed := some { winner := p.sender, tag := c.tag } }
              tqu := { t.tqu with urgent := t.tqu.urgent ++
                [{ cls := .urgent
                   body := .yield { headset := e.headset, tag := c.tag, expected := e.ring.expected.getD 0,
                                    count := e.count, listen := e.listen, talk := e.talk }
                   destination := p.sender, failures := 0, inHand := false, replaced := false }] } }) ∧
          (4 ≤ t.tqu.urgent.length →
            run (((({ t with re := entries f }.count .droppedAtLimit).releaseEntry e.slot).notify
              (.left e.headset p.sender)).enterSurvey
                { headset := e.headset, q := e.q, r := e.r, lastHeard := 0, dwell := 0, pacing := 0,
                  holdOff := cfg.seekWait, knowledge := none, claim := none }))
        (e.state = .served ∨ e.state = .offered →
          owes { begun with mlc := s.mlc.notify (.lost e.headset) } fun x =>
            { x with state := .lost, rescueTimer := some cfg.rescueWindow, handing := none, lossRun := 0, heard := false
                     ring := { x.ring with playing := true } }) ∧
        (e.state = .lost → e.yieldOwed = none → e.tag = none → owes begun id) ∧
        (∀ tag : Tag, e.state = .lost → e.yieldOwed = none → e.tag = some tag →
          owes
            { begun with
              tqu := { begun.tqu with
                urgent := s.tqu.urgent.filter fun x => !x.body.isClaimOf e.headset tag
                handover := s.tqu.handover.filter fun x => !x.body.isClaimOf e.headset tag }
              mlc := s.mlc.count .seekLosses }
            fun x => { x with tag := none }) ∧
        (e.state = .arriving ∨ e.state = .handing ∨ e.state = .draining ∨ (e.state = .lost ∧ e.yieldOwed ≠ none) →
          run begun)) ∧
      (s.entryFor c.headset = none →
        (s.surveyFor c.headset = none → run begun) ∧
        (∀ e : SurveyEntry, s.surveyFor c.headset = some e → (∀ r, e.claim = some r → r.kind = .normal) →
          run
            { begun with re := { s.re with survey := s.re.survey.map fun x =>
                if x.headset = c.headset then { x with holdOff := cfg.seekWait } else x } }) ∧
        (∀ (e : SurveyEntry) (r : ClaimRecord), s.surveyFor c.headset = some e → e.claim = some r → r.kind = .seek →
          (s.apc.slot r.slot).state = .reserved r.tag →
          run
            { begun with
              re := { s.re with survey := s.re.survey.map fun x =>
                if x.headset = c.headset then { x with claim := none, dwell := 0, holdOff := cfg.seekWait } else x }
              apc := { s.apc with slots := s.apc.slots.modify r.slot fun x => { x with state := .free } }
              vp := s.vp.releaseAll r.groups
              tqu := { begun.tqu with
                urgent := s.tqu.urgent.filter fun x => !x.body.isClaimOf c.headset r.tag
                handover := s.tqu.handover.filter fun x => !x.body.isClaimOf c.headset r.tag }
              mlc := s.mlc.count .seekLosses }))))

/-- A YIELD at its point (R6, R49, R60, R64, R66, R87, R89, R93, R112): matched to a NORMAL claim, the survey entry leaves the
list and the headset is ARRIVING in the reserved slot with the context, the arrival timer at T_a and its CLAIM out of its
queue; matched to a SEEK claim it shows that claim won, and the headset is ARRIVING by it with SLOT ASSIGN and SEEK ANSWER
sent, the timer at T_s and the YIELD's context in place of the call's; at an ARRIVING entry of origin SEEK with its tag it
replaces the context; at a reclaim it raises the count; matched by nothing it is counted late. A YIELD whose listen count is above
4, whose length is not 10 and twice that count, or that names no headset has no effect (R184); that its handling reaches its
point all the same is the model's choice of assumption 20. -/
def Obligations.YieldHandled : Prop :=
  (∀ (cfg : Settings) (s : State) (p : Placed), s.Handles cfg p → p.kind = 2 →
    (∀ n : Byte, p.payload[7]? = some n → 4 < n.toNat ∨ p.payload.length ≠ 10 + 2 * n.toNat) ∨
      p.payload.take 4 = [0, 0, 0, 0] ∨ p.payload.take 4 = [0xFF, 0xFF, 0xFF, 0xFF] →
    exec .yieldHandling s = .next { s with tqu := { s.tqu with reached := true } }) ∧
  (∀ (cfg : Settings) (s : State) (p : Placed) (c : Context), s.Handles cfg p → p.kind = 2 → readYield p.payload = some c →
    let begun : State := { s with tqu := { s.tqu with reached := true } }
    let late : Prop := exec .yieldHandling s = .next { begun with mlc := s.mlc.count .lateReplies }
    (∀ (e : SurveyEntry) (r : ClaimRecord), s.surveyFor c.headset = some e → e.claim = some r → r.tag = c.tag →
      (s.apc.slot r.slot) = { state := .reserved r.tag, order := none } →
      let arriving : ServeEntry :=
        { headset := c.headset, state := .arriving, slot := r.slot, listen := c.listen, talk := c.talk, q := e.q,
          r := (e.q + 8) / 16, heard := false, lossRun := 0, settle := 0, count := c.count, lastReported := 0,
          offerChanged := false, origin := some .yield, tag := some r.tag, arrivalTimer := some cfg.arrivalTime,
          rescueTimer := none, handing := none, yieldOwed := none, previous := some p.sender,
          ring := { frames := [], expected := some c.expected, playing := false } }
      let survey := s.re.survey.filter fun x => x.headset != c.headset
      let tqu : Tqu :=
        { begun.tqu with
          urgent := s.tqu.urgent.filter fun x => !x.body.isClaimOf c.headset r.tag
          handover := s.tqu.handover.filter fun x => !x.body.isClaimOf c.headset r.tag }
      (r.kind = .normal →
        let fit := s.vp.fit r.groups c.listen
        exec .yieldHandling s = .next
          { begun with
            re := { s.re with survey := survey, serve := insertBySlot { arriving with listen := fit.kept } s.re.serve }
            apc := { s.apc with
              slots := s.apc.slots.modify r.slot fun x => { x with state := .assigned c.headset }
              out := s.apc.out ++ [(AirOrder.slotAssign r.slot c.headset).bytes] }
            vp := fit.vp
            tqu := tqu
            mlc := if fit.dropped then s.mlc.count .groupDrops else s.mlc }) ∧
      (r.kind = .seek → (∀ x ∈ s.re.serve, x.slot ≠ r.slot) →
        let won := s.vp.fit r.groups (r.callListen.getD (cfg.defaultsFor c.headset).listen)
        let fit := won.vp.fit (won.kept.map ListenItem.group) c.listen
        let seekWon := (if won.dropped then s.mlc.count .groupDrops else s.mlc).count .seekWins
        exec .yieldHandling s = .next
          { begun with
            re := { s.re with
              survey := survey
              serve := insertBySlot
                { arriving with listen := fit.kept, arrivalTimer := some cfg.seekWait
                                ring := { frames := [], expected := none, playing := false } } s.re.serve }
            apc := { s.apc with
              slots := s.apc.slots.modify r.slot fun _ =>
                { state := .assigned c.headset, order := some { kind := .answer, age := 0 } }
              out := s.apc.out ++ [(AirOrder.slotAssign r.slot c.headset).bytes,
                (AirOrder.seekAnswer c.headset cfg.channel r.slot).bytes] }
            vp := fit.vp
            tqu := tqu
            mlc := if fit.dropped then seekWon.count .groupDrops else seekWon })) ∧
    ((∀ x r, s.surveyFor c.headset = some x → x.claim = some r → r.tag ≠ c.tag) →
      (∀ e : ServeEntry, s.entryFor c.headset = some e → s.entryAt e.slot = some e →
        (e.state = .arriving → e.origin = some .seek → e.tag = some c.tag →
          let fit := s.vp.fit (e.listen.map ListenItem.group) c.listen
          exec .yieldHandling s = .next
            { begun with
              re := { s.re with serve := s.re.serve.map fun x =>
                if x.slot = e.slot then
                  { x with listen := fit.kept, talk := c.talk, count := c.count, origin := some .yield
                           previous := some p.sender }
                else x }
              vp := fit.vp
              mlc := if fit.dropped then s.mlc.count .groupDrops else s.mlc }) ∧
        ((e.state = .arriving ∧ e.origin = some .reclaim) ∨ e.state = .lost → e.tag = some c.tag →
          exec .yieldHandling s = .next
            { begun with re := { s.re with serve := s.re.serve.map fun x =>
                if x.slot = e.slot then { x with count := max x.count c.count } else x } }) ∧
        ((e.state = .arriving ∧ e.origin = some .yield) ∨ e.tag ≠ some c.tag → late)) ∧
      (s.entryFor c.headset = none → late)))

/-- A DECLINE at its point (R34, R49, R64, R65): matched by tag and headset to a NORMAL claim it ends the claim, is counted,
loads pacing with 31 and, for NOT_SERVED, removes the serving knowledge; any other, one that matches a SEEK claim among them,
is counted late.
A STANDING at its point takes its namings in turn (R45, R46, R54, R56, R57). One at a survey entry sets its knowledge and
lowers its pacing by 1, unless it is stale: from another node than the known one and with a lower count; one at a SERVED,
OFFERED or LOST entry is settled as a duplicate; at any other entry and for an unknown headset nothing happens. The namings are
read byte by byte (R184, section 12.1): a score above 90 as 90, a group count above 4 as 4, and a naming of no headset is skipped. A
DECLINE whose length is not 6 or that names no headset, and a STANDING whose naming count is not 1 to 4 or whose length is not 1 and
11 for each naming, have no effect (R184); that their handling reaches its point all the same is the model's choice of assumption
20. -/
def Obligations.DeclineAndStandingHandled : Prop :=
  (∀ (cfg : Settings) (s : State) (p : Placed), s.Handles cfg p →
     let begun : State := { s with tqu := { s.tqu with reached := true } }
     (p.kind = 4 →
       p.payload.length ≠ 6 ∨ p.payload.take 4 = [0, 0, 0, 0] ∨ p.payload.take 4 = [0xFF, 0xFF, 0xFF, 0xFF] →
       exec .declineHandling s = .next begun) ∧
     (p.kind = 5 →
       (∀ e : Byte, p.payload[0]? = some e → e = 0 ∨ 4 < e.toNat ∨ p.payload.length ≠ 1 + 11 * e.toNat) →
       exec .standingHandling s = .next begun) ∧
     (∀ e : Byte, p.kind = 5 → p.payload[0]? = some e → e ≠ 0 → e.toNat ≤ 4 → p.payload.length = 1 + 11 * e.toNat →
       let named : List Naming := (List.range e.toNat).map fun i =>
         let b (j : Nat) : Byte := (p.payload[1 + 11 * i + j]?).getD 0
         { headset := b 0 ++ b 1 ++ b 2 ++ b 3, score := min 90 (b 4).toNat, offered := (b 5).getLsbD 7, count := (b 6).toNat
           groups := [b 7, b 8, b 9, b 10].take (min 4 ((b 5).toNat % 8)) }
       exec .standingHandling s = .next
         ((named.filter fun x => x.headset != 0 && x.headset != 0xFFFFFFFF).foldl (State.handleNaming cfg p.sender) begun))) ∧
  (∀ (cfg : Settings) (s : State) (p : Placed) (h : Headset) (tag : Tag) (reason : Reason), s.Handles cfg p → p.kind = 4 →
     readDecline p.payload = some (h, tag, reason) →
     let begun : State := { s with tqu := { s.tqu with reached := true } }
     (∀ (e : SurveyEntry) (r : ClaimRecord), s.surveyFor h = some e → e.claim = some r → r.tag = tag → r.kind = .normal →
       (s.apc.slot r.slot).state = .reserved r.tag →
       exec .declineHandling s = .next
         { begun with
           re := { s.re with survey := s.re.survey.map fun x =>
             if x.headset = h then
               { x with claim := none, dwell := 0, pacing := 31
                        knowledge := if reason = .notServed then none else x.knowledge }
             else x }
           apc := { s.apc with slots := s.apc.slots.modify r.slot fun x => { x with state := .free } }
           vp := s.vp.releaseAll r.groups
           tqu := { begun.tqu with
             urgent := s.tqu.urgent.filter fun x => !x.body.isClaimOf h r.tag
             handover := s.tqu.handover.filter fun x => !x.body.isClaimOf h r.tag }
           mlc := s.mlc.count .declinesReceived }) ∧
     ((∀ e r, s.surveyFor h = some e → e.claim = some r → r.tag ≠ tag ∨ r.kind = .seek) →
       exec .declineHandling s = .next { begun with mlc := s.mlc.count .lateReplies })) ∧
  ((∀ (cfg : Settings) (s : State) (p : Placed) (ns : List Naming), s.Handles cfg p → p.kind = 5 →
     readStanding p.payload = some ns →
     exec .standingHandling s = .next
       (ns.foldl (State.handleNaming cfg p.sender) { s with tqu := { s.tqu with reached := true } })) ∧
   (∀ (cfg : Settings) (s : State) (sender : Node) (n : Naming),
     (s.entryFor n.headset = none → s.surveyFor n.headset = none → s.handleNaming cfg sender n = s) ∧
     (∀ e : SurveyEntry, s.entryFor n.headset = none → s.surveyFor n.headset = some e →
       (s.re.survey.map SurveyEntry.headset).Nodup →
       s.handleNaming cfg sender n =
         if ∃ k, e.knowledge = some k ∧ k.node ≠ sender ∧ n.count < k.count then s
         else
           { s with re := { s.re with survey := s.re.survey.map fun x =>
               if x.headset = n.headset then
                 { x with
                   knowledge := some { node := sender, score := some n.score, offered := n.offered, count := n.count,
                                       groups := some n.groups, age := 0 }
                   pacing := x.pacing - 1 }
               else x } }) ∧
     (∀ e : ServeEntry, s.entryFor n.headset = some e →
       (e.state = .served ∨ e.state = .offered ∨ e.state = .lost →
         s.handleNaming cfg sender n =
           if e.count < n.count ∨ (n.count = e.count ∧ sender.toNat < cfg.node.toNat) then
             ((s.releaseEntry e.slot).count .duplicatesResolved).notify (.left n.headset sender)
           else s) ∧
       (e.state = .arriving ∨ e.state = .handing ∨ e.state = .draining → s.handleNaming cfg sender n = s))))

/-- HANDLING_COMPLETE (R62, R152, R158, R159, R160): the buffer of the handled message is freed, the reservation of an
addressed CLAIM falls and its reply joins HANDOVER at the same point, a DECLINE counted as sent. Where the own hold timer
runs and the free count is then above the threshold, the timer is 0 and HOLD(0) is queued, in place of the time of a HOLD
that waits in FLOW, whose failure count is 0 again and which stays queued where it is in hand. That the reply waits for the
completion is the model's choice of assumption 9. Before the point nothing is completed. An EVICT that waited for the
completion is then decided, ahead of the next message (R168), by the model's choice of assumption 23. That a handling row changes
nothing where its point has been reached, where no message waits, and where the oldest message is another row's is the model's
choice of assumption 20. -/
def Obligations.HandlingCompletes : Prop :=
  (let alone (c : Instr) (mine : Placed → Prop) : Prop := ∀ s : State,
     s.tqu.reached = true ∨ (∀ p : Placed, s.tqu.pool.head? = some p → ¬mine p) → exec c s = .next s
   alone .takenHandling (fun p => p.kind = 1) ∧ alone .yieldHandling (fun p => p.kind = 2) ∧
   alone .claimHandling (fun p => p.kind = 3 ∧ p.payload[5]? ≠ some 1) ∧
   alone .seekClaimHandling (fun p => p.kind = 3 ∧ p.payload[5]? = some 1) ∧
   alone .declineHandling (fun p => p.kind = 4) ∧ alone .standingHandling (fun p => p.kind = 5)) ∧
  (∀ (cfg : Settings) (s : State) (p : Placed) (ps : List Placed), s.InRun cfg → s.mlc.evict = none →
    s.tqu.pool = p :: ps → s.tqu.reached = true → (∀ m, s.tqu.reply = some m → m.cls = .handover) →
    let reply : List Queued := match s.tqu.reply with
      | some m => [m]
      | none => []
    let freed : Tqu :=
      { s.tqu with
        pool := ps, reached := false, reply := none, handover := s.tqu.handover ++ reply
        reservations := if p.kind = 3 ∧ p.destination = cfg.node then s.tqu.reservations - 1 else s.tqu.reservations }
    let mlc : Mlc := match s.tqu.reply.map Queued.body with
      | some (.decline _ _ _) => s.mlc.count .declinesSent
      | _ => s.mlc
    (s.tqu.ownHold = 0 ∨ 16 - ps.length ≤ cfg.holdThreshold →
      exec .handlingComplete s = .next { s with tqu := freed, mlc := mlc }) ∧
    (0 < s.tqu.ownHold → cfg.holdThreshold < 16 - ps.length →
      (s.tqu.flow = [] →
        exec .handlingComplete s = .next
          { s with
            tqu := { freed with
              ownHold := 0
              flow := [{ cls := .flow, body := .hold 0, destination := 255, failures := 0, inHand := false,
                         replaced := false }] }
            mlc := mlc }) ∧
      (∀ (x : Queued) (xs : List Queued), s.tqu.flow = x :: xs →
        exec .handlingComplete s = .next
          { s with
            tqu := { freed with
              ownHold := 0, flow := { x with body := .hold 0, failures := 0, replaced := x.inHand } :: xs }
            mlc := mlc }))) ∧
  (∀ (s t : State) (h : Headset), s.mlc.evict = some h → s.cfl.node = .run → s.cfl.config ≠ none → s.tqu.pool ≠ [] →
    s.tqu.reached = true → exec .handlingComplete { s with mlc := { s.mlc with evict := none } } = .next t →
    exec .handlingComplete s = .next (t.evict h)) ∧
  (∀ s : State, s.tqu.pool = [] ∨ s.tqu.reached = false → exec .handlingComplete s = .next s)

/-! ## The matrix link -/

/-- STATUS QUERY and CLEAR (R164, R166, R167, R169, R173). A query finds the answer slot free and fills it with a snapshot of
the state as it stands, or is discarded: where an answer waits, and where an EVICT waits at RE. The snapshot is, item by
item, the 88 + 2n bytes of section 12.2. A CLEAR in JOINING and RUN sets every counter to 0, clears every status bit and
the trap record and deasserts the attention line, and has no effect in LOADING and FAULT.
OUTBOUND_RECORD_START (R164, R165): the oldest waiting UPLINK goes first, then the answer, then the oldest notice; where
nothing waits, and in STANDBY, nothing is sent. -/
def Obligations.StatusClearAndOutbound : Prop :=
  (∀ (s : State) (record : List Byte), s.cfl.node ≠ .standby →
     (checkRecord 0x02 0 record = .sound [] →
       (s.mlc.answer = none → s.mlc.evict = none → exec (.statusQuery record) s =
         .next { s with mlc := { s.mlc with answer := some (.snapshot s.snapshot) } }) ∧
       (s.mlc.answer ≠ none ∨ s.mlc.evict ≠ none → exec (.statusQuery record) s = .next s)) ∧
     (checkRecord 0x03 0 record = .sound [] →
       (s.cfl.node = .joining ∨ s.cfl.node = .run → exec (.clear record) s = .next
         { s with
           mlc := { s.mlc with
             counters := List.replicate 29 0, attention := false
             status := { trunkRollover := false, trunkStuck := false, roamRollover := false, voiceRollover := false,
                         configClamped := false, configFault := false, noticeLoss := false } }
           tlc := { s.tlc with trap := none } }) ∧
       (s.cfl.node = .loading ∨ s.cfl.node = .fault → exec (.clear record) s = .next s))) ∧
  (∀ s : State, s.mlc.counters.length = 29 →
     let at1 (offset : Nat) (b : Byte) : Prop := s.snapshot[offset]? = some b
     let at2 (offset : Nat) (w : BitVec 16) : Prop :=
       at1 offset (w.extractLsb' 8 8) ∧ at1 (offset + 1) (w.extractLsb' 0 8)
     let holders (x : EntryState) : Nat := (s.re.serve.filter fun e => e.state = x).length
     let neighbours : List Neighbour := (s.cfl.config.map Settings.neighbours).getD []
     at1 0 (match s.cfl.node with | .standby => 0 | .loading => 1 | .fault => 2 | .joining => 3 | .run => 4) ∧
     at1 1 (match s.tlc.state with
       | .off => 0 | .waitIdle => 1 | .idle => 2 | .arbitrating => 3 | .sending => 4 | .receiving => 5 | .backoff => 6
       | .stuck => 7) ∧
     at2 2 (s.cfl.identity.extractLsb' 16 16) ∧ at2 4 (s.cfl.identity.extractLsb' 0 16) ∧
     at1 6 (match s.cfl.config with | some cfg => cfg.node | none => 0) ∧
     at1 7 (BitVec.ofNat 8 (24 - s.re.serve.length)) ∧ at1 8 (BitVec.ofNat 8 (holders .arriving)) ∧
     at1 9 (BitVec.ofNat 8 (holders .served)) ∧ at1 10 (BitVec.ofNat 8 (holders .offered)) ∧
     at1 11 (BitVec.ofNat 8 (holders .handing)) ∧ at1 12 (BitVec.ofNat 8 (holders .draining)) ∧
     at1 13 (BitVec.ofNat 8 (holders .lost)) ∧ at1 14 (BitVec.ofNat 8 s.re.survey.length) ∧
     at1 15 (BitVec.ofNat 8 (s.re.survey.filter fun e => e.claim.isSome).length) ∧
     at1 16 (BitVec.ofNat 8 (16 - s.tqu.pool.length)) ∧ at1 17 (BitVec.ofNat 8 s.tqu.flow.length) ∧
     at1 18 (BitVec.ofNat 8 s.tqu.urgent.length) ∧ at1 19 (BitVec.ofNat 8 s.tqu.handover.length) ∧
     at1 20 (BitVec.ofNat 8 s.tqu.report.length) ∧ at1 21 (BitVec.ofNat 8 s.tqu.ownHold) ∧ at1 22 0 ∧
     (∃ b : Byte, at1 23 b ∧ b.getLsbD 7 = false ∧
       (List.range 7).map b.getLsbD =
         [s.mlc.status.trunkRollover, s.mlc.status.trunkStuck, s.mlc.status.roamRollover, s.mlc.status.voiceRollover,
          s.mlc.status.configClamped, s.mlc.status.configFault, s.mlc.status.noticeLoss]) ∧
     at1 24 (if s.tlc.trap = none then 0 else 1) ∧
     at2 25 (match s.tlc.trap with | some t => t.arbitration.setWidth 16 | none => 0) ∧
     at2 27 (match s.tlc.trap with | some t => BitVec.ofNat 16 t.faults | none => 0) ∧
     (∀ (n : Nat) (w : BitVec 16), s.mlc.counters[n]? = some w → at2 (29 + 2 * n) w) ∧
     at1 87 (BitVec.ofNat 8 neighbours.length) ∧
     (∀ (n : Nat) (x : Neighbour) (time : Nat), neighbours[n]? = some x → s.tqu.neighbourHolds[n]? = some time →
       at1 (88 + 2 * n) x.node ∧ at1 (89 + 2 * n) (BitVec.ofNat 8 time)) ∧
     (neighbours.length = s.tqu.neighbourHolds.length → s.snapshot.length = 88 + 2 * neighbours.length)) ∧
  (∀ s : State,
     (s.cfl.node = .standby → exec .outboundRecordStart s = .next s) ∧
     (s.cfl.node ≠ .standby →
       (∀ (u : Uplink) (us : List Uplink), s.mlc.uplinks = u :: us → exec .outboundRecordStart s = .next
         { s with mlc := { s.mlc with uplinks := us, out := s.mlc.out ++ [u.bytes] } }) ∧
       (∀ a : Answer, s.mlc.uplinks = [] → s.mlc.answer = some a → exec .outboundRecordStart s = .next
         { s with mlc := { s.mlc with answer := none, out := s.mlc.out ++ [a.bytes] } }) ∧
       (∀ (n : Notice) (ns : List Notice), s.mlc.uplinks = [] → s.mlc.answer = none → s.mlc.notices = n :: ns →
         exec .outboundRecordStart s = .next { s with mlc := { s.mlc with notices := ns, out := s.mlc.out ++ [n.bytes] } }) ∧
       (s.mlc.uplinks = [] → s.mlc.answer = none → s.mlc.notices = [] → exec .outboundRecordStart s = .next s)))

/-- EVICT in its node states (R22, R164, R167, R168): in RUN RE decides it. A SERVED, OFFERED or LOST headset is released with
notice EVICTED and answered DONE, one ARRIVING or HANDING is answered BUSY, one DRAINING or unknown NOT_SERVED; in JOINING it
is answered NOT_SERVED; in LOADING and FAULT, and where an answer or another EVICT waits, it has no effect. An EVICT taken
while a handling is past its point waits at RE, by the model's choice of assumption 23; its decision, taken at that
handling's completion, is the same and empties the wait. -/
def Obligations.EvictAnswered : Prop :=
  (∀ (s : State) (h : Headset),
    let answered (r : EvictResult) (t : State) : State :=
      { t with mlc := { t.mlc with answer := some (.evictResult h r), evict := none } }
    (s.entryFor h = none → s.evict h = answered .notServed s) ∧
    (∀ e : ServeEntry, s.entryFor h = some e →
      (e.state = .draining → s.evict h = answered .notServed s) ∧
      (e.state = .arriving ∨ e.state = .handing → s.evict h = answered .busy s) ∧
      (e.state = .served ∨ e.state = .offered ∨ e.state = .lost →
        s.evict h = answered .done ((s.releaseEntry e.slot).notify (.evicted h))))) ∧
  (∀ (s : State) (record : List Byte) (a b c d : Byte), checkRecord 0x04 4 record = .sound [a, b, c, d] →
    let h := word32 a b c d
    let run (t : State) : Prop := exec (.evict record) s = .next t
    (s.mlc.answer ≠ none ∨ s.mlc.evict ≠ none ∨ s.cfl.node = .standby ∨ s.cfl.node = .loading ∨ s.cfl.node = .fault →
      run s) ∧
    (s.mlc.answer = none → s.mlc.evict = none →
      (s.cfl.node = .joining → run { s with mlc := { s.mlc with answer := some (.evictResult h .notServed) } }) ∧
      (s.cfl.node = .run → s.tqu.reached = false → run (s.evict h)) ∧
      (s.cfl.node = .run → s.tqu.reached = true → run { s with mlc := { s.mlc with evict := some h } })))

/-- Counters and their rollover (R172): a counted event raises its own counter by 1 and no other, from 65535 back to 0 with the
rollover bit of its category set and the attention line following; no other bit changes, and the order of two events does not
change the totals. -/
def Obligations.CounterRollover : Prop :=
  ∀ (m : Mlc) (c : Counter), m.Sound →
    (m.count c).counter c = m.counter c + 1 ∧
    (∀ d : Counter, d ≠ c → (m.count c).counter d = m.counter d) ∧
    (∀ d : Counter, ((m.count c).count d).counters = ((m.count d).count c).counters) ∧
    m.status.Within (m.count c).status ∧
    (m.counter c ≠ 0xFFFF → (m.count c).status = m.status) ∧
    (m.counter c = 0xFFFF →
      (m.count c).status =
        (match c.category with
          | .trunk => { m.status with trunkRollover := true }
          | .roam => { m.status with roamRollover := true }
          | .voice => { m.status with voiceRollover := true }) ∧
      (m.count c).attention = attentionOf m.enables (m.count c).status)

/-! ## What is sent can be read -/

/-- The two check sequences accept what they close (R133, R163): the CRC-8 of bits followed by their CRC-8 is 0, the CRC-16 of
bytes followed by theirs is 0, and the receiving check finds a record built by the part sound with its body, and discards
it where another kind is looked for. -/
def Obligations.ChecksAcceptWhatIsSent : Prop :=
  (∀ bits : List Bool, crc8 (bits ++ bitsMsb (crc8 bits)) = 0) ∧
  (∀ bytes : List Byte, crc16 (bytes ++ word16Bytes (crc16 bytes)) = 0) ∧
  (∀ (kind : Byte) (body : List Byte), body.length ≤ 65535 →
    checkRecord kind body.length (matrixRecord kind body) = .sound body ∧
    ∀ (other : Byte) (need : Nat), other ≠ kind → checkRecord other need (matrixRecord kind body) = .discarded)

/-- Every message a node sends is read by its peer as it was meant (R132, R183, R184, section 12.1): reading the payload of each
of the six kinds gives its contents back, for every content the rules let a node send.
A report of the front end laid out as section 12.3 gives it, with its kind and length bytes, is read as its contents (R103,
R185); that the sequence byte of a FRAME is read by its low six bits is the model's choice of assumption 18. A record of another kind is not read as it (R104); one with fewer bytes than its length byte states is not read, by
the model's choice of assumption 30. -/
def Obligations.PayloadsReadBack : Prop :=
  (∀ time : Nat, time ≤ 64 → readHold (Body.hold time).payload = some time) ∧
  (∀ (h : Headset) (n : Nat) (previous : Option Node), isIdentity h = true → n ≤ 255 →
    (∀ p, previous = some p → p ≠ 0 ∧ p ≠ 255) → readTaken (Body.taken h n previous).payload = some (h, n, previous)) ∧
  (∀ c : Context, isIdentity c.headset = true → c.count ≤ 255 → c.listen.length ≤ 4 → (∀ i ∈ c.listen, i.shift ≤ 7) →
    readYield (Body.yield c).payload = some c) ∧
  (∀ c : ClaimBody, isIdentity c.headset = true → c.score ≤ 90 → c.channel ≤ 31 → c.slot ≤ 23 →
    readClaim (Body.claim c).payload = some c) ∧
  (∀ (h : Headset) (tag : Tag) (r : Reason), isIdentity h = true →
    readDecline (Body.decline h tag r).payload = some (h, tag, r)) ∧
  (∀ ns : List Naming, 1 ≤ ns.length → ns.length ≤ 4 →
    (∀ n ∈ ns, isIdentity n.headset = true ∧ n.score ≤ 90 ∧ n.count ≤ 255 ∧ n.groups.length ≤ 4) →
    readStanding (Body.standing ns).payload = some ns) ∧
  (∀ (own : Node) (m : Queued),
    arbitrationClass (buildFrame own m).arbitration = m.cls.code ∧
    arbitrationKind (buildFrame own m).arbitration = m.body.code ∧
    arbitrationSender (buildFrame own m).arbitration = own ∧
    (buildFrame own m).crc = frameCrc (buildFrame own m).arbitration (buildFrame own m).destination (buildFrame own m).payload) ∧
  ((∀ n : BitVec 16, readCycleMark ([0x01, 2] ++ word16Bytes n) = some n) ∧
   (∀ (k : Nat) (level : Byte), k ≤ 23 →
     (∀ (h : Headset) (seq : Byte) (payload : List Byte), isIdentity h = true → payload.length = 40 →
       readSlotReport ([0x02, 48, BitVec.ofNat 8 k, 0, level] ++ word32Bytes h ++ [seq] ++ payload) =
         some { slot := k, level := level.toInt, kind := .frame h (seq.setWidth 6) payload }) ∧
     readSlotReport [0x02, 3, BitVec.ofNat 8 k, 1, level] = some { slot := k, level := level.toInt, kind := .errored } ∧
     readSlotReport [0x02, 3, BitVec.ofNat 8 k, 2, level] = some { slot := k, level := level.toInt, kind := .silent }) ∧
   (∀ (h : Headset) (level : Byte) (good : Bool), isIdentity h = true →
     readSurveyReport ([0x03, 6] ++ word32Bytes h ++ [level, if good then 0 else 1]) =
       some { headset := h, level := level.toInt, good := good }) ∧
   (∀ (h : Headset) (level : Byte) (listen : List ListenItem) (talk : Option Group), isIdentity h = true →
     listen.length ≤ 4 → (∀ i ∈ listen, i.shift ≤ 7) → (listen.map ListenItem.group).Nodup →
     readSeekCall ([0x04, BitVec.ofNat 8 (8 + 2 * listen.length)] ++ word32Bytes h ++
         [level, BitVec.ofNat 8 listen.length, if talk = none then 0 else 1, talk.getD 0] ++
         listen.flatMap fun i => [i.group, BitVec.ofNat 8 i.shift]) =
       some { headset := h, level := level.toInt, listen := if listen = [] then none else some listen, talk := talk }) ∧
   (∀ (k : Nat) (acknowledged : Bool), k ≤ 23 →
     readOrderResult [0x05, 2, BitVec.ofNat 8 k, if acknowledged then 0 else 1] =
       some { slot := k, acknowledged := acknowledged }) ∧
   (∀ record : List Byte,
     let unread (kind : Byte) : Prop :=
       (kind = 1 → readCycleMark record = none) ∧ (kind = 2 → readSlotReport record = none) ∧
       (kind = 3 → readSurveyReport record = none) ∧ (kind = 4 → readSeekCall record = none) ∧
       (kind = 5 → readOrderResult record = none)
     (∀ kind : Byte, record.head? ≠ some kind → unread kind) ∧
     (∀ (kind length : Byte) (body : List Byte), record = kind :: length :: body → body.length < length.toNat →
       unread kind)))

/-! ## What every step keeps -/

/-- MLC (R165, R167, R171, R172, R173): 29 counters, at most 16 notices and 48 UPLINK records, the attention line as the
status bits and enables make it, and no answer in the slot while an EVICT waits at RE. One waits only in RUN and while a
handling is past its point, by the model's choice of assumption 23. -/
def Obligations.MatrixLinkLaws : Prop :=
  ∀ s t : State, s.mlc.Sound → s.EvictLaw → step s = .next t → t.mlc.Sound ∧ t.EvictLaw

/-- A status bit once set stays set until a CLEAR or a cold reset, and the attention enables change only as a configuration is
loaded or a cold reset is made (R172, R173, R174). -/
def Obligations.StatusBitsStay : Prop :=
  ∀ (c : Instr) (s t : State), exec c s = .next t →
    ((c = .powerOn ∨ c = .resetLineAsserted ∨ ∃ record, c = .clear record) ∨ s.mlc.status.Within t.mlc.status) ∧
    ((c = .powerOn ∨ c = .resetLineAsserted ∨ ∃ image, c = .configLoadComplete image) ∨ t.mlc.enables = s.mlc.enables)

/-- TLC (R131, R134, R135, R138, R143): the generator is never 0, the wait and runs keep their bounds, a message is in hand
only in ARBITRATING and SENDING, a frame is read exactly in RECEIVING, and the trap count stays within 1..65535. -/
def Obligations.TrunkLinkLaws : Prop :=
  ∀ s t : State, s.tlc.Sound → step s = .next t → t.tlc.Sound

/-- APC and VP (R99, R101, R105, R121, R124): 24 slots with orders on ASSIGNED ones alone, and at most 12 stored groups, each
once, each referenced, with the mask theirs. The references to each group are exactly the serve entries that list it and
the claims that reserve it, and none of these names a group twice (R5, R121, R122, R123). -/
def Obligations.SlotMapAndStoreLaws : Prop :=
  (∀ s t : State, s.apc.Sound → s.vp.Sound → step s = .next t → t.apc.Sound ∧ t.vp.Sound) ∧
  (∀ s t : State, s.vp.Sound → s.re.Sound → s.SlotLaw → s.RefLaw → step s = .next t → t.RefLaw)

/-- TQU (R148, R156, R158, R159, R162, R180): the depths of the queues and of the pool, HANDOVER with its reservations within 6, the
reservations those of the CLAIMs addressed to this node in the pool, and outside RUN an empty pool with no handling past its
point. -/
def Obligations.QueueLaws : Prop :=
  ∀ s t : State, s.QueueLaw → step s = .next t → t.QueueLaw

/-- RE and the slot map (R1, R4, R26, R28, R38, R48, R99): every score in range with R read from Q, each headset in at most one
place, at most 48 survey entries and 4 claims, and the slot of each entry ASSIGNED to it and of each claim RESERVED with
its tag. The optional fields of an entry stand in the states that R2 names for them, and those of a claim record in the
kind and phase of R48. -/
def Obligations.TableLaws : Prop :=
  (∀ s t : State, s.re.Sound → s.SlotLaw → step s = .next t → t.re.Sound ∧ t.SlotLaw) ∧
  (∀ s t : State, s.re.Sound → s.SlotLaw → s.FieldLaw → step s = .next t → t.FieldLaw)

/-- From these laws the slots suffice (R1, R4, R48, R99): serve entries and claims together never exceed the 24 slots. -/
def Obligations.SlotsSuffice : Prop :=
  ∀ s : State, s.re.Sound → s.SlotLaw → s.apc.Sound →
    s.re.serve.length + s.re.claimsOutstanding ≤ 24

end
end

