-- ==== Sys2Proof/Laws/State.lean ====
section
/-! SUPPORT. What each one-block update of the state leaves and makes, one lemma for each block, true by rfl. -/

namespace Sys2Proof.Machine

@[simp] theorem State.onCfl_cfl (f : Cfl → Cfl) (s : State) : (s.onCfl f).cfl = f s.cfl := rfl
@[simp] theorem State.onCfl_re (f : Cfl → Cfl) (s : State) : (s.onCfl f).re = s.re := rfl
@[simp] theorem State.onCfl_apc (f : Cfl → Cfl) (s : State) : (s.onCfl f).apc = s.apc := rfl
@[simp] theorem State.onCfl_vp (f : Cfl → Cfl) (s : State) : (s.onCfl f).vp = s.vp := rfl
@[simp] theorem State.onCfl_tqu (f : Cfl → Cfl) (s : State) : (s.onCfl f).tqu = s.tqu := rfl
@[simp] theorem State.onCfl_tlc (f : Cfl → Cfl) (s : State) : (s.onCfl f).tlc = s.tlc := rfl
@[simp] theorem State.onCfl_mlc (f : Cfl → Cfl) (s : State) : (s.onCfl f).mlc = s.mlc := rfl
@[simp] theorem State.onCfl_pending (f : Cfl → Cfl) (s : State) : (s.onCfl f).pending = s.pending := rfl

@[simp] theorem State.onRe_cfl (f : Re → Re) (s : State) : (s.onRe f).cfl = s.cfl := rfl
@[simp] theorem State.onRe_re (f : Re → Re) (s : State) : (s.onRe f).re = f s.re := rfl
@[simp] theorem State.onRe_apc (f : Re → Re) (s : State) : (s.onRe f).apc = s.apc := rfl
@[simp] theorem State.onRe_vp (f : Re → Re) (s : State) : (s.onRe f).vp = s.vp := rfl
@[simp] theorem State.onRe_tqu (f : Re → Re) (s : State) : (s.onRe f).tqu = s.tqu := rfl
@[simp] theorem State.onRe_tlc (f : Re → Re) (s : State) : (s.onRe f).tlc = s.tlc := rfl
@[simp] theorem State.onRe_mlc (f : Re → Re) (s : State) : (s.onRe f).mlc = s.mlc := rfl
@[simp] theorem State.onRe_pending (f : Re → Re) (s : State) : (s.onRe f).pending = s.pending := rfl

@[simp] theorem State.onApc_cfl (f : Apc → Apc) (s : State) : (s.onApc f).cfl = s.cfl := rfl
@[simp] theorem State.onApc_re (f : Apc → Apc) (s : State) : (s.onApc f).re = s.re := rfl
@[simp] theorem State.onApc_apc (f : Apc → Apc) (s : State) : (s.onApc f).apc = f s.apc := rfl
@[simp] theorem State.onApc_vp (f : Apc → Apc) (s : State) : (s.onApc f).vp = s.vp := rfl
@[simp] theorem State.onApc_tqu (f : Apc → Apc) (s : State) : (s.onApc f).tqu = s.tqu := rfl
@[simp] theorem State.onApc_tlc (f : Apc → Apc) (s : State) : (s.onApc f).tlc = s.tlc := rfl
@[simp] theorem State.onApc_mlc (f : Apc → Apc) (s : State) : (s.onApc f).mlc = s.mlc := rfl
@[simp] theorem State.onApc_pending (f : Apc → Apc) (s : State) : (s.onApc f).pending = s.pending := rfl

@[simp] theorem State.onVp_cfl (f : Vp → Vp) (s : State) : (s.onVp f).cfl = s.cfl := rfl
@[simp] theorem State.onVp_re (f : Vp → Vp) (s : State) : (s.onVp f).re = s.re := rfl
@[simp] theorem State.onVp_apc (f : Vp → Vp) (s : State) : (s.onVp f).apc = s.apc := rfl
@[simp] theorem State.onVp_vp (f : Vp → Vp) (s : State) : (s.onVp f).vp = f s.vp := rfl
@[simp] theorem State.onVp_tqu (f : Vp → Vp) (s : State) : (s.onVp f).tqu = s.tqu := rfl
@[simp] theorem State.onVp_tlc (f : Vp → Vp) (s : State) : (s.onVp f).tlc = s.tlc := rfl
@[simp] theorem State.onVp_mlc (f : Vp → Vp) (s : State) : (s.onVp f).mlc = s.mlc := rfl
@[simp] theorem State.onVp_pending (f : Vp → Vp) (s : State) : (s.onVp f).pending = s.pending := rfl

@[simp] theorem State.onTqu_cfl (f : Tqu → Tqu) (s : State) : (s.onTqu f).cfl = s.cfl := rfl
@[simp] theorem State.onTqu_re (f : Tqu → Tqu) (s : State) : (s.onTqu f).re = s.re := rfl
@[simp] theorem State.onTqu_apc (f : Tqu → Tqu) (s : State) : (s.onTqu f).apc = s.apc := rfl
@[simp] theorem State.onTqu_vp (f : Tqu → Tqu) (s : State) : (s.onTqu f).vp = s.vp := rfl
@[simp] theorem State.onTqu_tqu (f : Tqu → Tqu) (s : State) : (s.onTqu f).tqu = f s.tqu := rfl
@[simp] theorem State.onTqu_tlc (f : Tqu → Tqu) (s : State) : (s.onTqu f).tlc = s.tlc := rfl
@[simp] theorem State.onTqu_mlc (f : Tqu → Tqu) (s : State) : (s.onTqu f).mlc = s.mlc := rfl
@[simp] theorem State.onTqu_pending (f : Tqu → Tqu) (s : State) : (s.onTqu f).pending = s.pending := rfl

@[simp] theorem State.onTlc_cfl (f : Tlc → Tlc) (s : State) : (s.onTlc f).cfl = s.cfl := rfl
@[simp] theorem State.onTlc_re (f : Tlc → Tlc) (s : State) : (s.onTlc f).re = s.re := rfl
@[simp] theorem State.onTlc_apc (f : Tlc → Tlc) (s : State) : (s.onTlc f).apc = s.apc := rfl
@[simp] theorem State.onTlc_vp (f : Tlc → Tlc) (s : State) : (s.onTlc f).vp = s.vp := rfl
@[simp] theorem State.onTlc_tqu (f : Tlc → Tlc) (s : State) : (s.onTlc f).tqu = s.tqu := rfl
@[simp] theorem State.onTlc_tlc (f : Tlc → Tlc) (s : State) : (s.onTlc f).tlc = f s.tlc := rfl
@[simp] theorem State.onTlc_mlc (f : Tlc → Tlc) (s : State) : (s.onTlc f).mlc = s.mlc := rfl
@[simp] theorem State.onTlc_pending (f : Tlc → Tlc) (s : State) : (s.onTlc f).pending = s.pending := rfl

@[simp] theorem State.onMlc_cfl (f : Mlc → Mlc) (s : State) : (s.onMlc f).cfl = s.cfl := rfl
@[simp] theorem State.onMlc_re (f : Mlc → Mlc) (s : State) : (s.onMlc f).re = s.re := rfl
@[simp] theorem State.onMlc_apc (f : Mlc → Mlc) (s : State) : (s.onMlc f).apc = s.apc := rfl
@[simp] theorem State.onMlc_vp (f : Mlc → Mlc) (s : State) : (s.onMlc f).vp = s.vp := rfl
@[simp] theorem State.onMlc_tqu (f : Mlc → Mlc) (s : State) : (s.onMlc f).tqu = s.tqu := rfl
@[simp] theorem State.onMlc_tlc (f : Mlc → Mlc) (s : State) : (s.onMlc f).tlc = s.tlc := rfl
@[simp] theorem State.onMlc_mlc (f : Mlc → Mlc) (s : State) : (s.onMlc f).mlc = f s.mlc := rfl
@[simp] theorem State.onMlc_pending (f : Mlc → Mlc) (s : State) : (s.onMlc f).pending = s.pending := rfl

@[simp] theorem State.count_cfl (c : Counter) (s : State) : (s.count c).cfl = s.cfl := rfl
@[simp] theorem State.count_re (c : Counter) (s : State) : (s.count c).re = s.re := rfl
@[simp] theorem State.count_apc (c : Counter) (s : State) : (s.count c).apc = s.apc := rfl
@[simp] theorem State.count_vp (c : Counter) (s : State) : (s.count c).vp = s.vp := rfl
@[simp] theorem State.count_tqu (c : Counter) (s : State) : (s.count c).tqu = s.tqu := rfl
@[simp] theorem State.count_tlc (c : Counter) (s : State) : (s.count c).tlc = s.tlc := rfl
@[simp] theorem State.count_mlc (c : Counter) (s : State) : (s.count c).mlc = s.mlc.count c := rfl
@[simp] theorem State.count_pending (c : Counter) (s : State) : (s.count c).pending = s.pending := rfl

@[simp] theorem State.notify_cfl (n : Notice) (s : State) : (s.notify n).cfl = s.cfl := rfl
@[simp] theorem State.notify_re (n : Notice) (s : State) : (s.notify n).re = s.re := rfl
@[simp] theorem State.notify_apc (n : Notice) (s : State) : (s.notify n).apc = s.apc := rfl
@[simp] theorem State.notify_vp (n : Notice) (s : State) : (s.notify n).vp = s.vp := rfl
@[simp] theorem State.notify_tqu (n : Notice) (s : State) : (s.notify n).tqu = s.tqu := rfl
@[simp] theorem State.notify_tlc (n : Notice) (s : State) : (s.notify n).tlc = s.tlc := rfl
@[simp] theorem State.notify_mlc (n : Notice) (s : State) : (s.notify n).mlc = s.mlc.notify n := rfl
@[simp] theorem State.notify_pending (n : Notice) (s : State) : (s.notify n).pending = s.pending := rfl

@[simp] theorem State.updateEntry_cfl (k : Nat) (f : ServeEntry → ServeEntry) (s : State) : (s.updateEntry k f).cfl = s.cfl := rfl
@[simp] theorem State.updateEntry_re (k : Nat) (f : ServeEntry → ServeEntry) (s : State) : (s.updateEntry k f).re = { s.re with serve := s.re.serve.map fun e => if e.slot = k then f e else e } := rfl
@[simp] theorem State.updateEntry_apc (k : Nat) (f : ServeEntry → ServeEntry) (s : State) : (s.updateEntry k f).apc = s.apc := rfl
@[simp] theorem State.updateEntry_vp (k : Nat) (f : ServeEntry → ServeEntry) (s : State) : (s.updateEntry k f).vp = s.vp := rfl
@[simp] theorem State.updateEntry_tqu (k : Nat) (f : ServeEntry → ServeEntry) (s : State) : (s.updateEntry k f).tqu = s.tqu := rfl
@[simp] theorem State.updateEntry_tlc (k : Nat) (f : ServeEntry → ServeEntry) (s : State) : (s.updateEntry k f).tlc = s.tlc := rfl
@[simp] theorem State.updateEntry_mlc (k : Nat) (f : ServeEntry → ServeEntry) (s : State) : (s.updateEntry k f).mlc = s.mlc := rfl
@[simp] theorem State.updateEntry_pending (k : Nat) (f : ServeEntry → ServeEntry) (s : State) : (s.updateEntry k f).pending = s.pending := rfl

@[simp] theorem State.removeEntry_cfl (k : Nat) (s : State) : (s.removeEntry k).cfl = s.cfl := rfl
@[simp] theorem State.removeEntry_re (k : Nat) (s : State) : (s.removeEntry k).re = { s.re with serve := s.re.serve.filter fun e => e.slot != k } := rfl
@[simp] theorem State.removeEntry_apc (k : Nat) (s : State) : (s.removeEntry k).apc = s.apc := rfl
@[simp] theorem State.removeEntry_vp (k : Nat) (s : State) : (s.removeEntry k).vp = s.vp := rfl
@[simp] theorem State.removeEntry_tqu (k : Nat) (s : State) : (s.removeEntry k).tqu = s.tqu := rfl
@[simp] theorem State.removeEntry_tlc (k : Nat) (s : State) : (s.removeEntry k).tlc = s.tlc := rfl
@[simp] theorem State.removeEntry_mlc (k : Nat) (s : State) : (s.removeEntry k).mlc = s.mlc := rfl
@[simp] theorem State.removeEntry_pending (k : Nat) (s : State) : (s.removeEntry k).pending = s.pending := rfl

@[simp] theorem State.insertEntry_cfl (e : ServeEntry) (s : State) : (s.insertEntry e).cfl = s.cfl := rfl
@[simp] theorem State.insertEntry_re (e : ServeEntry) (s : State) : (s.insertEntry e).re = { s.re with serve := insertBySlot e s.re.serve } := rfl
@[simp] theorem State.insertEntry_apc (e : ServeEntry) (s : State) : (s.insertEntry e).apc = s.apc := rfl
@[simp] theorem State.insertEntry_vp (e : ServeEntry) (s : State) : (s.insertEntry e).vp = s.vp := rfl
@[simp] theorem State.insertEntry_tqu (e : ServeEntry) (s : State) : (s.insertEntry e).tqu = s.tqu := rfl
@[simp] theorem State.insertEntry_tlc (e : ServeEntry) (s : State) : (s.insertEntry e).tlc = s.tlc := rfl
@[simp] theorem State.insertEntry_mlc (e : ServeEntry) (s : State) : (s.insertEntry e).mlc = s.mlc := rfl
@[simp] theorem State.insertEntry_pending (e : ServeEntry) (s : State) : (s.insertEntry e).pending = s.pending := rfl

@[simp] theorem State.updateSurvey_cfl (h : Headset) (f : SurveyEntry → SurveyEntry) (s : State) : (s.updateSurvey h f).cfl = s.cfl := rfl
@[simp] theorem State.updateSurvey_re (h : Headset) (f : SurveyEntry → SurveyEntry) (s : State) : (s.updateSurvey h f).re = { s.re with survey := s.re.survey.map fun e => if e.headset = h then f e else e } := rfl
@[simp] theorem State.updateSurvey_apc (h : Headset) (f : SurveyEntry → SurveyEntry) (s : State) : (s.updateSurvey h f).apc = s.apc := rfl
@[simp] theorem State.updateSurvey_vp (h : Headset) (f : SurveyEntry → SurveyEntry) (s : State) : (s.updateSurvey h f).vp = s.vp := rfl
@[simp] theorem State.updateSurvey_tqu (h : Headset) (f : SurveyEntry → SurveyEntry) (s : State) : (s.updateSurvey h f).tqu = s.tqu := rfl
@[simp] theorem State.updateSurvey_tlc (h : Headset) (f : SurveyEntry → SurveyEntry) (s : State) : (s.updateSurvey h f).tlc = s.tlc := rfl
@[simp] theorem State.updateSurvey_mlc (h : Headset) (f : SurveyEntry → SurveyEntry) (s : State) : (s.updateSurvey h f).mlc = s.mlc := rfl
@[simp] theorem State.updateSurvey_pending (h : Headset) (f : SurveyEntry → SurveyEntry) (s : State) : (s.updateSurvey h f).pending = s.pending := rfl

@[simp] theorem State.removeSurvey_cfl (h : Headset) (s : State) : (s.removeSurvey h).cfl = s.cfl := rfl
@[simp] theorem State.removeSurvey_re (h : Headset) (s : State) : (s.removeSurvey h).re = { s.re with survey := s.re.survey.filter fun e => e.headset != h } := rfl
@[simp] theorem State.removeSurvey_apc (h : Headset) (s : State) : (s.removeSurvey h).apc = s.apc := rfl
@[simp] theorem State.removeSurvey_vp (h : Headset) (s : State) : (s.removeSurvey h).vp = s.vp := rfl
@[simp] theorem State.removeSurvey_tqu (h : Headset) (s : State) : (s.removeSurvey h).tqu = s.tqu := rfl
@[simp] theorem State.removeSurvey_tlc (h : Headset) (s : State) : (s.removeSurvey h).tlc = s.tlc := rfl
@[simp] theorem State.removeSurvey_mlc (h : Headset) (s : State) : (s.removeSurvey h).mlc = s.mlc := rfl
@[simp] theorem State.removeSurvey_pending (h : Headset) (s : State) : (s.removeSurvey h).pending = s.pending := rfl

@[simp] theorem State.enterSurvey_cfl (e : SurveyEntry) (s : State) : (s.enterSurvey e).cfl = s.cfl := rfl
@[simp] theorem State.enterSurvey_re (e : SurveyEntry) (s : State) : (s.enterSurvey e).re = { s.re with survey := enterSurveyList e s.re.survey } := rfl
@[simp] theorem State.enterSurvey_apc (e : SurveyEntry) (s : State) : (s.enterSurvey e).apc = s.apc := rfl
@[simp] theorem State.enterSurvey_vp (e : SurveyEntry) (s : State) : (s.enterSurvey e).vp = s.vp := rfl
@[simp] theorem State.enterSurvey_tqu (e : SurveyEntry) (s : State) : (s.enterSurvey e).tqu = s.tqu := rfl
@[simp] theorem State.enterSurvey_tlc (e : SurveyEntry) (s : State) : (s.enterSurvey e).tlc = s.tlc := rfl
@[simp] theorem State.enterSurvey_mlc (e : SurveyEntry) (s : State) : (s.enterSurvey e).mlc = s.mlc := rfl
@[simp] theorem State.enterSurvey_pending (e : SurveyEntry) (s : State) : (s.enterSurvey e).pending = s.pending := rfl

@[simp] theorem State.advanceTag_cfl (s : State) : (s.advanceTag).cfl = s.cfl := rfl
@[simp] theorem State.advanceTag_re (s : State) : (s.advanceTag).re = { s.re with claimCounter := s.re.claimCounter + 1 } := rfl
@[simp] theorem State.advanceTag_apc (s : State) : (s.advanceTag).apc = s.apc := rfl
@[simp] theorem State.advanceTag_vp (s : State) : (s.advanceTag).vp = s.vp := rfl
@[simp] theorem State.advanceTag_tqu (s : State) : (s.advanceTag).tqu = s.tqu := rfl
@[simp] theorem State.advanceTag_tlc (s : State) : (s.advanceTag).tlc = s.tlc := rfl
@[simp] theorem State.advanceTag_mlc (s : State) : (s.advanceTag).mlc = s.mlc := rfl
@[simp] theorem State.advanceTag_pending (s : State) : (s.advanceTag).pending = s.pending := rfl

@[simp] theorem State.askAnswer_cfl (cfg : Settings) (h : Headset) (k : Nat) (s : State) : (s.askAnswer cfg h k).cfl = s.cfl := rfl
@[simp] theorem State.askAnswer_re (cfg : Settings) (h : Headset) (k : Nat) (s : State) : (s.askAnswer cfg h k).re = s.re := rfl
@[simp] theorem State.askAnswer_apc (cfg : Settings) (h : Headset) (k : Nat) (s : State) : (s.askAnswer cfg h k).apc = (s.apc.order k .answer (.seekAnswer h cfg.channel k)).getD s.apc := rfl
@[simp] theorem State.askAnswer_vp (cfg : Settings) (h : Headset) (k : Nat) (s : State) : (s.askAnswer cfg h k).vp = s.vp := rfl
@[simp] theorem State.askAnswer_tqu (cfg : Settings) (h : Headset) (k : Nat) (s : State) : (s.askAnswer cfg h k).tqu = s.tqu := rfl
@[simp] theorem State.askAnswer_tlc (cfg : Settings) (h : Headset) (k : Nat) (s : State) : (s.askAnswer cfg h k).tlc = s.tlc := rfl
@[simp] theorem State.askAnswer_mlc (cfg : Settings) (h : Headset) (k : Nat) (s : State) : (s.askAnswer cfg h k).mlc = s.mlc := rfl
@[simp] theorem State.askAnswer_pending (cfg : Settings) (h : Headset) (k : Nat) (s : State) : (s.askAnswer cfg h k).pending = s.pending := rfl

@[simp] theorem State.noteCycle_cfl (n : BitVec 16) (s : State) : (s.noteCycle n).cfl = s.cfl := rfl
@[simp] theorem State.noteCycle_re (n : BitVec 16) (s : State) : (s.noteCycle n).re = s.re := rfl
@[simp] theorem State.noteCycle_apc (n : BitVec 16) (s : State) : (s.noteCycle n).apc = { s.apc with lastCycle := some n } := rfl
@[simp] theorem State.noteCycle_vp (n : BitVec 16) (s : State) : (s.noteCycle n).vp = s.vp := rfl
@[simp] theorem State.noteCycle_tqu (n : BitVec 16) (s : State) : (s.noteCycle n).tqu = s.tqu := rfl
@[simp] theorem State.noteCycle_tlc (n : BitVec 16) (s : State) : (s.noteCycle n).tlc = s.tlc := rfl
@[simp] theorem State.noteCycle_mlc (n : BitVec 16) (s : State) : (s.noteCycle n).mlc = s.mlc := rfl
@[simp] theorem State.noteCycle_pending (n : BitVec 16) (s : State) : (s.noteCycle n).pending = s.pending := rfl

@[simp] theorem State.keepReply_cfl (m : Queued) (s : State) : (s.keepReply m).cfl = s.cfl := rfl
@[simp] theorem State.keepReply_re (m : Queued) (s : State) : (s.keepReply m).re = s.re := rfl
@[simp] theorem State.keepReply_apc (m : Queued) (s : State) : (s.keepReply m).apc = s.apc := rfl
@[simp] theorem State.keepReply_vp (m : Queued) (s : State) : (s.keepReply m).vp = s.vp := rfl
@[simp] theorem State.keepReply_tqu (m : Queued) (s : State) : (s.keepReply m).tqu = { s.tqu with reply := some m } := rfl
@[simp] theorem State.keepReply_tlc (m : Queued) (s : State) : (s.keepReply m).tlc = s.tlc := rfl
@[simp] theorem State.keepReply_mlc (m : Queued) (s : State) : (s.keepReply m).mlc = s.mlc := rfl
@[simp] theorem State.keepReply_pending (m : Queued) (s : State) : (s.keepReply m).pending = s.pending := rfl

@[simp] theorem State.answer_cfl (a : Answer) (s : State) : (s.answer a).cfl = s.cfl := rfl
@[simp] theorem State.answer_re (a : Answer) (s : State) : (s.answer a).re = s.re := rfl
@[simp] theorem State.answer_apc (a : Answer) (s : State) : (s.answer a).apc = s.apc := rfl
@[simp] theorem State.answer_vp (a : Answer) (s : State) : (s.answer a).vp = s.vp := rfl
@[simp] theorem State.answer_tqu (a : Answer) (s : State) : (s.answer a).tqu = s.tqu := rfl
@[simp] theorem State.answer_tlc (a : Answer) (s : State) : (s.answer a).tlc = s.tlc := rfl
@[simp] theorem State.answer_mlc (a : Answer) (s : State) : (s.answer a).mlc = s.mlc.place a := rfl
@[simp] theorem State.answer_pending (a : Answer) (s : State) : (s.answer a).pending = s.pending := rfl

@[simp] theorem Mlc.place_answer (a : Answer) (m : Mlc) : (m.place a).answer = some a := rfl
@[simp] theorem Mlc.place_evict (a : Answer) (m : Mlc) : (m.place a).evict = none := rfl
@[simp] theorem Mlc.answerEvict_none {m : Mlc} (h : m.evict = none) : m.answerEvict = m := by simp [Mlc.answerEvict, h]
@[simp] theorem Mlc.answerEvict_some {m : Mlc} {h : Headset} (e : m.evict = some h) :
    m.answerEvict = m.place (.evictResult h .notServed) := by simp [Mlc.answerEvict, e]

@[simp] theorem State.stickIfHeld_cfl (s : State) : s.stickIfHeld.cfl = s.cfl := by unfold State.stickIfHeld; split <;> rfl
@[simp] theorem State.stickIfHeld_re (s : State) : s.stickIfHeld.re = s.re := by unfold State.stickIfHeld; split <;> rfl
@[simp] theorem State.stickIfHeld_apc (s : State) : s.stickIfHeld.apc = s.apc := by unfold State.stickIfHeld; split <;> rfl
@[simp] theorem State.stickIfHeld_vp (s : State) : s.stickIfHeld.vp = s.vp := by unfold State.stickIfHeld; split <;> rfl
@[simp] theorem State.stickIfHeld_pending (s : State) : s.stickIfHeld.pending = s.pending := by
  unfold State.stickIfHeld; split <;> rfl

@[simp] theorem State.hearAll_nil (s : State) : s.hearAll [] = s := rfl
@[simp] theorem State.hearAll_cons (x : LineSymbol) (l : List LineSymbol) (s : State) :
    s.hearAll (x :: l) = (s.hear x).hearAll l := rfl
@[simp] theorem State.hearAll_append (l m : List LineSymbol) (s : State) :
    s.hearAll (l ++ m) = (s.hearAll l).hearAll m := List.foldl_append

end Sys2Proof.Machine
end

