-- ==== Sys2Proof/Laws/Blocks.lean ====
section
/-! SUPPORT. Each operation on one block keeps what Safety.lean says of that block. -/

namespace Sys2Proof.Machine

/-! ## MLC -/

/-- What every report to MLC does: the laws of MLC stand, the enables are as they were, no status bit is cleared, and no
EVICT begins to wait. -/
structure Mlc.Grows (m m' : Mlc) : Prop where
  sound : m.Sound → m'.Sound
  enables : m'.enables = m.enables
  bits : m.status.Within m'.status
  evict : m'.evict.isSome = true → m.evict.isSome = true

theorem StatusBits.Within.refl (b : StatusBits) : b.Within b := ⟨id, id, id, id, id, id, id⟩

theorem StatusBits.Within.trans {a b c : StatusBits} (h : a.Within b) (g : b.Within c) : a.Within c :=
  ⟨g.1 ∘ h.1, g.2 ∘ h.2, g.3 ∘ h.3, g.4 ∘ h.4, g.5 ∘ h.5, g.6 ∘ h.6, g.7 ∘ h.7⟩

theorem StatusBits.within_rollover (b : StatusBits) (c : Category) : b.Within (b.rollover c) := by
  cases c <;> constructor <;> simp [StatusBits.rollover]

theorem Mlc.Grows.refl (m : Mlc) : m.Grows m := ⟨id, rfl, .refl _, id⟩

theorem Mlc.Grows.trans {a b c : Mlc} (h : a.Grows b) (g : b.Grows c) : a.Grows c :=
  ⟨g.sound ∘ h.sound, g.enables.trans h.enables, h.bits.trans g.bits, h.evict ∘ g.evict⟩

/-- One counted event raises its counter, and sets its category's rollover bit where the counter wraps (R172). -/
theorem Mlc.grows_count (c : Counter) (m : Mlc) : m.Grows (m.count c) := by
  unfold Mlc.count
  dsimp only
  split
  · exact ⟨fun h => ⟨by simpa [Mlc.withStatus] using h.counters, h.notices, h.uplinks, rfl, h.evict⟩, rfl,
      StatusBits.within_rollover _ _, id⟩
  · exact ⟨fun h => ⟨by simpa using h.counters, h.notices, h.uplinks, h.attention, h.evict⟩, rfl, .refl _, id⟩

theorem Mlc.grows_countMany (c : Counter) (n : Nat) (m : Mlc) : m.Grows (m.countMany c n) := by
  induction n generalizing m with
  | zero => exact .refl m
  | succ n ih => exact (Mlc.grows_count c m).trans (ih _)

theorem Mlc.grows_countPlacement (p : Placement) (m : Mlc) : m.Grows (m.countPlacement p) :=
  ((Mlc.grows_countMany _ _ _).trans (Mlc.grows_countMany _ _ _)).trans (Mlc.grows_countMany _ _ _)

/-- A notice joins the queue, the oldest of 16 giving way with NOTICE_LOSS set (R171). -/
theorem Mlc.grows_notify (n : Notice) (m : Mlc) : m.Grows (m.notify n) := by
  unfold Mlc.notify
  split
  · next hl =>
    refine ⟨fun h => ⟨h.counters, ?_, h.uplinks, h.attention, h.evict⟩, rfl, .refl _, id⟩
    simp [noticeCapacity] at hl ⊢
    omega
  · next hl =>
    refine ⟨fun h => ⟨h.counters, ?_, h.uplinks, rfl, h.evict⟩, rfl, ⟨id, id, id, id, id, id, fun _ => rfl⟩, id⟩
    have := h.notices
    simp [Mlc.withStatus, noticeCapacity] at this hl ⊢
    omega

theorem Mlc.grows_takeUplink (u : Uplink) (m : Mlc) : m.Grows (m.takeUplink u) := by
  unfold Mlc.takeUplink
  split
  · next hl =>
    refine ⟨fun h => ⟨h.counters, h.notices, ?_, h.attention, h.evict⟩, rfl, .refl _, id⟩
    simp [uplinkCapacity] at hl ⊢
    omega
  · next hl =>
    refine ⟨fun h => ⟨h.counters, h.notices, ?_, h.attention, h.evict⟩, rfl, .refl _, id⟩
    have := h.uplinks
    simp [uplinkCapacity] at this hl ⊢
    omega

theorem Mlc.grows_place (a : Answer) (m : Mlc) : m.Grows (m.place a) :=
  ⟨fun h => ⟨h.counters, h.notices, h.uplinks, h.attention, by intro x; cases x⟩, rfl, .refl _, by intro x; cases x⟩

theorem Mlc.grows_answerEvict (m : Mlc) : m.Grows m.answerEvict := by
  unfold Mlc.answerEvict
  split
  · exact Mlc.grows_place _ m
  · exact .refl m

/-- No EVICT waits once the one that waited is answered. -/
theorem Mlc.evict_answerEvict (m : Mlc) : m.answerEvict.evict = none := by
  unfold Mlc.answerEvict
  split
  · rfl
  · assumption

/-- An EVICT that is taken to wait keeps the laws of MLC where the answer slot is free (R167). -/
theorem Mlc.sound_wait {m : Mlc} (h : m.Sound) (hf : m.slotFree = true) (x : Headset) :
    Mlc.Sound { m with evict := some x } :=
  ⟨h.counters, h.notices, h.uplinks, h.attention, fun _ => by simpa using (Bool.and_eq_true_iff.mp hf).1⟩

theorem Mlc.grows_startRecord (m : Mlc) : m.Grows m.startRecord := by
  unfold Mlc.startRecord
  split
  · next hu =>
    refine ⟨fun h => ⟨h.counters, h.notices, ?_, h.attention, h.evict⟩, rfl, .refl _, id⟩
    have := h.uplinks
    rw [hu] at this
    exact Nat.le_of_succ_le this
  · exact ⟨fun h => ⟨h.counters, h.notices, h.uplinks, h.attention, fun _ => rfl⟩, rfl, .refl _, id⟩
  · next hn _ =>
    refine ⟨fun h => ⟨h.counters, ?_, h.uplinks, h.attention, h.evict⟩, rfl, .refl _, id⟩
    have := h.notices
    simp_all
    omega
  · exact .refl m

/-! ## APC -/

theorem Apc.slot_mem {a : Apc} {k : Nat} (h : (a.slot k).state.isAssigned = true) : a.slot k ∈ a.slots := by
  unfold Apc.slot at h ⊢
  cases hk : a.slots[k]? with
  | none => rw [hk] at h; cases h
  | some x => exact List.mem_of_getElem? hk

/-- A property of every slot survives a change of one slot that keeps it. -/
theorem forall_mem_modify {α : Type} {P : α → Prop} {l : List α} {k : Nat} {f : α → α} (hl : ∀ x ∈ l, P x)
    (hf : ∀ x ∈ l, l[k]? = some x → P (f x)) : ∀ x ∈ l.modify k f, P x := by
  intro x hx
  obtain ⟨i, hi, rfl⟩ := List.mem_iff_getElem.mp hx
  rw [List.getElem_modify]
  have hi' : i < l.length := by simpa using hi
  split
  · next h => exact hf _ (List.getElem_mem hi') (h ▸ List.getElem?_eq_getElem hi')
  · exact hl _ (List.getElem_mem hi')

theorem Apc.slot_of_getElem? {a : Apc} {k : Nat} {x : AirSlot} (h : a.slots[k]? = some x) : a.slot k = x := by
  simp [Apc.slot, h]

/-- A change of the slot of one item keeps APC's laws where it keeps them for that item. -/
theorem Apc.sound_modify {a : Apc} (h : a.Sound) (k : Nat) (f : AirSlot → AirSlot)
    (hf : ((a.slot k).order.isSome = true → (a.slot k).state.isAssigned = true) →
      (f (a.slot k)).order.isSome = true → (f (a.slot k)).state.isAssigned = true) :
    Apc.Sound { a with slots := a.slots.modify k f } := by
  refine ⟨by simpa using h.slots, forall_mem_modify (P := fun x : AirSlot => x.order.isSome = true → x.state.isAssigned = true)
    h.orders fun x hx hk => ?_⟩
  rw [← Apc.slot_of_getElem? hk] at hx ⊢
  exact hf (h.orders _ hx)

theorem Apc.sound_send {a : Apc} (h : a.Sound) (o : AirOrder) : (a.send o).Sound := ⟨h.slots, h.orders⟩

theorem Apc.sound_reserve {a : Apc} (h : a.Sound) {k : Nat} (tag : Tag) (hk : (a.slot k).state = .free) :
    (a.reserve k tag).Sound :=
  Apc.sound_modify h k _ fun hn ho => by simp [hk, SlotState.isAssigned] at hn; simp [hn] at ho

theorem Apc.sound_release {a : Apc} (h : a.Sound) (k : Nat) (tag : Tag) : (a.release k tag).Sound := by
  unfold Apc.release
  split
  · next hk =>
    exact Apc.sound_modify h k _ fun hn ho => by simp [hk, SlotState.isAssigned] at hn; simp [hn] at ho
  · exact h

theorem Apc.sound_assign {a : Apc} (h : a.Sound) (k : Nat) (tag : Tag) (x : Headset) : (a.assign k tag x).Sound := by
  unfold Apc.assign
  split
  · exact Apc.sound_send (Apc.sound_modify h k _ fun _ _ => rfl) _
  · exact h

theorem Apc.sound_close {a : Apc} (h : a.Sound) (k : Nat) : (a.close k).Sound := by
  unfold Apc.close
  split
  · exact Apc.sound_send (Apc.sound_modify h k _ fun _ ho => by cases ho) _
  · exact h

theorem Apc.sound_order {a b : Apc} (h : a.Sound) {k : Nat} {kind : OrderKind} {o : AirOrder}
    (hb : a.order k kind o = some b) : b.Sound := by
  unfold Apc.order at hb
  split at hb
  · next hc =>
    cases hb
    exact Apc.sound_send (Apc.sound_modify h k _ fun _ _ => hc.1) _
  · cases hb

theorem Apc.sound_order_getD {a : Apc} (h : a.Sound) (k : Nat) (kind : OrderKind) (o : AirOrder) :
    ((a.order k kind o).getD a).Sound := by
  cases hb : a.order k kind o with
  | none => exact h
  | some b => exact Apc.sound_order h hb

theorem Apc.sound_endOrder {a : Apc} (h : a.Sound) (k : Nat) : (a.endOrder k).Sound :=
  Apc.sound_modify h k _ fun _ ho => by cases ho

theorem Apc.sound_downlink {a : Apc} (h : a.Sound) (k : Nat) (x : List Sample) : (a.downlink k x).Sound := by
  unfold Apc.downlink
  split
  · exact Apc.sound_send h _
  · exact h

theorem Apc.sound_age {a : Apc} (h : a.Sound) : Apc.Sound { a with slots := a.slots.map AirSlot.ageOrder } := by
  refine ⟨by simpa using h.slots, fun x hx ho => ?_⟩
  obtain ⟨y, hy, rfl⟩ := List.mem_map.mp hx
  exact h.orders y hy (by simpa [AirSlot.ageOrder] using ho)

/-! ## VP -/

theorem Vp.sound_withStore {v : Vp} {store : List StoredGroup} (hc : store.length ≤ storeCapacity)
    (hd : (store.map StoredGroup.group).Nodup) (hr : ∀ e ∈ store, 1 ≤ e.refs) : (v.withStore store).Sound :=
  ⟨hc, hd, hr, rfl⟩

theorem Vp.not_stored {v : Vp} {g : Group} (h : v.stored g = false) : g ∉ v.store.map StoredGroup.group := by
  intro hm
  obtain ⟨e, he, rfl⟩ := List.mem_map.mp hm
  simp only [Vp.stored, Vp.find, Option.isSome_eq_false_iff, Option.isNone_iff_eq_none,
    List.find?_eq_none] at h
  exact h e he (by simp)

theorem Vp.sound_acquire {v w : Vp} (h : v.Sound) {g : Group} (hw : v.acquire g = some w) : w.Sound := by
  unfold Vp.acquire at hw
  split at hw
  · cases hw
    refine Vp.sound_withStore (by simpa using h.capacity) ?_ ?_
    · have : (v.store.map fun e => if e.group = g then { e with refs := e.refs + 1 } else e).map StoredGroup.group =
          v.store.map StoredGroup.group := by
        rw [List.map_map]
        refine List.map_congr_left fun e _ => ?_
        by_cases he : e.group = g <;> simp [he]
      rw [this]
      exact h.distinct
    · intro e he
      obtain ⟨x, hx, rfl⟩ := List.mem_map.mp he
      split
      · exact Nat.le_add_left 1 _
      · exact h.referenced x hx
  · next hs =>
    split at hw
    · next hl =>
      cases hw
      refine Vp.sound_withStore ?_ ?_ ?_
      · simp only [List.length_append, List.length_singleton]
        omega
      · rw [List.map_append]
        refine List.nodup_append.mpr ⟨h.distinct, by simp, ?_⟩
        intro a ha b hb hab
        simp at hb
        subst hab hb
        exact Vp.not_stored (by simpa using hs) ha
      · intro e he
        rcases List.mem_append.mp he with he | he
        · exact h.referenced e he
        · simp at he; simp [he]
    · cases hw

theorem Vp.sound_release {v : Vp} (h : v.Sound) (g : Group) : (v.release g).Sound := by
  refine Vp.sound_withStore (le_trans (List.length_filterMap_le _ _) h.capacity) ?_ ?_
  · refine List.Nodup.sublist ?_ h.distinct
    induction v.store with
    | nil => exact .slnil
    | cons e es ih =>
      rw [List.filterMap_cons]
      split
      · exact List.Sublist.cons _ ih
      · next x hx =>
        have : x.group = e.group := by
          split at hx
          · split at hx
            · cases hx
            · cases hx; rfl
          · cases hx; rfl
        rw [List.map_cons, List.map_cons, this]
        exact ih.cons_cons _
  · intro e he
    obtain ⟨x, hx, hxe⟩ := List.mem_filterMap.mp he
    split at hxe
    · split at hxe
      · cases hxe
      · injection hxe with hxe
        rw [← hxe]
        dsimp only
        omega
    · cases hxe
      exact h.referenced _ hx

theorem Vp.sound_releaseAll {v : Vp} (h : v.Sound) (gs : List Group) : (v.releaseAll gs).Sound := by
  unfold Vp.releaseAll
  induction gs generalizing v with
  | nil => exact h
  | cons g gs ih => exact ih (Vp.sound_release h g)

theorem Vp.sound_acquireAll {v : Vp} (h : v.Sound) (gs : List Group) : (v.acquireAll gs).Sound := by
  unfold Vp.acquireAll
  induction gs generalizing v with
  | nil => exact h
  | cons g gs ih =>
    refine ih ?_
    show ((v.acquire g).getD v).Sound
    cases hw : v.acquire g with
    | none => exact h
    | some w => exact Vp.sound_acquire h hw

theorem Vp.sound_fitWalk {v : Vp} (h : v.Sound) (held : List Group) (l : List ListenItem) :
    (fitWalk held l v).1.Sound := by
  induction l generalizing v with
  | nil => exact h
  | cons i is ih =>
    unfold fitWalk
    split
    · exact ih h
    · split
      · next hw => exact ih (Vp.sound_acquire h hw)
      · exact h

theorem Vp.sound_fit {v : Vp} (h : v.Sound) (held : List Group) (l : List ListenItem) : (v.fit held l).vp.Sound :=
  Vp.sound_releaseAll (Vp.sound_fitWalk (Vp.sound_releaseAll h _) _ _) _

/-- A change of the entries of the store that keeps their groups and counts keeps VP's laws. -/
theorem Vp.sound_map {v : Vp} (h : v.Sound) (f : StoredGroup → StoredGroup) (hg : ∀ e, (f e).group = e.group)
    (hr : ∀ e, (f e).refs = e.refs) : Vp.Sound { v with store := v.store.map f } := by
  have hm : maskOf (v.store.map f) = maskOf v.store := by
    unfold maskOf
    induction v.store with
    | nil => rfl
    | cons e es ih => simp only [List.map_cons, List.foldr_cons, ih, hg]
  refine ⟨by simpa using h.capacity, ?_, ?_, ?_⟩
  · have : (v.store.map f).map StoredGroup.group = v.store.map StoredGroup.group := by
      rw [List.map_map]
      exact List.map_congr_left fun e _ => hg e
    rw [this]
    exact h.distinct
  · intro e he
    obtain ⟨x, hx, rfl⟩ := List.mem_map.mp he
    rw [hr]
    exact h.referenced x hx
  · rw [hm]
    exact h.mask

theorem Vp.sound_consume {v : Vp} (h : v.Sound) : v.consume.Sound := Vp.sound_map h _ (fun _ => rfl) fun _ => rfl

/-! ## TQU -/

/-- What an operation on the transmit queues keeps: their depths, and the inbound side as it stands. -/
structure Tqu.Sends (t t' : Tqu) : Prop where
  sound : t.Sound → t'.Sound
  pool : t'.pool = t.pool
  reached : t'.reached = t.reached
  reply : t'.reply = t.reply
  reservations : t'.reservations = t.reservations

theorem Tqu.Sends.refl (t : Tqu) : t.Sends t := ⟨id, rfl, rfl, rfl, rfl⟩

theorem Tqu.Sends.trans {a b c : Tqu} (h : a.Sends b) (g : b.Sends c) : a.Sends c :=
  ⟨g.sound ∘ h.sound, g.pool.trans h.pool, g.reached.trans h.reached, g.reply.trans h.reply,
    g.reservations.trans h.reservations⟩

theorem Tqu.Sends.reserved {t t' : Tqu} (h : t.Sends t') {own : Node} (hr : t.Reserved own) : t'.Reserved own := by
  refine ⟨?_, ?_, ?_⟩
  · rw [h.reached, h.pool]; exact hr.point
  · rw [h.reservations, h.pool]; exact hr.count
  · rw [h.reply, h.reached, h.pool]; exact hr.reply

theorem Tqu.sends_pushUrgent {t : Tqu} (h : t.urgentRoom = true) (b : Body) (d : Node) :
    t.Sends (t.push (Queued.new .urgent b d)) := by
  simp only [Tqu.urgentRoom, decide_eq_true_eq] at h
  refine ⟨fun hs => ⟨hs.flow, ?_, hs.handover, hs.report, hs.pool⟩, rfl, rfl, rfl, rfl⟩
  simp only [Tqu.push, Tqu.onQueue, Queued.new, List.length_append, List.length_singleton]
  omega

theorem Tqu.sends_pushHandover {t : Tqu} (h : t.handoverRoom = true) (b : Body) (d : Node) :
    t.Sends (t.push (Queued.new .handover b d)) := by
  simp only [Tqu.handoverRoom, decide_eq_true_eq] at h
  refine ⟨fun hs => ⟨hs.flow, hs.urgent, ?_, hs.report, hs.pool⟩, rfl, rfl, rfl, rfl⟩
  simp only [Tqu.push, Tqu.onQueue, Queued.new, List.length_append, List.length_singleton]
  omega

theorem Tqu.sends_pushReport {t : Tqu} (h : t.reportRoom = true) (b : Body) (d : Node) :
    t.Sends (t.push (Queued.new .report b d)) := by
  simp only [Tqu.reportRoom, decide_eq_true_eq] at h
  refine ⟨fun hs => ⟨hs.flow, hs.urgent, hs.handover, ?_, hs.pool⟩, rfl, rfl, rfl, rfl⟩
  simp only [Tqu.push, Tqu.onQueue, Queued.new, List.length_append, List.length_singleton]
  omega

theorem Tqu.sends_dropClaim (t : Tqu) (h : Headset) (tag : Tag) : t.Sends (t.dropClaim h tag) := by
  refine ⟨fun hs => ⟨hs.flow, ?_, ?_, hs.report, hs.pool⟩, rfl, rfl, rfl, rfl⟩
  · exact le_trans (List.length_filter_le _ _) hs.urgent
  · exact le_trans (Nat.add_le_add_right (List.length_filter_le _ _) _) hs.handover

theorem Tqu.sends_queueHold (t : Tqu) (time : Nat) : t.Sends (t.queueHold time) := by
  unfold Tqu.queueHold
  split
  · exact ⟨fun hs => ⟨by simp [flowDepth], hs.urgent, hs.handover, hs.report, hs.pool⟩, rfl, rfl, rfl, rfl⟩
  · next hf =>
    refine ⟨fun hs => ⟨?_, hs.urgent, hs.handover, hs.report, hs.pool⟩, rfl, rfl, rfl, rfl⟩
    have := hs.flow
    simp_all

theorem Tqu.sends_ownHold (t : Tqu) (n : Nat) : t.Sends { t with ownHold := n } :=
  ⟨fun hs => ⟨hs.flow, hs.urgent, hs.handover, hs.report, hs.pool⟩, rfl, rfl, rfl, rfl⟩

theorem Tqu.sends_holds (t : Tqu) (l : List Nat) : t.Sends { t with neighbourHolds := l } :=
  ⟨fun hs => ⟨hs.flow, hs.urgent, hs.handover, hs.report, hs.pool⟩, rfl, rfl, rfl, rfl⟩

theorem Tqu.sends_holdOnset (cfg : Settings) (t : Tqu) : t.Sends (t.holdOnset cfg) := by
  unfold Tqu.holdOnset
  split
  · exact (Tqu.sends_queueHold t _).trans (Tqu.sends_ownHold _ _)
  · exact .refl t

theorem Tqu.sends_holdRelease (cfg : Settings) (t : Tqu) : t.Sends (t.holdRelease cfg) := by
  unfold Tqu.holdRelease
  split
  · exact (Tqu.sends_queueHold t _).trans (Tqu.sends_ownHold _ _)
  · exact .refl t

theorem Tqu.sends_markOwn (cfg : Settings) (t : Tqu) : t.Sends (t.markOwn cfg) := by
  unfold Tqu.markOwn
  split
  · exact (Tqu.sends_ownHold t _).trans (Tqu.sends_holdOnset cfg _)
  · exact Tqu.sends_ownHold t _

theorem Tqu.sends_mark (cfg : Settings) (t : Tqu) : t.Sends (t.mark cfg) :=
  (Tqu.sends_holds t _).trans (Tqu.sends_markOwn cfg _)

theorem Tqu.sends_setHold (cfg : Settings) (n : Node) (time : Nat) (t : Tqu) : t.Sends (t.setHold cfg n time) := by
  unfold Tqu.setHold
  split
  · exact Tqu.sends_holds t _
  · exact .refl t

theorem length_changeFirst (p : Queued → Bool) (f : Queued → Queued) (l : List Queued) :
    (changeFirst p f l).length = l.length := by
  induction l with
  | nil => rfl
  | cons m ms ih => unfold changeFirst; split <;> simp [ih]

theorem length_removeFirst (p : Queued → Bool) (l : List Queued) : (removeFirst p l).length ≤ l.length := by
  induction l with
  | nil => exact le_refl _
  | cons m ms ih => unfold removeFirst; split <;> simp; omega

/-- A change of one queue that does not lengthen it keeps the laws of the queues. -/
theorem Tqu.sends_onQueue (c : TxClass) (f : List Queued → List Queued) (hf : ∀ l, (f l).length ≤ l.length) (t : Tqu) :
    t.Sends (t.onQueue c f) := by
  cases c
  · exact ⟨fun h => ⟨le_trans (hf _) h.flow, h.urgent, h.handover, h.report, h.pool⟩, rfl, rfl, rfl, rfl⟩
  · exact ⟨fun h => ⟨h.flow, le_trans (hf _) h.urgent, h.handover, h.report, h.pool⟩, rfl, rfl, rfl, rfl⟩
  · exact ⟨fun h => ⟨h.flow, h.urgent, le_trans (Nat.add_le_add_right (hf _) _) h.handover, h.report, h.pool⟩,
      rfl, rfl, rfl, rfl⟩
  · exact ⟨fun h => ⟨h.flow, h.urgent, h.handover, le_trans (hf _) h.report, h.pool⟩, rfl, rfl, rfl, rfl⟩

theorem Tqu.sends_takeInHand (cfg : Settings) (m : Queued) (t : Tqu) : t.Sends (t.takeInHand cfg m) :=
  Tqu.sends_onQueue _ _ (fun l => le_of_eq (length_changeFirst _ _ l)) t

theorem Tqu.sends_changeInHand (f : Queued → Queued) (t : Tqu) : t.Sends (t.changeInHand f) := by
  unfold Tqu.changeInHand
  split
  · exact Tqu.sends_onQueue _ _ (fun l => le_of_eq (length_changeFirst _ _ l)) t
  · exact .refl t

theorem Tqu.sends_removeInHand (t : Tqu) : t.Sends t.removeInHand := by
  unfold Tqu.removeInHand
  split
  · exact Tqu.sends_onQueue _ _ (length_removeFirst _) t
  · exact .refl t

end Sys2Proof.Machine
end

