-- ==== Sys2Proof/Laws/Scores.lean ====
section
/-! SUPPORT. The ranges of the link quality arithmetic (R25 to R30) and the soundness of entries after each change. -/

namespace Sys2Proof.Machine

/-- The step has the sign of d and its magnitude is at most that of d (R26). -/
theorem smoothStep_bounds (k : Nat) (d : Int) :
    (0 ≤ d → 0 ≤ smoothStep k d ∧ smoothStep k d ≤ d) ∧ (d ≤ 0 → d ≤ smoothStep k d ∧ smoothStep k d ≤ 0) := by
  have hp : (0 : Int) < 2 ^ k := by positivity
  unfold smoothStep
  dsimp only
  constructor
  · intro hd
    split
    · rcases Int.lt_or_eq_of_le hd with h | h
      · rw [Int.sign_eq_one_of_pos h]; omega
      · subst h; simp
    · rw [Int.tdiv_eq_ediv_of_nonneg hd]
      exact ⟨Int.ediv_nonneg hd hp.le, Int.ediv_le_self _ hd⟩
  · intro hd
    split
    · rcases Int.lt_or_eq_of_le hd with h | h
      · rw [Int.sign_eq_neg_one_of_neg h]; omega
      · subst h; simp
    · obtain ⟨e, rfl⟩ : ∃ e, d = -e := ⟨-d, by omega⟩
      have he : 0 ≤ e := by omega
      rw [Int.neg_tdiv, Int.tdiv_eq_ediv_of_nonneg he]
      have := Int.ediv_nonneg he hp.le
      have := Int.ediv_le_self (2 ^ k) he
      omega

/-- Q stays between its old value and the target 16·s (R26). -/
theorem smooth_le {k q s m : Nat} (hq : q ≤ m) (hs : 16 * s ≤ m) : smooth k q s ≤ m := by
  have h := smoothStep_bounds k (16 * (s : Int) - (q : Int))
  unfold smooth
  rcases Int.le_total 0 (16 * (s : Int) - (q : Int)) with hd | hd
  · have := h.1 hd; omega
  · have := h.2 hd; omega

theorem sampleValue_le (kind : SampleKind) (level : Int) : sampleValue kind level ≤ 90 := by
  cases kind <;> simp only [sampleValue, clampLevel] <;> omega

theorem smooth_limit {k q s : Nat} (hq : q ≤ qLimit) (hs : s ≤ 90) : smooth k q s ≤ qLimit :=
  smooth_le hq (by unfold qLimit; omega)

theorem seeded_limit {s : Nat} (hs : s ≤ 90) : seeded s ≤ qLimit := by unfold seeded qLimit; omega

theorem reported_le {q : Nat} (hq : q ≤ qLimit) : reported q ≤ 90 := by unfold reported; unfold qLimit at hq; omega

/-! ## Survey entries -/

theorem SurveyEntry.sound_sample {e : SurveyEntry} (h : e.Sound) (cfg : Settings) {s : Nat} (hs : s ≤ 90) :
    (e.sample cfg s).Sound := by
  refine ⟨smooth_limit h.q hs, rfl, ?_, h.pacing⟩
  simp only [SurveyEntry.sample, SurveyEntry.testDwell]
  split <;> omega

theorem SurveyEntry.sound_fresh (x : Headset) {q : Nat} (hq : q ≤ qLimit) : (SurveyEntry.fresh x q).Sound :=
  ⟨hq, rfl, by simp [SurveyEntry.fresh], by simp [SurveyEntry.fresh]⟩

/-! ## Serve entries -/

theorem ServeEntry.sound_sample {e : ServeEntry} (h : e.Sound) (cfg : Settings) {s : Nat} (hs : s ≤ 90) :
    (e.sample cfg s).Sound := ⟨smooth_limit h.q hs, rfl, h.ring⟩

theorem ServeEntry.sound_reseed {e : ServeEntry} (h : e.Sound) {s : Nat} (hs : s ≤ 90) : (e.reseed s).Sound :=
  ⟨seeded_limit hs, rfl, h.ring⟩

theorem ServeEntry.offeredTest_fields (cfg : Settings) (e : ServeEntry) :
    (e.offeredTest cfg).headset = e.headset ∧ (e.offeredTest cfg).slot = e.slot ∧
      (e.offeredTest cfg).q = e.q ∧ (e.offeredTest cfg).r = e.r ∧ (e.offeredTest cfg).ring = e.ring := by
  unfold ServeEntry.offeredTest
  split
  · split <;> exact ⟨rfl, rfl, rfl, rfl, rfl⟩
  · split <;> exact ⟨rfl, rfl, rfl, rfl, rfl⟩
  · exact ⟨rfl, rfl, rfl, rfl, rfl⟩

theorem ServeEntry.sound_of_fields {e f : ServeEntry} (h : e.Sound) (hq : f.q = e.q) (hr : f.r = e.r)
    (hf : f.ring.frames.length ≤ ringCapacity) : f.Sound := ⟨hq ▸ h.q, by rw [hr, hq]; exact h.r, hf⟩

theorem ServeEntry.sound_offeredTest {e : ServeEntry} (h : e.Sound) (cfg : Settings) : (e.offeredTest cfg).Sound := by
  obtain ⟨-, -, hq, hr, hf⟩ := ServeEntry.offeredTest_fields cfg e
  exact ServeEntry.sound_of_fields h hq hr (hf ▸ h.ring)

/-- Frames appended leave at most 8 in the ring (R117). -/
theorem Ring.append_length (fs : List VoiceFrame) (r : Ring) : (r.append fs).frames.length ≤ ringCapacity := by
  simp only [Ring.append, List.length_drop, List.length_append]
  omega

theorem Ring.place_length (cfg : Settings) (q : Seq) (payload : List Byte) {r : Ring}
    (h : r.frames.length ≤ ringCapacity) : (r.place cfg q payload).ring.frames.length ≤ ringCapacity := by
  unfold Ring.place
  dsimp only
  split
  · exact Ring.append_length _ r
  · exact h

theorem ServeEntry.play_length (cfg : Settings) (e : ServeEntry) :
    (e.play cfg).1.frames.length ≤ e.ring.frames.length := by
  unfold ServeEntry.play
  split
  all_goals try split
  all_goals try split
  all_goals simp_all

end Sys2Proof.Machine
end

