-- ==== Sys2Proof/Laws/Stays.lean ====
section
/-! SUPPORT. What no operation of RE, APC and VP changes: CFL, TLC, the queue of commands and the inbound side of TQU; and
what each keeps: the laws of APC, VP, MLC and the transmit queues, MLC's enables, and every status bit that is set. -/

namespace Sys2Proof.Machine

/-- What every operation of RE, APC and VP leaves and keeps. -/
structure State.Stays (s t : State) : Prop where
  cfl : t.cfl = s.cfl
  tlc : t.tlc = s.tlc
  pending : t.pending = s.pending
  mlc : s.mlc.Grows t.mlc
  apc : s.apc.Sound → t.apc.Sound
  vp : s.vp.Sound → t.vp.Sound
  tqu : s.tqu.Sends t.tqu

namespace State

theorem Stays.refl (s : State) : s.Stays s := ⟨rfl, rfl, rfl, .refl _, id, id, .refl _⟩

theorem Stays.trans {a b c : State} (h : a.Stays b) (g : b.Stays c) : a.Stays c :=
  ⟨g.cfl.trans h.cfl, g.tlc.trans h.tlc, g.pending.trans h.pending, h.mlc.trans g.mlc, g.apc ∘ h.apc, g.vp ∘ h.vp,
    h.tqu.trans g.tqu⟩

theorem Stays.ite {c : Prop} [Decidable c] {s a b : State} (ha : s.Stays a) (hb : s.Stays b) :
    s.Stays (if c then a else b) := by
  split
  · exact ha
  · exact hb

/-! ## One block -/

theorem stays_onRe (f : Re → Re) (s : State) : s.Stays (s.onRe f) := ⟨rfl, rfl, rfl, .refl _, id, id, .refl _⟩

theorem stays_onApc (f : Apc → Apc) (s : State) (h : s.apc.Sound → (f s.apc).Sound) : s.Stays (s.onApc f) :=
  ⟨rfl, rfl, rfl, .refl _, h, id, .refl _⟩

theorem stays_onVp (f : Vp → Vp) (s : State) (h : s.vp.Sound → (f s.vp).Sound) : s.Stays (s.onVp f) :=
  ⟨rfl, rfl, rfl, .refl _, id, h, .refl _⟩

theorem stays_onTqu (f : Tqu → Tqu) (s : State) (h : s.tqu.Sends (f s.tqu)) : s.Stays (s.onTqu f) :=
  ⟨rfl, rfl, rfl, .refl _, id, id, h⟩

theorem stays_onMlc (f : Mlc → Mlc) (s : State) (h : s.mlc.Grows (f s.mlc)) : s.Stays (s.onMlc f) :=
  ⟨rfl, rfl, rfl, h, id, id, .refl _⟩

theorem stays_count (c : Counter) (s : State) : s.Stays (s.count c) := stays_onMlc _ s (Mlc.grows_count c _)

theorem stays_notify (n : Notice) (s : State) : s.Stays (s.notify n) := stays_onMlc _ s (Mlc.grows_notify n _)

theorem stays_updateEntry (k : Nat) (f : ServeEntry → ServeEntry) (s : State) : s.Stays (s.updateEntry k f) :=
  stays_onRe _ s

theorem stays_removeEntry (k : Nat) (s : State) : s.Stays (s.removeEntry k) := stays_onRe _ s

theorem stays_insertEntry (e : ServeEntry) (s : State) : s.Stays (s.insertEntry e) := stays_onRe _ s

theorem stays_updateSurvey (h : Headset) (f : SurveyEntry → SurveyEntry) (s : State) :
    s.Stays (s.updateSurvey h f) := stays_onRe _ s

theorem stays_removeSurvey (h : Headset) (s : State) : s.Stays (s.removeSurvey h) := stays_onRe _ s

theorem stays_enterSurvey (e : SurveyEntry) (s : State) : s.Stays (s.enterSurvey e) := stays_onRe _ s

theorem stays_advanceTag (s : State) : s.Stays s.advanceTag := stays_onRe _ s

theorem stays_dropClaim (h : Headset) (tag : Tag) (s : State) : s.Stays (s.onTqu (Tqu.dropClaim h tag)) :=
  stays_onTqu _ s (Tqu.sends_dropClaim _ h tag)

theorem stays_releaseAll (gs : List Group) (s : State) : s.Stays (s.onVp (Vp.releaseAll gs)) :=
  stays_onVp _ s fun h => Vp.sound_releaseAll h gs

theorem stays_whenRun (s : State) (f : Settings → State → State) (h : ∀ cfg, s.Stays (f cfg s)) :
    s.Stays (s.whenRun f) := by
  unfold whenRun
  split
  · exact h _
  · exact .refl s

theorem stays_foldl {α : Type} (f : State → α → State) (h : ∀ (s : State) a, s.Stays (f s a)) (l : List α) (s : State) :
    s.Stays (l.foldl f s) := by
  induction l generalizing s with
  | nil => exact .refl s
  | cons a as ih => exact (h s a).trans (ih _)

/-! ## Entries -/

theorem stays_releaseEntry (k : Nat) (s : State) : s.Stays (s.releaseEntry k) := by
  unfold releaseEntry
  split
  · exact .refl s
  · next e _ =>
    refine Stays.trans (b := (s.onApc (Apc.close k)).onVp (Vp.releaseAll (e.listen.map ListenItem.group)))
      ((stays_onApc _ s fun h => Apc.sound_close h k).trans (stays_releaseAll _ _)) ?_
    dsimp only
    split
    · exact (stays_dropClaim _ _ _).trans (stays_removeEntry _ _)
    · exact stays_removeEntry _ _

theorem stays_departEntry (k : Nat) (s : State) : s.Stays (s.departEntry k) := by
  unfold departEntry
  split
  · exact .refl s
  · exact ((stays_releaseEntry k s).trans (stays_notify _ _)).trans (stays_count _ _)

theorem stays_endClaim (h : Headset) (s : State) : s.Stays (s.endClaim h) := by
  unfold endClaim
  split
  · exact .refl s
  · exact (((stays_onApc _ s fun hs => Apc.sound_release hs _ _).trans (stays_releaseAll _ _)).trans
      (stays_dropClaim _ _ _)).trans (stays_updateSurvey _ _ _)

theorem stays_failClaim (h : Headset) (s : State) : s.Stays (s.failClaim h) :=
  (stays_endClaim h s).trans (stays_updateSurvey _ _ _)

theorem stays_withdrawSeek (h : Headset) (s : State) : s.Stays (s.withdrawSeek h) :=
  (stays_endClaim h s).trans (stays_count _ _)

theorem stays_enterLost (cfg : Settings) (k : Nat) (s : State) : s.Stays (s.enterLost cfg k) := by
  unfold enterLost
  split
  · exact .refl s
  · exact (stays_updateEntry _ _ _).trans (stays_notify _ _)

theorem stays_revert (cfg : Settings) (k : Nat) (s : State) : s.Stays (s.revert cfg k) := by
  unfold revert
  split
  · split
    · exact (stays_updateEntry _ _ _).trans (stays_notify _ _)
    · exact .refl s
  · exact .refl s

theorem stays_askAnswer (cfg : Settings) (h : Headset) (k : Nat) (s : State) : s.Stays (s.askAnswer cfg h k) :=
  stays_onApc _ s fun hs => Apc.sound_order_getD hs _ _ _

theorem stays_enterServe (e : SurveyEntry) (c : ClaimRecord) (t : ArrivalTerms) (s : State) :
    s.Stays (s.enterServe e c t) := by
  unfold enterServe
  have h := ((((stays_onApc (Apc.assign c.slot c.tag e.headset) s fun hs => Apc.sound_assign hs _ _ _).trans
    (stays_onVp (fun _ => (s.vp.fit c.groups t.listen).vp) _ fun hs => Vp.sound_fit hs _ _)).trans
    (stays_dropClaim e.headset c.tag _)).trans (stays_removeSurvey e.headset _)).trans
    (stays_insertEntry (arrivingEntry e c t (s.vp.fit c.groups t.listen).kept) _)
  dsimp only
  split
  · exact h.trans (stays_count _ _)
  · exact h

theorem stays_winSeek (cfg : Settings) (e : SurveyEntry) (c : ClaimRecord) (s : State) : s.Stays (s.winSeek cfg e c) :=
  ((stays_enterServe e c _ s).trans (stays_askAnswer _ _ _ _)).trans (stays_count _ _)

theorem stays_winReclaim (cfg : Settings) (k : Nat) (s : State) : s.Stays (s.winReclaim cfg k) := by
  unfold winReclaim
  split
  · exact .refl s
  · exact ((stays_updateEntry _ _ _).trans (stays_askAnswer _ _ _ _)).trans (stays_count _ _)

theorem stays_concludeYield (cfg : Settings) (k : Nat) (n : Node) (s : State) : s.Stays (s.concludeYield cfg k n) := by
  unfold concludeYield
  split
  · exact .refl s
  · exact ((stays_releaseEntry _ _).trans (stays_notify _ _)).trans (stays_enterSurvey _ _)

theorem stays_oweYield (cfg : Settings) (k : Nat) (n : Node) (tag : Tag) (s : State) :
    s.Stays (s.oweYield cfg k n tag) := by
  unfold oweYield
  split
  · exact .refl s
  · split
    · next hr => exact (stays_onTqu _ s (Tqu.sends_pushUrgent hr _ _)).trans (stays_updateEntry _ _ _)
    · exact (stays_count _ _).trans (stays_concludeYield _ _ _ _)

theorem stays_failReclaim (k : Nat) (s : State) : s.Stays (s.failReclaim k) := by
  unfold failReclaim
  refine (stays_updateEntry k ServeEntry.endReclaim s).trans ?_
  dsimp only
  split
  · split
    · exact stays_departEntry _ _
    · exact .refl _
  · exact .refl _

theorem stays_withdrawReclaim (k : Nat) (s : State) : s.Stays (s.withdrawReclaim k) := by
  unfold withdrawReclaim
  split
  · split
    · exact ((stays_dropClaim _ _ _).trans (stays_updateEntry _ _ _)).trans (stays_count _ _)
    · exact .refl s
  · exact .refl s

theorem stays_seekDisplaced (c : ClaimBody) (s : State) : s.Stays (s.seekDisplaced c) := by
  unfold seekDisplaced
  split
  · exact stays_endClaim _ _
  · split
    · exact stays_failReclaim _ _
    · exact .refl s

theorem length_removeFirst_lt {p : Queued → Bool} {l : List Queued} {m : Queued} (h : l.find? p = some m) :
    (removeFirst p l).length + 1 = l.length := by
  induction l with
  | nil => cases h
  | cons x xs ih =>
    unfold removeFirst
    split
    · rfl
    · next hx => simp [hx] at h; simp [ih h]

theorem stays_queueTaken (h : Headset) (n : Nat) (p : Option Node) (s : State) : s.Stays (s.queueTaken h n p) := by
  unfold queueTaken
  dsimp only
  split
  · next hr => exact stays_onTqu _ s (Tqu.sends_pushUrgent hr _ _)
  · split
    · next m hm =>
      refine Stays.trans (stays_onTqu (fun t : Tqu => Tqu.push (Queued.new .urgent (.taken h n p) broadcast) { t with urgent := removeFirst Queued.givesWay t.urgent }) s
        ⟨fun hs => ⟨hs.flow, ?_, hs.handover, hs.report, hs.pool⟩, rfl, rfl, rfl, rfl⟩) ?_
      · have := hs.urgent
        have := length_removeFirst_lt hm
        simp only [Tqu.push, Tqu.onQueue, Queued.new, List.length_append, List.length_singleton]
        omega
      · split
        · exact stays_seekDisplaced _ _
        · exact .refl _
    · split
      · next hr => exact stays_onTqu _ s (Tqu.sends_pushHandover hr _ _)
      · exact stays_count _ _

theorem stays_toRing (cfg : Settings) (k : Nat) (q : Seq) (payload : List Byte) (s : State) :
    s.Stays (s.toRing cfg k q payload) := by
  unfold toRing
  split
  · exact .refl s
  · split
    · exact (stays_updateEntry _ _ _).trans (stays_onMlc _ _ (Mlc.grows_countPlacement _ _))
    · exact .refl s

theorem stays_arrival (cfg : Settings) (k : Nat) (q : Seq) (payload : List Byte) (s : State) :
    s.Stays (s.arrival cfg k q payload) := by
  unfold arrival
  split
  · exact .refl s
  · exact ((((stays_updateEntry k (ServeEntry.arrive cfg q) s).trans (stays_toRing cfg k q payload _)).trans
      (Stays.ite (stays_count _ _) (.refl _))).trans (stays_queueTaken _ _ _ _)).trans
      ((stays_notify _ _).trans (stays_updateEntry _ _ _))

theorem stays_callAtLost (cfg : Settings) (k n : Nat) (s : State) : s.Stays (s.callAtLost cfg k n) := by
  unfold callAtLost
  split
  · exact .refl s
  · split
    · next hc =>
      exact ((stays_updateEntry _ _ _).trans (stays_advanceTag _)).trans
        (stays_onTqu _ _ (Tqu.sends_pushUrgent hc.2.2 _ _))
    · exact stays_updateEntry _ _ _

theorem free_of_lowestFree {a : Apc} {k : Nat} (h : a.lowestFree = some k) : (a.slot k).state = .free := by
  have := List.findIdx?_eq_some_iff_getElem.mp h
  obtain ⟨hk, hx, -⟩ := this
  rw [Apc.slot_of_getElem? (List.getElem?_eq_getElem hk)]
  simpa using hx

/-- The reservation of a claim at the slot APC grants, with its references (R4, R122). -/
theorem stays_reserve {s : State} {k : Nat} (hk : s.apc.lowestFree = some k) (gs : List Group) :
    s.Stays (((s.advanceTag).onApc (Apc.reserve k s.re.claimCounter)).onVp (Vp.acquireAll gs)) :=
  ((stays_advanceTag s).trans
    (stays_onApc _ _ fun h => Apc.sound_reserve h _ (free_of_lowestFree hk))).trans
    (stays_onVp _ _ fun h => Vp.sound_acquireAll h gs)

theorem stays_decideSeek (cfg : Settings) (c : SeekCall) (s : State) : s.Stays (s.decideSeek cfg c) := by
  unfold decideSeek
  split
  · next hk =>
    dsimp only
    split
    · next hc =>
      exact ((stays_reserve hk _).trans (stays_updateSurvey _ _ _)).trans
        (stays_onTqu _ _ (Tqu.sends_pushUrgent hc.2.2.2.2.2 _ _))
    · exact .refl s
  · exact .refl s

theorem stays_decideNormal (cfg : Settings) (h : Headset) (s : State) : s.Stays (s.decideNormal cfg h) := by
  unfold decideNormal
  split
  · next hk =>
    split
    · dsimp only
      split
      · next hc =>
        exact ((stays_reserve hk _).trans (stays_updateSurvey _ _ _)).trans
          (stays_onTqu _ _ (Tqu.sends_pushHandover hc.2.2.2.2.2.2 _ _))
      · exact .refl s
    · exact .refl s
  · exact .refl s

theorem stays_resolveDuplicate (cfg : Settings) (h : Headset) (n : Node) (c : Nat) (s : State) :
    s.Stays (s.resolveDuplicate cfg h n c) := by
  unfold resolveDuplicate
  split
  · exact .refl s
  · split
    · exact ((stays_releaseEntry _ _).trans (stays_count _ _)).trans (stays_notify _ _)
    · exact .refl s

/-! ## Cycle marks -/

theorem stays_expireArrival (k : Nat) (s : State) : s.Stays (s.expireArrival k) := by
  unfold expireArrival
  split
  · exact .refl s
  · split
    · exact stays_departEntry _ _
    · exact (stays_releaseEntry _ _).trans (stays_enterSurvey _ _)

theorem stays_expire (cfg : Settings) (k : Nat) (x : Expiry) (s : State) : s.Stays (s.expire cfg k x) := by
  cases x
  · exact stays_expireArrival k s
  · exact stays_enterLost cfg k s
  · exact stays_departEntry k s
  · exact stays_enterLost cfg k s

theorem stays_expireIfDue (k : Nat) (x : Expiry) (s : State) : s.Stays (s.expireIfDue k x) :=
  stays_whenRun _ _ fun cfg => by
    split
    · split
      · exact stays_expire _ _ _ _
      · exact .refl s
    · exact .refl s

theorem stays_takeResult (cfg : Settings) (k : Nat) (kind : OrderKind) (a : Bool) (s : State) :
    s.Stays (s.takeResult cfg k kind a) := by
  unfold takeResult
  split
  · exact .refl s
  · split
    · exact .refl s
    · split
      · split
        · exact stays_revert _ _ _
        · exact .refl s
      · exact stays_askAnswer _ _ _ _
      · exact .refl s

theorem stays_expireOrder (cfg : Settings) (k : Nat) (s : State) : s.Stays (s.expireOrder cfg k) := by
  unfold expireOrder
  split
  · split
    · exact (stays_onApc _ _ fun h => Apc.sound_endOrder h _).trans (stays_takeResult _ _ _ _ _)
    · exact .refl s
  · exact .refl s

theorem stays_markOrders (cfg : Settings) (s : State) : s.Stays (s.markOrders cfg) :=
  (stays_onApc _ s Apc.sound_age).trans (stays_foldl _ (fun s k => stays_expireOrder cfg k s) _ _)

theorem stays_buildStanding (cfg : Settings) (s : State) : s.Stays (s.buildStanding cfg) := by
  unfold buildStanding
  dsimp only
  split
  · next hc => exact (stays_onTqu _ _ (Tqu.sends_pushReport hc.1 _ _)).trans (stays_onRe _ _)
  · exact .refl s

theorem stays_markRe (cfg : Settings) (s : State) : s.Stays (s.markRe cfg) :=
  (((((stays_onRe Re.tick s).trans (stays_foldl _ (fun s h => stays_removeSurvey h s) _ _)).trans
    (stays_foldl _ (fun s h => stays_updateSurvey h _ s) _ _)).trans
    (stays_foldl _ (fun s h => stays_failClaim h s) _ _)).trans
    (stays_foldl _ (fun s _ => stays_expire cfg _ _ s) _ _)).trans (stays_buildStanding cfg _)

theorem stays_playRing (cfg : Settings) (s : State) (e : ServeEntry) : s.Stays (s.playRing cfg e) := by
  have h := stays_updateEntry e.slot (fun x => { x with ring := (e.play cfg).1 }) s
  unfold playRing
  dsimp only
  split <;> split
  · exact (h.trans (stays_onMlc _ _ (Mlc.grows_takeUplink _ _))).trans (stays_count _ _)
  · exact h.trans (stays_count _ _)
  · exact h.trans (stays_onMlc _ _ (Mlc.grows_takeUplink _ _))
  · exact h

theorem stays_mixEntry (s : State) (e : ServeEntry) : s.Stays (s.mixEntry e) := by
  unfold mixEntry
  exact (Stays.ite (stays_count _ _) (.refl _)).trans (stays_onApc _ _ fun h => Apc.sound_downlink h _ _)

theorem stays_markVp (cfg : Settings) (s : State) : s.Stays (s.markVp cfg) :=
  (((stays_foldl _ (stays_playRing cfg) _ _).trans (stays_foldl _ stays_mixEntry _ _)).trans
    (stays_onVp _ _ Vp.sound_consume)).trans (stays_foldl _ (fun s k => stays_releaseEntry k s) _ _)

/-- A whole mark leaves CFL, TLC and the inbound pool, and keeps the laws of the other blocks (R97). -/
theorem stays_mark (cfg : Settings) (s : State) : s.Stays (s.mark cfg) :=
  (((stays_markOrders cfg s).trans (stays_onTqu _ _ (Tqu.sends_mark cfg _))).trans (stays_markRe cfg _)).trans
    (stays_markVp cfg _)

theorem stays_noteCycle (n : BitVec 16) (s : State) : s.Stays (s.noteCycle n) :=
  stays_onApc _ s fun h => ⟨h.slots, h.orders⟩

/-! ## Reports of the front end -/

theorem stays_servedFrame (cfg : Settings) (k n : Nat) (q : Seq) (payload : List Byte) (s : State) :
    s.Stays (s.servedFrame cfg k n q payload) :=
  ((stays_updateEntry _ _ _).trans (stays_toRing _ _ _ _ _)).trans (stays_updateEntry _ _ _)

theorem stays_reportAtEntry (cfg : Settings) (r : SlotReport) (e : ServeEntry) (s : State) :
    s.Stays (s.reportAtEntry cfg r e) := by
  unfold reportAtEntry
  split
  · exact (stays_updateEntry _ _ _).trans (stays_arrival _ _ _ _ _)
  · exact .refl s
  · exact .refl s
  · exact stays_servedFrame _ _ _ _ _ _
  · exact stays_servedFrame _ _ _ _ _ _
  · exact stays_updateEntry _ _ _
  · exact stays_updateEntry _ _ _
  · exact stays_updateEntry _ _ _
  · exact stays_updateEntry _ _ _
  · split
    · exact (stays_revert _ _ _).trans (stays_servedFrame _ _ _ _ _ _)
    · exact (stays_updateEntry _ _ _).trans (stays_toRing _ _ _ _ _)
  · split
    · exact .refl s
    · exact stays_updateEntry _ _ _
  · split
    · exact .refl s
    · exact stays_updateEntry _ _ _
  · exact stays_count _ _
  · exact stays_count _ _
  · exact .refl s
  · exact .refl s
  · exact .refl s
  · exact .refl s

theorem stays_slotReport (cfg : Settings) (r : SlotReport) (s : State) : s.Stays (s.slotReport cfg r) := by
  unfold slotReport
  split
  · exact stays_count _ _
  · exact stays_count _ _
  · split
    · exact stays_count _ _
    · split
      · exact stays_reportAtEntry _ _ _ _
      · exact .refl s

theorem stays_surveyReport (cfg : Settings) (r : SurveyReport) (s : State) : s.Stays (s.surveyReport cfg r) := by
  unfold surveyReport
  dsimp only
  split
  · exact .refl s
  · split
    · exact (stays_updateSurvey _ _ _).trans (stays_decideNormal _ _ _)
    · exact stays_enterSurvey _ _

theorem stays_seekCall (cfg : Settings) (c : SeekCall) (s : State) : s.Stays (s.seekCall cfg c) := by
  unfold seekCall
  dsimp only
  split
  · split
    · exact (stays_enterLost _ _ _).trans (stays_callAtLost _ _ _ _)
    · exact (stays_enterLost _ _ _).trans (stays_callAtLost _ _ _ _)
    · exact stays_callAtLost _ _ _ _
    · exact stays_count _ _
    · exact stays_count _ _
    · exact stays_count _ _
  · split
    · exact .refl s
    · split
      · exact (stays_updateSurvey _ _ _).trans (stays_decideSeek _ _ _)
      · exact (stays_enterSurvey _ _).trans (stays_decideSeek _ _ _)

theorem stays_orderResult (cfg : Settings) (r : OrderResult) (s : State) : s.Stays (s.orderResult cfg r) := by
  unfold orderResult
  split
  · exact (stays_onApc _ _ fun h => Apc.sound_endOrder h _).trans (stays_takeResult _ _ _ _ _)
  · exact .refl s

/-! ## Outcomes at RE -/

theorem stays_sendMove (cfg : Settings) (e : ServeEntry) (h : HandingRecord) (s : State) :
    s.Stays (s.sendMove cfg e h) := by
  unfold sendMove
  refine (stays_updateEntry e.slot (fun e =>
    { e with handing := some { h with phase := .moveSent, timer := some cfg.handingTime } }) s).trans ?_
  dsimp only
  split
  · next ha => exact stays_onApc (fun _ => _) _ fun hs => Apc.sound_order hs ha
  · exact stays_revert _ _ _

theorem stays_yieldOutcome (cfg : Settings) (d : Bool) (c : Context) (n : Node) (s : State) :
    s.Stays (s.yieldOutcome cfg d c n) := by
  unfold yieldOutcome
  split
  · split
    · exact stays_sendMove _ _ _ _
    · exact stays_updateEntry _ _ _
  · exact .refl s

theorem stays_owedOutcome (cfg : Settings) (c : Context) (n : Node) (s : State) : s.Stays (s.owedOutcome cfg c n) := by
  unfold owedOutcome
  split
  · split
    · exact stays_concludeYield _ _ _ _
    · exact .refl s
  · exact .refl s

theorem stays_claimOutcome (cfg : Settings) (d : Bool) (c : ClaimBody) (s : State) :
    s.Stays (s.claimOutcome cfg d c) := by
  unfold claimOutcome
  split
  · split
    · split
      · exact stays_updateSurvey _ _ _
      · exact (stays_failClaim _ _).trans (stays_updateSurvey _ _ _)
    · exact .refl s
  · exact .refl s

theorem stays_seekOutcome (cfg : Settings) (d : Bool) (c : ClaimBody) (s : State) :
    s.Stays (s.seekOutcome cfg d c) := by
  unfold seekOutcome
  split
  · split
    · split
      · exact stays_endClaim _ _
      · split
        · exact stays_withdrawSeek _ _
        · exact stays_winSeek _ _ _ _
    · exact .refl s
  · split
    · split
      · exact stays_failReclaim _ _
      · split
        · exact stays_withdrawReclaim _ _
        · exact stays_winReclaim _ _ _
    · exact .refl s

theorem stays_tellOwner (cfg : Settings) (d : Bool) (m : Queued) (s : State) : s.Stays (s.tellOwner cfg d m) := by
  unfold tellOwner
  split
  · exact stays_owedOutcome _ _ _ _
  · exact stays_yieldOutcome _ _ _ _ _
  · split
    · exact stays_claimOutcome _ _ _ _
    · exact stays_seekOutcome _ _ _ _
  all_goals exact .refl s

/-! ## Handlings -/

theorem stays_takenAtSurvey (h : Headset) (n : Node) (c : Nat) (s : State) : s.Stays (s.takenAtSurvey h n c) := by
  unfold takenAtSurvey
  refine (stays_updateSurvey h (SurveyEntry.learnTaken n c) s).trans ?_
  dsimp only
  split
  · split
    · exact stays_failClaim _ _
    · exact stays_withdrawSeek _ _
  · exact .refl _

theorem stays_drain (k : Nat) (h : Headset) (n : Node) (s : State) : s.Stays (s.drain k h n) :=
  ((stays_updateEntry _ _ _).trans (stays_notify _ _)).trans (stays_count _ _)

theorem stays_takenAtHanding (e : ServeEntry) (n : Node) (c : Nat) (s : State) : s.Stays (s.takenAtHanding e n c) := by
  unfold takenAtHanding
  split
  · exact stays_drain _ _ _ _
  · exact .refl s

theorem stays_handleTaken (cfg : Settings) (h : Headset) (n : Node) (c : Nat) (s : State) :
    s.Stays (s.handleTaken cfg h n c) := by
  unfold handleTaken
  split
  · split
    · exact stays_releaseEntry _ _
    · exact stays_resolveDuplicate _ _ _ _ _
    · exact stays_resolveDuplicate _ _ _ _ _
    · exact stays_resolveDuplicate _ _ _ _ _
    · exact stays_takenAtHanding _ _ _ _
    · exact .refl s
  · exact stays_takenAtSurvey _ _ _ _

theorem stays_rivalAtSurvey (cfg : Settings) (e : SurveyEntry) (s : State) : s.Stays (s.rivalAtSurvey cfg e) := by
  unfold rivalAtSurvey
  exact (Stays.ite (stays_withdrawSeek _ _) (.refl s)).trans (stays_updateSurvey _ _ _)

theorem stays_handleSeekClaim (cfg : Settings) (n : Node) (c : ClaimBody) (s : State) :
    s.Stays (s.handleSeekClaim cfg n c) := by
  unfold handleSeekClaim
  split
  · split
    · exact (stays_enterLost _ _ _).trans (stays_oweYield _ _ _ _ _)
    · exact (stays_enterLost _ _ _).trans (stays_oweYield _ _ _ _ _)
    · split
      · exact .refl s
      · exact (stays_withdrawReclaim _ _).trans (stays_oweYield _ _ _ _ _)
    all_goals exact .refl s
  · split
    · exact stays_rivalAtSurvey _ _ _
    · exact .refl s

theorem stays_yieldMatched (cfg : Settings) (e : SurveyEntry) (r : ClaimRecord) (n : Node) (c : Context) (s : State) :
    s.Stays (s.yieldMatched cfg e r n c) := stays_enterServe _ _ _ _

theorem stays_replaceContext (k : Nat) (n : Node) (c : Context) (s : State) : s.Stays (s.replaceContext k n c) := by
  unfold replaceContext
  split
  · exact .refl s
  · next e _ =>
    dsimp only
    have h := (stays_onVp (fun _ => (s.vp.fit (e.listen.map ListenItem.group) c.listen).vp) s
      fun hs => Vp.sound_fit hs _ _).trans (stays_updateEntry k (fun x =>
        { x with listen := (s.vp.fit (e.listen.map ListenItem.group) c.listen).kept, talk := c.talk, count := c.count,
                 origin := some .yield, previous := some n }) _)
    split
    · exact h.trans (stays_count _ _)
    · exact h

theorem stays_yieldAtEntry (e : ServeEntry) (n : Node) (c : Context) (s : State) : s.Stays (s.yieldAtEntry e n c) := by
  unfold yieldAtEntry
  split
  · exact stays_replaceContext _ _ _ _
  · exact stays_updateEntry _ _ _
  · exact stays_updateEntry _ _ _
  · exact stays_count _ _

theorem stays_handleYield (cfg : Settings) (n : Node) (c : Context) (s : State) : s.Stays (s.handleYield cfg n c) := by
  unfold handleYield
  split
  · split
    · exact stays_yieldMatched _ _ _ _ _ _
    · exact (stays_winSeek _ _ _ _).trans (stays_replaceContext _ _ _ _)
  · split
    · exact stays_yieldAtEntry _ _ _ _
    · exact stays_count _ _

theorem stays_handleDecline (h : Headset) (tag : Tag) (r : Reason) (s : State) : s.Stays (s.handleDecline h tag r) := by
  unfold handleDecline
  split
  · split
    · exact ((stays_failClaim h s).trans (stays_count .declinesReceived _)).trans
        (Stays.ite (stays_updateSurvey _ _ _) (.refl _))
    · exact stays_count _ _
  · exact stays_count _ _

theorem stays_handleNaming (cfg : Settings) (n : Node) (s : State) (x : Naming) : s.Stays (s.handleNaming cfg n x) := by
  unfold handleNaming
  split
  · split
    all_goals first | exact stays_resolveDuplicate _ _ _ _ _ | exact .refl s
  · exact stays_updateSurvey _ _ _

/-! ## The matrix link -/

theorem stays_answer (a : Answer) (s : State) : s.Stays (s.answer a) := stays_onMlc _ s (Mlc.grows_place a _)

theorem stays_groupFrame (g : Group) (q : Byte) (x : List Sample) (s : State) : s.Stays (s.groupFrame g q x) := by
  unfold groupFrame
  split
  · exact .refl s
  · split
    · exact stays_count _ _
    · split
      · exact .refl s
      · exact (stays_onVp _ s fun h => Vp.sound_map h (fun e => if e.group = g then e.take q x else e)
          (fun e => by split <;> rfl) fun e => by split <;> rfl).trans (Stays.ite (stays_count _ _) (.refl _))

theorem stays_evict (h : Headset) (s : State) : s.Stays (s.evict h) := by
  unfold evict
  split
  · exact stays_answer _ _
  · split
    all_goals first
      | exact ((stays_releaseEntry _ _).trans (stays_notify _ _)).trans (stays_answer _ _)
      | exact stays_answer _ _

theorem stays_decideEvict (s : State) : s.Stays s.decideEvict := by
  unfold decideEvict
  split
  · exact stays_evict _ _
  · exact .refl s

/-- All that taking an EVICT can do: it is decided or answered at once, or discarded, or, with the answer slot free in RUN and
a handling past its point, it begins to wait (R164, R167, R168). -/
theorem takeEvict_cases (body : List Byte) (s : State) :
    s.Stays (s.takeEvict body) ∨
      (s.mlc.slotFree = true ∧ s.cfl.node = .run ∧ s.tqu.reached = true ∧
        s.takeEvict body = s.onMlc fun m => { m with evict := some (evictHeadset body) }) := by
  unfold takeEvict
  split
  · next hf =>
    split
    · next hn =>
      split
      · next hr => exact .inr ⟨hf, hn, hr, rfl⟩
      · exact .inl (stays_evict _ _)
    · exact .inl (stays_answer _ _)
    all_goals exact .inl (.refl s)
  · exact .inl (.refl s)

end State
end Sys2Proof.Machine
end

