-- ==== Sys2Proof/Laws/Tables.lean ====
section
/-! SUPPORT. The serve table, the survey list and the slot map together: what the updates of RE keep of the laws of R1,
R4, R38, R48 and R99. -/

namespace Sys2Proof.Machine

/-! ## Slot states -/

/-- The state of an air slot. -/
def Apc.stateOf (a : Apc) (k : Nat) : SlotState := (a.slot k).state

theorem Apc.slot_modify (a : Apc) (k j : Nat) (f : AirSlot → AirSlot) :
    Apc.slot { a with slots := a.slots.modify k f } j =
      if j = k ∧ k < a.slots.length then f (a.slot j) else a.slot j := by
  simp only [Apc.slot, List.getElem?_modify]
  by_cases h : j = k
  · subst h
    by_cases hl : j < a.slots.length
    · simp [hl]
    · simp [hl]
  · simp [h, Ne.symm h]

theorem Apc.lt_of_not_free {a : Apc} {k : Nat} (h : a.stateOf k ≠ .free) : k < a.slots.length := by
  by_contra hl
  refine h ?_
  simp [Apc.stateOf, Apc.slot, List.getElem?_eq_none (Nat.le_of_not_lt hl), AirSlot.cold]

@[simp] theorem Apc.slot_send (a : Apc) (o : AirOrder) (k : Nat) : (a.send o).slot k = a.slot k := rfl

theorem Apc.stateOf_close (a : Apc) (k j : Nat) :
    (a.close k).stateOf j = if j = k ∧ (a.stateOf k).isAssigned = true then .free else a.stateOf j := by
  unfold Apc.close Apc.stateOf
  by_cases h : (a.slot k).state.isAssigned = true
  · have hl : k < a.slots.length := Apc.lt_of_not_free (fun hn => by
      rw [Apc.stateOf] at hn; rw [hn] at h; cases h)
    simp only [h, if_true, Apc.slot_send, Apc.slot_modify, hl, and_true]
    split <;> rfl
  · simp [h]

theorem Apc.stateOf_release (a : Apc) (k j : Nat) (tag : Tag) :
    (a.release k tag).stateOf j = if j = k ∧ a.stateOf k = .reserved tag then .free else a.stateOf j := by
  unfold Apc.release Apc.stateOf
  by_cases h : (a.slot k).state = .reserved tag
  · have hl : k < a.slots.length := Apc.lt_of_not_free (fun hn => by
      rw [Apc.stateOf] at hn; rw [hn] at h; cases h)
    simp only [h, if_true, Apc.slot_modify, hl, and_true]
    split <;> rfl
  · simp [h]

theorem Apc.stateOf_assign (a : Apc) (k j : Nat) (tag : Tag) (x : Headset) :
    (a.assign k tag x).stateOf j = if j = k ∧ a.stateOf k = .reserved tag then .assigned x else a.stateOf j := by
  unfold Apc.assign Apc.stateOf
  by_cases h : (a.slot k).state = .reserved tag
  · have hl : k < a.slots.length := Apc.lt_of_not_free (fun hn => by
      rw [Apc.stateOf] at hn; rw [hn] at h; cases h)
    simp only [h, if_true, Apc.slot_send, Apc.slot_modify, hl, and_true]
    split <;> rfl
  · simp [h]

theorem Apc.stateOf_reserve {a : Apc} {k : Nat} (hk : k < a.slots.length) (j : Nat) (tag : Tag) :
    (a.reserve k tag).stateOf j = if j = k then .reserved tag else a.stateOf j := by
  unfold Apc.reserve Apc.stateOf
  rw [Apc.slot_modify]
  simp only [hk, and_true]
  split <;> rfl

theorem Apc.stateOf_endOrder (a : Apc) (k j : Nat) : (a.endOrder k).stateOf j = a.stateOf j := by
  unfold Apc.endOrder Apc.stateOf
  rw [Apc.slot_modify]
  split <;> rfl

theorem Apc.stateOf_order {a b : Apc} {k : Nat} {kind : OrderKind} {o : AirOrder} (h : a.order k kind o = some b)
    (j : Nat) : b.stateOf j = a.stateOf j := by
  unfold Apc.order at h
  split at h
  · cases h
    unfold Apc.stateOf
    rw [Apc.slot_send, Apc.slot_modify]
    split <;> rfl
  · cases h

theorem Apc.stateOf_order_getD (a : Apc) (k : Nat) (kind : OrderKind) (o : AirOrder) (j : Nat) :
    ((a.order k kind o).getD a).stateOf j = a.stateOf j := by
  cases h : a.order k kind o with
  | none => rfl
  | some b => exact Apc.stateOf_order h j

theorem Apc.stateOf_downlink (a : Apc) (k : Nat) (x : List Sample) (j : Nat) :
    (a.downlink k x).stateOf j = a.stateOf j := by
  unfold Apc.downlink
  split <;> rfl

theorem Apc.stateOf_age (a : Apc) (j : Nat) :
    Apc.stateOf { a with slots := a.slots.map AirSlot.ageOrder } j = a.stateOf j := by
  simp only [Apc.stateOf, Apc.slot, List.getElem?_map]
  cases a.slots[j]? <;> rfl

/-! ## Claims as slot and tag -/

/-- The slots and tags of the claims of a survey list. -/
def claimKeys (l : List SurveyEntry) : List (Nat × Tag) := l.filterMap fun x => x.claim.map fun c => (c.slot, c.tag)

theorem claimKeys_eq (r : Re) : claimKeys r.survey = r.claimRecords.map fun c => (c.slot, c.tag) := by
  simp [claimKeys, Re.claimRecords, List.map_filterMap]

theorem claimKeys_length (r : Re) : (claimKeys r.survey).length = r.claimsOutstanding := by
  unfold claimKeys Re.claimsOutstanding
  induction r.survey with
  | nil => rfl
  | cons x xs ih =>
    cases h : x.claim with
    | none => simp [h, ih]
    | some c => simp [h, ih]

theorem mem_claimKeys {l : List SurveyEntry} {x : SurveyEntry} {c : ClaimRecord} (hx : x ∈ l) (hc : x.claim = some c) :
    (c.slot, c.tag) ∈ claimKeys l := List.mem_filterMap.mpr ⟨x, hx, by simp [hc]⟩

/-- The laws of R1, R4, R38, R48 and R99 over the tables of RE and the states of the slots. -/
structure TableLaw (serve : List ServeEntry) (survey : List SurveyEntry) (at_ : Nat → SlotState) : Prop where
  served : ∀ e ∈ serve, e.Sound
  surveyed : ∀ e ∈ survey, e.Sound
  serveOnce : (serve.map ServeEntry.headset).Nodup
  surveyOnce : (survey.map SurveyEntry.headset).Nodup
  apart : ∀ e ∈ serve, ∀ x ∈ survey, e.headset ≠ x.headset
  capacity : survey.length ≤ surveyCapacity
  claimCount : (claimKeys survey).length ≤ claimCapacity
  entries : ∀ e ∈ serve, at_ e.slot = .assigned e.headset
  claims : ∀ p ∈ claimKeys survey, at_ p.1 = .reserved p.2
  once : ((claimKeys survey).map Prod.fst).Nodup

/-- RE sound and the slot law, as one law of a state. -/
def State.Lawful (s : State) : Prop := TableLaw s.re.serve s.re.survey s.apc.stateOf

theorem State.lawful_iff (s : State) : s.Lawful ↔ s.re.Sound ∧ s.SlotLaw := by
  constructor
  · intro h
    refine ⟨⟨h.served, h.surveyed, h.serveOnce, h.surveyOnce, h.apart, h.capacity, claimKeys_length _ ▸ h.claimCount⟩,
      ⟨h.entries, fun c hc => ?_, ?_⟩⟩
    · refine h.claims (c.slot, c.tag) ?_
      rw [claimKeys_eq]
      exact List.mem_map.mpr ⟨c, hc, rfl⟩
    · have := h.once
      rw [claimKeys_eq, List.map_map] at this
      exact this
  · rintro ⟨h, g⟩
    refine ⟨h.serve, h.survey, h.serveOnce, h.surveyOnce, h.apart, h.capacity, ?_, g.entries, fun p hp => ?_, ?_⟩
    · rw [claimKeys_length]; exact h.claims
    · rw [claimKeys_eq] at hp
      obtain ⟨c, hc, rfl⟩ := List.mem_map.mp hp
      exact g.claims c hc
    · rw [claimKeys_eq, List.map_map]
      exact g.once

/-! ## Updates of the tables -/

section
variable {serve : List ServeEntry} {survey : List SurveyEntry} {at_ at' : Nat → SlotState}

theorem TableLaw.congr (h : TableLaw serve survey at_) (he : ∀ j, at' j = at_ j) : TableLaw serve survey at' := by
  have : at' = at_ := funext he
  exact this ▸ h

/-- A change of serve entries that keeps headset, slot and soundness. -/
theorem TableLaw.mapServe (h : TableLaw serve survey at_) (f : ServeEntry → ServeEntry)
    (hh : ∀ e ∈ serve, (f e).headset = e.headset) (hs : ∀ e ∈ serve, (f e).slot = e.slot)
    (hf : ∀ e ∈ serve, e.Sound → (f e).Sound) : TableLaw (serve.map f) survey at_ := by
  have hm : (serve.map f).map ServeEntry.headset = serve.map ServeEntry.headset := by
    rw [List.map_map]
    exact List.map_congr_left hh
  refine { h with
    served := fun e he => ?_, serveOnce := hm ▸ h.serveOnce, apart := fun e he x hx => ?_, entries := fun e he => ?_ }
  all_goals obtain ⟨y, hy, rfl⟩ := List.mem_map.mp he
  · exact hf y hy (h.served y hy)
  · rw [hh y hy]; exact h.apart y hy x hx
  · rw [hh y hy, hs y hy]; exact h.entries y hy

theorem TableLaw.updateServe (h : TableLaw serve survey at_) (k : Nat) (f : ServeEntry → ServeEntry)
    (hh : ∀ e ∈ serve, e.slot = k → (f e).headset = e.headset) (hs : ∀ e ∈ serve, e.slot = k → (f e).slot = e.slot)
    (hf : ∀ e ∈ serve, e.slot = k → e.Sound → (f e).Sound) :
    TableLaw (serve.map fun e => if e.slot = k then f e else e) survey at_ := by
  refine h.mapServe _ (fun e he => ?_) (fun e he => ?_) fun e he hs' => ?_
  all_goals split
  · next hk => exact hh e he hk
  · rfl
  · next hk => exact hs e he hk
  · rfl
  · next hk => exact hf e he hk hs'
  · exact hs'

/-- Serve entries taken out, the slots of the others as they were. -/
theorem TableLaw.filterServe (h : TableLaw serve survey at_) (p : ServeEntry → Bool)
    (he : ∀ e ∈ serve, p e = true → at' e.slot = at_ e.slot)
    (hc : ∀ q ∈ claimKeys survey, at' q.1 = at_ q.1) : TableLaw (serve.filter p) survey at' := by
  have hm : ∀ e, e ∈ serve.filter p → e ∈ serve ∧ p e = true := fun e => List.mem_filter.mp
  exact { h with
    served := fun e hx => h.served e (hm e hx).1
    serveOnce := (List.filter_sublist.map _).nodup h.serveOnce
    apart := fun e hx => h.apart e (hm e hx).1
    entries := fun e hx => by rw [he e (hm e hx).1 (hm e hx).2]; exact h.entries e (hm e hx).1
    claims := fun q hq => by rw [hc q hq]; exact h.claims q hq }

/-- A change of survey entries that keeps headset, soundness, and the slot and tag of the claim. -/
theorem TableLaw.mapSurvey (h : TableLaw serve survey at_) (f : SurveyEntry → SurveyEntry)
    (hh : ∀ e ∈ survey, (f e).headset = e.headset) (hf : ∀ e ∈ survey, e.Sound → (f e).Sound)
    (hc : ∀ e ∈ survey, ((f e).claim.map fun c => (c.slot, c.tag)) = e.claim.map fun c => (c.slot, c.tag)) :
    TableLaw serve (survey.map f) at_ := by
  have hm : (survey.map f).map SurveyEntry.headset = survey.map SurveyEntry.headset := by
    rw [List.map_map]
    exact List.map_congr_left hh
  have hk : claimKeys (survey.map f) = claimKeys survey := by
    unfold claimKeys
    rw [List.filterMap_map]
    exact List.filterMap_congr hc
  refine { h with
    surveyed := fun e he => ?_, surveyOnce := hm ▸ h.surveyOnce, apart := fun e he x hx => ?_
    capacity := by simpa using h.capacity, claimCount := hk ▸ h.claimCount, claims := hk ▸ h.claims, once := hk ▸ h.once }
  · obtain ⟨y, hy, rfl⟩ := List.mem_map.mp he
    exact hf y hy (h.surveyed y hy)
  · obtain ⟨y, hy, rfl⟩ := List.mem_map.mp hx
    rw [hh y hy]
    exact h.apart e he y hy

theorem TableLaw.updateSurvey (h : TableLaw serve survey at_) (k : Headset) (f : SurveyEntry → SurveyEntry)
    (hh : ∀ e ∈ survey, e.headset = k → (f e).headset = e.headset)
    (hf : ∀ e ∈ survey, e.headset = k → e.Sound → (f e).Sound)
    (hc : ∀ e ∈ survey, e.headset = k →
      ((f e).claim.map fun c => (c.slot, c.tag)) = e.claim.map fun c => (c.slot, c.tag)) :
    TableLaw serve (survey.map fun e => if e.headset = k then f e else e) at_ := by
  refine h.mapSurvey _ (fun e he => ?_) (fun e he hs => ?_) fun e he => ?_
  all_goals split
  · next hk => exact hh e he hk
  · rfl
  · next hk => exact hf e he hk hs
  · exact hs
  · next hk => exact hc e he hk
  · rfl

/-- Two entries of one headset are the same entry. -/
theorem eq_of_headset (h : (survey.map SurveyEntry.headset).Nodup) {x y : SurveyEntry} (hx : x ∈ survey)
    (hy : y ∈ survey) (he : x.headset = y.headset) : x = y := List.inj_on_of_nodup_map h hx hy he

theorem claimKeys_filter_sublist (p : SurveyEntry → Bool) (l : List SurveyEntry) :
    (claimKeys (l.filter p)).Sublist (claimKeys l) := List.filter_sublist.filterMap _

/-- No claim left after a headset is taken out holds the slot its claim held. -/
theorem slot_notMem_of_removed (h : TableLaw serve survey at_) {x : SurveyEntry} {c : ClaimRecord} (hx : x ∈ survey)
    (hc : x.claim = some c) : ∀ q ∈ claimKeys (survey.filter fun e => e.headset != x.headset), q.1 ≠ c.slot := by
  intro q hq he
  obtain ⟨y, hy, hyq⟩ := List.mem_filterMap.mp hq
  have hym := List.mem_filter.mp hy
  have hne : y ≠ x := fun hxy => by simp [hxy] at hym
  have key : ∀ l : List SurveyEntry, ((claimKeys l).map Prod.fst).Nodup → x ∈ l → y ∈ l → False := by
    intro l
    induction l with
    | nil => intro _ h1; cases h1
    | cons z zs ih =>
      intro hn h1 h2
      have hcons : claimKeys (z :: zs) =
          (match z.claim.map fun c => (c.slot, c.tag) with | some p => p :: claimKeys zs | none => claimKeys zs) := by
        unfold claimKeys
        rw [List.filterMap_cons]
        split <;> next hz => rw [hz]
      have hmem : ∀ w c', w ∈ zs → w.claim = some c' → c'.slot ∈ (claimKeys zs).map Prod.fst := fun w c' hw hc' =>
        List.mem_map.mpr ⟨_, mem_claimKeys hw hc', rfl⟩
      obtain ⟨cy, hcy, rfl⟩ := Option.map_eq_some_iff.mp hyq
      rcases List.mem_cons.mp h1 with rfl | hx' <;> rcases List.mem_cons.mp h2 with rfl | hy'
      · exact hne rfl
      · rw [hcons, hc] at hn
        simp only [Option.map_some, List.map_cons, List.nodup_cons] at hn
        exact hn.1 (by rw [← he]; exact hmem y cy hy' hcy)
      · rw [hcons, hcy] at hn
        simp only [Option.map_some, List.map_cons, List.nodup_cons] at hn
        exact hn.1 (by rw [show cy.slot = c.slot from he]; exact hmem x c hx' hc)
      · refine ih ?_ hx' hy'
        rw [hcons] at hn
        split at hn
        · exact (List.nodup_cons.mp hn).2
        · exact hn
  exact key survey h.once hx hym.1

/-- A survey entry taken out, with the slot of its claim free to change. -/
theorem TableLaw.removeSurvey (h : TableLaw serve survey at_) (k : Headset)
    (he : ∀ e ∈ serve, at' e.slot = at_ e.slot)
    (hc : ∀ q ∈ claimKeys (survey.filter fun e => e.headset != k), at' q.1 = at_ q.1) :
    TableLaw serve (survey.filter fun e => e.headset != k) at' := by
  have hs := claimKeys_filter_sublist (fun e => e.headset != k) survey
  have hm : ∀ e, e ∈ survey.filter (fun e => e.headset != k) → e ∈ survey := fun e hx => (List.mem_filter.mp hx).1
  exact { h with
    surveyed := fun e hx => h.surveyed e (hm e hx)
    surveyOnce := (List.filter_sublist.map _).nodup h.surveyOnce
    apart := fun e hx x hy => h.apart e hx x (hm x hy)
    capacity := le_trans (List.length_filter_le _ _) h.capacity
    claimCount := le_trans hs.length_le h.claimCount
    entries := fun e hx => by rw [he e hx]; exact h.entries e hx
    claims := fun q hq => by rw [hc q hq]; exact h.claims q (hs.subset hq)
    once := (hs.map _).nodup h.once }

theorem claimKeys_drop (k : Headset) (f : SurveyEntry → SurveyEntry) (hf : ∀ e, (f e).claim = none)
    (l : List SurveyEntry) :
    claimKeys (l.map fun e => if e.headset = k then f e else e) = claimKeys (l.filter fun e => e.headset != k) := by
  unfold claimKeys
  induction l with
  | nil => rfl
  | cons x xs ih =>
    by_cases hx : x.headset = k
    · simp [hx, hf, ih]
    · rw [List.map_cons, List.filterMap_cons, List.filter_cons_of_pos (by simpa using hx), List.filterMap_cons,
        if_neg hx, ih]

/-- The claim of a headset dropped from its entry, with its slot free to change. -/
theorem TableLaw.dropClaim (h : TableLaw serve survey at_) (k : Headset) (f : SurveyEntry → SurveyEntry)
    (hf : ∀ e, (f e).claim = none) (hh : ∀ e, (f e).headset = e.headset) (hq : ∀ e, e.Sound → (f e).Sound)
    (he : ∀ e ∈ serve, at' e.slot = at_ e.slot)
    (hc : ∀ q ∈ claimKeys (survey.filter fun e => e.headset != k), at' q.1 = at_ q.1) :
    TableLaw serve (survey.map fun e => if e.headset = k then f e else e) at' := by
  have g := h.removeSurvey k he hc
  have hm : (survey.map fun e => if e.headset = k then f e else e).map SurveyEntry.headset =
      survey.map SurveyEntry.headset := by
    rw [List.map_map]
    refine List.map_congr_left fun e _ => ?_
    by_cases hk : e.headset = k <;> simp [hk, hh]
  refine { g with
    surveyed := fun e hx => ?_, surveyOnce := hm ▸ h.surveyOnce, apart := fun e hx x hy => ?_
    capacity := by simpa using h.capacity
    claimCount := by rw [claimKeys_drop k f hf]; exact g.claimCount
    claims := by rw [claimKeys_drop k f hf]; exact g.claims
    once := by rw [claimKeys_drop k f hf]; exact g.once }
  · obtain ⟨y, hy, rfl⟩ := List.mem_map.mp hx
    split
    · exact hq y (h.surveyed y hy)
    · exact h.surveyed y hy
  · obtain ⟨y, hys, rfl⟩ := List.mem_map.mp hy
    have := h.apart e hx y hys
    split
    · rw [hh]; exact this
    · exact this

theorem claimKeys_add (k : Headset) (f : SurveyEntry → SurveyEntry) (r : ClaimRecord)
    (hf : ∀ e, (f e).claim = some r) : ∀ l : List SurveyEntry, (l.map SurveyEntry.headset).Nodup →
    ∀ x ∈ l, x.headset = k → x.claim = none →
    List.Perm (claimKeys (l.map fun e => if e.headset = k then f e else e)) ((r.slot, r.tag) :: claimKeys l) := by
  intro l
  induction l with
  | nil => intro _ x hx; cases hx
  | cons y ys ih =>
    intro hn x hx hxk hxc
    rw [List.map_cons, List.nodup_cons] at hn
    rcases List.mem_cons.mp hx with rfl | hx
    · have hrest : (ys.map fun e => if e.headset = k then f e else e) = ys := by
        refine List.map_congr_left (g := id) (fun e he => ?_) |>.trans (List.map_id _)
        rw [if_neg]
        · rfl
        · intro hek
          exact hn.1 (List.mem_map.mpr ⟨e, he, hek.trans hxk.symm⟩)
      rw [List.map_cons, if_pos hxk, hrest]
      simp [claimKeys, hf, hxc]
    · have hyk : y.headset ≠ k := fun hyk => hn.1 (List.mem_map.mpr ⟨x, hx, hxk.trans hyk.symm⟩)
      rw [List.map_cons, if_neg hyk]
      have hp := ih hn.2 x hx hxk hxc
      unfold claimKeys at hp ⊢
      rw [List.filterMap_cons, List.filterMap_cons]
      split
      · exact hp
      · exact (hp.cons _).trans (.swap _ _ _)

/-- A claim created in an entry that had none, at a slot neither assigned nor reserved (R4, R48). -/
theorem TableLaw.addClaim (h : TableLaw serve survey at_) {x : SurveyEntry} (hx : x ∈ survey) (hxc : x.claim = none)
    (f : SurveyEntry → SurveyEntry) (r : ClaimRecord) (hf : ∀ e, (f e).claim = some r)
    (hh : ∀ e, (f e).headset = e.headset) (hq : ∀ e, e.Sound → (f e).Sound)
    (hroom : (claimKeys survey).length < claimCapacity) (hfree : at_ r.slot = .free)
    (hnew : at' r.slot = .reserved r.tag) (hold : ∀ j, j ≠ r.slot → at' j = at_ j) :
    TableLaw serve (survey.map fun e => if e.headset = x.headset then f e else e) at' := by
  have hp := claimKeys_add x.headset f r hf survey h.surveyOnce x hx rfl hxc
  have hm : (survey.map fun e => if e.headset = x.headset then f e else e).map SurveyEntry.headset =
      survey.map SurveyEntry.headset := by
    rw [List.map_map]
    refine List.map_congr_left fun e _ => ?_
    by_cases hk : e.headset = x.headset <;> simp [hk, hh]
  have hne : ∀ q ∈ claimKeys survey, q.1 ≠ r.slot := fun q hq he => by
    have := h.claims q hq
    rw [he, hfree] at this
    cases this
  refine { h with
    surveyed := fun e he => ?_, surveyOnce := hm ▸ h.surveyOnce, apart := fun e he y hy => ?_
    capacity := by simpa using h.capacity, claimCount := ?_, entries := fun e he => ?_, claims := fun q hq' => ?_
    once := ?_ }
  · obtain ⟨y, hy, rfl⟩ := List.mem_map.mp he
    split
    · exact hq y (h.surveyed y hy)
    · exact h.surveyed y hy
  · obtain ⟨y, hys, rfl⟩ := List.mem_map.mp hy
    have := h.apart e he y hys
    split
    · rw [hh]; exact this
    · exact this
  · rw [hp.length_eq]; exact hroom
  · have := h.entries e he
    rw [hold]
    · exact this
    · intro hes
      rw [hes, hfree] at this
      cases this
  · rcases List.mem_cons.mp (hp.mem_iff.mp hq') with rfl | hq'
    · exact hnew
    · rw [hold _ (hne q hq')]
      exact h.claims q hq'
  · refine (hp.map Prod.fst).nodup_iff.mpr ?_
    rw [List.map_cons, List.nodup_cons]
    refine ⟨fun hm => ?_, h.once⟩
    obtain ⟨q, hq', he⟩ := List.mem_map.mp hm
    exact hne q hq' he

/-- A newcomer without a claim entered in the survey list, where neither table names its headset (R39, R41). -/
theorem TableLaw.enterSurvey (h : TableLaw serve survey at_) {n : SurveyEntry} (hn : n.Sound) (hc : n.claim = none)
    (hserve : ∀ e ∈ serve, e.headset ≠ n.headset) (hsurvey : ∀ e ∈ survey, e.headset ≠ n.headset) :
    TableLaw serve (enterSurveyList n survey) at_ := by
  have app : ∀ l : List SurveyEntry, TableLaw serve l at_ → (∀ e ∈ l, e.headset ≠ n.headset) →
      l.length < surveyCapacity → TableLaw serve (l ++ [n]) at_ := by
    intro l g hl hlen
    have hk : claimKeys (l ++ [n]) = claimKeys l := by simp [claimKeys, hc]
    refine { g with
      surveyed := fun e he => ?_, surveyOnce := ?_, apart := fun e he x hx => ?_
      capacity := by rw [List.length_append]; simpa using hlen
      claimCount := hk ▸ g.claimCount, claims := hk ▸ g.claims, once := hk ▸ g.once }
    · rcases List.mem_append.mp he with he | he
      · exact g.surveyed e he
      · rw [List.mem_singleton.mp he]; exact hn
    · rw [List.map_append]
      refine List.nodup_append.mpr ⟨g.surveyOnce, by simp, ?_⟩
      intro a ha b hb hab
      obtain ⟨e, he, rfl⟩ := List.mem_map.mp ha
      simp at hb
      exact hl e he (hab.trans hb)
    · rcases List.mem_append.mp hx with hx | hx
      · exact g.apart e he x hx
      · rw [List.mem_singleton.mp hx]; exact hserve e he
  unfold enterSurveyList
  split
  · next hl => exact app survey h hsurvey hl
  · split
    · next v hv =>
      split
      · have hmem : ∀ l : List SurveyEntry, victim l = some v → v ∈ l := by
          intro l
          induction l with
          | nil => intro hl; cases hl
          | cons y ys ih =>
            intro hl
            unfold victim at hl
            split at hl
            · exact List.mem_cons_of_mem _ (ih hl)
            · split at hl
              · cases hl; exact List.mem_cons_self
              · next w hw =>
                split at hl
                · cases hl; exact List.mem_cons_self
                · cases hl; exact List.mem_cons_of_mem _ (ih hw)
        refine app _ (h.removeSurvey v.headset (fun _ _ => rfl) fun _ _ => rfl)
          (fun e he => hsurvey e (List.mem_filter.mp he).1) ?_
        refine lt_of_lt_of_le (List.length_filter_lt_length_iff_exists.mpr ⟨v, hmem survey hv, by simp⟩) h.capacity
      · exact h
    · exact h

theorem insertBySlot_perm (e : ServeEntry) (l : List ServeEntry) : (insertBySlot e l).Perm (e :: l) := by
  induction l with
  | nil => exact .refl _
  | cons x xs ih =>
    unfold insertBySlot
    split
    · exact .refl _
    · exact (ih.cons x).trans (.swap _ _ _)

/-- An entry taken into the serve table, its headset in neither table and its slot assigned to it (R1, R6). -/
theorem TableLaw.insertServe (h : TableLaw serve survey at_) {n : ServeEntry} (hn : n.Sound)
    (hserve : ∀ e ∈ serve, e.headset ≠ n.headset) (hsurvey : ∀ x ∈ survey, x.headset ≠ n.headset)
    (hslot : at_ n.slot = .assigned n.headset) : TableLaw (insertBySlot n serve) survey at_ := by
  have hp := insertBySlot_perm n serve
  have hm : ∀ e, e ∈ insertBySlot n serve ↔ e = n ∨ e ∈ serve := fun e => hp.mem_iff.trans List.mem_cons
  refine { h with
    served := fun e he => ?_, serveOnce := ?_, apart := fun e he x hx => ?_, entries := fun e he => ?_ }
  · rcases (hm e).mp he with rfl | he
    · exact hn
    · exact h.served e he
  · refine (hp.map _).nodup_iff.mpr ?_
    rw [List.map_cons, List.nodup_cons]
    refine ⟨fun hmem => ?_, h.serveOnce⟩
    obtain ⟨e, he, heq⟩ := List.mem_map.mp hmem
    exact hserve e he heq
  · rcases (hm e).mp he with rfl | he
    · exact fun heq => hsurvey x hx heq.symm
    · exact h.apart e he x hx
  · rcases (hm e).mp he with rfl | he
    · exact hslot
    · exact h.entries e he

end

end Sys2Proof.Machine
end

