-- ==== Sys2Proof/Laws/Lawful.lean ====
section
/-! SUPPORT. Every operation of RE keeps the law of the tables and the slot map (R1, R4, R38, R48, R99). -/

namespace Sys2Proof.Machine
namespace State

/-! ## Lookups -/

theorem mem_of_entryAt {s : State} {k : Nat} {e : ServeEntry} (h : s.entryAt k = some e) :
    e ∈ s.re.serve ∧ e.slot = k := ⟨List.mem_of_find?_eq_some h, by simpa using List.find?_some h⟩

theorem mem_of_entryFor {s : State} {x : Headset} {e : ServeEntry} (h : s.entryFor x = some e) :
    e ∈ s.re.serve ∧ e.headset = x := ⟨List.mem_of_find?_eq_some h, by simpa using List.find?_some h⟩

theorem mem_of_surveyFor {s : State} {x : Headset} {e : SurveyEntry} (h : s.surveyFor x = some e) :
    e ∈ s.re.survey ∧ e.headset = x := ⟨List.mem_of_find?_eq_some h, by simpa using List.find?_some h⟩

theorem not_mem_of_entryFor {s : State} {x : Headset} (h : s.entryFor x = none) :
    ∀ e ∈ s.re.serve, e.headset ≠ x := fun e he => by simpa using List.find?_eq_none.mp h e he

theorem not_mem_of_surveyFor {s : State} {x : Headset} (h : s.surveyFor x = none) :
    ∀ e ∈ s.re.survey, e.headset ≠ x := fun e he => by simpa using List.find?_eq_none.mp h e he

theorem mem_of_claimOf {s : State} {x : Headset} {tag : Tag} {e : SurveyEntry} {c : ClaimRecord}
    (h : s.claimOf x tag = some (e, c)) :
    e ∈ s.re.survey ∧ e.headset = x ∧ e.claim = some c ∧ c.tag = tag := by
  unfold claimOf at h
  split at h
  · next y hy =>
    obtain ⟨r, hr, hp⟩ := Option.map_eq_some_iff.mp h
    obtain ⟨h1, h2⟩ := Option.filter_eq_some_iff.mp hr
    cases hp
    exact ⟨(mem_of_surveyFor hy).1, (mem_of_surveyFor hy).2, h1, by simpa using h2⟩
  · cases h

theorem mem_of_reclaimOf {s : State} {x : Headset} {tag : Tag} {e : ServeEntry} (h : s.reclaimOf x tag = some e) :
    e ∈ s.re.serve ∧ e.headset = x := mem_of_entryFor (Option.filter_eq_some_iff.mp h).1

/-! ## Updates -/

/-- Anything that leaves both tables and every slot's state keeps the law. -/
theorem Lawful.of_eq {s t : State} (h : s.Lawful) (hs : t.re.serve = s.re.serve) (hv : t.re.survey = s.re.survey)
    (ha : ∀ k, t.apc.stateOf k = s.apc.stateOf k) : t.Lawful := by
  unfold Lawful
  rw [hs, hv]
  exact TableLaw.congr h ha

theorem lawful_count {s : State} (h : s.Lawful) (c : Counter) : (s.count c).Lawful := h
theorem lawful_notify {s : State} (h : s.Lawful) (n : Notice) : (s.notify n).Lawful := h
theorem lawful_onMlc {s : State} (h : s.Lawful) (f : Mlc → Mlc) : (s.onMlc f).Lawful := h
theorem lawful_onVp {s : State} (h : s.Lawful) (f : Vp → Vp) : (s.onVp f).Lawful := h
theorem lawful_onTqu {s : State} (h : s.Lawful) (f : Tqu → Tqu) : (s.onTqu f).Lawful := h
theorem lawful_advanceTag {s : State} (h : s.Lawful) : s.advanceTag.Lawful := h

theorem lawful_onApc {s : State} (h : s.Lawful) (f : Apc → Apc) (hf : ∀ k, (f s.apc).stateOf k = s.apc.stateOf k) :
    (s.onApc f).Lawful := TableLaw.congr h hf

theorem lawful_updateEntry {s : State} (h : s.Lawful) (k : Nat) (f : ServeEntry → ServeEntry)
    (hh : ∀ e, (f e).headset = e.headset) (hs : ∀ e, (f e).slot = e.slot) (hf : ∀ e, e.Sound → (f e).Sound) :
    (s.updateEntry k f).Lawful :=
  TableLaw.updateServe h k f (fun e _ _ => hh e) (fun e _ _ => hs e) fun e _ _ => hf e

theorem lawful_updateSurvey {s : State} (h : s.Lawful) (x : Headset) (f : SurveyEntry → SurveyEntry)
    (hh : ∀ e, (f e).headset = e.headset) (hf : ∀ e, e.Sound → (f e).Sound) (hc : ∀ e, (f e).claim = e.claim) :
    (s.updateSurvey x f).Lawful :=
  TableLaw.updateSurvey h x f (fun e _ _ => hh e) (fun e _ _ => hf e) fun e _ _ => by rw [hc e]

theorem lawful_foldl {α : Type} (f : State → α → State) (hf : ∀ (s : State) a, s.Lawful → (f s a).Lawful)
    (l : List α) {s : State} (h : s.Lawful) : (l.foldl f s).Lawful := by
  induction l generalizing s with
  | nil => exact h
  | cons a as ih => exact ih (hf s a h)

theorem lawful_ite {c : Prop} [Decidable c] {a b : State} (ha : a.Lawful) (hb : b.Lawful) :
    (if c then a else b : State).Lawful := by
  split
  · exact ha
  · exact hb

/-! ## Ends -/

theorem lawful_releaseEntry {s : State} (h : s.Lawful) (k : Nat) : (s.releaseEntry k).Lawful := by
  unfold releaseEntry
  split
  · exact h
  · next e he =>
    obtain ⟨hm, hk⟩ := mem_of_entryAt he
    have hat := h.entries e hm
    have key : TableLaw (s.re.serve.filter fun e => e.slot != k) s.re.survey (s.apc.close k).stateOf := by
      refine TableLaw.filterServe h _ (fun x _ hp => ?_) fun q hq => ?_
      · rw [Apc.stateOf_close, if_neg]
        rintro ⟨hx, -⟩
        simp [hx] at hp
      · rw [Apc.stateOf_close, if_neg]
        rintro ⟨hx, -⟩
        have := h.claims q hq
        rw [hx, ← hk, hat] at this
        cases this
    dsimp only
    split
    · exact key
    · exact key

/-- After the release of the entry at a slot, its headset stands in neither table (R1). -/
theorem gone_releaseEntry {s : State} (h : s.Lawful) {k : Nat} {e : ServeEntry} (he : s.entryAt k = some e) :
    (∀ x ∈ (s.releaseEntry k).re.serve, x.headset ≠ e.headset) ∧
      ∀ x ∈ (s.releaseEntry k).re.survey, x.headset ≠ e.headset := by
  obtain ⟨hm, hk⟩ := mem_of_entryAt he
  have hre : (s.releaseEntry k).re = { s.re with serve := s.re.serve.filter fun e => e.slot != k } := by
    unfold releaseEntry
    rw [he]
    dsimp only
    split <;> rfl
  rw [hre]
  refine ⟨fun x hx hxe => ?_, fun x hx hxe => h.apart e hm x hx hxe.symm⟩
  have hxm := List.mem_filter.mp hx
  have : x = e := List.inj_on_of_nodup_map h.serveOnce hxm.1 hm hxe
  subst this
  simp [hk] at hxm

theorem lawful_departEntry {s : State} (h : s.Lawful) (k : Nat) : (s.departEntry k).Lawful := by
  unfold departEntry
  split
  · exact h
  · exact lawful_releaseEntry h k

theorem lawful_endClaim {s : State} (h : s.Lawful) (x : Headset) : (s.endClaim x).Lawful := by
  unfold endClaim
  split
  · exact h
  · next c hc =>
    obtain ⟨e, he, hec⟩ := Option.bind_eq_some_iff.mp hc
    obtain ⟨hm, hx⟩ := mem_of_surveyFor he
    have hcl := h.claims _ (mem_claimKeys hm hec)
    refine TableLaw.dropClaim h x (fun e => { e with claim := none, dwell := 0 }) (fun _ => rfl) (fun _ => rfl)
      (fun e he => ⟨he.q, he.r, Nat.zero_le _, he.pacing⟩) (fun y hy => ?_) fun q hq => ?_
    · show (s.apc.release c.slot c.tag).stateOf y.slot = _
      rw [Apc.stateOf_release, if_neg]
      rintro ⟨hs, -⟩
      have := h.entries y hy
      rw [hs, hcl] at this
      cases this
    · show (s.apc.release c.slot c.tag).stateOf q.1 = _
      rw [Apc.stateOf_release, if_neg]
      rintro ⟨hs, -⟩
      exact slot_notMem_of_removed h hm hec q (hx ▸ hq) hs

theorem lawful_failClaim {s : State} (h : s.Lawful) (x : Headset) : (s.failClaim x).Lawful :=
  lawful_updateSurvey (lawful_endClaim h x) _ _ (fun _ => rfl) (fun _ he => ⟨he.q, he.r, he.dwell, le_refl _⟩)
    fun _ => rfl

theorem lawful_withdrawSeek {s : State} (h : s.Lawful) (x : Headset) : (s.withdrawSeek x).Lawful :=
  lawful_count (lawful_endClaim h x) _

theorem sound_forget (e : SurveyEntry) (h : e.Sound) : e.forget.Sound := ⟨h.q, h.r, Nat.zero_le _, h.pacing⟩

theorem lawful_forget {s : State} (h : s.Lawful) (x : Headset) : (s.updateSurvey x SurveyEntry.forget).Lawful :=
  lawful_updateSurvey h x _ (fun _ => rfl) sound_forget fun _ => rfl

/-! ## Loss -/

theorem sound_same {e f : ServeEntry} (h : e.Sound) (hq : f.q = e.q := by rfl) (hr : f.r = e.r := by rfl)
    (hf : f.ring.frames = e.ring.frames := by rfl) : f.Sound :=
  ServeEntry.sound_of_fields h hq hr (hf ▸ h.ring)

theorem fromHanding_fields (cfg : Settings) (e : ServeEntry) :
    (e.fromHanding cfg).headset = e.headset ∧ (e.fromHanding cfg).slot = e.slot ∧
      (e.fromHanding cfg).q = e.q ∧ (e.fromHanding cfg).r = e.r ∧ (e.fromHanding cfg).ring = e.ring := by
  unfold ServeEntry.fromHanding
  split <;> exact ⟨rfl, rfl, rfl, rfl, rfl⟩

theorem lawful_enterLost {s : State} (h : s.Lawful) (cfg : Settings) (k : Nat) : (s.enterLost cfg k).Lawful := by
  unfold enterLost
  split
  · exact h
  · exact lawful_updateEntry h k _ (fun _ => rfl) (fun _ => rfl) fun _ he => sound_same he

theorem lawful_fromHanding {s : State} (h : s.Lawful) (cfg : Settings) (k : Nat) :
    (s.updateEntry k (ServeEntry.fromHanding cfg)).Lawful := by
  refine lawful_updateEntry h k _ (fun e => (fromHanding_fields cfg e).1) (fun e => (fromHanding_fields cfg e).2.1)
    fun e he => ?_
  obtain ⟨-, -, hq, hr, hf⟩ := fromHanding_fields cfg e
  exact sound_same he hq hr (by rw [hf])

theorem lawful_revert {s : State} (h : s.Lawful) (cfg : Settings) (k : Nat) : (s.revert cfg k).Lawful := by
  unfold revert
  split
  · split
    · exact lawful_fromHanding h cfg k
    · exact h
  · exact h

theorem lawful_askAnswer {s : State} (h : s.Lawful) (cfg : Settings) (x : Headset) (k : Nat) :
    (s.askAnswer cfg x k).Lawful := lawful_onApc h _ fun _ => Apc.stateOf_order_getD _ _ _ _ _

/-! ## Entry into the serve table -/

theorem lawful_enterServe {s : State} (h : s.Lawful) {e : SurveyEntry} {c : ClaimRecord} (he : e ∈ s.re.survey)
    (hc : e.claim = some c) (t : ArrivalTerms) : (s.enterServe e c t).Lawful := by
  have hcl := h.claims _ (mem_claimKeys he hc)
  have g : TableLaw s.re.serve (s.re.survey.filter fun x => x.headset != e.headset)
      (s.apc.assign c.slot c.tag e.headset).stateOf := by
    refine TableLaw.removeSurvey h e.headset (fun y hy => ?_) fun q hq => ?_
    · rw [Apc.stateOf_assign, if_neg]
      rintro ⟨hs, -⟩
      have := h.entries y hy
      rw [hs, hcl] at this
      cases this
    · rw [Apc.stateOf_assign, if_neg]
      rintro ⟨hs, -⟩
      exact slot_notMem_of_removed h he hc q hq hs
  have hq : (reported e.q) = reported e.q := rfl
  have key : TableLaw
      (insertBySlot (arrivingEntry e c t (s.vp.fit c.groups t.listen).kept) s.re.serve)
      (s.re.survey.filter fun x => x.headset != e.headset) (s.apc.assign c.slot c.tag e.headset).stateOf := by
    refine g.insertServe ⟨(h.surveyed e he).q, hq, Nat.zero_le _⟩ (fun y hy => h.apart y hy e he)
      (fun x hx => by simpa [arrivingEntry] using (List.mem_filter.mp hx).2) ?_
    show (s.apc.assign c.slot c.tag e.headset).stateOf c.slot = .assigned e.headset
    rw [Apc.stateOf_assign, if_pos ⟨rfl, hcl⟩]
  have main : State.Lawful
      ((((s.onApc (Apc.assign c.slot c.tag e.headset)).onVp fun _ => (s.vp.fit c.groups t.listen).vp).onTqu
        (Tqu.dropClaim e.headset c.tag)).removeSurvey e.headset |>.insertEntry
          (arrivingEntry e c t (s.vp.fit c.groups t.listen).kept)) := key
  exact lawful_ite (lawful_count main _) main

theorem lawful_winSeek {s : State} (h : s.Lawful) (cfg : Settings) {e : SurveyEntry} {c : ClaimRecord}
    (he : e ∈ s.re.survey) (hc : e.claim = some c) : (s.winSeek cfg e c).Lawful :=
  lawful_count (lawful_askAnswer (lawful_enterServe h he hc _) _ _ _) _

theorem lawful_winReclaim {s : State} (h : s.Lawful) (cfg : Settings) (k : Nat) : (s.winReclaim cfg k).Lawful := by
  unfold winReclaim
  split
  · exact h
  · exact lawful_count (lawful_askAnswer (lawful_updateEntry h k (ServeEntry.reclaimed cfg) (fun _ => rfl)
      (fun _ => rfl) fun e he => ServeEntry.sound_of_fields he rfl rfl (Nat.zero_le _)) _ _ _) _

/-! ## The YIELD owed and reclaims -/

theorem lawful_enterSurvey {s : State} (h : s.Lawful) {n : SurveyEntry} (hn : n.Sound) (hc : n.claim = none)
    (hserve : ∀ e ∈ s.re.serve, e.headset ≠ n.headset) (hsurvey : ∀ e ∈ s.re.survey, e.headset ≠ n.headset) :
    (s.enterSurvey n).Lawful := TableLaw.enterSurvey h hn hc hserve hsurvey

theorem lawful_concludeYield {s : State} (h : s.Lawful) (cfg : Settings) (k : Nat) (n : Node) :
    (s.concludeYield cfg k n).Lawful := by
  unfold concludeYield
  split
  · exact h
  · next e he =>
    have hs := h.served e (mem_of_entryAt he).1
    exact lawful_enterSurvey (lawful_notify (lawful_releaseEntry h k) _)
      ⟨hs.q, hs.r, Nat.zero_le _, Nat.zero_le _⟩ rfl (gone_releaseEntry h he).1 (gone_releaseEntry h he).2

theorem lawful_oweYield {s : State} (h : s.Lawful) (cfg : Settings) (k : Nat) (n : Node) (tag : Tag) :
    (s.oweYield cfg k n tag).Lawful := by
  unfold oweYield
  split
  · exact h
  · split
    · exact lawful_updateEntry (lawful_onTqu h _) k _ (fun _ => rfl) (fun _ => rfl) fun _ he => sound_same he
    · exact lawful_concludeYield (lawful_count h _) cfg k n

theorem lawful_endReclaim {s : State} (h : s.Lawful) (k : Nat) : (s.updateEntry k ServeEntry.endReclaim).Lawful :=
  lawful_updateEntry h k _ (fun _ => rfl) (fun _ => rfl) fun _ he => sound_same he

theorem lawful_failReclaim {s : State} (h : s.Lawful) (k : Nat) : (s.failReclaim k).Lawful := by
  have g := lawful_endReclaim h k
  unfold failReclaim
  dsimp only
  split
  · exact lawful_ite (lawful_departEntry g k) g
  · exact g

theorem lawful_withdrawReclaim {s : State} (h : s.Lawful) (k : Nat) : (s.withdrawReclaim k).Lawful := by
  unfold withdrawReclaim
  split
  · split
    · exact lawful_endReclaim (lawful_onTqu h _) k
    · exact h
  · exact h

theorem lawful_seekDisplaced {s : State} (h : s.Lawful) (c : ClaimBody) : (s.seekDisplaced c).Lawful := by
  unfold seekDisplaced
  split
  · exact lawful_endClaim h _
  · split
    · exact lawful_failReclaim h _
    · exact h

theorem lawful_queueTaken {s : State} (h : s.Lawful) (x : Headset) (n : Nat) (p : Option Node) :
    (s.queueTaken x n p).Lawful := by
  unfold queueTaken
  dsimp only
  split
  · exact lawful_onTqu h _
  · split
    · split
      · exact lawful_seekDisplaced (lawful_onTqu h _) _
      · exact lawful_onTqu h _
    · exact lawful_ite (lawful_onTqu h _) (lawful_count h _)

/-! ## Frames and calls at an entry -/

theorem lawful_toRing {s : State} (h : s.Lawful) (cfg : Settings) (k : Nat) (q : Seq) (payload : List Byte) :
    (s.toRing cfg k q payload).Lawful := by
  unfold toRing
  split
  · exact h
  · next e he =>
    exact lawful_ite (lawful_onMlc (lawful_updateEntry h k
      (fun x => { x with ring := (e.ring.place cfg q payload).ring }) (fun _ => rfl) (fun _ => rfl) fun x hx =>
        ServeEntry.sound_of_fields hx rfl rfl
          (Ring.place_length cfg q payload (h.served e (mem_of_entryAt he).1).ring)) _) h

theorem lawful_offeredTest {s : State} (h : s.Lawful) (cfg : Settings) (k : Nat) :
    (s.updateEntry k (ServeEntry.offeredTest cfg)).Lawful :=
  lawful_updateEntry h k _ (fun e => (ServeEntry.offeredTest_fields cfg e).1)
    (fun e => (ServeEntry.offeredTest_fields cfg e).2.1) fun _ he => ServeEntry.sound_offeredTest he cfg

theorem lawful_arrival {s : State} (h : s.Lawful) (cfg : Settings) (k : Nat) (q : Seq) (payload : List Byte) :
    (s.arrival cfg k q payload).Lawful := by
  unfold arrival
  split
  · exact h
  · have g := lawful_toRing (lawful_updateEntry h k (ServeEntry.arrive cfg q) (fun _ => rfl) (fun _ => rfl)
      fun _ he => sound_same he) cfg k q payload
    exact lawful_offeredTest (lawful_notify (lawful_queueTaken (lawful_ite (lawful_count g _) g) _ _ _) _) cfg k

theorem lawful_callAtLost {s : State} (h : s.Lawful) (cfg : Settings) (k : Nat) {n : Nat} (hn : n ≤ 90) :
    (s.callAtLost cfg k n).Lawful := by
  unfold callAtLost
  split
  · exact h
  · refine lawful_ite ?_ (lawful_updateEntry h k (ServeEntry.sample cfg n) (fun _ => rfl) (fun _ => rfl)
      fun _ he => ServeEntry.sound_sample he cfg hn)
    exact lawful_onTqu (lawful_advanceTag (lawful_updateEntry h k
      (fun x => { x.reseed n with tag := some s.re.claimCounter }) (fun _ => rfl) (fun _ => rfl)
      fun x hx => sound_same (ServeEntry.sound_reseed hx hn))) _

/-! ## Claims -/

theorem lawful_addClaim {s : State} (h : s.Lawful) {k : Nat} (hk : s.apc.lowestFree = some k) {x : SurveyEntry}
    (hx : x ∈ s.re.survey) (hxc : x.claim = none) (hroom : s.re.claimsOutstanding < claimCapacity) (gs : List Group)
    (r : ClaimRecord) (hr : r.slot = k ∧ r.tag = s.re.claimCounter) :
    ((((s.advanceTag).onApc (Apc.reserve k s.re.claimCounter)).onVp (Vp.acquireAll gs)).updateSurvey x.headset
      fun e => { e with claim := some r }).Lawful := by
  obtain ⟨rfl, ht⟩ := hr
  have hlt : r.slot < s.apc.slots.length := (List.findIdx?_eq_some_iff_getElem.mp hk).1
  refine TableLaw.addClaim h hx hxc (fun e => { e with claim := some r }) r (fun _ => rfl) (fun _ => rfl)
    (fun _ he => ⟨he.q, he.r, he.dwell, he.pacing⟩) (by rw [claimKeys_length]; exact hroom) (free_of_lowestFree hk)
    ?_ fun j hj => ?_
  · show (s.apc.reserve r.slot s.re.claimCounter).stateOf r.slot = _
    rw [Apc.stateOf_reserve hlt, if_pos rfl, ht]
  · show (s.apc.reserve r.slot s.re.claimCounter).stateOf j = _
    rw [Apc.stateOf_reserve hlt, if_neg hj]

theorem lawful_decideSeek {s : State} (h : s.Lawful) (cfg : Settings) (c : SeekCall) :
    (s.decideSeek cfg c).Lawful := by
  unfold decideSeek
  split
  · next e k he hk =>
    dsimp only
    split
    · next hc =>
      obtain ⟨hm, hx⟩ := mem_of_surveyFor he
      rw [← hx]
      exact lawful_onTqu (lawful_addClaim h hk hm hc.2.2.1 hc.2.2.2.1 _ _ ⟨rfl, rfl⟩) _
    · exact h
  · exact h

theorem lawful_decideNormal {s : State} (h : s.Lawful) (cfg : Settings) (x : Headset) :
    (s.decideNormal cfg x).Lawful := by
  unfold decideNormal
  split
  · next e k he hk =>
    split
    · dsimp only
      split
      · next hc =>
        obtain ⟨hm, hx⟩ := mem_of_surveyFor he
        subst hx
        exact lawful_onTqu (lawful_addClaim h hk hm hc.2.2.1 hc.2.2.2.1 _ _ ⟨rfl, rfl⟩) _
      · exact h
    · exact h
  · exact h

theorem lawful_resolveDuplicate {s : State} (h : s.Lawful) (cfg : Settings) (x : Headset) (n : Node) (c : Nat) :
    (s.resolveDuplicate cfg x n c).Lawful := by
  unfold resolveDuplicate
  split
  · exact h
  · exact lawful_ite (lawful_releaseEntry h _) h

/-! ## Cycle marks -/

theorem lawful_expireArrival {s : State} (h : s.Lawful) (k : Nat) : (s.expireArrival k).Lawful := by
  unfold expireArrival
  split
  · exact h
  · next e he =>
    refine lawful_ite (lawful_departEntry h k) ?_
    have hs := h.served e (mem_of_entryAt he).1
    exact lawful_enterSurvey (lawful_releaseEntry h k) ⟨hs.q, rfl, Nat.zero_le _, le_refl _⟩ rfl
      (gone_releaseEntry h he).1 (gone_releaseEntry h he).2

theorem lawful_expire {s : State} (h : s.Lawful) (cfg : Settings) (k : Nat) (x : Expiry) :
    (s.expire cfg k x).Lawful := by
  cases x
  · exact lawful_expireArrival h k
  · exact lawful_enterLost h cfg k
  · exact lawful_departEntry h k
  · exact lawful_enterLost h cfg k

theorem lawful_takeResult {s : State} (h : s.Lawful) (cfg : Settings) (k : Nat) (kind : OrderKind) (a : Bool) :
    (s.takeResult cfg k kind a).Lawful := by
  unfold takeResult
  split
  · exact h
  · split
    · exact h
    · split
      · exact lawful_ite (lawful_revert h _ _) h
      · exact lawful_askAnswer h _ _ _
      · exact h

theorem lawful_endOrder {s : State} (h : s.Lawful) (k : Nat) : (s.onApc (Apc.endOrder k)).Lawful :=
  lawful_onApc h _ (Apc.stateOf_endOrder _ k)

theorem lawful_expireOrder {s : State} (h : s.Lawful) (cfg : Settings) (k : Nat) : (s.expireOrder cfg k).Lawful := by
  unfold expireOrder
  split
  · exact lawful_ite (lawful_takeResult (lawful_endOrder h k) _ _ _ _) h
  · exact h

theorem lawful_markOrders {s : State} (h : s.Lawful) (cfg : Settings) : (s.markOrders cfg).Lawful :=
  lawful_foldl _ (fun _ k hs => lawful_expireOrder hs cfg k) _ (lawful_onApc h _ (Apc.stateOf_age _))

theorem markNamed_fields (l : List ServeEntry) (e : ServeEntry) :
    (e.markNamed l).headset = e.headset ∧ (e.markNamed l).slot = e.slot ∧ (e.Sound → (e.markNamed l).Sound) := by
  unfold ServeEntry.markNamed
  split
  · exact ⟨rfl, rfl, fun h => sound_same h⟩
  · exact ⟨rfl, rfl, id⟩

theorem lawful_buildStanding {s : State} (h : s.Lawful) (cfg : Settings) : (s.buildStanding cfg).Lawful := by
  unfold buildStanding
  refine lawful_ite ?_ h
  exact TableLaw.mapServe h _ (fun e _ => (markNamed_fields _ e).1) (fun e _ => (markNamed_fields _ e).2.1)
    fun e _ => (markNamed_fields _ e).2.2

theorem lawful_tick {s : State} (h : s.Lawful) : (s.onRe Re.tick).Lawful := by
  refine TableLaw.mapSurvey (TableLaw.mapServe h ServeEntry.tick (fun _ _ => rfl) (fun _ _ => rfl)
    fun _ _ he => sound_same he) SurveyEntry.tick (fun _ _ => rfl)
    (fun _ _ he => ⟨he.q, he.r, he.dwell, he.pacing⟩) fun e _ => ?_
  simp only [SurveyEntry.tick, Option.map_map]
  rfl

theorem lawful_removeSurvey {s : State} (h : s.Lawful) (x : Headset) : (s.removeSurvey x).Lawful :=
  TableLaw.removeSurvey h x (fun _ _ => rfl) fun _ _ => rfl

theorem lawful_markRe {s : State} (h : s.Lawful) (cfg : Settings) : (s.markRe cfg).Lawful :=
  lawful_buildStanding
    (lawful_foldl _ (fun _ _ hs => lawful_expire hs cfg _ _) _
      (lawful_foldl _ (fun _ x hs => lawful_failClaim hs x) _
        (lawful_foldl _ (fun _ x hs => lawful_forget hs x) _
          (lawful_foldl _ (fun _ x hs => lawful_removeSurvey hs x) _ (lawful_tick h))))) cfg

theorem lawful_playRing {s : State} (h : s.Lawful) (cfg : Settings) {e : ServeEntry}
    (he : e.ring.frames.length ≤ ringCapacity) : (s.playRing cfg e).Lawful := by
  have g : (s.updateEntry e.slot fun x => { x with ring := (e.play cfg).1 }).Lawful :=
    lawful_updateEntry h e.slot _ (fun _ => rfl) (fun _ => rfl)
      fun x hx => ServeEntry.sound_of_fields hx rfl rfl (le_trans (ServeEntry.play_length cfg e) he)
  unfold playRing
  dsimp only
  split <;> split <;> exact g

theorem lawful_playRings (cfg : Settings) (l : List ServeEntry) (hl : ∀ e ∈ l, e.ring.frames.length ≤ ringCapacity)
    {s : State} (h : s.Lawful) : (l.foldl (playRing cfg) s).Lawful := by
  induction l generalizing s with
  | nil => exact h
  | cons e es ih =>
    exact ih (fun x hx => hl x (List.mem_cons_of_mem _ hx)) (lawful_playRing h cfg (hl e List.mem_cons_self))

theorem lawful_mixEntry {s : State} (h : s.Lawful) (e : ServeEntry) : (s.mixEntry e).Lawful := by
  unfold mixEntry
  exact lawful_onApc (lawful_ite (lawful_count h _) h) _ (Apc.stateOf_downlink _ _ _)

theorem lawful_markVp {s : State} (h : s.Lawful) (cfg : Settings) : (s.markVp cfg).Lawful :=
  lawful_foldl _ (fun _ k hs => lawful_releaseEntry hs k) _
    (lawful_onVp (lawful_foldl _ (fun _ e hs => lawful_mixEntry hs e) _
      (lawful_playRings cfg _ (fun e he => (h.served e he).ring) h)) _)

/-- A whole mark keeps the law of the tables and slots. -/
theorem lawful_mark {s : State} (h : s.Lawful) (cfg : Settings) : (s.mark cfg).Lawful :=
  lawful_markVp (lawful_markRe (lawful_onTqu (lawful_markOrders h cfg) _) cfg) cfg

/-! ## Reports of the front end -/

theorem lawful_scored {s : State} (h : s.Lawful) (cfg : Settings) (k : Nat) {n : Nat} (hn : n ≤ 90) :
    (s.updateEntry k (ServeEntry.sample cfg n)).Lawful :=
  lawful_updateEntry h k _ (fun _ => rfl) (fun _ => rfl) fun _ he => ServeEntry.sound_sample he cfg hn

theorem lawful_servedFrame {s : State} (h : s.Lawful) (cfg : Settings) (k : Nat) {n : Nat} (hn : n ≤ 90) (q : Seq)
    (payload : List Byte) : (s.servedFrame cfg k n q payload).Lawful :=
  lawful_offeredTest (lawful_toRing (lawful_updateEntry h k (fun e => { e.sample cfg n with heard := true })
    (fun _ => rfl) (fun _ => rfl) fun _ he => sound_same (ServeEntry.sound_sample he cfg hn)) cfg k q payload) cfg k

theorem lawful_scoredTest {s : State} (h : s.Lawful) (cfg : Settings) (k : Nat) {n : Nat} (hn : n ≤ 90) :
    (s.updateEntry k fun e => (e.sample cfg n).offeredTest cfg).Lawful :=
  lawful_updateEntry h k _ (fun _ => (ServeEntry.offeredTest_fields cfg _).1)
    (fun _ => (ServeEntry.offeredTest_fields cfg _).2.1)
    fun _ he => ServeEntry.sound_offeredTest (ServeEntry.sound_sample he cfg hn) cfg

theorem lawful_reportAtEntry {s : State} (h : s.Lawful) (cfg : Settings) (r : SlotReport) (e : ServeEntry) :
    (s.reportAtEntry cfg r e).Lawful := by
  have hv := fun kind => sampleValue_le kind r.level
  unfold reportAtEntry
  split
  · exact lawful_arrival (lawful_scored h cfg _ (hv _)) cfg _ _ _
  · exact h
  · exact h
  · exact lawful_servedFrame h cfg _ (hv _) _ _
  · exact lawful_servedFrame h cfg _ (hv _) _ _
  · exact lawful_scoredTest h cfg _ (hv _)
  · exact lawful_scoredTest h cfg _ (hv _)
  · exact lawful_scoredTest h cfg _ (hv _)
  · exact lawful_scoredTest h cfg _ (hv _)
  · exact lawful_ite (lawful_servedFrame (lawful_revert h _ _) cfg _ (hv _) _ _)
      (lawful_toRing (lawful_scored h cfg _ (hv _)) cfg _ _ _)
  · exact lawful_ite h (lawful_scored h cfg _ (hv _))
  · exact lawful_ite h (lawful_scored h cfg _ (hv _))
  all_goals exact h

theorem lawful_slotReport {s : State} (h : s.Lawful) (cfg : Settings) (r : SlotReport) : (s.slotReport cfg r).Lawful := by
  unfold slotReport
  split
  · exact h
  · exact h
  · refine lawful_ite (lawful_count h _) ?_
    split
    · exact lawful_reportAtEntry h _ _ _
    · exact h

theorem lawful_sampleSurvey {s : State} (h : s.Lawful) (cfg : Settings) (x : Headset) {n : Nat} (hn : n ≤ 90) :
    (s.updateSurvey x (SurveyEntry.sample cfg n)).Lawful :=
  lawful_updateSurvey h x _ (fun _ => rfl) (fun _ he => SurveyEntry.sound_sample he cfg hn) fun _ => rfl

theorem lawful_newcomer {s : State} (h : s.Lawful) {x : Headset} {n : Nat} (hn : n ≤ 90) (he : s.entryFor x = none)
    (hs : s.surveyFor x = none) : (s.enterSurvey (SurveyEntry.fresh x (seeded n))).Lawful :=
  lawful_enterSurvey h (SurveyEntry.sound_fresh x (seeded_limit hn)) rfl (not_mem_of_entryFor he)
    (not_mem_of_surveyFor hs)

theorem lawful_surveyReport {s : State} (h : s.Lawful) (cfg : Settings) (r : SurveyReport) :
    (s.surveyReport cfg r).Lawful := by
  unfold surveyReport
  dsimp only
  split
  · exact h
  · next hc =>
    split
    · exact lawful_decideNormal (lawful_sampleSurvey h cfg _ (sampleValue_le _ _)) cfg _
    · next hs =>
      refine lawful_newcomer h (sampleValue_le _ _) ?_ hs
      simp only [Bool.or_eq_true, not_or] at hc
      simpa using hc.1

theorem lawful_seekCall {s : State} (h : s.Lawful) (cfg : Settings) (c : SeekCall) : (s.seekCall cfg c).Lawful := by
  have hv := sampleValue_le .seekCall c.level
  unfold seekCall
  dsimp only
  split
  · split
    · exact lawful_callAtLost (lawful_enterLost h _ _) cfg _ hv
    · exact lawful_callAtLost (lawful_enterLost h _ _) cfg _ hv
    · exact lawful_callAtLost h cfg _ hv
    all_goals exact h
  · next he =>
    split
    · exact h
    · split
      · exact lawful_decideSeek (lawful_sampleSurvey h cfg _ hv) cfg c
      · next hs => exact lawful_decideSeek (lawful_newcomer h hv he hs) cfg c

theorem lawful_orderResult {s : State} (h : s.Lawful) (cfg : Settings) (r : OrderResult) :
    (s.orderResult cfg r).Lawful := by
  unfold orderResult
  split
  · exact lawful_takeResult (lawful_endOrder h _) _ _ _ _
  · exact h

/-! ## Outcomes -/

theorem lawful_sendMove {s : State} (h : s.Lawful) (cfg : Settings) (e : ServeEntry) (r : HandingRecord) :
    (s.sendMove cfg e r).Lawful := by
  have g : (s.updateEntry e.slot fun x =>
      { x with handing := some { r with phase := .moveSent, timer := some cfg.handingTime } }).Lawful :=
    lawful_updateEntry h _ _ (fun _ => rfl) (fun _ => rfl) fun _ he => sound_same he
  unfold sendMove
  dsimp only
  split
  · next ha => exact lawful_onApc g (fun _ => _) (Apc.stateOf_order ha)
  · exact lawful_revert g _ _

theorem lawful_yieldOutcome {s : State} (h : s.Lawful) (cfg : Settings) (d : Bool) (c : Context) (n : Node) :
    (s.yieldOutcome cfg d c n).Lawful := by
  unfold yieldOutcome
  split
  · exact lawful_ite (lawful_sendMove h _ _ _) (lawful_fromHanding h _ _)
  · exact h

theorem lawful_owedOutcome {s : State} (h : s.Lawful) (cfg : Settings) (c : Context) (n : Node) :
    (s.owedOutcome cfg c n).Lawful := by
  unfold owedOutcome
  split
  · exact lawful_ite (lawful_concludeYield h _ _ _) h
  · exact h

theorem lawful_claimOutcome {s : State} (h : s.Lawful) (cfg : Settings) (d : Bool) (c : ClaimBody) :
    (s.claimOutcome cfg d c).Lawful := by
  unfold claimOutcome
  split
  · next y r hr =>
    obtain ⟨hm, hx, hc, -⟩ := mem_of_claimOf hr
    refine lawful_ite (lawful_ite ?_ (lawful_forget (lawful_failClaim h _) _)) h
    refine TableLaw.updateSurvey h c.headset _ (fun _ _ _ => rfl)
      (fun _ _ _ he => ⟨he.q, he.r, he.dwell, he.pacing⟩) fun e he hec => ?_
    have : e = y := eq_of_headset h.surveyOnce he hm (hec.trans hx.symm)
    subst this
    rw [hc]
    rfl
  · exact h

theorem lawful_seekOutcome {s : State} (h : s.Lawful) (cfg : Settings) (d : Bool) (c : ClaimBody) :
    (s.seekOutcome cfg d c).Lawful := by
  unfold seekOutcome
  split
  · next e r hr =>
    obtain ⟨hm, -, hc, -⟩ := mem_of_claimOf hr
    exact lawful_ite (lawful_ite (lawful_endClaim h _)
      (lawful_ite (lawful_withdrawSeek h _) (lawful_winSeek h cfg hm hc))) h
  · split
    · exact lawful_ite (lawful_failReclaim h _)
        (lawful_ite (lawful_withdrawReclaim h _) (lawful_winReclaim h cfg _))
    · exact h

theorem lawful_tellOwner {s : State} (h : s.Lawful) (cfg : Settings) (d : Bool) (m : Queued) :
    (s.tellOwner cfg d m).Lawful := by
  unfold tellOwner
  split
  · exact lawful_owedOutcome h _ _ _
  · exact lawful_yieldOutcome h _ _ _ _
  · split
    · exact lawful_claimOutcome h _ _ _
    · exact lawful_seekOutcome h _ _ _
  all_goals exact h

/-! ## Handlings -/

theorem lawful_takenAtSurvey {s : State} (h : s.Lawful) (x : Headset) (n : Node) (c : Nat) :
    (s.takenAtSurvey x n c).Lawful := by
  have g : (s.updateSurvey x (SurveyEntry.learnTaken n c)).Lawful :=
    lawful_updateSurvey h x _ (fun _ => rfl) (fun _ he => ⟨he.q, he.r, Nat.zero_le _, he.pacing⟩) fun _ => rfl
  unfold takenAtSurvey
  dsimp only
  split
  · split
    · exact lawful_failClaim g _
    · exact lawful_withdrawSeek g _
  · exact g

theorem lawful_drain {s : State} (h : s.Lawful) (k : Nat) (x : Headset) (n : Node) : (s.drain k x n).Lawful :=
  lawful_count (lawful_notify (lawful_updateEntry h k
    (fun e => { e with state := .draining, handing := none, ring := { e.ring with playing := true } })
    (fun _ => rfl) (fun _ => rfl) fun _ he => sound_same he) _) _

theorem lawful_handleTaken {s : State} (h : s.Lawful) (cfg : Settings) (x : Headset) (n : Node) (c : Nat) :
    (s.handleTaken cfg x n c).Lawful := by
  unfold handleTaken
  split
  · split
    · exact lawful_releaseEntry h _
    · exact lawful_resolveDuplicate h _ _ _ _
    · exact lawful_resolveDuplicate h _ _ _ _
    · exact lawful_resolveDuplicate h _ _ _ _
    · unfold takenAtHanding
      exact lawful_ite (lawful_drain h _ _ _) h
    · exact h
  · exact lawful_takenAtSurvey h _ _ _

theorem lawful_handleClaim {s : State} (h : s.Lawful) (cfg : Settings) (n : Node) (c : ClaimBody) :
    (s.handleClaim cfg n c).Lawful := by
  unfold handleClaim
  split
  · exact lawful_onTqu h _
  · exact lawful_onTqu (lawful_updateEntry h _ (ServeEntry.accept n c) (fun _ => rfl) (fun _ => rfl)
      fun _ he => sound_same he) _

theorem lawful_rivalAtSurvey {s : State} (h : s.Lawful) (cfg : Settings) (e : SurveyEntry) :
    (s.rivalAtSurvey cfg e).Lawful := by
  unfold rivalAtSurvey
  exact lawful_updateSurvey (lawful_ite (lawful_withdrawSeek h _) h) _ _ (fun _ => rfl)
    (fun _ he => ⟨he.q, he.r, he.dwell, he.pacing⟩) fun _ => rfl

theorem lawful_handleSeekClaim {s : State} (h : s.Lawful) (cfg : Settings) (n : Node) (c : ClaimBody) :
    (s.handleSeekClaim cfg n c).Lawful := by
  unfold handleSeekClaim
  split
  · split
    · exact lawful_oweYield (lawful_enterLost h _ _) _ _ _ _
    · exact lawful_oweYield (lawful_enterLost h _ _) _ _ _ _
    · exact lawful_ite h (lawful_oweYield (lawful_withdrawReclaim h _) _ _ _ _)
    all_goals exact h
  · split
    · exact lawful_rivalAtSurvey h _ _
    · exact h

theorem lawful_replaceContext {s : State} (h : s.Lawful) (k : Nat) (n : Node) (c : Context) :
    (s.replaceContext k n c).Lawful := by
  unfold replaceContext
  split
  · exact h
  · next e _ =>
    have g : ((s.onVp fun _ => (s.vp.fit (e.listen.map ListenItem.group) c.listen).vp).updateEntry k fun x =>
        { x with listen := (s.vp.fit (e.listen.map ListenItem.group) c.listen).kept, talk := c.talk, count := c.count,
                 origin := some .yield, previous := some n }).Lawful :=
      lawful_updateEntry (lawful_onVp h _) k _ (fun _ => rfl) (fun _ => rfl) fun _ he => sound_same he
    exact lawful_ite (lawful_count g _) g

theorem lawful_raiseCount {s : State} (h : s.Lawful) (k n : Nat) :
    (s.updateEntry k (ServeEntry.raiseCount n)).Lawful :=
  lawful_updateEntry h k _ (fun _ => rfl) (fun _ => rfl) fun _ he => sound_same he

theorem lawful_handleYield {s : State} (h : s.Lawful) (cfg : Settings) (n : Node) (c : Context) :
    (s.handleYield cfg n c).Lawful := by
  unfold handleYield
  split
  · next hr =>
    obtain ⟨hm, -, hc, -⟩ := mem_of_claimOf hr
    split
    · exact lawful_enterServe h hm hc _
    · exact lawful_replaceContext (lawful_winSeek h cfg hm hc) _ _ _
  · split
    · unfold yieldAtEntry
      split
      · exact lawful_replaceContext h _ _ _
      · exact lawful_raiseCount h _ _
      · exact lawful_raiseCount h _ _
      · exact h
    · exact h

theorem lawful_handleDecline {s : State} (h : s.Lawful) (x : Headset) (tag : Tag) (r : Reason) :
    (s.handleDecline x tag r).Lawful := by
  unfold handleDecline
  split
  · split
    · have g := lawful_count (lawful_failClaim h x) .declinesReceived
      exact lawful_ite (lawful_forget g _) g
    · exact h
  · exact h

theorem lawful_handleNaming {s : State} (h : s.Lawful) (cfg : Settings) (n : Node) (x : Naming) :
    (s.handleNaming cfg n x).Lawful := by
  unfold handleNaming
  split
  · split
    all_goals first | exact lawful_resolveDuplicate h _ _ _ _ | exact h
  · refine lawful_updateSurvey h _ _ (fun e => ?_) (fun e he => ?_) fun e => ?_
    all_goals unfold SurveyEntry.learnNaming; split
    · rfl
    · rfl
    · exact he
    · exact ⟨he.q, he.r, he.dwell, le_trans (Nat.sub_le _ _) he.pacing⟩
    · rfl
    · rfl

theorem lawful_evict {s : State} (h : s.Lawful) (x : Headset) : (s.evict x).Lawful := by
  unfold evict
  split
  · exact h
  · split
    all_goals first | exact lawful_releaseEntry h _ | exact h

theorem lawful_decideEvict {s : State} (h : s.Lawful) : s.decideEvict.Lawful := by
  unfold decideEvict
  split
  · exact lawful_evict h _
  · exact h

end State
end Sys2Proof.Machine
end

