-- ==== Sys2Proof/Laws/Lookups.lean ====
section
/-! SUPPORT. What a lookup in the serve table or the survey list finds after an update of one entry. -/

namespace Sys2Proof.Machine

theorem State.entryAt_updateEntry (s : State) (k : Nat) (f : ServeEntry → ServeEntry) (hf : ∀ e, (f e).slot = e.slot)
    (j : Nat) : (s.updateEntry k f).entryAt j = if j = k then (s.entryAt j).map f else s.entryAt j := by
  simp only [State.entryAt, State.updateEntry, State.onRe]
  induction s.re.serve with
  | nil => simp
  | cons x xs ih =>
    by_cases hx : x.slot = k <;> by_cases hj : j = k <;> simp_all [List.find?_cons]
    by_cases h : x.slot = j <;> simp_all

theorem State.slots_updateEntry (s : State) (k : Nat) (f : ServeEntry → ServeEntry) (hf : ∀ e, (f e).slot = e.slot) :
    (s.updateEntry k f).re.serve.map ServeEntry.slot = s.re.serve.map ServeEntry.slot := by
  simp only [State.updateEntry, State.onRe, List.map_map]
  refine List.map_congr_left fun x _ => ?_
  simp only [Function.comp]
  split
  · exact hf x
  · rfl

theorem State.surveyFor_updateSurvey (s : State) (h : Headset) (f : SurveyEntry → SurveyEntry)
    (hf : ∀ e, (f e).headset = e.headset) (j : Headset) :
    (s.updateSurvey h f).surveyFor j = if j = h then (s.surveyFor j).map f else s.surveyFor j := by
  simp only [State.surveyFor, State.updateSurvey, State.onRe]
  induction s.re.survey with
  | nil => simp
  | cons x xs ih =>
    by_cases hx : x.headset = h <;> by_cases hj : j = h <;> simp_all [List.find?_cons]
    by_cases g : x.headset = j <;> simp_all

/-- The point of a handling reached: where the oldest message is the row's, its effect on RE's tables follows (R159). -/
theorem State.handle_eq {cfg : Settings} {s : State} {m : Placed} (h : s.Handles cfg m) (p : Placed → Bool)
    (hp : p m = true) (f : Settings → Placed → State → State) :
    s.handle p f = f cfg m { s with tqu := { s.tqu with reached := true } } := by
  obtain ⟨⟨h1, h2⟩, h3, h4⟩ := h
  unfold State.handle
  cases hq : s.tqu.pool with
  | nil => rw [hq] at h3; cases h3
  | cons x xs =>
    rw [hq] at h3
    simp only [List.head?_cons, Option.some.injEq] at h3
    subst h3
    simp [State.whenRun, h1, h2, hq, h4, hp, State.onTqu]

end Sys2Proof.Machine
end

