-- ==== Sys2Proof/Laws/Refs.lean ====
section
/-! SUPPORT. What acquires and releases do to the references of each group, once for each operation (R121, R122). -/

namespace Sys2Proof.Machine

theorem Vp.refs_not_stored {v : Vp} {g : Group} (h : v.stored g = false) : v.refs g = 0 := by
  have : v.find g = none := by simpa [Vp.stored] using h
  simp [Vp.refs, this]

/-- An acquire that is not refused raises the references of its group by one and of no other (R121). -/
theorem Vp.refs_acquire {v w : Vp} {g : Group} (hw : v.acquire g = some w) (h : Group) :
    w.refs h = v.refs h + if h = g then 1 else 0 := by
  unfold Vp.acquire at hw
  split at hw
  · next hs =>
    cases hw
    have hc : ((fun e : StoredGroup => decide (e.group = h)) ∘
        fun e => if e.group = g then { e with refs := e.refs + 1 } else e) = fun e => decide (e.group = h) := by
      funext x
      by_cases hx : x.group = g <;> simp [hx]
    simp only [Vp.stored, Vp.find] at hs
    simp only [Vp.refs, Vp.find, Vp.withStore, List.find?_map, hc]
    cases hf : v.store.find? fun e => decide (e.group = h) with
    | none =>
      have hg : h ≠ g := by
        rintro rfl
        simp [hf] at hs
      simp [hg]
    | some x =>
      have hx : x.group = h := by simpa using List.find?_some hf
      by_cases hg : h = g <;> simp [hx, hg]
  · next hs =>
    split at hw
    · cases hw
      have h0 : v.refs g = 0 := Vp.refs_not_stored (by simpa using hs)
      by_cases hg : h = g
      · subst hg
        have : v.find h = none := by simpa [Vp.stored] using hs
        simp only [Vp.find] at this
        simp [Vp.refs, Vp.find, Vp.withStore, List.find?_append, this]
      · have : ¬g = h := fun x => hg x.symm
        simp [Vp.refs, Vp.find, Vp.withStore, List.find?_append, hg, this]
    · cases hw

/-- A release lowers the references of its group by one, and of no other (R121). -/
theorem Vp.refs_release {v : Vp} (hv : v.Sound) (g h : Group) :
    (v.release g).refs h = v.refs h - if h = g then 1 else 0 := by
  have key : ∀ l : List StoredGroup, (l.map StoredGroup.group).Nodup →
      (((l.filterMap fun e => if e.group = g then (if e.refs ≤ 1 then none else some { e with refs := e.refs - 1 })
          else some e).find? fun e => decide (e.group = h)).map StoredGroup.refs).getD 0 =
        ((l.find? fun e => decide (e.group = h)).map StoredGroup.refs).getD 0 - if h = g then 1 else 0 := by
    intro l hl
    induction l with
    | nil => simp
    | cons e es ih =>
      have ⟨hn, hes⟩ := List.nodup_cons.mp hl
      have ih := ih hes
      by_cases hg : e.group = g
      · by_cases hr : e.refs ≤ 1
        · by_cases he : h = g
          · have h0 : es.find? (fun e => decide (e.group = h)) = none := by
              simp only [List.find?_eq_none, decide_eq_true_eq]
              intro x hx hxh
              exact hn (List.mem_map.mpr ⟨x, hx, by rw [hxh, he, hg]⟩)
            rw [h0] at ih
            rw [List.filterMap_cons]
            simp only [hg, if_true, hr]
            rw [ih]
            simp [he, hg]
            omega
          · have : ¬g = h := fun x => he x.symm
            rw [List.filterMap_cons]
            simp only [hg, if_true, hr]
            rw [ih]
            simp [hg, this]
        · by_cases he : h = g
          · simp [hg, hr, he]
          · have : ¬g = h := fun x => he x.symm
            rw [List.filterMap_cons]
            simp only [hg, if_true, hr, if_false]
            rw [List.find?_cons_of_neg (by simp [this]), List.find?_cons_of_neg (by simp [hg, this])]
            exact ih
      · rw [List.filterMap_cons]
        simp only [hg, if_false]
        by_cases he : e.group = h
        · have : ¬h = g := fun x => hg (he.trans x)
          simp [he, this]
        · rw [List.find?_cons_of_neg (by simp [he]), List.find?_cons_of_neg (by simp [he])]
          exact ih
  exact key v.store hv.distinct

/-- One release for each group of a list lowers the references of a group by its places in the list (R121). -/
theorem Vp.refs_releaseAll {v : Vp} (hv : v.Sound) (gs : List Group) (h : Group) :
    (v.releaseAll gs).refs h = v.refs h - gs.count h := by
  unfold Vp.releaseAll
  induction gs generalizing v with
  | nil => simp
  | cons g gs ih =>
    rw [List.foldl_cons, ih (Vp.sound_release hv g), Vp.refs_release hv]
    by_cases hg : h = g
    · subst hg; simp; omega
    · have : ¬g = h := fun x => hg x.symm
      simp [hg, this]

/-- VP's operations that only change the frames of the stored groups leave the references as they are (R121, R126, R128). -/
theorem Vp.refs_map {v : Vp} (f : StoredGroup → StoredGroup) (hg : ∀ e, (f e).group = e.group)
    (hr : ∀ e, (f e).refs = e.refs) (h : Group) : Vp.refs { v with store := v.store.map f } h = v.refs h := by
  simp only [Vp.refs, Vp.find]
  induction v.store with
  | nil => rfl
  | cons e es ih => by_cases he : e.group = h <;> simp_all

@[simp] theorem Vp.refs_consume (v : Vp) (h : Group) : v.consume.refs h = v.refs h :=
  Vp.refs_map (v := v) (fun e => { e with current := none }) (fun _ => rfl) (fun _ => rfl) h

end Sys2Proof.Machine
end

