-- ==== Sys2Proof/Laws/Trunk.lean ====
section
/-! SUPPORT. The law of TLC: what each of its operations keeps of `Tlc.Sound`, and when a rule of RUN acts. -/

namespace Sys2Proof.Machine

/-! ## Rules that act in RUN, and matrix records -/

theorem State.whenRun_inRun {cfg : Settings} {s : State} (h : s.InRun cfg) (f : Settings → State → State) :
    s.whenRun f = f cfg s := by simp [State.whenRun, h.node, h.config]

theorem State.whenRun_other {s : State} (h : s.cfl.node ≠ .run) (f : Settings → State → State) : s.whenRun f = s := by
  unfold State.whenRun
  cases hn : s.cfl.node <;> simp_all

/-- A sound record is acted on in every node state but STANDBY (R163, R164). -/
theorem State.takeRecord_sound {s : State} (hs : s.cfl.node ≠ .standby) {kind : Byte} {need : Nat} {record body : List Byte}
    (h : checkRecord kind need record = .sound body) (act : List Byte → State → State) :
    s.takeRecord kind need record act = act body s := by
  unfold State.takeRecord
  rw [h]
  revert hs
  cases s.cfl.node <;> simp

/-! ## TLC's operations -/

theorem Tlc.seed_ne (identity : BitVec 32) : Tlc.seed identity ≠ 0 := by
  unfold Tlc.seed
  split
  · decide
  · assumption

theorem Tlc.sound_cold (identity : BitVec 32) : (Tlc.cold identity).Sound :=
  ⟨Tlc.seed_ne identity, Nat.zero_le _, Nat.zero_le _, Nat.zero_le _, (by intro h; cases h), (by intro h; cases h),
    (by constructor <;> intro h <;> cases h), by intro r h; cases h⟩

theorem Tlc.sound_rejoin {t : Tlc} (h : t.Sound) : t.rejoin.Sound :=
  ⟨h.generator, Nat.zero_le _, Nat.zero_le _, Nat.zero_le _, (by intro x; cases x), (by intro x; cases x),
    (by constructor <;> intro x <;> cases x), h.trap⟩

theorem Tlc.sound_elapse {t : Tlc} (h : t.Sound) (n : Nat) : (t.elapse n).Sound :=
  ⟨h.generator, (Nat.sub_le _ _).trans h.wait, h.idleRun, h.heldRun, h.attempt, h.arbitrating, h.reading, h.trap⟩

theorem Tlc.sound_noRun {t : Tlc} (h : t.Sound) : t.noRun.Sound :=
  ⟨h.generator, h.wait, Nat.zero_le _, Nat.zero_le _, h.attempt, h.arbitrating, h.reading, h.trap⟩

theorem Tlc.sound_read {t : Tlc} (h : t.Sound) (x : LineSymbol) : (t.read x).Sound := by
  cases x
  case idle =>
    exact ⟨h.generator, h.wait, Nat.min_le_left _ _, Nat.zero_le _, h.attempt, h.arbitrating, h.reading, h.trap⟩
  case held =>
    exact ⟨h.generator, h.wait, Nat.zero_le _, Nat.min_le_left _ _, h.attempt, h.arbitrating, h.reading, h.trap⟩
  all_goals exact Tlc.sound_noRun h

theorem Tlc.sound_readFault {t : Tlc} (h : t.Sound) (bits : Nat) (held : Bool) (x : LineSymbol) :
    (t.readFault bits held x).Sound := by
  unfold Tlc.readFault
  split
  · exact Tlc.sound_read (Tlc.sound_noRun (Tlc.sound_elapse h bits)) x
  · exact Tlc.sound_read (Tlc.sound_elapse h bits) x

theorem Tlc.sound_readBitFault {t : Tlc} (h : t.Sound) (cause : BitFaultCause) : (t.readBitFault cause).Sound := by
  cases cause with
  | startBit x => exact Tlc.sound_read h x
  | differs x => exact Tlc.sound_read (Tlc.sound_noRun h) x
  | heldRun x => exact Tlc.sound_read (Tlc.sound_noRun h) x

theorem Tlc.sound_startReading {t : Tlc} (h : t.Sound) (follows : Bool) : (t.startReading follows).Sound :=
  ⟨h.generator, h.wait, h.idleRun, h.heldRun, (by intro x; cases x), (by intro x; cases x),
    ⟨fun _ => rfl, fun _ => rfl⟩, h.trap⟩

/-- Outside ARBITRATING and SENDING nothing is in hand. -/
theorem Tlc.attempt_none {t : Tlc} (h : t.Sound) (ha : t.state ≠ .arbitrating) (hs : t.state ≠ .sending) :
    t.attempt = none := by
  cases hx : t.attempt with
  | none => rfl
  | some a => exact absurd (h.attempt (by simp [hx])) (by simp [ha, hs])

/-- With nothing in hand TLC may go to any state but ARBITRATING and RECEIVING, nothing being read. -/
theorem Tlc.sound_between {t : Tlc} (h : t.Sound) (hn : t.attempt = none) (x : TlcState) (ha : x ≠ .arbitrating)
    (hr : x ≠ .receiving) : Tlc.Sound { t with state := x, reading := none } :=
  ⟨h.generator, h.wait, h.idleRun, h.heldRun, by intro y; simp [hn] at y, fun y => absurd y ha,
    ⟨(fun y => by cases y), fun y => absurd y hr⟩, h.trap⟩

theorem Tlc.sound_rest {t : Tlc} (h : t.Sound) (hn : t.attempt = none) : t.rest.Sound := by
  refine Tlc.sound_between h hn t.restState ?_ ?_ <;> unfold Tlc.restState <;> split <;> decide

theorem Tlc.sound_loseTiming {t : Tlc} (h : t.Sound) (hn : t.attempt = none) : t.loseTiming.Sound := by
  unfold Tlc.loseTiming
  split
  · exact Tlc.sound_rest h hn
  · exact Tlc.sound_between h hn .waitIdle (by decide) (by decide)

theorem advanceGenerator_ne {g : BitVec 16} (h : g ≠ 0) : advanceGenerator g ≠ 0 := by
  intro hz
  apply h
  have low : (advanceGenerator g).getLsbD 0 = (g.getLsbD 15 ^^ g.getLsbD 13 ^^ g.getLsbD 12 ^^ g.getLsbD 10) := by
    simp [advanceGenerator, BitVec.getLsbD_setWidth, -BitVec.getLsbD_eq_getElem]
  have high : ∀ i, i < 15 → g.getLsbD i = false := by
    intro i hi
    have : (advanceGenerator g).getLsbD (i + 1) = g.getLsbD i := by
      simp [advanceGenerator, BitVec.getLsbD_setWidth]
      omega
    rw [← this, hz]
    simp
  rw [hz, high 13 (by omega), high 12 (by omega), high 10 (by omega)] at low
  refine BitVec.eq_of_getLsbD_eq fun i hi => ?_
  by_cases hh : i < 15
  · simp [high i hh]
  · have : i = 15 := by omega
    subst this
    simpa using low.symm

theorem drawBackoff_lt (g : BitVec 16) (n : Nat) : drawBackoff g n < 32 := by
  have h1 : drawBackoff g n < 2 ^ min n 5 := Nat.mod_lt _ (by positivity)
  have h2 : 2 ^ min n 5 ≤ 2 ^ 5 := Nat.pow_le_pow_right (by omega) (by omega)
  omega

theorem Tlc.sound_startBackoff {t : Tlc} (h : t.Sound) (n : Nat) : (t.startBackoff n).Sound := by
  refine ⟨advanceGenerator_ne h.generator, ?_, h.idleRun, h.heldRun, h.attempt, h.arbitrating, h.reading, h.trap⟩
  have := drawBackoff_lt t.generator n
  show drawBackoff t.generator n * 32 ≤ longestWait
  unfold longestWait
  omega

theorem Tlc.sound_acknowledge {t : Tlc} (h : t.Sound) : t.acknowledge.Sound :=
  ⟨h.generator, h.wait, h.idleRun, h.heldRun, h.attempt, h.arbitrating,
    by simpa [Tlc.acknowledge] using h.reading, h.trap⟩

theorem Tlc.sound_trapAfter {t : Tlc} (h : t.Sound) (a : BitVec 13) :
    Tlc.Sound { t with trap := trapAfter a t.trap } := by
  refine ⟨h.generator, h.wait, h.idleRun, h.heldRun, h.attempt, h.arbitrating, h.reading, ?_⟩
  intro r hr
  have ht := h.trap
  simp only [trapAfter] at hr
  split at hr
  · cases hr
    exact ⟨le_refl _, by simp⟩
  · next x hx =>
    cases hr
    have := ht x hx
    simp

theorem Tlc.sound_stick {t : Tlc} (h : t.Sound) : t.stick.Sound :=
  ⟨h.generator, Nat.zero_le _, h.idleRun, h.heldRun, (by intro x; cases x), (by intro x; cases x),
    (by constructor <;> intro x <;> cases x), h.trap⟩

/-- A failed attempt leaves TLC as it was, or with a backoff wait started. -/
theorem State.tlc_failAttempt (a : Attempt) (s : State) :
    (s.failAttempt a).tlc = s.tlc ∨ ∃ n, (s.failAttempt a).tlc = s.tlc.startBackoff n := by
  unfold State.failAttempt
  split
  · split
    · exact .inr ⟨_, rfl⟩
    · refine .inl ?_
      exact (State.stays_whenRun _ _ fun cfg => State.stays_tellOwner cfg false _ _).tlc
  · split
    · exact .inr ⟨_, rfl⟩
    · exact .inl rfl

theorem State.tlc_sound_failAttempt {s : State} (h : s.tlc.Sound) (a : Attempt) : (s.failAttempt a).tlc.Sound := by
  rcases s.tlc_failAttempt a with e | ⟨n, e⟩ <;> rw [e]
  · exact h
  · exact Tlc.sound_startBackoff h n

/-- The report that the trunk is joined changes CFL and the listen-in countdown alone. -/
theorem State.tlc_reportTrunk (s : State) : s.reportTrunk.tlc = s.tlc := by
  unfold State.reportTrunk State.runIfJoined
  split
  · split <;> rfl
  · rfl

/-! ## Symbols of the line -/

/-- Anything that holds of TLC in the states a symbol can lead to holds after it: the runs moved and nothing else, a frame
begun, the state between frames, IDLE out of STUCK, or STUCK (R131, R134, R135, R146). -/
theorem State.tlc_hear (x : LineSymbol) (s : State) :
    (s.hear x).tlc = s.tlc ∨
    ∃ t : Tlc, t = (s.tlc.elapse 1).read x ∧
      ((s.hear x).tlc = t ∨ (s.hear x).tlc = t.stick ∨
        ((s.tlc.state = .waitIdle ∨ s.tlc.state = .idle ∨ s.tlc.state = .backoff) ∧
          ((s.hear x).tlc = t.startReading false ∨ (s.hear x).tlc = t.rest ∨ (s.hear x).tlc = t.rest.stick)) ∨
        (s.tlc.state = .stuck ∧ (s.hear x).tlc = { t with state := .idle })) := by
  have hs : ∀ u : State, u.stickIfHeld.tlc = u.tlc ∨ u.stickIfHeld.tlc = u.tlc.stick := fun u => by
    unfold State.stickIfHeld
    split
    · exact .inr rfl
    · exact .inl rfl
  have hr : ∀ u : State, u.reportEntry.tlc = u.tlc := fun u => by
    unfold State.reportEntry
    split
    all_goals first | exact u.tlc_reportTrunk | rfl
  unfold State.hear
  dsimp only
  split
  · exact .inl rfl
  · refine .inr ⟨_, rfl, ?_⟩
    rcases hs (s.onTlc fun t => (t.elapse 1).read x) with h | h <;> simp [h]
  · refine .inr ⟨_, rfl, ?_⟩
    rcases hs (s.onTlc fun t => (t.elapse 1).read x) with h | h <;> simp [h]
  · refine .inr ⟨_, rfl, ?_⟩
    rcases hs (s.onTlc fun t => (t.elapse 1).read x) with h | h <;> simp [h]
  · next hw =>
    refine .inr ⟨_, rfl, ?_⟩
    split
    · simp [hr, hw]
    · split
      · simp [hr, hw]
      · rcases hs (s.onTlc fun t => (t.elapse 1).read x) with h | h <;> simp [h]
  · next hw =>
    refine .inr ⟨_, rfl, ?_⟩
    split
    · simp [hw]
    · rcases hs (s.onTlc fun t => (t.elapse 1).read x) with h | h <;> simp [h]
  · next hw =>
    refine .inr ⟨_, rfl, ?_⟩
    split
    · simp [hr, hw]
    · rcases hs ((s.onTlc fun t => (t.elapse 1).read x).onTlc Tlc.rest).reportEntry with h | h <;> simp [h, hr, hw]
  · next hw =>
    refine .inr ⟨_, rfl, ?_⟩
    split
    · simp [hr, hw]
    · simp

theorem State.tlc_sound_hear {s : State} (h : s.tlc.Sound) (x : LineSymbol) : (s.hear x).tlc.Sound := by
  have ht := Tlc.sound_read (Tlc.sound_elapse h 1) x
  have hst : ((s.tlc.elapse 1).read x).state = s.tlc.state := by cases x <;> rfl
  have hat : s.tlc.state ≠ .arbitrating → s.tlc.state ≠ .sending → ((s.tlc.elapse 1).read x).attempt = none :=
    fun a b => Tlc.attempt_none ht (hst ▸ a) (hst ▸ b)
  have hrd : s.tlc.state ≠ .receiving → ((s.tlc.elapse 1).read x).reading = none := fun a => by
    cases hx : ((s.tlc.elapse 1).read x).reading with
    | none => rfl
    | some r => exact absurd (hst ▸ ht.reading.mp (by simp [hx])) a
  rcases s.tlc_hear x with e | ⟨t, rfl, e | e | ⟨hb, e | e | e⟩ | ⟨hb, e⟩⟩ <;> rw [e]
  · exact h
  · exact ht
  · exact Tlc.sound_stick ht
  · exact Tlc.sound_startReading ht false
  · refine Tlc.sound_rest ht (hat ?_ ?_) <;> rcases hb with hb | hb | hb <;> simp [hb]
  · refine Tlc.sound_stick (Tlc.sound_rest ht (hat ?_ ?_)) <;> rcases hb with hb | hb | hb <;> simp [hb]
  · have := Tlc.sound_between ht (hat (by simp [hb]) (by simp [hb])) .idle (by decide) (by decide)
    rwa [← hrd (by simp [hb])] at this

/-- Every run of symbols keeps the law of TLC. -/
theorem State.tlc_sound_hearAll {s : State} (h : s.tlc.Sound) (line : List LineSymbol) : (s.hearAll line).tlc.Sound := by
  induction line generalizing s with
  | nil => exact h
  | cons x xs ih => exact ih (State.tlc_sound_hear h x)

/-- What the symbols of the line leave and keep: APC, VP, both tables of RE and the queue of commands as they were, the laws
of the transmit queues and of MLC. -/
structure State.OffLine (s t : State) : Prop where
  apc : t.apc = s.apc
  vp : t.vp = s.vp
  pending : t.pending = s.pending
  serve : t.re.serve = s.re.serve
  survey : t.re.survey = s.re.survey
  tqu : s.tqu.Sends t.tqu
  mlc : s.mlc.Grows t.mlc

theorem State.OffLine.refl (s : State) : s.OffLine s := ⟨rfl, rfl, rfl, rfl, rfl, .refl _, .refl _⟩

theorem State.OffLine.trans {a b c : State} (h : a.OffLine b) (g : b.OffLine c) : a.OffLine c :=
  ⟨g.apc.trans h.apc, g.vp.trans h.vp, g.pending.trans h.pending, g.serve.trans h.serve, g.survey.trans h.survey,
    h.tqu.trans g.tqu, h.mlc.trans g.mlc⟩

theorem State.offLine_onTlc (f : Tlc → Tlc) (s : State) : s.OffLine (s.onTlc f) :=
  ⟨rfl, rfl, rfl, rfl, rfl, .refl _, .refl _⟩

theorem State.offLine_stickIfHeld (s : State) : s.OffLine s.stickIfHeld := by
  unfold State.stickIfHeld
  split
  · refine ⟨rfl, rfl, rfl, rfl, rfl, Tqu.sends_changeInHand _ _, Mlc.Grows.trans ?_ (Mlc.grows_notify _ _)⟩
    exact ⟨fun h => ⟨h.counters, h.notices, h.uplinks, rfl, h.evict⟩, rfl, ⟨id, fun _ => rfl, id, id, id, id, id⟩, id⟩
  · exact .refl s

theorem State.offLine_reportEntry (s : State) : s.OffLine s.reportEntry := by
  unfold State.reportEntry State.reportTrunk State.runIfJoined
  repeat' split
  all_goals exact ⟨rfl, rfl, rfl, rfl, rfl, .refl _, .refl _⟩

theorem State.offLine_hear (x : LineSymbol) (s : State) : s.OffLine (s.hear x) := by
  have t := State.offLine_onTlc (fun t => (t.elapse 1).read x) s
  unfold State.hear
  dsimp only
  repeat' split
  · exact .refl s
  · exact t.trans (State.offLine_stickIfHeld _)
  · exact t.trans (State.offLine_stickIfHeld _)
  · exact t.trans (State.offLine_stickIfHeld _)
  · exact (t.trans (State.offLine_onTlc _ _)).trans (State.offLine_reportEntry _)
  · exact (t.trans (State.offLine_onTlc _ _)).trans (State.offLine_reportEntry _)
  · exact t.trans (State.offLine_stickIfHeld _)
  · exact t.trans (State.offLine_onTlc _ _)
  · exact t.trans (State.offLine_stickIfHeld _)
  · exact (t.trans (State.offLine_onTlc _ _)).trans (State.offLine_reportEntry _)
  · exact ((t.trans (State.offLine_onTlc _ _)).trans (State.offLine_reportEntry _)).trans (State.offLine_stickIfHeld _)
  · exact (t.trans (State.offLine_onTlc _ _)).trans (State.offLine_reportEntry _)
  · exact t

/-- Every run of symbols leaves what one leaves. -/
theorem State.offLine_hearAll (line : List LineSymbol) (s : State) : s.OffLine (s.hearAll line) := by
  induction line generalizing s with
  | nil => exact .refl s
  | cons x xs ih => exact (State.offLine_hear x s).trans (ih _)

end Sys2Proof.Machine
end

