-- ==== Sys2Proof/WellFormed.lean ====
section
/-! DEFINITION. Which terms of `Instr` spell an event that the ports or the blocks can bring. The machine is total
on every term; an ill-formed one stands for no event of the spec. -/

namespace Sys2Proof

/-- An air port record: a kind, a length byte, and as many bytes as it states (section 12.3). -/
def airRecordOk : List Byte → Bool
  | _ :: length :: body => body.length == length.toNat
  | _ => false

/-- The kind bytes of the five inbound matrix records (section 12.2). -/
def inboundKinds : List Byte := [0x01, 0x02, 0x03, 0x04, 0x05]

/-- A row of one inbound kind brings a record of that kind, or one whose kind byte is none of the five (R163). -/
def matrixRecordOk (kind : Byte) (record : List Byte) : Bool :=
  record.head?.all fun k => k == kind || !inboundKinds.contains k

/-- Symbols that make an acknowledge failure: any but DOMINANT, which delivers, and HELD, which R144 owns (R142). -/
def acknowledgeFailureSymbol : LineSymbol → Bool
  | .recessive | .idle | .violation => true
  | .dominant | .held => false

/-- Node numbers that name a node (R132). -/
def isNodeNumber (n : Node) : Bool := n != 0 && n != 255

/-- The symbols of a bit fault: HELD is none, a start bit read DOMINANT is as sent, and no run of HELD ends with HELD (R136, R144). -/
def bitFaultOk : BitFaultCause → Bool
  | .startBit read => read != .dominant && read != .held
  | .differs read => read != .held
  | .heldRun ended => ended != .held

/-- A run of HELD that makes a framing fault has ended with another symbol (R137). -/
def framingCauseOk : FramingCause → Bool
  | .heldRun ended => ended != .held
  | .stoppedShort | .violation | .lengthOutOfRange | .frameEndNotSeen _ => true

/-- The symbols before this node's own start bit: a DOMINANT among them would be another node's (R135). -/
def quietLineOk (line : List LineSymbol) : Bool := !line.contains .dominant

def Instr.wellFormed : Instr → Bool
  | .cycleMark b | .slotReport b | .surveyReport b | .seekCall b | .orderResult b => airRecordOk b
  | .groupFrame b => matrixRecordOk 0x01 b
  | .statusQuery b => matrixRecordOk 0x02 b
  | .clear b => matrixRecordOk 0x03 b
  | .evict b => matrixRecordOk 0x04 b
  | .restart b => matrixRecordOk 0x05 b
  | .trunkAttemptStart l => quietLineOk l
  | .bitFault c => bitFaultOk c
  | .framingFault _ c => framingCauseOk c
  | .arrivalTimeout k | .handingTimeout k | .rescueTimeout k | .settleEnd k | .cutLink k | .orderExpiry k
  | .drainEmpty k => decide (k < slotCount)
  | .replyTimeout h | .surveyAging h | .knowledgeExpiry h | .seekHoldOffEnd h => isIdentity h
  | .neighbourHoldExpiry n => isNodeNumber n
  | .acknowledgeFailure r => acknowledgeFailureSymbol r
  | .frameReceived _ _ _ p _ => decide (p.length ≤ payloadLimit)
  | .powerOn | .resetLineAsserted | .resetLineReleased | .configLoadComplete _ | .listenInEnd | .ownHoldExpiry
  | .arbitrationLost | .delivered | .backoffEnd _ | .frameEnd _ | .waitIdleExit _ | .stuckEntry _ | .stuckExit _
  | .takenHandling | .claimHandling | .seekClaimHandling | .yieldHandling | .declineHandling | .standingHandling
  | .handlingComplete | .outboundRecordStart | .anotherNodesStartBit _ | .arbitrationWon => true

end Sys2Proof
end

