-- ==== Sys2Proof/Tests/Slice0.lean ====
section
/-! SUPPORT. Tests on small states: each check of WellFormed refusing an ill-formed term, the spec's worked examples, one
step of a command, and for each obligation with hypotheses a state and operands that meet them. Expected values come from
the worked sequences of spec/ and from its tables; each docstring names its source. -/

namespace Sys2Proof.Tests

-- One thread for the evaluations below: each waits for the kernel, and side by side they exceed the memory limit.
set_option Elab.async false

open Sys2Proof Sys2Proof.Machine

/-! ## Ill-formed terms -/

theorem test_wf_refuses_air_length : (Instr.cycleMark [0x01, 2, 0]).wellFormed = false := by decide
theorem test_wf_refuses_other_rows_kind : (Instr.clear [0x05, 0, 0, 0, 0]).wellFormed = false := by decide
theorem test_wf_takes_unknown_kind : (Instr.clear [0x09, 0, 0, 0, 0]).wellFormed = true := by decide
theorem test_wf_refuses_dominant_before_own_start_bit :
    (Instr.trunkAttemptStart [.idle, .dominant]).wellFormed = false := by decide
theorem test_wf_refuses_held_bit_fault : (Instr.bitFault (.differs .held)).wellFormed = false := by decide
theorem test_wf_refuses_dominant_start_bit : (Instr.bitFault (.startBit .dominant)).wellFormed = false := by decide
theorem test_wf_refuses_unended_held_run : (Instr.bitFault (.heldRun .held)).wellFormed = false := by decide
theorem test_wf_refuses_unended_framing_run : (Instr.framingFault 0 (.heldRun .held)).wellFormed = false := by decide
theorem test_wf_refuses_slot_24 : (Instr.arrivalTimeout 24).wellFormed = false := by decide
theorem test_wf_refuses_no_identity : (Instr.replyTimeout 0).wellFormed = false := by decide
theorem test_wf_refuses_broadcast_neighbour : (Instr.neighbourHoldExpiry 255).wellFormed = false := by decide
theorem test_wf_refuses_dominant_acknowledge : (Instr.acknowledgeFailure .dominant).wellFormed = false := by decide
theorem test_wf_refuses_long_payload :
    (Instr.frameReceived 0 0 0 (List.replicate 49 0) 0).wellFormed = false := by decide +kernel
theorem test_wf_takes_last_slot : (Instr.arrivalTimeout 23).wellFormed = true := by decide

/-- The table gives its rows no bits (opcode_table.json), so no word spells a command. -/
theorem test_decode_spells_none : decodeTableWord 8 0 = none := by decide

/-! ## Scores (section 2.11) -/

/-- Two samples at ordinary values: 800 goes to 796, then to 753, read as 50 and 47. -/
theorem test_smooth_ordinary :
    smooth 3 800 48 = 796 ∧ smooth 3 796 28 = 753 ∧ reported 796 = 50 ∧ reported 753 = 47 := by decide

/-- The limits of the smoothed score. -/
theorem test_smooth_limits :
    smooth 3 1440 90 = 1440 ∧ smooth 3 1 0 = 0 ∧ smooth 5 1440 0 = 1395 ∧ smooth 2 0 90 = 360 ∧ smooth 2 803 50 = 802 ∧
      reported 1395 = 87 ∧ reported 360 = 23 ∧ reported 802 = 50 := by decide

/-- The last steps toward a target: 1436 takes four samples to 1440. -/
theorem test_smooth_last_steps :
    smooth 2 1436 90 = 1437 ∧ smooth 2 1437 90 = 1438 ∧ smooth 2 1438 90 = 1439 ∧ smooth 2 1439 90 = 1440 := by decide

/-- The limits of the sample value. -/
theorem test_sample_limits :
    sampleValue .good (-128) = 0 ∧ sampleValue .erroredReport (-128) = 0 ∧ sampleValue .erroredReport (-105) = 0 ∧
      sampleValue .frame 0 = 90 ∧ sampleValue .erroredReport (-10) = 78 ∧ sampleValue .silentReport 0 = 0 ∧
      sampleValue .seekCall (-98) = 12 := by decide

/-- The limits of the claim score: 103 is taken as 90, −11 as 0. -/
theorem test_claim_score_limits : claimScore 88 15 = 90 ∧ claimScore 4 (-15) = 0 := by decide

/-! ## The trunk's numbers (section 8.9) -/

/-- Three nodes start together: the values of their arbitration fields. -/
theorem test_arbitration_values :
    arbitrationField 1 1 4 = 2308 ∧ arbitrationField 2 3 12 = 4876 ∧ arbitrationField 3 5 7 = 7431 := by decide

/-- The CRC register after the class, after the arbitration field and after the destination. -/
theorem test_crc8_register :
    crc8 [false] = 0xF9 ∧ crc8 [false, true] = 0xF2 ∧ crc8 (bitsMsb (arbitrationField 1 1 9)) = 0xB8 ∧
      crc8 (bitsMsb (arbitrationField 1 1 9) ++ bitsMsb (255 : Node)) = 0xD2 := by decide +kernel

/-! ## The voice path's numbers (chapter Voice Path) -/

/-- The bins of R124's table. -/
theorem test_bins : [3, 8, 21, 30, 92, 135].map binOf = [3, 9, 23, 29, 23, 23] := by decide

/-- One mix (section 7.8): the three sample positions, and the clamped samples. -/
theorem test_mix_totals :
    let v : Vp :=
      { store := [{ group := 21, refs := 1, current := some [30000, 100, -32768], lastSeq := some 78 },
                  { group := 92, refs := 1, current := some [12000, -12001, -32768], lastSeq := some 201 }]
        mask := 0 }
    mixTotals v [⟨21, 0⟩, ⟨92, 1⟩] = [36000, -5901, -49152] ∧
      (mixTotals v [⟨21, 0⟩, ⟨92, 1⟩]).map clampTotal = [32767, -5901, -32768] ∧
      (-12001 : Int) / 2 ^ 1 = -6001 := by decide +kernel

/-! ## Small states -/

/-- A configuration with every value in its range. -/
def cfg0 : Settings :=
  { node := 12, channel := 4, k := 3, hysteresis := 6, margin := 12, dwellNeed := 3, floor := 30, settleTime := 20,
    replyTime := 8, arrivalTime := 4, handingTime := 16, seekWait := 5, cutLink := 10, rescueWindow := 100, standing := 10,
    agingLimit := 50, holdThreshold := 4, holdQuanta := 16, depth := 3, fullFill := false, silence := 0xD5,
    enables := ⟨true, false, false, true⟩, permitDefault := true, defaults := { listen := [⟨21, 0⟩], talk := some 21 },
    neighbours := [⟨7, 2⟩, ⟨9, -15⟩], admissions := [{ headset := 99, permit := false, block := none }] }

/-- A node in RUN with nothing in its tables. -/
def run0 : State :=
  { State.reset with
    cfl := { node := .run, resetLine := false, trunkJoined := true, airJoined := true, config := some cfg0, identity := 0 }
    re := { Re.cold with listenIn := some 0 }
    tqu := { Tqu.cold with neighbourHolds := [0, 0] }
    tlc := { Tlc.cold 0 with state := .idle, idleRun := 11 }
    mlc := { Mlc.cold with enables := cfg0.enables } }

/-- The same node in another node state. -/
def inState (x : NodeState) : State := { run0 with cfl := { run0.cfl with node := x } }

/-- The same node with TLC in another state. -/
def tlcState (x : TlcState) : State := { run0 with tlc := { run0.tlc with state := x } }

/-- Headset 51007, SERVED in slot 2. -/
def entry0 : ServeEntry :=
  { headset := 51007, state := .served, slot := 2, listen := [⟨21, 0⟩, ⟨92, 1⟩], talk := some 21, q := 800, r := 50,
    heard := true, lossRun := 0, settle := 0, count := 3, lastReported := 4, offerChanged := false, origin := none,
    tag := none, arrivalTimer := none, rescueTimer := none, handing := none, yieldOwed := none, previous := none,
    ring := { frames := [], expected := some 37, playing := true } }

/-- The handing record of a claim by node 7, the move order sent. -/
def handing0 : HandingRecord :=
  { claimant := 7, tag := 1, phase := .moveSent, channel := 3, slot := 5, timer := some 9 }

/-- Headset 40112, heard with R 58; node 7 serves it with R 50. -/
def survey0 : SurveyEntry :=
  { headset := 40112, q := 928, r := 58, lastHeard := 0, dwell := 3, pacing := 0, holdOff := 0,
    knowledge := some { node := 7, score := some 50, offered := true, count := 2, groups := some [21, 30], age := 0 },
    claim := none }

/-- A NORMAL claim, SENT under tag 9 with slot 4. -/
def claim0 : ClaimRecord :=
  { kind := .normal, tag := 9, slot := 4, groups := [21], phase := .sent, replyTimer := some 1, callListen := none,
    callTalk := none }

/-- A node in RUN that holds an entry in its slot. -/
def holding (e : ServeEntry) : State :=
  { run0 with
    re := { run0.re with serve := [e] }
    apc := { run0.apc with slots := run0.apc.slots.set e.slot { state := .assigned e.headset, order := none } }
    vp := run0.vp.acquireAll (e.listen.map ListenItem.group) }

/-- A node in RUN with a survey entry, and the slot and groups of its claim reserved. -/
def hearing (e : SurveyEntry) : State :=
  { run0 with
    re := { run0.re with survey := [e] }
    apc := match e.claim with
      | some c => { run0.apc with slots := run0.apc.slots.set c.slot { state := .reserved c.tag, order := none } }
      | none => run0.apc
    vp := run0.vp.acquireAll ((e.claim.map ClaimRecord.groups).getD []) }

/-- The same state with a message placed. -/
def placing (m : Placed) (s : State) : State := { s with tqu := { s.tqu with pool := [m] } }

/-- The same state with an order pending on a slot. -/
def ordering (k : Nat) (o : PendingOrder) (s : State) : State :=
  { s with apc := { s.apc with slots := s.apc.slots.modify k fun x => { x with order := some o } } }

/-- A placed message of a kind from a sender. -/
def message (body : Body) (sender destination : Node) : Placed :=
  { cls := 1, kind := body.code, sender := sender, destination := destination, payload := body.payload }

/-- The state after a command. -/
def after (c : Instr) (s : State) : State :=
  match exec c s with
  | .next t => t
  | .fault _ => s
  | .refused _ => s

/-- The record of a SLOT REPORT FRAME (section 12.3). -/
def frameRecord (slot level : Byte) (h : Headset) (seq : Byte) : List Byte :=
  [0x02, 48, slot, 0, level] ++ word32Bytes h ++ [seq] ++ List.replicate 40 0

/-- The record of a CYCLE MARK with number 1, of a SURVEY REPORT, and of a SEEK CALL without groups (section 12.3). -/
def mark1 : List Byte := [0x01, 2, 0, 1]
def surveyRecord (h : Headset) (level result : Byte) : List Byte := [0x03, 6] ++ word32Bytes h ++ [level, result]
def callRecord (h : Headset) (level : Byte) : List Byte := [0x04, 8] ++ word32Bytes h ++ [level, 0, 0, 0]

/-- A sound image with no list items (section 12.4), its CRC computed over what stands before it. -/
def image0 : List Byte :=
  let covered : List Byte :=
    [0x7C, 0x31, 0, 43, 12, 4, 3, 6, 12, 3, 30, 20, 8, 4, 16, 5, 10, 0, 100, 10, 50, 4, 16, 3, 0, 0xD5, 9, 1] ++
      [1, 1, 21, 21, 0, 0, 0, 0, 0, 0, 0] ++ [0, 0]
  covered ++ word16Bytes (crc16 covered)

theorem run0_inRun : run0.InRun cfg0 := ⟨rfl, rfl⟩
theorem holding_inRun (e : ServeEntry) : (holding e).InRun cfg0 := ⟨rfl, rfl⟩
theorem hearing_inRun (e : SurveyEntry) : (hearing e).InRun cfg0 := ⟨rfl, rfl⟩

/-! ## Witnesses: the machine, reset and start-up -/

theorem witness_StepTakesFront : ({ run0 with pending := [.powerOn] } : State).pending = Instr.powerOn :: [] := rfl
theorem witness_EveryCommandCompletes : State.reset.pending = [] := rfl
theorem witness_ColdReset :
    State.reset.cfl.node = .standby ∧ run0.cfl.node ≠ .standby ∧ (Instr.powerOn = .powerOn ∨ Instr.powerOn = .resetLineAsserted) := by
  decide
theorem witness_ImageLoadEnds :
    let byte (a : Nat) : Byte := (image0[a]?).getD 0xFF
    let word (a : Nat) : Nat := (byte a).toNat * 256 + (byte (a + 1)).toNat
    (inState .loading).cfl.node = .loading ∧ word 0 = 0x7C31 ∧ 43 ≤ word 2 ∧ word 2 ≤ 2048 ∧
      43 + 2 * (byte 39).toNat + 16 * (byte 40).toNat ≤ word 2 ∧
      crc16 ((List.range (word 2 - 2)).map byte) = byte (word 2 - 2) ++ byte (word 2 - 1) ∧
      ((([] : List Byte)[0]?).getD 0xFF).toNat * 256 + ((([] : List Byte)[1]?).getD 0xFF).toNat ≠ 0x7C31 ∧
      run0.cfl.node ≠ .loading := by
  decide +kernel
theorem witness_JoiningEnds :
    let s : State := { inState .joining with tlc := { run0.tlc with state := .waitIdle, idleRun := 0, wait := 11 } }
    s.cfl.node = .joining ∧ s.cfl.config = some cfg0 ∧ readCycleMark mark1 = some 1 ∧ s.apc.lastCycle ≠ some 1 ∧
      s.tlc.state = .waitIdle ∧ 1 ≤ 11 ∧ 11 ≤ s.tlc.idleRun + 11 ∧ s.tlc.wait ≤ 11 ∧ 3 ≤ s.tlc.idleRun + 3 := by decide
theorem witness_LoadedValuesInRange :
    let image : List Byte :=
      [0x7C, 0x31, 0, 57, 12, 4, 3, 6, 12, 3, 30, 20, 8, 4, 16, 5, 10, 0, 100, 10, 50, 4, 16, 3, 0, 0xD5, 9, 1] ++
        [1, 1, 21, 21, 0, 0, 0, 0, 0, 0, 0] ++ [0, 1] ++ word32Bytes 40112 ++ [1, 200, 1, 21, 21, 9, 30, 0, 3, 7, 4, 8]
    (loadedSettings image).admissions.map (fun a => a.block.map fun b => b.listen) =
      [some [⟨21, 7⟩, ⟨30, 0⟩, ⟨3, 7⟩, ⟨4, 7⟩]] := by decide +kernel
theorem witness_WarmRestart :
    checkRecord 0x05 0 (matrixRecord 5 []) = .sound [] ∧ (inState .joining).cfl.node = .joining ∧ run0.cfl.node = .run ∧
      (inState .loading).cfl.node = .loading ∧ (inState .fault).cfl.node = .fault ∧ run0.mlc.evict = none ∧
      { run0.mlc with evict := some 51007 }.evict = some 51007 := by decide +kernel
theorem witness_NodeStateChanges :
    exec .powerOn run0 = .next run0.coldReset ∧ run0.coldReset.cfl.node ≠ run0.cfl.node := ⟨rfl, by decide⟩
theorem witness_NothingServedBeforeRun :
    (State.reset.cfl.node ≠ .run ∧ State.reset.re.serve = [] ∧ State.reset.re.survey = [] ∧
      State.reset.apc.slots = List.replicate 24 { state := .free, order := none } ∧ State.reset.vp.store = []) ∧
    step State.reset = .next State.reset := ⟨by decide, rfl⟩
theorem witness_CommandsTurnedAway :
    let r : List Byte := [2, 0, 0, 0, 0]
    runOnly .takenHandling = true ∧ (inState .joining).cfl.node ≠ .run ∧ State.reset.cfl.node = .standby ∧
      ([2] : List Byte).length < 2 ∧ r = [2, 0, 0] ++ [0, 0] ∧ crc16 [2, 0, 0] ≠ (0 : Byte) ++ (0 : Byte) ∧
      matrixRecord 9 [] = [9, 0, 0] ++ [0x52, 0x0D] ∧ crc16 [9, 0, 0] = (0x52 : Byte) ++ (0x0D : Byte) ∧
      (Instr.statusQuery r, (2 : Byte), 0) ∈
        [(Instr.groupFrame r, (1 : Byte), 162), (.statusQuery r, 2, 0), (.clear r, 3, 0), (.evict r, 4, 4),
          (.restart r, 5, 0)] := by decide +kernel
/-- No body makes a record of another kind, or of another length, one of the row's. -/
theorem witness_CommandsTurnedAway_kind :
    ¬∃ body : List Byte, ([9, 0, 0] : List Byte) = 2 :: word16Bytes (BitVec.ofNat 16 0) ++ body ∧ body.length = 0 := by
  rintro ⟨body, h, -⟩
  exact absurd (List.cons.inj h).1 (by decide)

/-! ## Witnesses: the mark and the timers -/

theorem witness_CycleMarks :
    run0.InRun cfg0 ∧ readCycleMark [0x01, 1, 0] = none ∧ readCycleMark mark1 = some 1 ∧ run0.apc.lastCycle ≠ some 1 ∧
      readCycleMark mark1 = { run0 with apc := { run0.apc with lastCycle := some 1 } }.apc.lastCycle :=
  ⟨run0_inRun, by decide⟩
/-- A node whose next mark brings something of each kind to its end: headset 51007's arrival, the reply timer of a claim for
40112, the knowledge and the age of the survey entry of 70600, the MOVE order of HANDING 5, and the own hold. -/
def ending0 : State :=
  { run0 with
    re := { run0.re with
      serve := [{ entry0 with state := .arriving, origin := some .yield, tag := some 3, arrivalTimer := some 1 },
        { entry0 with headset := 5, slot := 9, state := .handing, handing := some handing0 }]
      survey := [{ survey0 with claim := some claim0 },
        { survey0 with headset := 70600, lastHeard := 49, knowledge := survey0.knowledge.map fun k => { k with age := 39 } }] }
    apc := { run0.apc with
      slots := ((run0.apc.slots.set 2 { state := .assigned 51007, order := some { kind := .answer, age := 3 } }).set 4
        { state := .reserved 9, order := none }).set 9 { state := .assigned 5, order := some { kind := .move, age := 3 } } }
    vp := run0.vp.acquireAll [21, 92, 21, 92, 21]
    tqu := { run0.tqu with ownHold := 1 } }

theorem ending0_sound : ending0.re.Sound ∧ ending0.SlotLaw ∧ ending0.apc.Sound := by
  refine ⟨⟨?_, ?_, by decide, by decide, by decide, by decide, by decide⟩, ⟨by decide, by decide, by decide⟩, by decide, by decide⟩
  · intro e he
    simp only [ending0, List.mem_cons, List.not_mem_nil, or_false] at he
    rcases he with rfl | rfl <;> exact ⟨by decide, by decide, by decide⟩
  · intro e he
    simp only [ending0, List.mem_cons, List.not_mem_nil, or_false] at he
    rcases he with rfl | rfl <;> exact ⟨by decide, by decide, by decide, by decide⟩

theorem witness_CycleMarks_whole :
    ending0.InRun cfg0 ∧ ending0.apc.lastCycle ≠ some 1 ∧ (ending0.re.Sound ∧ ending0.SlotLaw ∧ ending0.apc.Sound) ∧
      (let t := after (.cycleMark mark1) ending0
       t.re.serve.map ServeEntry.headset = [5] ∧ t.re.survey.map SurveyEntry.headset = [40112, 51007] ∧
         t.re.survey.map SurveyEntry.pacing = [31, 31] ∧ (t.apc.slot 4).state = .free ∧ (t.apc.slot 9).order = none ∧
         t.mlc.notices = [.reverted 5 7] ∧ t.tqu.ownHold = 0) :=
  ⟨⟨rfl, rfl⟩, by decide, ending0_sound, by decide +kernel⟩
theorem witness_MarkOfOneServedEntry :
    let s := holding entry0
    s.InRun cfg0 ∧ readCycleMark mark1 = some 1 ∧ s.apc.lastCycle ≠ some 1 ∧ s.re.serve = [entry0] ∧ s.re.survey = [] ∧
      entry0.offerChanged = false ∧ entry0.lastReported + 1 < cfg0.standing ∧ (∀ x ∈ s.apc.slots, x.order = none) ∧
      (s.apc.slot entry0.slot).state = .assigned entry0.headset ∧ s.tqu.ownHold = 0 ∧
      entry0.state = .served ∧ entry0.heard = true ∧ entry0.talk = some 21 ∧ entry0.ring.playing = true :=
  ⟨holding_inRun _, by decide⟩
/-- The clauses of the mark, each at its boundary: the loss run one below C, a ring of D frames and of D − 1, no talk group,
timers at 2, and the entry states. -/
theorem witness_MarkOfOneServedEntry_clauses :
    let unheard := { entry0 with heard := false, lossRun := 8 }
    let filled := { entry0 with ring := { frames := List.replicate 3 ⟨[1], false⟩, expected := some 37, playing := false } }
    let filling := { filled with ring := { filled.ring with frames := List.replicate 2 ⟨[1], false⟩ } }
    let silent := { entry0 with talk := none }
    let handing := { entry0 with state := .handing, handing := some { handing0 with timer := some 2 } }
    let draining := { filled with state := .draining }
    let lost := { filled with state := .lost, rescueTimer := some 2 }
    let arriving := { entry0 with state := .arriving, arrivalTimer := some 2 }
    min 255 (unheard.lossRun + 1) < cfg0.cutLink ∧ cfg0.depth ≤ filled.ring.frames.length ∧
      filled.ring.playing = false ∧ filling.ring.frames.length < cfg0.depth ∧ silent.talk = none ∧
      (holding handing).re.serve = [handing] ∧ handing.state = .handing ∧ (holding draining).re.serve = [draining] ∧
      draining.state = .draining ∧ draining.talk = some 21 ∧ draining.ring.frames ≠ [] ∧
      (holding lost).re.serve = [lost] ∧ lost.state = .lost ∧ lost.rescueTimer = some 2 ∧
      { entry0 with state := .draining }.ring.frames = [] ∧ { entry0 with state := .lost }.ring.frames = [] ∧
      { draining with talk := none }.talk = none ∧ (holding arriving).re.serve = [arriving] ∧
      arriving.state = .arriving ∧ arriving.arrivalTimer = some 2 ∧ 1 < 2 := by decide
theorem witness_CountersEnd :
    let e := { survey0 with claim := some claim0, lastHeard := 49 }
    let old := { survey0 with lastHeard := 49 }
    let long := { claim0 with replyTimer := some 2 }
    run0.InRun cfg0 ∧ run0.re.listenIn = some 0 ∧
      ((hearing e).InRun cfg0 ∧ (hearing e).surveyFor e.headset = some e ∧ e.claim = some claim0 ∧ claim0.kind = .normal ∧
        claim0.phase = .sent ∧ claim0.replyTimer = some 1 ∧ ((hearing e).apc.slot claim0.slot).state = .reserved claim0.tag) ∧
      ((hearing old).surveyFor old.headset = some old ∧ old.claim = none ∧
        cfg0.agingLimit ≤ min 255 (old.lastHeard + 1)) ∧
      (let f := { survey0 with claim := some long }
       (hearing f).surveyFor f.headset = some f ∧ f.claim = some long ∧ long.replyTimer = some 2 ∧ 1 < 2) :=
  ⟨run0_inRun, rfl, ⟨hearing_inRun _, by decide⟩, by decide, by decide⟩
theorem witness_ReleaseFreesEntry :
    (holding entry0).entryAt entry0.slot = some entry0 ∧
      ((holding entry0).apc.slot entry0.slot).state = .assigned entry0.headset ∧ (holding entry0).InRun cfg0 :=
  ⟨by decide, by decide, holding_inRun _⟩
theorem witness_EntriesTimeOut :
    let arriving := { entry0 with state := .arriving, origin := some .reclaim, arrivalTimer := some 1 }
    let handing := { entry0 with
      state := .handing
      handing := some { claimant := 7, tag := 1, phase := .moveSent, channel := 3, slot := 5, timer := some 1 } }
    let faded := { entry0 with heard := false, lossRun := 9 }
    let lost := { entry0 with state := .lost, rescueTimer := some 1 }
    let seeking := { entry0 with state := .lost, rescueTimer := some 0, tag := some 4 }
    (holding arriving).InRun cfg0 ∧ (holding arriving).entryAt arriving.slot = some arriving ∧ arriving.state = .arriving ∧
      arriving.origin = some .reclaim ∧ ({ arriving with origin := some .seek } : ServeEntry).origin ≠ some .reclaim ∧
      (holding handing).entryAt handing.slot = some handing ∧ handing.state = .handing ∧
      (holding faded).entryAt faded.slot = some faded ∧ faded.state = .served ∧ faded.heard = false ∧
      cfg0.cutLink ≤ min 255 (faded.lossRun + 1) ∧ entry0.heard = true ∧
      (holding lost).entryAt lost.slot = some lost ∧ lost.tag = none ∧ lost.rescueTimer = some 1 ∧
      (holding seeking).entryAt seeking.slot = some seeking ∧ seeking.state = .lost ∧ seeking.tag = some 4 ∧
      seeking.rescueTimer = some 0 := ⟨holding_inRun _, by decide⟩
theorem witness_OrdersEnd :
    let moving := { entry0 with
      state := .handing
      handing := some { claimant := 7, tag := 1, phase := .moveSent, channel := 3, slot := 5, timer := some 9 } }
    let arriving := { entry0 with state := .arriving, origin := some .seek, arrivalTimer := some 3 }
    let s := ordering 2 { kind := .move, age := 3 } (holding moving)
    let t := ordering 2 { kind := .answer, age := 3 } (holding arriving)
    s.InRun cfg0 ∧ (s.apc.slot 2).order = some { kind := .move, age := 3 } ∧ 4 ≤ 3 + 1 ∧ ¬(3 + 1 < 4) ∧ 2 + 1 < 4 ∧
      readOrderResult [0x05, 2, 2, 0] = some ⟨2, true⟩ ∧ readOrderResult [0x05, 2, 2, 1] = some ⟨2, false⟩ ∧ s.entryAt 2 = some moving ∧
      (t.apc.slot 2).order = some { kind := .answer, age := 3 } ∧ t.entryAt 2 = some arriving ∧
      (t.apc.slot 2).state = .assigned arriving.headset ∧ (s.apc.slot 23).order = none ∧
      readOrderResult [0x05, 2, 23, 0] = some ⟨23, true⟩ ∧
      (holding entry0).entryAt 2 = some entry0 ∧ entry0.state ≠ .handing ∧ entry0.state ≠ .arriving :=
  ⟨⟨rfl, rfl⟩, by decide⟩
theorem witness_HoldTimersEnd :
    let free : State := { run0 with tqu := { run0.tqu with ownHold := 1 } }
    let full : State := { run0 with tqu := { run0.tqu with
      ownHold := 1, pool := List.replicate 12 (message (.hold 1) 7 255) } }
    run0.InRun cfg0 ∧ free.tqu.ownHold = 1 ∧ cfg0.holdThreshold < free.tqu.freeCount ∧ full.tqu.ownHold = 1 ∧
      full.tqu.freeCount ≤ cfg0.holdThreshold ∧ full.tqu.flow = [] ∧ run0.tqu.ownHold ≠ 1 ∧
      cfg0.neighbours.findIdx? (fun x => x.node = 9) = some 1 ∧
      (let m := Queued.new .flow (.hold 0) 255
       { full.tqu with flow := [m] }.flow = m :: []) := ⟨run0_inRun, by decide⟩

/-! ## Witnesses: the air port and the scores -/

theorem witness_SlotReportChecks :
    let s := holding entry0
    let drained := { entry0 with state := .draining }
    s.InRun cfg0 ∧ readSlotReport [0x02, 3, 24, 1, 0] = none ∧ readSlotReport [0x02, 3, 23, 1, 0] = some ⟨23, .errored, 0⟩ ∧
      (s.apc.slot 23).state.isAssigned = false ∧
      readSlotReport (frameRecord 2 0 40112 1) = some ⟨2, .frame 40112 1 (List.replicate 40 0), 0⟩ ∧
      (s.apc.slot 2).state = .assigned 51007 ∧ (40112 : Headset) ≠ 51007 ∧
      (holding drained).entryAt 2 = some drained ∧
      readSlotReport (frameRecord 2 0 51007 1) = some ⟨2, .frame 51007 1 (List.replicate 40 0), 0⟩ :=
  ⟨holding_inRun _, by decide +kernel⟩
theorem witness_ServedFrame :
    let s := holding entry0
    let pending := { entry0 with state := .handing, handing := some { handing0 with phase := .yieldPending, timer := none } }
    let moved := { entry0 with state := .handing, handing := some handing0, q := 460, r := 29 }
    let arriving := { entry0 with state := .arriving }
    s.InRun cfg0 ∧ readSlotReport (frameRecord 2 0xC2 51007 37) = some ⟨2, .frame 51007 37 (List.replicate 40 0), -62⟩ ∧
      (s.apc.slot 2).state = .assigned entry0.headset ∧ s.entryAt 2 = some entry0 ∧ entry0.state = .served ∧
      entry0.talk ≠ none ∧ { entry0 with talk := none }.talk = none ∧
      (holding pending).entryAt 2 = some pending ∧ (holding moved).entryAt 2 = some moved ∧ moved.r < cfg0.floor ∧
      (holding arriving).entryAt 2 = some arriving ∧
      readSlotReport [0x02, 3, 2, 1, 0xC2] = some ⟨2, .errored, -62⟩ ∧
      readSlotReport [0x02, 3, 2, 2, 0xC2] = some ⟨2, .silent, -62⟩ ∧
      (max (-110) (min (-20) (-62)) + 110 - 12 : Int).toNat = 36 := ⟨holding_inRun _, by decide +kernel⟩
theorem witness_ArrivalCompletes :
    let e := { entry0 with state := .arriving, origin := some .yield, arrivalTimer := some 4, tag := some 1 }
    let s := holding e
    s.InRun cfg0 ∧ readSlotReport (frameRecord 2 0xC2 51007 37) = some ⟨2, .frame 51007 37 (List.replicate 40 0), -62⟩ ∧
      (s.apc.slot 2).state = .assigned e.headset ∧ s.entryAt 2 = some e ∧ e.state = .arriving ∧ s.tqu.urgent.length < 4 :=
  ⟨holding_inRun _, by decide +kernel⟩
/-- URGENT full: with no SEEK CLAIM in it and HANDOVER open or full, and with one that belongs to a survey entry's claim, to
a LOST entry's reclaim with its rescue timer running or at 0, and to neither. -/
theorem witness_ArrivalCompletes_full :
    let e := { entry0 with state := .arriving, origin := some .yield, arrivalTimer := some 4, tag := some 1 }
    let yields := List.replicate 4 (Queued.new .urgent (.taken 1 1 none) 255)
    let full : State := { holding e with tqu := { run0.tqu with urgent := yields } }
    let body : ClaimBody := { headset := 40112, tag := 9, kind := .seek, score := 1, channel := 4, slot := 4 }
    let m := Queued.new .urgent (.claim body) 255
    let seeks : Tqu := { run0.tqu with urgent := yields.take 1 ++ m :: yields.take 2 }
    let own := { survey0 with claim := some { claim0 with kind := .seek, phase := .queued, replyTimer := none } }
    let seeking : State :=
      { hearing own with
        re := { (hearing own).re with serve := [e] }
        apc := { (hearing own).apc with slots := (hearing own).apc.slots.set 2 { state := .assigned e.headset, order := none } }
        tqu := seeks }
    let lost := { entry0 with headset := 40112, slot := 7, state := .lost, rescueTimer := some 0, tag := some 9 }
    let reclaiming : State :=
      { holding e with
        re := { (holding e).re with serve := [e, lost] }
        apc := { (holding e).apc with slots := (holding e).apc.slots.set 7 { state := .assigned 40112, order := none } }
        tqu := seeks }
    4 ≤ full.tqu.urgent.length ∧ (∀ m ∈ full.tqu.urgent, m.body.isSeekClaim = false) ∧
      full.tqu.handover.length + full.tqu.reservations < 6 ∧
      6 ≤ ({ full.tqu with reservations := 6 } : Tqu).handover.length + 6 ∧
      4 ≤ seeks.urgent.length ∧ seeks.urgent = yields.take 1 ++ m :: yields.take 2 ∧ m.body = .claim body ∧
      m.inHand = false ∧ (∀ x ∈ yields.take 1, x.body.isSeekClaim = false) ∧
      seeking.entryAt 2 = some e ∧ (seeking.apc.slot 2).state = .assigned e.headset ∧
      seeking.surveyFor 40112 = some own ∧ (seeking.apc.slot 4).state = .reserved 9 ∧
      reclaiming.surveyFor 40112 = none ∧ reclaiming.entryFor 40112 = some lost ∧ reclaiming.entryAt 7 = some lost ∧
      lost.slot ≠ 2 ∧ lost.rescueTimer = some 0 ∧ (reclaiming.apc.slot 7).state = .assigned 40112 ∧
      ({ lost with rescueTimer := some 1 } : ServeEntry).rescueTimer ≠ some 0 ∧
      (holding e).surveyFor 40112 = none ∧ (holding e).entryFor 40112 = none := by decide
theorem witness_SurveyReports :
    let s := hearing survey0
    let k : Knowledge := { node := 7, score := some 50, offered := true, count := 2, groups := some [21, 30], age := 0 }
    s.InRun cfg0 ∧ readSurveyReport (surveyRecord 40112 0xCE 0) = some ⟨40112, -50, true⟩ ∧ s.entryFor 40112 = none ∧
      cfg0.permits 40112 = true ∧ cfg0.permits 99 = false ∧ s.surveyFor 40112 = some survey0 ∧ run0.surveyFor 40112 = none ∧
      smooth cfg0.k survey0.q 60 = 932 ∧ (932 + 8) / 16 = 58 ∧ survey0.knowledge = some k ∧ k.score = some 50 ∧
      (cfg0.neighbours.find? fun n => n.node = k.node) = some ⟨7, 2⟩ ∧ 50 + cfg0.hysteresis ≤ 60 ∧
      cfg0.dwellNeed ≤ min 15 (survey0.dwell + 1) ∧ survey0.pacing = 0 ∧ k.offered = true ∧ k.groups = some [21, 30] ∧
      survey0.claim = none ∧ (s.re.survey.filter fun y => y.claim.isSome).length < 4 ∧ s.apc.lowestFree = some 0 ∧
      s.vp.fits (distinctGroups [21, 30]) = true ∧ s.re.listenIn = some 0 ∧
      s.tqu.handover.length + s.tqu.reservations < 6 ∧ (holding entry0).entryFor 51007 ≠ none ∧
      { survey0 with pacing := 1 }.pacing ≠ 0 :=
  ⟨hearing_inRun _, by decide +kernel⟩
theorem witness_SeekCalls :
    let call := callRecord 51007 0xC2
    let lost := { entry0 with state := .lost, rescueTimer := some 50 }
    let seeking := { lost with tag := some 1 }
    let owing := { lost with yieldOwed := some { winner := 7, tag := 1 } }
    let arriving := { entry0 with state := .arriving }
    (holding lost).InRun cfg0 ∧ readSeekCall call = some ⟨51007, -62, none, none⟩ ∧ (holding lost).entryFor 51007 = some lost ∧
      (holding lost).entryAt lost.slot = some lost ∧ lost.state = .lost ∧ lost.tag = none ∧ lost.yieldOwed = none ∧
      (holding lost).tqu.urgent.length < 4 ∧ (holding seeking).entryFor 51007 = some seeking ∧
      (holding seeking).entryAt 2 = some seeking ∧ seeking.tag ≠ none ∧
      (holding owing).entryFor 51007 = some owing ∧ (holding owing).entryAt 2 = some owing ∧ owing.yieldOwed ≠ none ∧
      (holding arriving).entryFor 51007 = some arriving ∧ arriving.state = .arriving ∧
      (holding entry0).entryFor 51007 = some entry0 ∧ entry0.state = .served ∧ entry0.tag = none ∧
      entry0.yieldOwed = none ∧ cfg0.permits 99 = false ∧ run0.entryFor 99 = none ∧
      readSeekCall (callRecord 99 0) = some ⟨99, 0, none, none⟩ ∧
      4 ≤ (List.replicate 4 (Queued.new .urgent (.taken 1 1 none) 255)).length := ⟨holding_inRun _, by decide +kernel⟩
/-- A call from a survey entry that may bid, from one in its hold-off, and from a headset in neither table, which the list
takes, and which it does not take where its 48 entries all hold claims. -/
theorem witness_SeekCalls_survey :
    let full := (List.range 48).map fun i => { survey0 with headset := BitVec.ofNat 32 (i + 1), claim := some claim0 }
    let fresh : SurveyEntry :=
      { headset := 40112, q := 1440, r := 90, lastHeard := 0, dwell := 0, pacing := 0, holdOff := 0, knowledge := none,
        claim := none }
    readSeekCall (callRecord 40112 0) = some ⟨40112, 0, none, none⟩ ∧ (hearing survey0).entryFor 40112 = none ∧
      cfg0.permits 40112 = true ∧ (hearing survey0).surveyFor 40112 = some survey0 ∧ survey0.holdOff = 0 ∧
      survey0.claim = none ∧ (hearing survey0).re.claimsOutstanding < 4 ∧ (hearing survey0).apc.lowestFree = some 0 ∧
      (hearing survey0).tqu.urgent.length < 4 ∧
      (hearing survey0).vp.fits (distinctGroups ((cfg0.defaultsFor 40112).listen.map ListenItem.group)) = true ∧
      { survey0 with holdOff := 1 }.holdOff ≠ 0 ∧ run0.surveyFor 40112 = none ∧
      (enterSurveyList fresh []).find? (fun x => x.headset = 40112) = some fresh ∧
      (enterSurveyList fresh full).find? (fun x => x.headset = 40112) = none := by decide +kernel
theorem witness_SmoothedScore : 2 ≤ 5 ∧ 5 ≤ 5 ∧ 1440 ≤ 1440 ∧ 90 ≤ 90 := by decide
theorem witness_ClaimScores :
    let e := { survey0 with knowledge := none }
    e.knowledge = none ∧ survey0.knowledge.map Knowledge.node = some 7 ∧ cfg0.neighbours = [] ++ ⟨7, 2⟩ :: [⟨9, -15⟩] ∧
      (∀ n ∈ cfg0.neighbours, n.node ≠ 8) := by decide
theorem witness_SurveyReplacement :
    let list := (List.range 48).map fun i => { survey0 with headset := BitVec.ofNat 32 (i + 1) }
    list.length = 48 ∧ (list.map SurveyEntry.headset).Nodup ∧ (∃ e ∈ list, e.claim = none) ∧
      (∀ e ∈ list.map fun e => { e with claim := some claim0 }, e.claim ≠ none) := by decide +kernel

/-! ## Witnesses: the voice path -/

theorem witness_RingPlacement :
    entry0.ring.expected = some 37 ∧ entry0.ring.frames.length ≤ 8 ∧ ((37 + 31 : Seq) - 37).toNat ≤ 31 ∧
      32 ≤ ((37 + 32 : Seq) - 37).toNat ∧ Mlc.cold.Sound :=
  ⟨rfl, by decide, by decide, by decide, by decide, by decide, by decide, rfl, by decide⟩

theorem holding0_vp_sound : (holding entry0).vp.Sound := ⟨by decide, by decide, by decide, by decide⟩

theorem witness_ListenMask :
    (holding entry0).vp.Sound ∧ 63 < 64 ∧ (holding entry0).vp.stored 21 = true ∧
      ((holding entry0).vp.acquire 3).isSome = true ∧
      ∀ e ∈ ((holding entry0).vp.acquireAll [21]).store, e.group = 21 → 2 ≤ e.refs := ⟨holding0_vp_sound, by decide⟩
theorem witness_MixedSamples :
    let v : Vp := { (holding entry0).vp with
      store := (holding entry0).vp.store.map fun e => { e with current := some (List.replicate 80 30000) } }
    (∀ e ∈ v.store, ∀ samples, e.current = some samples → samples.length = 80) ∧ 21 ∈ v.store.map StoredGroup.group := by
  refine ⟨fun e he samples h => ?_, by decide⟩
  obtain ⟨x, -, rfl⟩ := List.mem_map.mp he
  cases h
  rfl
theorem witness_GroupReferences :
    let full := Vp.cold.acquireAll [1, 2, 3, 4, 5, 6, 7, 8, 9, 10, 11, 12]
    (holding entry0).vp.Sound ∧ (holding entry0).vp.find 21 = some ⟨21, 1, none, none⟩ ∧ (holding entry0).vp.find 3 = none ∧
      (holding entry0).vp.store.length < 12 ∧ full.store.length = 12 ∧ full.find 13 = none ∧ [21, 3].Nodup ∧
      (holding entry0).vp.fits [21, 3] = true ∧ full.fits [13] = false ∧ full.fits [12] = true ∧
      (∀ g ∈ [21, 92], (holding entry0).vp.find g ≠ none) ∧
      (full.fit [12] [⟨12, 0⟩, ⟨13, 1⟩, ⟨1, 2⟩]).dropped = true ∧
      (full.fit [12] [⟨13, 0⟩, ⟨1, 2⟩]).dropped = false := ⟨holding0_vp_sound, by decide +kernel⟩
/-- A GROUP FRAME record of group 21, sequence 77 and 80 zero samples; its CRC is 8454h. -/
def groupRecord : List Byte := [1, 0, 162, 21, 77] ++ List.replicate 160 0 ++ [0x84, 0x54]

theorem crc16_head : (bytesBits [1, 0, 162, 21, 77]).foldl crc16Bit 0xFFFF = 3406 := by decide +kernel
theorem crc16_part1 : (bytesBits (List.replicate 40 0)).foldl crc16Bit 3406 = 43188 := by decide +kernel
theorem crc16_part2 : (bytesBits (List.replicate 40 0)).foldl crc16Bit 43188 = 31863 := by decide +kernel
theorem crc16_part3 : (bytesBits (List.replicate 40 0)).foldl crc16Bit 31863 = 43079 := by decide +kernel
theorem crc16_part4 : (bytesBits (List.replicate 40 0)).foldl crc16Bit 43079 = 33876 := by decide +kernel

theorem crc16_groupRecord : crc16 ([1, 0, 162, 21, 77] ++ List.replicate 160 0) = 33876 := by
  have h : List.replicate 160 (0 : Byte) =
      List.replicate 40 0 ++ (List.replicate 40 0 ++ (List.replicate 40 0 ++ List.replicate 40 0)) := by decide +kernel
  rw [h]
  simp only [crc16, bytesBits, List.flatMap_append, List.foldl_append]
  rw [← bytesBits, ← bytesBits, crc16_head, crc16_part1, crc16_part2, crc16_part3, crc16_part4]

theorem groupRecord_sound : checkRecord 0x01 162 groupRecord = .sound (21 :: 77 :: List.replicate 160 0) := by
  have h1 : groupRecord.take (groupRecord.length - 2) = [1, 0, 162, 21, 77] ++ List.replicate 160 0 := by
    decide +kernel
  have h2 : groupRecord.drop (groupRecord.length - 2) = [0x84, 0x54] := by decide +kernel
  unfold checkRecord
  simp only [h1, h2, crc16_groupRecord]
  decide +kernel

theorem witness_GroupFrames :
    let s := holding entry0
    checkRecord 0x01 162 groupRecord = .sound (21 :: 77 :: List.replicate 160 0) ∧ s.cfl.node = .run ∧
      (inState .loading).cfl.node ≠ .run ∧ (inState .loading).cfl.node ≠ .joining ∧
      s.vp.mask.getLsbD (binOf 3) = false ∧ s.vp.mask.getLsbD (binOf 135) = true ∧ s.vp.find 135 = none ∧
      s.vp.mask.getLsbD (binOf 21) = true ∧ s.vp.find 21 = some ⟨21, 1, none, none⟩ ∧ (none : Option Byte) ≠ some 77 :=
  ⟨groupRecord_sound, by decide⟩

/-! ## Witnesses: the trunk -/

/-- A NORMAL CLAIM to node 7, as RE queues it. -/
def claimMessage : Queued :=
  Queued.new .handover (.claim { headset := 40112, tag := 9, kind := .normal, score := 60, channel := 4, slot := 4 }) 7

/-- A message in hand in a state of TLC. -/
def attempting (x : TlcState) (m : Queued) : State :=
  { run0 with
    tqu := { run0.tqu with handover := [{ m with inHand := true }] }
    tlc := { run0.tlc with state := x, attempt := some { message := m, frame := buildFrame 12 m } } }

/-- A frame being read. -/
def receiving (r : Reading) : State := { run0 with tlc := { run0.tlc with state := .receiving, reading := some r } }

theorem witness_AttemptsBegin :
    let s : State := { run0 with
      tqu := { run0.tqu with handover := [claimMessage] }
      tlc := { run0.tlc with idleRun := 0 } }
    s.cfl.config = some cfg0 ∧ s.tlc.state = .idle ∧ 3 ≤ s.tlc.idleRun + 3 ∧ s.tlc.idleRun + 2 < 3 ∧
      s.tqu.select cfg0 = some claimMessage ∧ run0.tqu.select cfg0 = none ∧ (tlcState .backoff).tlc.state ≠ .idle ∧
      (attempting .arbitrating claimMessage).tlc.state = .arbitrating ∧
      (attempting .arbitrating claimMessage).tqu.inHand = some { claimMessage with inHand := true } := by decide
theorem witness_DeliveredMessages :
    let s := attempting .sending claimMessage
    let a : Attempt := { message := claimMessage, frame := buildFrame 12 claimMessage }
    let hold := { Queued.new .flow (.hold 0) 255 with inHand := true, replaced := true }
    s.tlc.state = .sending ∧ s.tlc.attempt = some a ∧ s.tqu.inHand = some { claimMessage with inHand := true } ∧
      ({ claimMessage with inHand := true } : Queued).replaced = false ∧ s.InRun cfg0 ∧
      { s with tqu := run0.tqu }.tqu.inHand = none ∧ { s with tqu := { run0.tqu with flow := [hold] } }.tqu.inHand = some hold ∧
      hold.replaced = true ∧ { s with cfl := (inState .joining).cfl }.cfl.node ≠ .run :=
  ⟨rfl, rfl, by decide, rfl, ⟨rfl, rfl⟩, by decide⟩
theorem witness_FailedAttempts :
    let early := attempting .sending { claimMessage with failures := 6 }
    let last := attempting .arbitrating { claimMessage with failures := 7 }
    early.tlc.attempt.isSome = true ∧ early.tlc.state = .sending ∧ early.tqu.inHand.map Queued.failures = some 6 ∧ 6 < 7 ∧
      last.tlc.attempt.isSome = true ∧ last.tlc.state = .arbitrating ∧ last.tqu.inHand.map Queued.failures = some 7 ∧ 7 ≤ 7 ∧
      last.InRun cfg0 ∧ { last with cfl := (inState .joining).cfl }.cfl.node ≠ .run ∧
      { early with tqu := run0.tqu }.tqu.inHand = none ∧ LineSymbol.recessive ≠ .dominant ∧ LineSymbol.idle ≠ .held ∧
      LineSymbol.idle ≠ .dominant :=
  ⟨rfl, rfl, by decide, by decide, rfl, rfl, by decide, by decide, ⟨rfl, rfl⟩, by decide⟩
theorem witness_OutcomesAtRe :
    let c : Context := { headset := 51007, tag := 1, expected := 37, count := 3, listen := entry0.listen, talk := some 21 }
    let m := Queued.new .handover (.yield c) 7
    let h : HandingRecord := { handing0 with phase := .yieldPending, timer := none }
    let e := { entry0 with state := .handing, handing := some h }
    let s := holding e
    let owing := { entry0 with state := .lost, rescueTimer := some 50, yieldOwed := some { winner := 7, tag := 1 } }
    let waiting := { survey0 with claim := some { claim0 with phase := .queued, replyTimer := none } }
    m.body = .yield c ∧ m.cls ≠ .urgent ∧ s.entryFor c.headset = some e ∧ s.entryAt e.slot = some e ∧ e.state = .handing ∧
      e.handing = some h ∧ h.phase = .yieldPending ∧ h.claimant = m.destination ∧ h.tag = c.tag ∧
      s.apc.slot e.slot = { state := .assigned e.headset, order := none } ∧
      ((ordering 2 { kind := .move, age := 0 } s).apc.slot e.slot).order ≠ none ∧
      (holding entry0).entryFor 51007 = some entry0 ∧ entry0.state ≠ .handing ∧
      (Queued.new .urgent (.yield c) 7).cls = .urgent ∧ (holding owing).entryFor 51007 = some owing ∧
      (holding owing).entryAt 2 = some owing ∧ owing.yieldOwed = some { winner := 7, tag := 1 } ∧
      (hearing waiting).surveyFor 40112 = some waiting ∧
      ((hearing waiting).apc.slot 4).state = .reserved 9 ∧ (Queued.new .flow (.hold 4) 255).body = .hold 4 := by decide
theorem witness_SeekOutcomes :
    let r := { claim0 with
      kind := .seek, phase := .queued, replyTimer := none, callListen := some [⟨21, 0⟩], callTalk := some 21 }
    let bare := { r with callListen := none, callTalk := none }
    let e := { survey0 with claim := some r }
    let s := hearing e
    let rival := message (.claim { headset := 40112, tag := 3, kind := .seek, score := 1, channel := 0, slot := 0 }) 9 255
    let lost := { entry0 with headset := 40112, state := .lost, rescueTimer := some 0, tag := some 9 }
    s.surveyFor 40112 = some e ∧ e.claim = some r ∧ r.kind = .seek ∧
      s.apc.slot r.slot = { state := .reserved r.tag, order := none } ∧ s.tqu.rivalWaits 40112 = false ∧
      (placing rival s).tqu.rivalWaits 40112 = true ∧ r.callListen = some [⟨21, 0⟩] ∧ bare.callListen = none ∧
      (cfg0.defaultsFor 40112).listen = [⟨21, 0⟩] ∧ claim0.kind = .normal ∧
      (holding lost).surveyFor 40112 = none ∧ (holding lost).entryFor 40112 = some lost ∧
      (holding lost).entryAt 2 = some lost ∧ lost.state = .lost ∧ lost.tag = some 9 ∧ lost.rescueTimer = some 0 ∧
      (holding lost).tqu.rivalWaits 40112 = false ∧ (placing rival (holding lost)).tqu.rivalWaits 40112 = true ∧
      (holding lost).apc.slot 2 = { state := .assigned 40112, order := none } ∧ run0.entryFor 40112 = none := by
  decide +kernel
theorem witness_FramesBeginAndEnd :
    (tlcState .backoff).tlc.state = .backoff ∧ run0.tlc.state ≠ .backoff ∧ run0.tlc.state ≠ .off ∧
      (tlcState .off).tlc.state = .off ∧ (tlcState .sending).tlc.state = .sending ∧ (tlcState .sending).tlc.attempt = none ∧
      (receiving ⟨false, false, false⟩).tlc.state = .receiving ∧ run0.tlc.state = .idle ∧ run0.tlc.heldRun < 63 ∧
      (attempting .sending claimMessage).tlc.attempt ≠ none ∧ (tlcState .waitIdle).tlc.state = .waitIdle ∧
      10 ≤ (tlcState .waitIdle).tlc.idleRun ∧ (tlcState .stuck).tlc.state = .stuck ∧
      ({ run0.tlc with state := .waitIdle, idleRun := 0 } : Tlc).idleRun + 11 = 11 ∧
      ({ run0.tlc with state := .waitIdle, idleRun := 2 } : Tlc).idleRun < 3 ∧ run0.cfl.node ≠ .joining := by decide
theorem witness_FramesReceived :
    let r : Reading := { follows := false, crcRead := false, acknowledges := false }
    let s := receiving r
    let taken := (Body.taken 40112 1 none).payload
    let neighbour := arbitrationField 0 0 9
    let claim := arbitrationField 2 3 7
    let full := { s with tqu := { s.tqu with pool := List.replicate 16 (message (.hold 1) 7 255) } }
    let busy := { s with tqu := { s.tqu with reservations := 6 } }
    s.tlc.state = .receiving ∧ s.tlc.reading = some r ∧ r.crcRead = false ∧ 48 < (List.replicate 49 (0 : Byte)).length ∧
      taken.length ≤ 48 ∧ (0 : Byte) ≠ frameCrc (arbitrationField 1 1 7) 255 taken ∧ s.tlc.trap = none ∧ s.InRun cfg0 ∧
      arbitrationSender (arbitrationField 1 1 7) = 7 ∧ arbitrationKind (arbitrationField 1 1 7) = 1 ∧
      (7 : Node) ≠ cfg0.node ∧ arbitrationKind (arbitrationField 0 0 8) = 0 ∧ (∀ n ∈ cfg0.neighbours, n.node ≠ 8) ∧
      arbitrationKind neighbour = 0 ∧ ([] : List Byte).length ≠ 1 ∧ cfg0.neighbours.findIdx? (fun x => x.node = 9) = some 1 ∧
      arbitrationKind claim = 3 ∧ s.tqu.pool.length < 16 ∧ s.tqu.handover.length + s.tqu.reservations < 6 ∧
      cfg0.holdThreshold < 16 - (s.tqu.pool.length + 1) ∧ 16 - ((List.replicate 11 taken).length + 1) ≤ cfg0.holdThreshold ∧
      s.tqu.ownHold = 0 ∧ s.tqu.flow = [] ∧ { s.tqu with flow := [Queued.new .flow (.hold 0) 255] }.flow ≠ [] ∧
      16 ≤ full.tqu.pool.length ∧
      6 ≤ busy.tqu.handover.length + busy.tqu.reservations :=
  ⟨rfl, rfl, rfl, by decide, by decide, by decide +kernel, rfl, ⟨rfl, rfl⟩, by decide +kernel⟩
theorem witness_LineFaults :
    let r : Reading := { follows := true, crcRead := false, acknowledges := false }
    let stuck : State := { tlcState .stuck with cfl := (inState .joining).cfl }
    (receiving r).tlc.state = .receiving ∧ (receiving r).tlc.reading = some r ∧ FramingCause.violation ≠ .stoppedShort ∧
      FramingCause.heldRun .idle ≠ .heldRun .held ∧ r.follows = true ∧ { r with follows := false }.follows = false ∧
      (tlcState .sending).tlc.state = .sending ∧ (tlcState .sending).tlc.attempt = none ∧
      run0.tlc.state ≠ .receiving ∧ run0.tlc.state ≠ .sending ∧ run0.tlc.state ≠ .off ∧ run0.tlc.state ≠ .stuck ∧
      run0.tlc.state ≠ .backoff ∧ 64 ≤ run0.tlc.heldRun + 64 ∧ run0.tlc.heldRun + 63 < 64 ∧
      (tlcState .stuck).tlc.state = .stuck ∧ 11 ≤ ({ run0.tlc with idleRun := 0 } : Tlc).idleRun + 11 ∧
      ({ run0.tlc with idleRun := 0 } : Tlc).idleRun + 10 < 11 ∧ (tlcState .stuck).cfl.node ≠ .joining ∧
      stuck.cfl.node = .joining ∧ stuck.cfl.config = some cfg0 ∧ LineSymbol.dominant ≠ .idle := by decide
theorem witness_BackoffGenerator : (1 : BitVec 16) ≠ 0 ∧ advanceGenerator 1 = advanceGenerator 1 ∧ (Tlc.cold 0).generator = 1 := by
  decide
theorem witness_SelectedMessage :
    let t := { run0.tqu with handover := [claimMessage] }
    t.select cfg0 = some claimMessage ∧ run0.tqu.select cfg0 = none ∧ claimMessage.cls = .handover ∧
      (Queued.new .flow (.hold 1) 255).cls = .flow ∧ (Queued.new .report (.standing []) 255).cls = .report := by decide
theorem witness_StandingBuilt :
    let due := { entry0 with lastReported := 10 }
    ((holding due).re.serve.map ServeEntry.slot).Nodup ∧ (holding due).tqu.report.length < 2 ∧ due ∈ (holding due).re.serve ∧
      due.state = .served ∧ cfg0.standing ≤ due.lastReported ∧
      (∀ e ∈ (holding { entry0 with lastReported := 9 }).re.serve, ¬cfg0.standing ≤ e.lastReported ∧ e.offerChanged = false) := by
  decide
/-- The STANDING of a mark that also reverts a HANDING entry: it names that entry, OFFERED with offer-changed set. -/
theorem witness_StandingBuilt_mark :
    let cfg := { cfg0 with floor := 60 }
    let s := { ending0 with cfl := { ending0.cfl with config := some cfg } }
    s.InRun cfg ∧ (s.re.Sound ∧ s.SlotLaw ∧ s.apc.Sound) ∧ s.mlc.Sound ∧
      (after (.cycleMark mark1) s).tqu.report.map Queued.body =
        [.standing [{ headset := 5, score := 50, offered := true, count := 3, groups := [21, 92] }]] :=
  ⟨⟨rfl, rfl⟩, ⟨ending0_sound.1, ⟨ending0_sound.2.1.1, ending0_sound.2.1.2, ending0_sound.2.1.3⟩, ending0_sound.2.2⟩,
    ⟨by decide, by decide, by decide, rfl, by decide⟩, by decide +kernel⟩
/-! ## Witnesses: the handlings -/

theorem placing_handles (m : Placed) (e : ServeEntry) : (placing m (holding e)).Handles cfg0 m := ⟨⟨rfl, rfl⟩, rfl, rfl⟩
theorem placing_handles_survey (m : Placed) (e : SurveyEntry) : (placing m (hearing e)).Handles cfg0 m :=
  ⟨⟨rfl, rfl⟩, rfl, rfl⟩

theorem witness_TakenHandled :
    let m := message (.taken 51007 4 (some 12)) 7 255
    let n := message (.taken 40112 4 none) 7 255
    let claimed := { survey0 with claim := some claim0 }
    let seeking := { survey0 with claim := some { claim0 with kind := .seek, phase := .queued, replyTimer := none } }
    let e := { entry0 with state := .handing, handing := some { handing0 with claimant := 9 } }
    let arriving := { entry0 with state := .arriving }
    let draining := { entry0 with state := .draining }
    (placing m (holding e)).Handles cfg0 m ∧ m.kind = 1 ∧ readTaken m.payload = some (51007, 4, some 12) ∧
      (placing m (holding e)).entryFor 51007 = some e ∧ (placing m (holding e)).entryAt e.slot = some e ∧
      e.state = .handing ∧ m.sender = 7 ∧ e.count < 4 ∧ { handing0 with claimant := 9 }.claimant ≠ m.sender ∧
      4 ≤ { e with count := 4 }.count ∧ (placing m (holding arriving)).entryFor 51007 = some arriving ∧
      (placing m (holding draining)).entryFor 51007 = some draining ∧
      (placing m (holding entry0)).entryFor 51007 = some entry0 ∧ entry0.state = .served ∧
      (placing m (hearing survey0)).entryFor 51007 = none ∧
      (placing m (hearing survey0)).surveyFor 51007 = none ∧ readTaken n.payload = some (40112, 4, none) ∧
      (placing n (hearing survey0)).entryFor 40112 = none ∧ (placing n (hearing survey0)).surveyFor 40112 = some survey0 ∧
      survey0.claim = none ∧ (placing n (hearing claimed)).surveyFor 40112 = some claimed ∧
      (placing n (hearing seeking)).surveyFor 40112 = some seeking ∧
      ((placing n (hearing claimed)).apc.slot claim0.slot).state = .reserved claim0.tag ∧
      ((placing n (hearing seeking)).apc.slot claim0.slot).state = .reserved claim0.tag :=
  ⟨placing_handles _ _, by decide +kernel⟩
theorem witness_ClaimAnswered :
    let c : ClaimBody := { headset := 51007, tag := 5, kind := .normal, score := 62, channel := 31, slot := 23 }
    let m := message (.claim c) 7 12
    let s := placing m (holding entry0)
    s.Handles cfg0 m ∧ m.kind = 3 ∧ m.payload[5]? ≠ some 1 ∧ readClaim m.payload = some c ∧ m.destination = cfg0.node ∧
      (∃ n ∈ cfg0.neighbours, n.node = m.sender) ∧ c.channel ≤ 31 ∧ c.slot ≤ 23 ∧ s.entryFor 51007 = some entry0 ∧
      entry0.state = .served ∧ entry0.settle = 0 ∧ entry0.r + cfg0.margin ≤ c.score ∧ 61 < entry0.r + cfg0.margin ∧
      (placing m run0).entryFor 51007 = none := ⟨placing_handles _ _, by decide +kernel⟩
theorem witness_SeekClaimHandled :
    let c : ClaimBody := { headset := 51007, tag := 5, kind := .seek, score := 62, channel := 3, slot := 5 }
    let m := message (.claim c) 9 255
    let s := placing m (holding entry0)
    let lost := { entry0 with state := .lost, rescueTimer := some 50 }
    let seeking := { lost with tag := some 2 }
    let owing := { lost with yieldOwed := some { winner := 7, tag := 1 } }
    let own := { survey0 with headset := 51007, claim := some { claim0 with kind := .seek } }
    let idle := { survey0 with headset := 51007 }
    s.Handles cfg0 m ∧ m.kind = 3 ∧ m.payload[5]? = some 1 ∧ readClaim m.payload = some c ∧ m.destination = 255 ∧
      (message (.claim c) 9 12).destination ≠ 255 ∧
      s.entryFor 51007 = some entry0 ∧ s.entryAt 2 = some entry0 ∧ entry0.state = .served ∧ s.tqu.urgent.length < 4 ∧
      4 ≤ (List.replicate 4 (Queued.new .urgent (.taken 1 1 none) 255)).length ∧
      (placing m (holding lost)).entryFor 51007 = some lost ∧ lost.yieldOwed = none ∧ lost.tag = none ∧
      (placing m (holding seeking)).entryAt 2 = some seeking ∧ seeking.tag = some 2 ∧
      (placing m (holding owing)).entryFor 51007 = some owing ∧ owing.yieldOwed ≠ none ∧
      (placing m (hearing own)).entryFor 51007 = none ∧ (placing m (hearing own)).surveyFor 51007 = some own ∧
      ((placing m (hearing own)).apc.slot 4).state = .reserved 9 ∧
      (placing m (hearing idle)).surveyFor 51007 = some idle ∧ idle.claim = none ∧
      (placing m (hearing survey0)).surveyFor 51007 = none := ⟨placing_handles _ _, by decide +kernel⟩
theorem witness_YieldHandled :
    let c : Context := { headset := 40112, tag := 9, expected := 63, count := 255, listen := [⟨21, 7⟩], talk := some 21 }
    let m := message (.yield c) 7 12
    let claimed := { survey0 with claim := some claim0 }
    let seeking := { survey0 with claim := some { claim0 with kind := .seek, phase := .queued, replyTimer := none } }
    let s := placing m (hearing claimed)
    let arriving := { entry0 with headset := 40112, state := .arriving, origin := some .seek, tag := some 9 }
    let lost := { entry0 with headset := 40112, state := .lost, tag := some 9 }
    s.Handles cfg0 m ∧ m.kind = 2 ∧ readYield m.payload = some c ∧ s.surveyFor 40112 = some claimed ∧
      claimed.claim = some claim0 ∧ claim0.tag = c.tag ∧ claim0.kind = .normal ∧
      s.apc.slot 4 = { state := .reserved 9, order := none } ∧
      (placing m (hearing seeking)).surveyFor 40112 = some seeking ∧
      (placing m (hearing seeking)).apc.slot 4 = { state := .reserved 9, order := none } ∧
      (∀ x ∈ (placing m (hearing seeking)).re.serve, x.slot ≠ 4) ∧
      (placing m (holding arriving)).surveyFor 40112 = none ∧ (placing m (holding arriving)).entryFor 40112 = some arriving ∧
      (placing m (holding arriving)).entryAt 2 = some arriving ∧ arriving.origin = some .seek ∧ arriving.tag = some c.tag ∧
      { arriving with origin := some .reclaim }.origin = some .reclaim ∧
      (placing m (holding lost)).entryFor 40112 = some lost ∧ lost.state = .lost ∧ lost.tag = some c.tag ∧
      { arriving with tag := some 8 }.tag ≠ some c.tag ∧
      (placing m run0).surveyFor 40112 = none ∧ (placing m run0).entryFor 40112 = none :=
  ⟨placing_handles_survey _ _, by decide +kernel⟩
/-- Messages that R184 discards: too short, of no headset, with a kind byte, a listen count or a naming count out of range. -/
theorem witness_unreadable :
    let short : Placed := { cls := 1, kind := 1, sender := 7, destination := 255, payload := [0, 0, 199, 63, 3] }
    let odd : Placed := { short with kind := 3, payload := word32Bytes 51007 ++ [5, 2, 60, 4, 3] }
    let seek : Placed := { short with kind := 3, payload := word32Bytes 0xFFFFFFFF ++ [5, 1, 60, 4, 3] }
    let long : Placed := { short with kind := 2, payload := word32Bytes 51007 ++ [5, 37, 3, 5, 0, 0] ++ List.replicate 10 0 }
    let nobody : Placed := { short with kind := 4, payload := word32Bytes 0 ++ [5, 1] }
    let empty : Placed := { short with kind := 5, payload := [0] }
    (∀ m ∈ [short, odd, seek, long, nobody, empty], (placing m run0).tqu.pool.head? = some m) ∧ short.payload.length ≠ 6 ∧
      odd.payload[5]? ≠ some 0 ∧ odd.payload[5]? ≠ some 1 ∧ seek.payload[5]? = some 1 ∧
      seek.payload.take 4 = [0xFF, 0xFF, 0xFF, 0xFF] ∧ long.payload[7]? = some 5 ∧ nobody.payload.take 4 = [0, 0, 0, 0] ∧
      empty.payload[0]? = some 0 := by decide
/-- A STANDING of two namings, the first of no headset: it is skipped and the second is handled. -/
theorem witness_skipped_naming :
    let n : Naming := { headset := 40112, score := 90, offered := true, count := 2, groups := [3, 17] }
    let m := message (.standing [{ n with headset := 0 }, n]) 7 255
    (placing m (hearing survey0)).Handles cfg0 m ∧ m.kind = 5 ∧ m.payload[0]? = some 2 ∧ m.payload.length = 1 + 11 * 2 ∧
      (after .standingHandling (placing m (hearing survey0))).re.survey.map SurveyEntry.knowledge =
        [some { node := 7, score := some 90, offered := true, count := 2, groups := some [3, 17], age := 0 }] :=
  ⟨placing_handles_survey _ _, by decide +kernel⟩
theorem witness_DeclineAndStandingHandled :
    let m := message (.decline 40112 9 .notServed) 7 12
    let claimed := { survey0 with claim := some claim0 }
    let s := placing m (hearing claimed)
    let n : Naming := { headset := 40112, score := 90, offered := true, count := 2, groups := [3, 17] }
    let x := message (.standing [n]) 7 255
    s.Handles cfg0 m ∧ m.kind = 4 ∧ readDecline m.payload = some (40112, 9, .notServed) ∧
      s.surveyFor 40112 = some claimed ∧ claimed.claim = some claim0 ∧ claim0.tag = 9 ∧ claim0.kind = .normal ∧
      (s.apc.slot 4).state = .reserved 9 ∧ claim0.tag ≠ 8 ∧ { claim0 with kind := .seek }.kind = .seek ∧ x.kind = 5 ∧
      readStanding x.payload = some [n] ∧ (placing x (hearing survey0)).surveyFor 40112 = some survey0 ∧
      ((placing x (hearing survey0)).re.survey.map SurveyEntry.headset).Nodup ∧ (placing x run0).entryFor 40112 = none ∧
      (placing x run0).surveyFor 40112 = none ∧ (holding entry0).entryFor 51007 = some entry0 ∧ entry0.state = .served :=
  ⟨placing_handles_survey _ _, by decide +kernel⟩
theorem witness_HandlingCompletes :
    let p := message (.claim { headset := 51007, tag := 5, kind := .normal, score := 62, channel := 3, slot := 5 }) 7 12
    let reply := Queued.new .handover (.decline 51007 5 .busy) 7
    let s : State := { run0 with tqu := { run0.tqu with pool := [p], reached := true, reply := some reply, reservations := 1 } }
    let held : State := { run0 with tqu := { run0.tqu with
      pool := List.replicate 12 (message (.taken 1 1 none) 7 255), reached := true, ownHold := 3 } }
    s.InRun cfg0 ∧ s.mlc.evict = none ∧ s.tqu.pool = p :: [] ∧ s.tqu.reached = true ∧ s.tqu.reply = some reply ∧
      reply.cls = .handover ∧
      p.kind = 3 ∧ p.destination = cfg0.node ∧ s.tqu.ownHold = 0 ∧ held.tqu.reply = none ∧ 0 < held.tqu.ownHold ∧
      cfg0.holdThreshold < 16 - (List.replicate 11 p).length ∧ 16 - (List.replicate 12 p).length ≤ cfg0.holdThreshold ∧
      held.tqu.flow = [] ∧ run0.tqu.pool = [] ∧ 0 < { s.tqu with ownHold := 3 }.ownHold ∧
      { held.tqu with flow := [Queued.new .flow (.hold 4) 255] }.flow = Queued.new .flow (.hold 4) 255 :: [] :=
  ⟨⟨rfl, rfl⟩, by decide⟩
/-- A handling past its point with an EVICT waiting for it, and what its completion is without that EVICT. -/
theorem witness_HandlingCompletes_evict :
    let p := message (.taken 1 1 none) 7 255
    let s : State :=
      { run0 with
        tqu := { run0.tqu with pool := [p], reached := true }
        mlc := { run0.mlc with evict := some 51007 } }
    s.mlc.evict = some 51007 ∧ s.cfl.node = .run ∧ s.cfl.config ≠ none ∧ s.tqu.pool ≠ [] ∧ s.tqu.reached = true ∧
      exec .handlingComplete { s with mlc := { s.mlc with evict := none } } = .next run0 :=
  ⟨rfl, rfl, by decide, by decide, rfl, rfl⟩

/-! ## Witnesses: the matrix link and what is sent -/

theorem witness_StatusClearAndOutbound :
    let u : Uplink := { headset := 51007, talk := 21, frame := silenceFrame cfg0 }
    let a := Answer.evictResult 51007 .done
    checkRecord 0x02 0 (matrixRecord 2 []) = .sound [] ∧ checkRecord 0x03 0 (matrixRecord 3 []) = .sound [] ∧
      run0.cfl.node = .run ∧ (inState .fault).cfl.node = .fault ∧ State.reset.cfl.node = .standby ∧
      run0.mlc.answer = none ∧ run0.mlc.evict = none ∧ { run0.mlc with answer := some a }.answer ≠ none ∧
      { run0.mlc with evict := some 51007 }.evict ≠ none ∧
      { run0.mlc with uplinks := [u] }.uplinks = u :: [] ∧ { run0.mlc with answer := some a }.uplinks = [] ∧
      { run0.mlc with notices := [.faultTrunkStuck] }.notices = Notice.faultTrunkStuck :: [] ∧ run0.mlc.notices = [] ∧
      run0.mlc.counters.length = 29 ∧ run0.mlc.counters[28]? = some 0 ∧ cfg0.neighbours[1]? = some ⟨9, -15⟩ ∧
      run0.tqu.neighbourHolds[1]? = some 0 ∧ cfg0.neighbours.length = run0.tqu.neighbourHolds.length := by
  decide +kernel
theorem witness_EvictAnswered :
    checkRecord 0x04 4 (matrixRecord 4 (word32Bytes 51007)) = .sound [0, 0, 0xC7, 0x3F] ∧ word32 0 0 0xC7 0x3F = 51007 ∧
      run0.mlc.answer = none ∧ run0.mlc.evict = none ∧ { run0.mlc with evict := some 1 }.evict ≠ none ∧
      run0.cfl.node = .run ∧ run0.tqu.reached = false ∧ { run0.tqu with reached := true }.reached = true ∧
      (inState .joining).cfl.node = .joining ∧ (inState .loading).cfl.node = .loading ∧
      run0.entryFor 51007 = none ∧ (holding entry0).entryFor 51007 = some entry0 ∧ entry0.state = .served ∧
      (holding { entry0 with state := .draining }).entryFor 51007 = some { entry0 with state := .draining } ∧
      (holding { entry0 with state := .handing }).entryFor 51007 = some { entry0 with state := .handing } := by
  decide +kernel
theorem witness_CounterRollover :
    let m := { Mlc.cold with counters := List.replicate 29 0xFFFF }
    m.Sound ∧ m.counter .strays = 0xFFFF ∧ Mlc.cold.counter .strays ≠ 0xFFFF ∧ Counter.sent ≠ .strays :=
  ⟨⟨by decide, by decide, by decide, rfl, by decide⟩, by decide⟩
theorem witness_ChecksAcceptWhatIsSent : (word32Bytes 51007).length ≤ 65535 ∧ (0x05 : Byte) ≠ 0x04 := by decide
theorem witness_PayloadsReadBack :
    isIdentity 0xFFFFFFFE = true ∧ 64 ≤ 64 ∧ 255 ≤ 255 ∧ (254 : Node) ≠ 0 ∧ (254 : Node) ≠ 255 ∧
      (∀ i ∈ [(⟨255, 7⟩ : ListenItem)], i.shift ≤ 7) ∧ 90 ≤ 90 ∧ 31 ≤ 31 ∧ 23 ≤ 23 ∧
      ([⟨255, 7⟩, ⟨0, 0⟩].map ListenItem.group).Nodup ∧ (List.replicate 40 (0 : Byte)).length = 40 ∧
      mark1.head? ≠ some 0x02 ∧ ([0] : List Byte).length < (2 : Byte).toNat := by decide

/-! ## Witnesses: the invariants -/

/-- A node in RUN that serves a headset, hears another and has a mark waiting. -/
def busy0 : State :=
  { holding entry0 with
    re := { (holding entry0).re with survey := [survey0] }
    pending := [.cycleMark mark1] }

theorem busy0_steps : step busy0 = .next (after (.cycleMark mark1) { busy0 with pending := [] }) := rfl

/-- A node in RUN past the point of a CLAIM addressed to it, whose reply and reservation wait for the completion, and with an
EVICT that waits for it too. -/
def claiming0 : State :=
  { run0 with
    tqu := { run0.tqu with
      pool := [message (.claim { headset := 51007, tag := 5, kind := .normal, score := 62, channel := 3, slot := 5 }) 7 12]
      reached := true, reply := some (Queued.new .handover (.decline 51007 5 .notServed) 7), reservations := 1 }
    mlc := { run0.mlc with evict := some 51007 }
    pending := [.handlingComplete] }

theorem witness_MatrixLinkLaws :
    claiming0.mlc.Sound ∧ claiming0.EvictLaw ∧ claiming0.mlc.evict = some 51007 ∧
      (after .handlingComplete claiming0).mlc.answer = some (.evictResult 51007 .notServed) :=
  ⟨⟨by decide, by decide, by decide, rfl, by decide⟩, fun _ => ⟨rfl, rfl⟩, rfl, by decide⟩
theorem witness_StatusBitsStay : exec .delivered run0 = .next run0 ∧ Instr.delivered ≠ .powerOn := ⟨rfl, by decide⟩
theorem witness_TrunkLinkLaws : busy0.tlc.Sound :=
  ⟨by decide, by decide, by decide, by decide, by decide, by decide, by decide, by intro r h; cases h⟩
theorem witness_SlotMapAndStoreLaws : busy0.apc.Sound ∧ busy0.vp.Sound := ⟨⟨by decide, by decide⟩, holding0_vp_sound⟩
theorem witness_QueueLaws : claiming0.QueueLaw ∧ step claiming0 = .next (after .handlingComplete { claiming0 with pending := [] }) := by
  refine ⟨⟨⟨by decide, by decide, by decide, by decide, by decide⟩, fun cfg h => ?_, by decide⟩, rfl⟩
  cases h
  refine ⟨by decide, by decide, fun m hm => ?_⟩
  cases hm
  exact ⟨rfl, rfl, by decide⟩
theorem witness_TableLaws : busy0.re.Sound ∧ busy0.SlotLaw := by
  refine ⟨⟨?_, ?_, by decide, by decide, by decide, by decide, by decide⟩, by decide, by decide, by decide⟩
  · intro e he
    simp only [busy0, holding, List.mem_singleton] at he
    subst he
    exact ⟨by decide, by decide, by decide⟩
  · intro e he
    simp only [busy0, List.mem_singleton] at he
    subst he
    exact ⟨by decide, by decide, by decide, by decide⟩
theorem witness_TableLaws_fields : busy0.FieldLaw := by
  refine ⟨fun e he => ?_, fun c hc => ?_⟩
  on_goal 2 => exact absurd hc (by rw [(by decide : busy0.re.claimRecords = [])]; exact List.not_mem_nil)
  simp only [busy0, holding, List.mem_singleton] at he
  subst he
  exact ⟨by decide, by decide, by decide, by decide, by decide, by decide, (fun h hh => by cases hh), by decide⟩
theorem witness_SlotMapAndStoreLaws_references : busy0.RefLaw :=
  ⟨by decide, by decide, by decide +kernel⟩
theorem witness_SlotsSuffice : busy0.re.Sound ∧ busy0.SlotLaw ∧ busy0.apc.Sound :=
  ⟨witness_TableLaws.1, witness_TableLaws.2, witness_SlotMapAndStoreLaws.1⟩

/-! ## Worked sequences on shared operations -/

/-- One ring through a handover (section 7.8): 39 against 37 puts S S 39; 41 against 43 is misinserted. -/
theorem test_ring_first_frame :
    let p := (Machine.Ring.start (some 37)).place cfg0 39 [39]
    p.ring.frames.map VoiceFrame.silence = [true, true, false] ∧ p.ring.expected = some 40 ∧ p.silence = 2 ∧
      ((Machine.Ring.start (some 43)).place cfg0 41 [41]).misinserted = 1 := by decide +kernel

/-- A full fill into a crowded ring (section 7.8): 7 frames and one 4 places ahead give 4 overruns. -/
theorem test_ring_full_fill :
    let r : Machine.Ring := { frames := List.replicate 7 ⟨[1], false⟩, expected := some 0, playing := true }
    let p := r.place { cfg0 with fullFill := true } 4 [2]
    p.overruns = 4 ∧ p.silence = 4 ∧ p.ring.frames.map VoiceFrame.silence =
      [false, false, false, true, true, true, true, false] := by decide +kernel

/-- A context that does not fit (section 7.8): the list is cut after 92, group 30 keeps one reference. -/
theorem test_fit_cut :
    let v := (Vp.cold.acquireAll [1, 2, 4, 5, 6, 7, 9, 10, 11, 30, 21]).acquireAll [30]
    let f := v.fit [21, 30] [⟨21, 0⟩, ⟨92, 1⟩, ⟨8, 3⟩, ⟨30, 2⟩]
    v.store.length = 11 ∧ f.kept = [⟨21, 0⟩, ⟨92, 1⟩] ∧ f.dropped = true ∧ f.vp.store.length = 12 ∧
      (f.vp.find 30).map StoredGroup.refs = some 1 ∧ f.vp.mask = v.mask := by decide +kernel

/-- Choosing the namings of a STANDING (section 3.9): slots 14, 2, 9, 6. -/
theorem test_standing_order :
    let e (slot : Nat) (state : EntryState) (last : Nat) (changed : Bool) : ServeEntry :=
      { entry0 with slot := slot, state := state, lastReported := last, offerChanged := changed }
    let s : State := { run0 with re := { run0.re with serve :=
      [e 2 .served 12 false, e 5 .offered 3 true, e 6 .handing 10 false, e 9 .served 12 false, e 11 .served 9 false,
       e 14 .served 14 false] } }
    (s.named cfg0).map ServeEntry.slot = [14, 2, 9, 6] ∧ (s.named cfg0).map (fun e => e.naming.offered) =
      [false, false, false, false] := by decide +kernel

/-- Replacement in a full list (section 3.9): 70001 leaves for R 13, R 9 is dropped. -/
theorem test_replacement :
    let e (h : Headset) (r : Nat) : SurveyEntry := { SurveyEntry.fresh h (16 * r) with lastHeard := 40 }
    let list := e 70220 9 :: e 70001 9 :: (List.range 46).map fun i => e (BitVec.ofNat 32 (i + 1)) 20
    let next := enterSurveyList (SurveyEntry.fresh 70555 208) list
    (victim list).map SurveyEntry.headset = some 70001 ∧ next.any (fun x => x.headset == 70001) = false ∧
      next.any (fun x => x.headset == 70555) = true ∧ enterSurveyList (SurveyEntry.fresh 70600 144) next = next := by
  decide +kernel

/-- A wrap and the attention line (section 10.8). -/
theorem test_wrap_and_attention :
    let m := { Mlc.cold with
      counters := ((Mlc.cold.counters.set 1 65534).set 18 65535), enables := ⟨true, false, false, true⟩ }
    let a := m.count .strays
    let b := (a.count .arbitrationLosses).count .arbitrationLosses
    a.counter .strays = 0 ∧ a.status.roamRollover = true ∧ a.attention = false ∧
      (a.count .arbitrationLosses).counter .arbitrationLosses = 65535 ∧ b.counter .arbitrationLosses = 0 ∧
      b.attention = true ∧ b.clear.attention = false := by decide +kernel

/-- A cold start with a clamped image (section 11.7): node number 0, k 7, M 4, T_a 16, T_h 12, 18 neighbour items, headset 0. -/
theorem test_clamped_image :
    let image : List Byte :=
      [0x7C, 0x31, 0, 95, 0, 4, 7, 6, 4, 3, 30, 20, 8, 16, 12, 5, 10, 0, 100, 10, 50, 4, 16, 3, 0, 0xD5, 8, 1] ++
        [1, 1, 21, 21, 0, 0, 0, 0, 0, 0, 0] ++ [18, 1] ++ (List.replicate 18 [7, 2]).flatten ++ List.replicate 16 0
    let cfg := loadedSettings image
    cfg.node = 1 ∧ cfg.k = 5 ∧ cfg.margin = 10 ∧ cfg.handingTime = 21 ∧ cfg.neighbours.length = 16 ∧
      cfg.admissions = [] ∧ loadClamps image = true ∧ loadClamps image0 = false := by decide +kernel

/-! ## One step of each command -/

theorem test_powerOn : (after .powerOn run0).cfl.node = .standby ∧ (after .powerOn run0).cfl.config = none := by decide
theorem test_resetLineAsserted : (after .resetLineAsserted (holding entry0)).re.serve = [] := by decide
theorem test_resetLineReleased : (after .resetLineReleased State.reset).cfl.node = .loading := by decide
/-- R180, R109: the sweep of 24 SLOT CLOSE records. -/
theorem test_configLoad_passes :
    let t := after (.configLoadComplete image0) (inState .loading)
    t.cfl.node = .joining ∧ t.cfl.config = some { cfg0 with neighbours := [], admissions := [] } ∧
      t.apc.out.length = 24 ∧ t.apc.out.head? = some [0x12, 1, 0] := by decide +kernel
/-- R179. -/
theorem test_configLoad_fails :
    let t := after (.configLoadComplete [0x7C]) (inState .loading)
    t.cfl.node = .fault ∧ t.mlc.attention = true := by decide +kernel
/-- R13, R97: last reported rises; a late silence frame is sent for a playing empty ring (R118). -/
theorem test_cycleMark :
    let t := after (.cycleMark mark1) (holding entry0)
    t.re.serve.map ServeEntry.lastReported = [5] ∧ t.mlc.counter .lateFrames = 1 ∧
      t.mlc.uplinks.map (fun u => u.frame.silence) = [true] ∧ t.apc.out.length = 1 := by decide +kernel
/-- R97: a repeat is discarded. -/
theorem test_cycleMark_repeat :
    let t := after (.cycleMark mark1) (holding entry0)
    after (.cycleMark mark1) t = t := by decide +kernel
/-- R9. -/
theorem test_arrivalTimeout :
    let e := { entry0 with state := .arriving, origin := some .yield, arrivalTimer := some 1 }
    let t := after (.arrivalTimeout 2) (holding e)
    t.re.serve = [] ∧ t.re.survey.map SurveyEntry.pacing = [31] ∧ t.mlc.notices = [] ∧ (t.apc.slot 2).state = .free := by
  decide +kernel
/-- R18, R20. -/
theorem test_handingTimeout :
    let e := { entry0 with
      state := .handing
      handing := some { claimant := 7, tag := 1, phase := .moveSent, channel := 3, slot := 5, timer := some 1 } }
    let t := after (.handingTimeout 2) (holding e)
    t.re.serve.map ServeEntry.state = [.lost] ∧ t.re.serve.map ServeEntry.rescueTimer = [some 100] ∧
      t.mlc.notices = [.lost 51007] := by decide +kernel
/-- R20. -/
theorem test_rescueTimeout :
    let t := after (.rescueTimeout 2) (holding { entry0 with state := .lost, rescueTimer := some 1 })
    t.re.serve = [] ∧ t.mlc.notices = [.departed 51007] ∧ t.mlc.counter .departures = 1 := by decide +kernel
/-- R34, R49, R61. -/
theorem test_replyTimeout :
    let t := after (.replyTimeout 40112) (hearing { survey0 with claim := some claim0 })
    t.re.survey.map SurveyEntry.pacing = [31] ∧ t.re.claimsOutstanding = 0 ∧ (t.apc.slot 4).state = .free ∧
      t.vp.store = [] := by decide +kernel
/-- R11. -/
theorem test_settleEnd :
    (after (.settleEnd 2) (holding { entry0 with settle := 1 })).re.serve.map ServeEntry.settle = [0] ∧
      (after (.settleEnd 2) (holding { entry0 with settle := 2 })).re.serve.map ServeEntry.settle = [2] := by decide
/-- R12: C is 10. -/
theorem test_cutLink :
    (after (.cutLink 2) (holding { entry0 with heard := false, lossRun := 9 })).re.serve.map ServeEntry.state = [.lost] ∧
      (after (.cutLink 2) (holding { entry0 with heard := false, lossRun := 8 })).re.serve.map ServeEntry.state = [.served] := by
  decide +kernel
/-- R42: the aging limit is 50. -/
theorem test_surveyAging :
    (after (.surveyAging 40112) (hearing { survey0 with lastHeard := 49 })).re.survey = [] ∧
      (after (.surveyAging 40112) (hearing { survey0 with lastHeard := 48 })).re.survey.length = 1 := by decide
/-- R47: four standing periods of 10. -/
theorem test_knowledgeExpiry :
    let e := { survey0 with knowledge := some { node := 7, score := none, offered := false, count := 0, groups := none, age := 39 } }
    (after (.knowledgeExpiry 40112) (hearing e)).re.survey.map SurveyEntry.knowledge = [none] := by decide
/-- R182. -/
theorem test_listenInEnd :
    (after .listenInEnd { run0 with re := { run0.re with listenIn := some 1 } }).re.listenIn = some 0 := by decide
/-- R84. -/
theorem test_seekHoldOffEnd :
    (after (.seekHoldOffEnd 40112) (hearing { survey0 with holdOff := 1 })).re.survey.map SurveyEntry.holdOff = [0] := by decide
/-- R17, R106. -/
theorem test_orderExpiry :
    let e := { entry0 with
      state := .handing
      handing := some { claimant := 7, tag := 1, phase := .moveSent, channel := 3, slot := 5, timer := some 9 } }
    let t := after (.orderExpiry 2) (ordering 2 { kind := .move, age := 3 } (holding e))
    t.re.serve.map ServeEntry.state = [.served] ∧ t.mlc.notices = [.reverted 51007 7] ∧ (t.apc.slot 2).order = none := by
  decide +kernel
/-- R160: a congested pool renews the hold. -/
theorem test_ownHoldExpiry :
    let s : State := { run0 with tqu := { run0.tqu with
      ownHold := 1, pool := List.replicate 12 (message (.hold 1) 7 255) } }
    (after .ownHoldExpiry s).tqu.ownHold = 16 ∧ (after .ownHoldExpiry s).tqu.flow.map Queued.body = [.hold 16] := by
  decide +kernel
/-- R161. -/
theorem test_neighbourHoldExpiry :
    (after (.neighbourHoldExpiry 9) { run0 with tqu := { run0.tqu with neighbourHolds := [5, 1] } }).tqu.neighbourHolds =
      [5, 0] := by decide
/-- R19, R119: no notice and no count. -/
theorem test_drainEmpty :
    let t := after (.drainEmpty 2) (holding { entry0 with state := .draining })
    t.re.serve = [] ∧ t.mlc.notices = [] ∧ t.apc.out = [[0x12, 1, 2]] ∧ t.vp.store = [] := by decide +kernel
/-- Section 2.11: −62 dBm takes Q from 800 to 796. -/
theorem test_slotReport :
    (after (.slotReport (frameRecord 2 0xC2 51007 37)) (holding entry0)).re.serve.map ServeEntry.q = [796] := by decide +kernel
/-- R102: a report for a FREE slot is a stray. -/
theorem test_slotReport_stray : (after (.slotReport [0x02, 3, 23, 1, 0]) (holding entry0)).mlc.counter .strays = 1 := by decide +kernel
/-- R27, R39: −97 dBm GOOD gives s = 13, Q 208, R 13 (section 3.9). -/
theorem test_surveyReport_newcomer :
    (after (.surveyReport (surveyRecord 70555 0x9F 0)) run0).re.survey.map (fun e => (e.q, e.r)) = [(208, 13)] := by
  decide +kernel
/-- R31, R59: every condition holds and the CLAIM goes to node 7. -/
theorem test_surveyReport_claims :
    let t := after (.surveyReport (surveyRecord 40112 0xCA 0)) (hearing survey0)
    t.tqu.handover.map Queued.destination = [7] ∧ (t.apc.slot 0).state = .reserved 0 ∧ t.vp.store.length = 2 := by
  decide +kernel
/-- R79, R80: a SERVED headset's call makes it LOST and starts a reclaim. -/
theorem test_seekCall_served :
    let t := after (.seekCall (callRecord 51007 0x9E)) (holding entry0)
    t.re.serve.map ServeEntry.state = [.lost] ∧ t.re.serve.map ServeEntry.q = [192] ∧ t.mlc.notices = [.lost 51007] ∧
      t.tqu.urgent.length = 1 := by decide +kernel
/-- R78: ignored and counted at an ARRIVING entry. -/
theorem test_seekCall_ignored :
    (after (.seekCall (callRecord 51007 0)) (holding { entry0 with state := .arriving })).mlc.counter
      .ignoredSeekCalls = 1 := by decide +kernel
/-- R88: an unacknowledged ANSWER is sent again. -/
theorem test_orderResult :
    let e := { entry0 with state := .arriving, origin := some .seek, arrivalTimer := some 3 }
    let t := after (.orderResult [0x05, 2, 2, 1]) (ordering 2 { kind := .answer, age := 1 } (holding e))
    t.apc.out = [[0x15, 6, 0, 0, 0xC7, 0x3F, 4, 2]] ∧ (t.apc.slot 2).order = some { kind := .answer, age := 0 } := by
  decide +kernel
/-- R135, R149. -/
theorem test_trunkAttemptStart :
    let t := after (.trunkAttemptStart []) { run0 with tqu := { run0.tqu with handover := [claimMessage] } }
    t.tlc.state = .arbitrating ∧ t.tqu.handover.map Queued.inHand = [true] ∧
      t.tlc.attempt.map (fun a => a.frame.arbitration) = some 4876 := by decide +kernel
/-- R136: counted as a loss, not as a failure. -/
theorem test_arbitrationLost :
    let t := after .arbitrationLost (attempting .arbitrating claimMessage)
    t.tlc.state = .receiving ∧ t.mlc.counter .arbitrationLosses = 1 ∧ t.tqu.handover = [claimMessage] := by decide +kernel
theorem test_arbitrationWon : (after .arbitrationWon (attempting .arbitrating claimMessage)).tlc.state = .sending := by decide
/-- R141, R143. -/
theorem test_bitFault :
    let t := after (.bitFault (.differs .recessive)) (attempting .sending claimMessage)
    t.tlc.state = .receiving ∧ t.mlc.counter .bitFaults = 1 ∧ t.tqu.handover.map Queued.failures = [1] ∧
      t.tlc.generator = 2 := by decide +kernel
/-- R131, R136: the start bit read as IDLE after 4 IDLE is the fifth of their run, and the next IDLE the sixth; after 11 the
line has been quiet long enough by then (R134). -/
theorem test_start_bit_read_idle :
    let s (n : Nat) : State :=
      { run0 with tqu := { run0.tqu with handover := [claimMessage] }, tlc := { run0.tlc with idleRun := n } }
    let t (n : Nat) := after (.bitFault (.startBit .idle)) (after (.trunkAttemptStart []) (s n))
    (t 4).tlc.state = .receiving ∧ (t 4).tlc.idleRun = 5 ∧
      (after (.framingFault 1 .stoppedShort) (t 4)).tlc.state = .waitIdle ∧
      (after (.framingFault 1 .stoppedShort) (t 4)).tlc.idleRun = 6 ∧
      (after (.framingFault 1 .stoppedShort) (t 11)).tlc.state = .idle := by decide +kernel
/-- R145: dropped at the eighth failure. -/
theorem test_acknowledgeFailure_drops :
    let t := after (.acknowledgeFailure .recessive) (attempting .sending { claimMessage with failures := 7 })
    t.tqu.handover = [] ∧ t.mlc.counter .droppedAtLimit = 1 ∧ t.mlc.counter .acknowledgeFailures = 1 := by decide +kernel
/-- R60: a delivered NORMAL CLAIM is SENT with the reply timer T_r. -/
theorem test_delivered :
    let e := { survey0 with claim := some { claim0 with phase := .queued, replyTimer := none } }
    let s : State := { attempting .sending claimMessage with re := (hearing e).re }
    (after .delivered s).re.survey.map (fun x => x.claim.map ClaimRecord.replyTimer) = [some (some 8)] ∧
      (after .delivered s).mlc.counter .sent = 1 := by decide +kernel
/-- R143. -/
theorem test_backoffEnd :
    let s : State := { run0 with tlc := { run0.tlc with state := .backoff, wait := 32 } }
    (after (.backoffEnd (List.replicate 32 .idle)) s).tlc.state = .idle ∧
      (after (.backoffEnd (List.replicate 31 .idle)) s).tlc.state = .backoff := by decide +kernel
/-- R138: the trap record keeps the arbitration field as read. -/
theorem test_frameReceived_crcFault :
    let t := after (.frameReceived 30 2308 255 [] 0) (receiving ⟨false, false, false⟩)
    t.tlc.trap = some { arbitration := 2308, faults := 1 } ∧ t.mlc.counter .crcFaults = 1 ∧ t.tqu.pool = [] := by decide +kernel
/-- R139, R157: a TAKEN of node 4 to all is placed and acknowledged. -/
theorem test_frameReceived_placed :
    let t := after (.frameReceived 30 2308 255 [] (frameCrc 2308 255 [])) (receiving ⟨false, false, false⟩)
    t.tqu.pool.map Placed.sender = [4] ∧ t.tlc.reading = some ⟨false, true, true⟩ := by decide +kernel
theorem test_frameEnd : (after (.frameEnd 9) (receiving ⟨false, true, true⟩)).tlc.state = .idle := by decide
/-- R137. -/
theorem test_framingFault :
    let t := after (.framingFault 5 .violation) (receiving ⟨false, false, false⟩)
    t.tlc.state = .waitIdle ∧ t.mlc.counter .framingFaults = 1 := by decide +kernel
/-- R134. -/
theorem test_waitIdleExit :
    let s : State := { run0 with tlc := { run0.tlc with state := .waitIdle, idleRun := 0 } }
    (after (.waitIdleExit (List.replicate 11 .idle)) s).tlc.state = .idle ∧
      (after (.waitIdleExit [.idle, .idle, .idle, .dominant]) s).tlc.state = .receiving ∧
      (after (.waitIdleExit [.idle, .idle, .dominant]) s).tlc.state = .waitIdle := by decide +kernel
/-- R144: a held line (section 8.9). -/
theorem test_stuckEntry :
    let t := after (.stuckEntry (List.replicate 64 .held)) (attempting .sending claimMessage)
    t.tlc.state = .stuck ∧ t.mlc.status.trunkStuck = true ∧ t.mlc.notices = [.faultTrunkStuck] ∧
      t.tqu.handover = [claimMessage] ∧ t.mlc.counter .bitFaults = 0 := by decide +kernel
/-- R146: 11 IDLE in a row end STUCK, and a start bit between them begins the run again. -/
theorem test_stuckExit :
    let s : State := { tlcState .stuck with tlc := { (tlcState .stuck).tlc with idleRun := 0 } }
    let t := after (.anotherNodesStartBit (List.replicate 5 .idle)) s
    (after (.stuckExit (List.replicate 11 .idle)) s).tlc.state = .idle ∧ t.tlc.state = .stuck ∧ t.tlc.idleRun = 0 ∧
      (after (.stuckExit (List.replicate 10 .idle)) t).tlc.state = .stuck := by decide +kernel
/-- R131: outside a frame RECESSIVE and VIOLATION set both runs to 0. -/
theorem test_runs_end_outside_a_frame :
    (after (.backoffEnd [.violation]) (tlcState .waitIdle)).tlc.idleRun = 0 ∧
      (after (.trunkAttemptStart [.idle, .recessive]) run0).tlc.idleRun = 0 ∧
      (after (.trunkAttemptStart [.idle, .recessive]) run0).tlc.state = .idle := by decide +kernel
/-- R131: IDLE in the acknowledge slot and IDLE in the delimiter behind it are an idle run of 2. -/
theorem test_idle_runs_on_in_the_frame_end :
    let t := after (.acknowledgeFailure .idle) (attempting .sending claimMessage)
    (after (.framingFault 1 (.frameEndNotSeen true)) t).tlc.idleRun = 2 := by decide +kernel
/-- R16. -/
theorem test_takenHandling :
    let e := { entry0 with
      state := .handing
      handing := some { claimant := 7, tag := 1, phase := .moveSent, channel := 3, slot := 5, timer := some 9 } }
    let t := after .takenHandling (placing (message (.taken 51007 3 none) 7 255) (holding e))
    t.re.serve.map ServeEntry.state = [.draining] ∧ t.mlc.notices = [.left 51007 7] ∧
      t.mlc.counter .handoversOut = 1 := by decide +kernel
/-- Section 2.11: R 52 and M 12 need 64; 60 is declined NOT_OFFERED. -/
theorem test_claimHandling :
    let m := message (.claim { headset := 51007, tag := 5, kind := .normal, score := 60, channel := 3, slot := 5 }) 7 12
    let t := after .claimHandling (placing m (holding { entry0 with q := 832, r := 52 }))
    t.tqu.reply.map Queued.body = some (.decline 51007 5 .notOffered) := by decide +kernel
/-- R83, R90: the served headset is LOST and a YIELD is owed to the rival. -/
theorem test_seekClaimHandling :
    let m := message (.claim { headset := 51007, tag := 5, kind := .seek, score := 60, channel := 3, slot := 5 }) 9 255
    let t := after .seekClaimHandling (placing m (holding entry0))
    t.re.serve.map ServeEntry.state = [.lost] ∧ t.tqu.urgent.map Queued.destination = [9] := by decide +kernel
/-- R66: the context's expected sequence and the arrival timer T_a. -/
theorem test_yieldHandling :
    let c : Context := { headset := 40112, tag := 9, expected := 37, count := 2, listen := [⟨21, 0⟩], talk := some 21 }
    let t := after .yieldHandling (placing (message (.yield c) 7 12) (hearing { survey0 with claim := some claim0 }))
    t.re.survey = [] ∧ t.re.serve.map (fun e => (e.slot, e.arrivalTimer, e.ring.expected)) = [(4, some 4, some 37)] ∧
      t.apc.out = [[0x11, 5, 4, 0, 0, 0x9C, 0xB0]] := by decide +kernel
/-- R65: NOT_SERVED removes the knowledge. -/
theorem test_declineHandling :
    let t := after .declineHandling (placing (message (.decline 40112 9 .notServed) 7 12) (hearing { survey0 with claim := some claim0 }))
    t.re.survey.map (fun e => (e.pacing, e.knowledge)) = [(31, none)] ∧ t.mlc.counter .declinesReceived = 1 := by decide +kernel
/-- R64: a DECLINE that matches a SEEK claim is late. -/
theorem test_declineHandling_seek :
    let e := { survey0 with claim := some { claim0 with kind := .seek, phase := .queued, replyTimer := none } }
    let t := after .declineHandling (placing (message (.decline 40112 9 .busy) 7 12) (hearing e))
    t.re.survey = [e] ∧ t.mlc.counter .lateReplies = 1 := by decide +kernel
/-- R35, R45. -/
theorem test_standingHandling :
    let n : Naming := { headset := 40112, score := 61, offered := false, count := 3, groups := [3, 17] }
    let t := after .standingHandling (placing (message (.standing [n]) 4 255) (hearing { survey0 with pacing := 31 }))
    t.re.survey.map (fun e => (e.pacing, e.knowledge.map Knowledge.node, e.knowledge.bind Knowledge.score)) =
      [(30, some 4, some 61)] := by decide +kernel
/-- R158: the reservation falls and the reply joins HANDOVER. -/
theorem test_handlingComplete :
    let m := message (.claim { headset := 51007, tag := 5, kind := .normal, score := 60, channel := 3, slot := 5 }) 7 12
    let s := placing m (holding entry0)
    let s : State := { s with tqu := { s.tqu with reservations := 1 } }
    let t := after .handlingComplete (after .claimHandling s)
    t.tqu.pool = [] ∧ t.tqu.reservations = 0 ∧ t.tqu.handover.length = 1 ∧ t.mlc.counter .declinesSent = 1 := by decide +kernel
/-- R126. -/
theorem test_groupFrame :
    (State.groupFrame 21 77 [5] (holding entry0)).vp.find 21 = some ⟨21, 1, some [5], some 77⟩ ∧
      (State.groupFrame 135 44 [5] (holding entry0)).mlc.counter .maskMisses = 1 := by decide +kernel
/-- R166: a snapshot of 88 + 2n bytes. -/
theorem test_statusQuery :
    (after (.statusQuery (matrixRecord 2 [])) run0).mlc.answer.map (fun a => match a with
      | .snapshot b => (b.length, b.head?)
      | .evictResult _ _ => (0, none)) = some (92, some 4) := by decide +kernel
/-- R169. -/
theorem test_clear :
    let s := (run0.count .strays).count .crcFaults
    (after (.clear (matrixRecord 3 [])) s).mlc.counters = List.replicate 29 0 := by decide +kernel
/-- R163: a sound record of a kind outside the five is discarded uncounted, a damaged one is counted. -/
theorem test_unknown_kind :
    after (.clear (matrixRecord 9 [])) run0 = run0 ∧
      (after (.clear [9, 0, 0, 0, 0]) run0).mlc.counter .matrixCrcDiscards = 1 := by decide +kernel
/-- An eviction during a handover (section 10.8): BUSY. -/
theorem test_evict :
    (after (.evict (matrixRecord 4 (word32Bytes 51007))) (holding { entry0 with state := .handing })).mlc.answer =
      some (.evictResult 51007 .busy) := by decide +kernel
/-- R167: an EVICT waiting at RE holds the answer slot, and a warm restart answers it NOT_SERVED; R168: its handling's
completion decides it. -/
theorem test_evict_waits :
    let s := after .takenHandling (placing (message (.taken 1 1 none) 7 255) (holding entry0))
    let w := after (.evict (matrixRecord 4 (word32Bytes 51007))) s
    w.mlc.evict = some 51007 ∧ w.mlc.answer = none ∧ w.re.serve = [entry0] ∧
      after (.statusQuery (matrixRecord 2 [])) w = w ∧
      (after (.restart (matrixRecord 5 [])) w).mlc.answer = some (.evictResult 51007 .notServed) ∧
      (after .handlingComplete w).mlc.answer = some (.evictResult 51007 .done) ∧
      (after .handlingComplete w).mlc.evict = none ∧ (after .handlingComplete w).re.serve = [] := by decide +kernel
/-- R181. -/
theorem test_restart :
    let t := after (.restart (matrixRecord 5 [])) (holding entry0)
    t.cfl.node = .joining ∧ t.re.serve = [] ∧ t.cfl.config = some cfg0 ∧ t.apc.out.length = 24 := by decide +kernel
/-- R165: an answer goes before a notice. -/
theorem test_outboundRecordStart :
    let s : State := { run0 with mlc := { run0.mlc with
      answer := some (.evictResult 51007 .done), notices := [.evicted 51007] } }
    let t := after .outboundRecordStart s
    t.mlc.answer = none ∧ t.mlc.notices.length = 1 ∧ t.mlc.out.map List.head? = [some 0x83] := by decide +kernel
theorem test_anotherNodesStartBit :
    (after (.anotherNodesStartBit (List.replicate 5 .idle)) run0).tlc.state = .receiving := by decide +kernel

end Sys2Proof.Tests
end

section
/-!
# What one command can do to the tables, the slot map and the group store

An inversion of `exec`, proved once: a command leaves serve table, survey list, slot map and group store as they are, empties
them all, brings a group frame to the store, or is one of the operations of RE in RUN, behind a change beside the tables.
The invariants of the tables (R1, R2, R99, R121) are each read off it.
-/

namespace Sys2Proof.Machine
namespace State

/-- Serve table, survey list, slot map and group store as they were, and RUN not left. -/
structure OffTables (s t : State) : Prop where
  serve : t.re.serve = s.re.serve
  survey : t.re.survey = s.re.survey
  slots : t.apc.slots = s.apc.slots
  vp : t.vp = s.vp
  node : s.cfl.node = .run → t.cfl.node = .run

/-- Nothing in the tables, every slot FREE, nothing stored: the state of tables, slot map and store after a reset. -/
structure Bare (s : State) : Prop where
  serve : s.re.serve = []
  survey : s.re.survey = []
  slots : s.apc.slots = List.replicate slotCount AirSlot.cold
  vp : s.vp = Vp.cold

/-- What one operation of RE in RUN makes of a state: a whole mark, one expiry of it, a report of the front end, the outcome
of a message, a handling, an eviction. -/
inductive Acts (s : State) : State → Prop
  | mark (cfg : Settings) : Acts s (s.mark cfg)
  | expire {cfg : Settings} {k : Nat} {e : ServeEntry} {x : Expiry} (he : s.entryAt k = some e)
      (hd : s.entryDue cfg e = some x) : Acts s (s.expire cfg k x)
  | rescueEnds {k : Nat} {e : ServeEntry} (he : s.entryAt k = some e) (hl : e.state = .lost) :
      Acts s (s.updateEntry k fun e => { e with rescueTimer := some 0 })
  | claimFails (h : Headset) : Acts s (s.failClaim h)
  | settleEnds (k : Nat) : Acts s (s.updateEntry k fun e => if e.settle ≤ 1 then { e with settle := 0 } else e)
  | agesOut {cfg : Settings} {h : Headset} (ha : (s.surveyFor h).any (SurveyEntry.agesOut cfg) = true) :
      Acts s (s.removeSurvey h)
  | knowledgeEnds (cfg : Settings) (h : Headset) :
      Acts s (s.updateSurvey h fun e => if e.knowledgeEnds cfg then e.forget else e)
  | holdOffEnds (h : Headset) : Acts s (s.updateSurvey h fun e => if e.holdOff ≤ 1 then { e with holdOff := 0 } else e)
  | expireOrder (cfg : Settings) (k : Nat) : Acts s (s.expireOrder cfg k)
  | release (k : Nat) : Acts s (s.releaseEntry k)
  | slotReport (cfg : Settings) (r : SlotReport) : Acts s (s.slotReport cfg r)
  | surveyReport (cfg : Settings) (r : SurveyReport) : Acts s (s.surveyReport cfg r)
  | seekCall (cfg : Settings) (c : SeekCall) : Acts s (s.seekCall cfg c)
  | orderResult (cfg : Settings) (r : OrderResult) : Acts s (s.orderResult cfg r)
  | tellOwner (cfg : Settings) (d : Bool) (m : Queued) : Acts s (s.tellOwner cfg d m)
  | handleTaken (cfg : Settings) (h : Headset) (n : Node) (c : Nat) : Acts s (s.handleTaken cfg h n c)
  | handleClaim (cfg : Settings) (n : Node) (c : ClaimBody) : Acts s (s.handleClaim cfg n c)
  | handleSeekClaim (cfg : Settings) (n : Node) (c : ClaimBody) : Acts s (s.handleSeekClaim cfg n c)
  | handleYield (cfg : Settings) (n : Node) (c : Context) : Acts s (s.handleYield cfg n c)
  | handleDecline (h : Headset) (tag : Tag) (r : Reason) : Acts s (s.handleDecline h tag r)
  | namings (cfg : Settings) (n : Node) (ns : List Naming) : Acts s (ns.foldl (State.handleNaming cfg n) s)
  | evict (h : Headset) : Acts s (s.evict h)

/-- What a command can do to the tables, the slot map and the store. -/
inductive Moves (s t : State) : Prop
  | off (h : s.OffTables t)
  | bare (h : t.Bare)
  | frame {u : State} (h : s.OffTables u) {g : Group} {q : Byte} {x : List Sample} (ht : t = u.groupFrame g q x)
  | acts {u : State} (h : s.OffTables u) (hn : u.cfl.node = .run) (ha : u.Acts t)

theorem OffTables.refl (s : State) : s.OffTables s := ⟨rfl, rfl, rfl, rfl, id⟩

theorem OffTables.trans {a b c : State} (h : a.OffTables b) (g : b.OffTables c) : a.OffTables c :=
  ⟨g.serve.trans h.serve, g.survey.trans h.survey, g.slots.trans h.slots, g.vp.trans h.vp, g.node ∘ h.node⟩

theorem offTables_onCfl {f : Cfl → Cfl} {s : State} (hf : s.cfl.node = .run → (f s.cfl).node = .run) :
    s.OffTables (s.onCfl f) := ⟨rfl, rfl, rfl, rfl, hf⟩
theorem offTables_onTlc (f : Tlc → Tlc) (s : State) : s.OffTables (s.onTlc f) := ⟨rfl, rfl, rfl, rfl, id⟩
theorem offTables_onTqu (f : Tqu → Tqu) (s : State) : s.OffTables (s.onTqu f) := ⟨rfl, rfl, rfl, rfl, id⟩
theorem offTables_onMlc (f : Mlc → Mlc) (s : State) : s.OffTables (s.onMlc f) := ⟨rfl, rfl, rfl, rfl, id⟩
theorem offTables_count (c : Counter) (s : State) : s.OffTables (s.count c) := ⟨rfl, rfl, rfl, rfl, id⟩

theorem Moves.after {s u t : State} (h : s.OffTables u) (m : u.Moves t) : s.Moves t := by
  cases m with
  | off g => exact .off (h.trans g)
  | bare g => exact .bare g
  | frame g ht => exact .frame (h.trans g) ht
  | acts g hn ha => exact .acts (h.trans g) hn ha

theorem Moves.refl (s : State) : s.Moves s := .off (.refl s)

theorem Moves.ite {c : Prop} [Decidable c] {s a b : State} (ha : c → s.Moves a) (hb : ¬c → s.Moves b) :
    s.Moves (if c then a else b) := by
  split
  · next h => exact ha h
  · next h => exact hb h

/-- A rule of RUN moves the tables as its body does. -/
theorem moves_whenRun {s : State} {f : Settings → State → State}
    (hf : ∀ cfg, s.cfl.node = .run → s.Moves (f cfg s)) : s.Moves (s.whenRun f) := by
  unfold whenRun
  split
  · next hn _ => exact hf _ hn
  · exact .refl s

/-- A handling reaches its point beside the tables, then moves them as its effect does. -/
theorem moves_handle {s : State} {p : Placed → Bool} {f : Settings → Placed → State → State}
    (hf : ∀ cfg m u, u.cfl.node = .run → Moves u (f cfg m u)) : s.Moves (s.handle p f) :=
  moves_whenRun fun cfg hn => by
    split
    · exact .ite (fun _ => .after (offTables_onTqu (fun t => { t with reached := true }) s) (hf cfg _ _ hn))
        fun _ => .refl s
    · exact .refl s

theorem Moves.of_acts {s t : State} (hn : s.cfl.node = .run) (ha : s.Acts t) : s.Moves t := .acts (.refl s) hn ha

/-! ## Beside the tables -/

theorem offTables_runIfJoined (s : State) : s.OffTables s.runIfJoined := by
  unfold runIfJoined
  split
  · exact ⟨rfl, rfl, rfl, rfl, fun _ => rfl⟩
  · exact .refl s

theorem offTables_reportAir (s : State) : s.OffTables s.reportAir :=
  .trans (offTables_onCfl id) (offTables_runIfJoined (s.onCfl fun c => { c with airJoined := true }))

theorem offTables_reportTrunk (s : State) : s.OffTables s.reportTrunk := by
  unfold reportTrunk
  split
  · exact .trans (offTables_onCfl id) (offTables_runIfJoined (s.onCfl fun c => { c with trunkJoined := true }))
  · exact .refl s

theorem offTables_reportEntry (s : State) : s.OffTables s.reportEntry := by
  unfold reportEntry
  split
  · exact offTables_reportTrunk s
  · exact offTables_reportTrunk s
  all_goals exact .refl s

theorem offTables_stickIfHeld (s : State) : s.OffTables s.stickIfHeld := ⟨by simp, by simp, by simp, by simp, by simp⟩

theorem offTables_hear (x : LineSymbol) (s : State) : s.OffTables (s.hear x) := by
  have t := offTables_onTlc (fun t => (t.elapse 1).read x) s
  have stick := t.trans (offTables_stickIfHeld _)
  have report (f : Tlc → Tlc) := (t.trans (offTables_onTlc f _)).trans (offTables_reportEntry _)
  unfold hear
  dsimp only
  split
  · exact .refl s
  · exact stick
  · exact stick
  · exact stick
  · split
    · exact report _
    · split
      · exact report _
      · exact stick
  · split
    · exact t.trans (offTables_onTlc _ _)
    · exact stick
  · split
    · exact report _
    · exact (report _).trans (offTables_stickIfHeld _)
  · split
    · exact report _
    · exact t

theorem offTables_hearAll (line : List LineSymbol) (s : State) : s.OffTables (s.hearAll line) := by
  induction line generalizing s with
  | nil => exact .refl s
  | cons x xs ih => exact (offTables_hear x s).trans (ih _)

theorem offTables_queueReply (s : State) : s.OffTables s.queueReply := by
  unfold queueReply
  split
  · dsimp only
    split
    · exact ⟨rfl, rfl, rfl, rfl, id⟩
    · exact ⟨rfl, rfl, rfl, rfl, id⟩
  · exact .refl s

theorem offTables_offerFrame (cfg : Settings) (p : Placed) (s : State) : s.OffTables (s.offerFrame cfg p) := by
  unfold offerFrame
  split
  · split
    · split
      · exact ⟨rfl, rfl, rfl, rfl, id⟩
      · exact .refl s
    · exact .refl s
  · split
    · exact .refl s
    · split
      · exact ⟨rfl, rfl, rfl, rfl, id⟩
      · exact ⟨rfl, rfl, rfl, rfl, id⟩

/-! ## The moves of commands with more than one part -/

theorem moves_evictWaiting (s : State) (hn : s.cfl.node = .run) : s.Moves s.decideEvict := by
  unfold decideEvict
  split
  · exact .of_acts hn (.evict _)
  · exact .refl s

theorem moves_takeEvict (body : List Byte) (s : State) : s.Moves (s.takeEvict body) := by
  unfold takeEvict
  split
  · split
    · next hn => exact .ite (fun _ => .off ⟨rfl, rfl, rfl, rfl, id⟩) fun _ => .of_acts hn (.evict _)
    · exact .off ⟨rfl, rfl, rfl, rfl, id⟩
    all_goals exact .refl s
  · exact .refl s

/-- A matrix record moves the tables as its act does; one that is not sound is counted at most (R163). -/
theorem moves_takeRecord {kind : Byte} {need : Nat} {record : List Byte} {act : List Byte → State → State} {s : State}
    (ha : ∀ body, s.Moves (act body s)) : s.Moves (s.takeRecord kind need record act) := by
  unfold takeRecord
  split
  · exact .refl s
  all_goals
    split
    · exact .off (offTables_count _ s)
    · exact .refl s
    · exact ha _

theorem moves_failAttempt (a : Attempt) (s : State) : s.Moves (s.failAttempt a) := by
  unfold failAttempt
  split
  · split
    · exact .off ⟨rfl, rfl, rfl, rfl, id⟩
    · exact .after ((offTables_onTqu Tqu.removeInHand s).trans (offTables_count .droppedAtLimit _))
        (moves_whenRun fun cfg hn => .of_acts hn (.tellOwner cfg _ _))
  · exact .ite (fun _ => .off ⟨rfl, rfl, rfl, rfl, id⟩) fun _ => .refl s

theorem bare_warmRestart (s : State) : s.warmRestart.Bare := ⟨rfl, rfl, rfl, rfl⟩

theorem bare_coldReset (s : State) : s.coldReset.Bare := ⟨rfl, rfl, rfl, rfl⟩

theorem offTables_noteCycle (n : BitVec 16) (s : State) : s.OffTables (s.noteCycle n) := ⟨rfl, rfl, rfl, rfl, id⟩

theorem moves_cycleMark {record : List Byte} {s t : State} (h : execCycleMark record s = .next t) : s.Moves t := by
  unfold execCycleMark at h
  cases h
  split
  · exact .refl s
  · refine .ite (fun _ => .refl s) fun _ => ?_
    split
    · exact .off ((offTables_noteCycle _ s).trans (offTables_reportAir _))
    · exact .after (offTables_noteCycle _ s) (moves_whenRun fun cfg hn => .of_acts hn (.mark cfg))
    all_goals exact .refl s

theorem moves_rescueTimeout {k : Nat} {s t : State} (h : execRescueTimeout k s = .next t) : s.Moves t := by
  unfold execRescueTimeout at h
  cases h
  refine moves_whenRun fun cfg hn => ?_
  split
  · next e he =>
    exact .ite (fun hd => .of_acts hn (.expire he hd))
      fun _ => .ite (fun hl => .of_acts hn (.rescueEnds he hl.1)) fun _ => .refl s
  · exact .refl s

theorem moves_expireIfDue (k : Nat) (x : Expiry) (s : State) : s.Moves (s.expireIfDue k x) :=
  moves_whenRun fun cfg hn => by
    split
    · next he => exact .ite (fun hd => .of_acts hn (.expire he hd)) fun _ => .refl s
    · exact .refl s

theorem moves_handlingComplete {s t : State} (h : execHandlingComplete s = .next t) : s.Moves t := by
  unfold execHandlingComplete at h
  cases h
  refine moves_whenRun fun cfg hn => ?_
  split
  · refine .ite (fun _ => ?_) fun _ => .refl s
    have off := ((offTables_onTqu (Tqu.freeBuffer cfg.node) s).trans (offTables_queueReply _)).trans
      (offTables_onTqu (Tqu.holdRelease cfg) _)
    exact .after off (moves_evictWaiting _ (off.node hn))
  · exact .refl s

theorem moves_frameReceived {bits : Nat} {a : BitVec 13} {d : Node} {p : List Byte} {crc : Byte} {s t : State}
    (h : execFrameReceived bits a d p crc s = .next t) : s.Moves t := by
  unfold execFrameReceived at h
  cases h
  split
  · refine .ite (fun _ => .refl s) fun _ => ?_
    refine .ite (fun _ => .off ⟨rfl, rfl, rfl, rfl, id⟩) fun _ => .ite (fun _ => .off ⟨rfl, rfl, rfl, rfl, id⟩) fun _ =>
      .ite (fun _ => .off ⟨rfl, rfl, rfl, rfl, id⟩) fun _ => .after (offTables_onTlc _ s) (moves_whenRun fun cfg _ => ?_)
    exact .ite (fun _ => .off (offTables_offerFrame _ _ _)) fun _ => .refl _
  · exact .refl s

theorem moves_delivered {s t : State} (h : execDelivered s = .next t) : s.Moves t := by
  unfold execDelivered at h
  cases h
  split
  · dsimp only
    split
    · refine .ite (fun _ => .off ⟨rfl, rfl, rfl, rfl, id⟩) fun _ => ?_
      exact .after (((offTables_count .sent s).trans (offTables_onTlc _ _)).trans (offTables_onTqu Tqu.removeInHand _))
        (moves_whenRun fun cfg hn => .of_acts hn (.tellOwner cfg _ _))
    · exact .off ⟨rfl, rfl, rfl, rfl, id⟩
  · exact .refl s

theorem moves_trunkAttemptStart {line : List LineSymbol} {s t : State} (h : execTrunkAttemptStart line s = .next t) :
    s.Moves t := by
  unfold execTrunkAttemptStart at h
  cases h
  split
  · have hear := offTables_hearAll line s
    refine .ite (fun _ => ?_) fun _ => .off hear
    split
    · exact .off (hear.trans ⟨rfl, rfl, rfl, rfl, id⟩)
    · exact .off hear
  · exact .refl s

theorem moves_framingFault {bits : Nat} {cause : FramingCause} {s t : State}
    (h : execFramingFault bits cause s = .next t) : s.Moves t := by
  unfold execFramingFault at h
  cases h
  dsimp only
  split
  · exact .ite (fun _ => .off ⟨rfl, rfl, rfl, rfl, id⟩)
      fun _ => .ite (fun _ => .off ⟨rfl, rfl, rfl, rfl, id⟩) fun _ => .refl s
  · exact .ite (fun _ => .off ⟨rfl, rfl, rfl, rfl, id⟩) fun _ => .refl s
  · exact .refl s

/-! ## Every command -/

/-- A command hears its line in some states of TLC and does nothing in the others. -/
theorem moves_hearing {s : State} {line : List LineSymbol} : s.Moves (s.hearAll line) := .off (offTables_hearAll line s)

/-- All that a command can do to the tables, the slot map and the store. -/
theorem exec_moves {c : Instr} {s t : State} (h : exec c s = .next t) : s.Moves t := by
  cases c with
  | powerOn => cases h; exact .bare (bare_coldReset s)
  | resetLineAsserted => cases h; exact .bare (bare_coldReset s)
  | resetLineReleased =>
    cases h
    split
    · next hn => exact .off ⟨rfl, rfl, rfl, rfl, fun h => by rw [hn] at h; cases h⟩
    all_goals exact .refl s
  | configLoadComplete image =>
    cases h
    split
    · next hn =>
      have left {t : State} (h : s.cfl.node = .run) : t.cfl.node = .run := by rw [hn] at h; cases h
      split
      · exact .off ⟨rfl, rfl, rfl, rfl, left⟩
      · exact .off ⟨rfl, rfl, rfl, rfl, left⟩
    all_goals exact .refl s
  | cycleMark record => exact moves_cycleMark h
  | arrivalTimeout k => cases h; exact moves_expireIfDue k _ s
  | handingTimeout k => cases h; exact moves_expireIfDue k _ s
  | rescueTimeout k => exact moves_rescueTimeout h
  | replyTimeout x =>
    cases h
    exact moves_whenRun fun cfg hn => .ite (fun _ => .of_acts hn (.claimFails x)) fun _ => .refl s
  | settleEnd k => cases h; exact moves_whenRun fun cfg hn => .of_acts hn (.settleEnds k)
  | cutLink k => cases h; exact moves_expireIfDue k _ s
  | surveyAging x =>
    cases h
    exact moves_whenRun fun cfg hn => .ite (fun ha => .of_acts hn (.agesOut ha)) fun _ => .refl s
  | knowledgeExpiry x => cases h; exact moves_whenRun fun cfg hn => .of_acts hn (.knowledgeEnds cfg x)
  | listenInEnd => cases h; exact moves_whenRun fun cfg hn => .off ⟨rfl, rfl, rfl, rfl, id⟩
  | seekHoldOffEnd x => cases h; exact moves_whenRun fun cfg hn => .of_acts hn (.holdOffEnds x)
  | orderExpiry k => cases h; exact moves_whenRun fun cfg hn => .of_acts hn (.expireOrder cfg k)
  | ownHoldExpiry => cases h; exact moves_whenRun fun cfg hn => .off (offTables_onTqu _ s)
  | neighbourHoldExpiry n => cases h; exact moves_whenRun fun cfg hn => .off (offTables_onTqu _ s)
  | drainEmpty k =>
    cases h
    exact moves_whenRun fun cfg hn => .ite (fun _ => .of_acts hn (.release k)) fun _ => .refl s
  | slotReport record =>
    cases h
    exact moves_whenRun fun cfg hn => by split <;> [exact .of_acts hn (.slotReport cfg _); exact .refl s]
  | surveyReport record =>
    cases h
    exact moves_whenRun fun cfg hn => by split <;> [exact .of_acts hn (.surveyReport cfg _); exact .refl s]
  | seekCall record =>
    cases h
    exact moves_whenRun fun cfg hn => by split <;> [exact .of_acts hn (.seekCall cfg _); exact .refl s]
  | orderResult record =>
    cases h
    exact moves_whenRun fun cfg hn => by split <;> [exact .of_acts hn (.orderResult cfg _); exact .refl s]
  | trunkAttemptStart line => exact moves_trunkAttemptStart h
  | arbitrationLost => cases h; split <;> [exact .off ⟨rfl, rfl, rfl, rfl, id⟩; exact .refl s]
  | bitFault cause =>
    cases h
    split
    · exact .ite (fun _ => .after ((offTables_count .bitFaults s).trans (offTables_onTlc _ _)) (moves_failAttempt _ _))
        fun _ => .refl s
    · exact .refl s
  | delivered => exact moves_delivered h
  | acknowledgeFailure x =>
    cases h
    split
    · exact .ite (fun _ => .refl s) fun _ =>
        .after ((offTables_count .acknowledgeFailures s).trans (offTables_onTlc _ _)) (moves_failAttempt _ _)
    · exact .refl s
  | backoffEnd line => cases h; split <;> first | exact moves_hearing | exact .refl s
  | frameReceived bits a d p crc => exact moves_frameReceived h
  | frameEnd bits =>
    cases h
    split
    · exact .off (offTables_onTlc _ s)
    · exact .off (offTables_onTlc _ s)
    · exact .refl s
  | framingFault bits cause => exact moves_framingFault h
  | waitIdleExit line => cases h; split <;> first | exact moves_hearing | exact .refl s
  | stuckEntry line => cases h; exact moves_hearing
  | stuckExit line => cases h; split <;> first | exact moves_hearing | exact .refl s
  | takenHandling =>
    cases h
    exact moves_handle fun cfg m u hn => by split <;> [exact .of_acts hn (.handleTaken cfg _ _ _); exact .refl u]
  | claimHandling =>
    cases h
    exact moves_handle fun cfg m u hn => by
      split <;> [exact .ite (fun _ => .of_acts hn (.handleClaim cfg _ _)) fun _ => .refl u; exact .refl u]
  | seekClaimHandling =>
    cases h
    exact moves_handle fun cfg m u hn => by
      split <;> [exact .ite (fun _ => .of_acts hn (.handleSeekClaim cfg _ _)) fun _ => .refl u; exact .refl u]
  | yieldHandling =>
    cases h
    exact moves_handle fun cfg m u hn => by split <;> [exact .of_acts hn (.handleYield cfg _ _); exact .refl u]
  | declineHandling =>
    cases h
    exact moves_handle fun cfg m u hn => by split <;> [exact .of_acts hn (.handleDecline _ _ _); exact .refl u]
  | standingHandling =>
    cases h
    exact moves_handle fun cfg m u hn => by split <;> [exact .of_acts hn (.namings cfg _ _); exact .refl u]
  | handlingComplete => exact moves_handlingComplete h
  | groupFrame record =>
    cases h
    exact moves_takeRecord fun body => by split <;> first | exact .frame (.refl s) rfl | exact .refl s
  | statusQuery record =>
    cases h
    exact moves_takeRecord fun body => .ite (fun _ => .off ⟨rfl, rfl, rfl, rfl, id⟩) fun _ => .refl s
  | clear record =>
    cases h
    exact moves_takeRecord fun body => by split <;> exact .off ⟨rfl, rfl, rfl, rfl, id⟩
  | evict record => cases h; exact moves_takeRecord fun body => moves_takeEvict body s
  | restart record =>
    cases h
    exact moves_takeRecord fun body => by split <;> first | exact .bare (bare_warmRestart s) | exact .refl s
  | outboundRecordStart => cases h; split <;> first | exact .refl s | exact .off (offTables_onMlc _ s)
  | anotherNodesStartBit line => cases h; split <;> first | exact moves_hearing | exact .refl s
  | arbitrationWon => cases h; split <;> [exact .off (offTables_onTlc _ s); exact .refl s]

/-- All that a step can do to the tables, the slot map and the store. -/
theorem step_moves {s t : State} (h : step s = .next t) : s.Moves t := by
  unfold step at h
  split at h
  · cases h; exact .refl s
  · next rest _ => exact .after (u := { s with pending := rest }) ⟨rfl, rfl, rfl, rfl, id⟩ (exec_moves h)

end State
end Sys2Proof.Machine
end

section
/-!
# The laws of the blocks, and the tables outside RUN

`step_moves` with the lemmas about each operation: APC and VP stay sound, the law of the tables and slots stands, and outside
RUN nothing is served (R23, R58, R98, R109, R130).
-/

namespace Sys2Proof.Machine

theorem Apc.sound_of_slots {a b : Apc} (h : a.Sound) (hs : b.slots = a.slots) : b.Sound :=
  ⟨hs ▸ h.slots, hs ▸ h.orders⟩

theorem Apc.stateOf_of_slots {a b : Apc} (hs : b.slots = a.slots) (k : Nat) : b.stateOf k = a.stateOf k := by
  simp only [Apc.stateOf, Apc.slot, hs]

theorem Apc.sound_bare {a : Apc} (h : a.slots = List.replicate slotCount AirSlot.cold) : a.Sound := by
  refine ⟨by simp [h], fun x hx ho => ?_⟩
  rw [h] at hx
  rw [List.eq_of_mem_replicate hx] at ho
  cases ho

theorem Vp.sound_cold : Vp.cold.Sound :=
  ⟨Nat.zero_le _, List.nodup_nil, (by intro e he; cases he), rfl⟩

namespace State

/-! ## APC and VP -/

/-- What every operation of RE keeps beside its tables: CFL, and the laws of APC and VP. -/
structure Guards (s t : State) : Prop where
  cfl : t.cfl = s.cfl
  apc : s.apc.Sound → t.apc.Sound
  vp : s.vp.Sound → t.vp.Sound

theorem Stays.guards {s t : State} (h : s.Stays t) : s.Guards t := ⟨h.cfl, h.apc, h.vp⟩

theorem guards_handleClaim (cfg : Settings) (n : Node) (c : ClaimBody) (s : State) :
    s.Guards (s.handleClaim cfg n c) := by
  unfold handleClaim
  split
  · exact ⟨rfl, id, id⟩
  · exact ⟨rfl, id, id⟩

theorem acts_guards {s t : State} (h : s.Acts t) : s.Guards t := by
  cases h with
  | mark cfg => exact (stays_mark cfg s).guards
  | expire _ _ => exact (stays_expire _ _ _ s).guards
  | rescueEnds _ _ => exact (stays_updateEntry _ _ s).guards
  | claimFails x => exact (stays_failClaim x s).guards
  | settleEnds k => exact (stays_updateEntry _ _ s).guards
  | agesOut _ => exact (stays_removeSurvey _ s).guards
  | knowledgeEnds cfg x => exact (stays_updateSurvey _ _ s).guards
  | holdOffEnds x => exact (stays_updateSurvey _ _ s).guards
  | expireOrder cfg k => exact (stays_expireOrder cfg k s).guards
  | release k => exact (stays_releaseEntry k s).guards
  | slotReport cfg r => exact (stays_slotReport cfg r s).guards
  | surveyReport cfg r => exact (stays_surveyReport cfg r s).guards
  | seekCall cfg c => exact (stays_seekCall cfg c s).guards
  | orderResult cfg r => exact (stays_orderResult cfg r s).guards
  | tellOwner cfg d m => exact (stays_tellOwner cfg d m s).guards
  | handleTaken cfg x n c => exact (stays_handleTaken cfg x n c s).guards
  | handleClaim cfg n c => exact guards_handleClaim cfg n c s
  | handleSeekClaim cfg n c => exact (stays_handleSeekClaim cfg n c s).guards
  | handleYield cfg n c => exact (stays_handleYield cfg n c s).guards
  | handleDecline x tag r => exact (stays_handleDecline x tag r s).guards
  | namings cfg n ns => exact (stays_foldl _ (stays_handleNaming cfg n) ns s).guards
  | evict x => exact (stays_evict x s).guards

/-- Every move keeps the laws of APC and VP (R99, R105, R121, R124). -/
theorem moves_sound {s t : State} (h : s.Moves t) (ha : s.apc.Sound) (hv : s.vp.Sound) : t.apc.Sound ∧ t.vp.Sound := by
  cases h with
  | off g => exact ⟨Apc.sound_of_slots ha g.slots, g.vp ▸ hv⟩
  | bare g => exact ⟨Apc.sound_bare g.slots, g.vp ▸ Vp.sound_cold⟩
  | @frame u g a q x ht =>
    subst ht
    have k := (stays_groupFrame a q x u).guards
    exact ⟨k.apc (Apc.sound_of_slots ha g.slots), k.vp (g.vp ▸ hv)⟩
  | acts g _ hx =>
    have k := acts_guards hx
    exact ⟨k.apc (Apc.sound_of_slots ha g.slots), k.vp (g.vp ▸ hv)⟩

/-! ## The tables and the slots -/

theorem OffTables.lawful {s t : State} (g : s.OffTables t) (h : s.Lawful) : t.Lawful :=
  h.of_eq g.serve g.survey (Apc.stateOf_of_slots g.slots)

theorem Bare.lawful {s : State} (h : s.Bare) : s.Lawful := by
  unfold Lawful
  rw [h.serve, h.survey]
  constructor <;> simp [claimKeys]

theorem lawful_groupFrame {s : State} (h : s.Lawful) (g : Group) (q : Byte) (x : List Sample) :
    (s.groupFrame g q x).Lawful := by
  unfold groupFrame
  refine lawful_ite h ?_
  split
  · exact h
  · exact lawful_ite h (lawful_ite h h)

theorem lawful_rescueEnds {s : State} (h : s.Lawful) (k : Nat) :
    (s.updateEntry k fun e => { e with rescueTimer := some 0 }).Lawful :=
  lawful_updateEntry h k _ (fun _ => rfl) (fun _ => rfl) fun _ he => ServeEntry.sound_of_fields he rfl rfl he.ring

theorem lawful_settleEnds {s : State} (h : s.Lawful) (k : Nat) :
    (s.updateEntry k fun e => if e.settle ≤ 1 then { e with settle := 0 } else e).Lawful := by
  refine lawful_updateEntry h k _ (fun e => ?_) (fun e => ?_) fun e he => ?_ <;> split
  · rfl
  · rfl
  · rfl
  · rfl
  · exact ServeEntry.sound_of_fields he rfl rfl he.ring
  · exact he

theorem lawful_knowledgeEnds {s : State} (h : s.Lawful) (cfg : Settings) (x : Headset) :
    (s.updateSurvey x fun e => if e.knowledgeEnds cfg then e.forget else e).Lawful := by
  refine lawful_updateSurvey h x _ (fun e => ?_) (fun e he => ?_) (fun e => ?_) <;> split
  · rfl
  · rfl
  · exact sound_forget e he
  · exact he
  · rfl
  · rfl

theorem lawful_holdOffEnds {s : State} (h : s.Lawful) (x : Headset) :
    (s.updateSurvey x fun e => if e.holdOff ≤ 1 then { e with holdOff := 0 } else e).Lawful := by
  refine lawful_updateSurvey h x _ (fun e => ?_) (fun e he => ?_) (fun e => ?_) <;> split
  · rfl
  · rfl
  · exact ⟨he.q, he.r, he.dwell, he.pacing⟩
  · exact he
  · rfl
  · rfl

theorem acts_lawful {s t : State} (ha : s.Acts t) (h : s.Lawful) : t.Lawful := by
  cases ha with
  | mark cfg => exact lawful_mark h cfg
  | expire _ _ => exact lawful_expire h _ _ _
  | rescueEnds _ _ => exact lawful_rescueEnds h _
  | claimFails x => exact lawful_failClaim h x
  | settleEnds k => exact lawful_settleEnds h k
  | agesOut _ => exact lawful_removeSurvey h _
  | knowledgeEnds cfg x => exact lawful_knowledgeEnds h cfg x
  | holdOffEnds x => exact lawful_holdOffEnds h x
  | expireOrder cfg k => exact lawful_expireOrder h cfg k
  | release k => exact lawful_releaseEntry h k
  | slotReport cfg r => exact lawful_slotReport h cfg r
  | surveyReport cfg r => exact lawful_surveyReport h cfg r
  | seekCall cfg c => exact lawful_seekCall h cfg c
  | orderResult cfg r => exact lawful_orderResult h cfg r
  | tellOwner cfg d m => exact lawful_tellOwner h cfg d m
  | handleTaken cfg x n c => exact lawful_handleTaken h cfg x n c
  | handleClaim cfg n c => exact lawful_handleClaim h cfg n c
  | handleSeekClaim cfg n c => exact lawful_handleSeekClaim h cfg n c
  | handleYield cfg n c => exact lawful_handleYield h cfg n c
  | handleDecline x tag r => exact lawful_handleDecline h x tag r
  | namings cfg n ns => exact lawful_foldl _ (fun _ x hs => lawful_handleNaming hs cfg n x) ns h
  | evict x => exact lawful_evict h x

/-- Every move keeps the law of the tables and slots (R1, R4, R38, R48, R99). -/
theorem moves_lawful {s t : State} (m : s.Moves t) (h : s.Lawful) : t.Lawful := by
  cases m with
  | off g => exact g.lawful h
  | bare g => exact g.lawful
  | frame g ht => subst ht; exact lawful_groupFrame (g.lawful h) _ _ _
  | acts g _ ha => exact acts_lawful ha (g.lawful h)

/-- No two entries hold one slot, since a slot is ASSIGNED to one headset (R1, R99). -/
theorem nodup_slots {s : State} (h : s.Lawful) : (s.re.serve.map ServeEntry.slot).Nodup := by
  refine List.Nodup.of_map (fun k => s.apc.stateOf k) ?_
  have : (s.re.serve.map ServeEntry.slot).map (fun k => s.apc.stateOf k) =
      (s.re.serve.map ServeEntry.headset).map SlotState.assigned := by
    rw [List.map_map, List.map_map]
    exact List.map_congr_left fun e he => h.entries e he
  rw [this]
  exact h.serveOnce.map fun a b hab => SlotState.assigned.inj hab

/-! ## Outside RUN -/

theorem groupFrame_of_empty {s : State} (h : s.vp.store = []) (g : Group) (q : Byte) (x : List Sample) :
    s.groupFrame g q x = s ∨ s.groupFrame g q x = s.count .maskMisses := by
  unfold groupFrame
  split
  · exact .inl rfl
  · simp [Vp.find, h]

theorem cfl_groupFrame (s : State) (g : Group) (q : Byte) (x : List Sample) : (s.groupFrame g q x).cfl = s.cfl :=
  (stays_groupFrame g q x s).cfl

end State

/-- Settles O10: a move outside RUN leaves the tables or empties them, since RE acts in RUN alone and a group frame finds an
empty store. -/
theorem nothingServedBeforeRun : Obligations.NothingServedBeforeRun := by
  unfold Obligations.NothingServedBeforeRun
  intro s t hs hst hn
  have carry {u : State} (g : s.OffTables u) (hu : u.cfl.node ≠ .run) :
      u.re.serve = [] ∧ u.re.survey = [] ∧ u.apc.slots = List.replicate 24 { state := .free, order := none } ∧
        u.vp.store = [] := by
    rw [g.serve, g.survey, g.slots, g.vp]
    exact hs fun hr => hu (g.node hr)
  cases State.step_moves hst with
  | off g => exact carry g hn
  | bare g => exact ⟨g.serve, g.survey, g.slots, g.vp ▸ rfl⟩
  | frame g ht =>
    subst ht
    rw [State.cfl_groupFrame] at hn
    have empty := carry g hn
    rcases State.groupFrame_of_empty empty.2.2.2 _ _ _ with e | e <;> rw [e] <;> exact empty
  | acts g hr ha => exact absurd ((State.acts_guards ha).cfl ▸ hr) hn

/-- Distinct numbers below `n` are at most `n`. -/
theorem length_le_of_nodup_of_lt {l : List Nat} {n : Nat} (hd : l.Nodup) (hl : ∀ k ∈ l, k < n) : l.length ≤ n := by
  simpa using (List.subperm_of_subset hd fun k hk => List.mem_range.mpr (hl k hk)).length_le

/-- Settles O60: entries and claims hold distinct slots, each in another state than FREE, so within the 24 of the map. -/
theorem slotsSuffice : Obligations.SlotsSuffice := by
  unfold Obligations.SlotsSuffice
  intro s hre hsl ha
  have h : s.Lawful := (State.lawful_iff s).mpr ⟨hre, hsl⟩
  have taken {k : Nat} (hk : s.apc.stateOf k ≠ .free) : k < 24 := by
    have := Apc.lt_of_not_free hk
    rwa [ha.slots] at this
  have all : (s.re.serve.map ServeEntry.slot ++ (claimKeys s.re.survey).map Prod.fst).Nodup := by
    refine (State.nodup_slots h).append h.once fun k hk hc => ?_
    obtain ⟨e, he, rfl⟩ := List.mem_map.mp hk
    obtain ⟨p, hp, hpe⟩ := List.mem_map.mp hc
    have := h.claims p hp
    rw [hpe, h.entries e he] at this
    cases this
  have := length_le_of_nodup_of_lt (n := 24) all fun k hk => by
    rcases List.mem_append.mp hk with hk | hk
    · obtain ⟨e, he, rfl⟩ := List.mem_map.mp hk
      exact taken (by rw [h.entries e he]; simp)
    · obtain ⟨p, hp, rfl⟩ := List.mem_map.mp hk
      exact taken (by rw [h.claims p hp]; simp)
  simpa [claimKeys_length] using this

end Sys2Proof.Machine
end

section
/-!
# References of groups: walks, fits and acquires

What the exchange of R123, a claim's acquires (R122) and their releases do to the references of each group.
-/

namespace Sys2Proof.Machine

/-! ## Lists of groups -/

theorem nodup_distinctGroups (gs : List Group) : (distinctGroups gs).Nodup := by
  induction gs with
  | nil => exact List.nodup_nil
  | cons g gs ih => exact List.nodup_cons.mpr ⟨by simp, ih.filter _⟩

theorem distinctGroups_of_nodup {gs : List Group} (h : gs.Nodup) : distinctGroups gs = gs := by
  induction gs with
  | nil => rfl
  | cons g gs ih =>
    obtain ⟨hg, hgs⟩ := List.nodup_cons.mp h
    rw [distinctGroups, ih hgs, List.filter_eq_self.mpr fun x hx => bne_iff_ne.mpr (ne_of_mem_of_not_mem hx hg)]

theorem nodup_firstPerGroup (l : List ListenItem) : ((firstPerGroup l).map ListenItem.group).Nodup := by
  induction l with
  | nil => exact List.nodup_nil
  | cons i is ih =>
    refine List.nodup_cons.mpr ⟨fun hm => ?_, (List.filter_sublist.map _).nodup ih⟩
    obtain ⟨j, hj, hji⟩ := List.mem_map.mp hm
    simp [hji] at hj

/-! ## Acquires -/

/-- An acquire finds room where its group is stored or a place is free (R121). -/
theorem Vp.exists_acquire {v : Vp} {g : Group} (h : v.stored g = true ∨ v.store.length < storeCapacity) :
    ∃ w, v.acquire g = some w := by
  unfold Vp.acquire
  split
  · exact ⟨_, rfl⟩
  · next hs => exact ⟨_, if_pos (h.resolve_left hs)⟩

/-- The groups of a list that are not stored need places; an acquire of another group takes none of them. -/
theorem Vp.fits_tail {v w : Vp} {g : Group} {gs : List Group} (hn : (g :: gs).Nodup) (hf : v.fits (g :: gs) = true)
    (hw : v.acquire g = some w) : w.fits gs = true := by
  obtain ⟨hg, hgs⟩ := List.nodup_cons.mp hn
  have key : ∀ h, h ≠ g → w.stored h = v.stored h := by
    intro h hne
    unfold Vp.acquire at hw
    split at hw
    · cases hw
      simp only [Vp.stored, Vp.find, Vp.withStore]
      induction v.store with
      | nil => rfl
      | cons e es ih => by_cases he : e.group = g <;> by_cases hh : e.group = h <;> simp_all
    · split at hw
      · cases hw
        have : ¬g = h := fun x => hne x.symm
        simp [Vp.stored, Vp.find, Vp.withStore, List.find?_append, this]
      · cases hw
  have same : gs.filter (fun h => !w.stored h) = gs.filter fun h => !v.stored h :=
    List.filter_congr fun h hh => by rw [key h fun x => hg (x ▸ hh)]
  simp only [Vp.fits, distinctGroups_of_nodup hn, distinctGroups_of_nodup hgs, decide_eq_true_eq, same] at hf ⊢
  unfold Vp.acquire at hw
  split at hw
  · next hs =>
    cases hw
    simpa [Vp.withStore, hs] using hf
  · next hs =>
    split at hw
    · cases hw
      simp only [List.filter_cons, hs, Bool.not_false, if_true, List.length_cons] at hf
      simp only [Vp.withStore, List.length_append, List.length_singleton]
      simp at hf
      omega
    · cases hw

/-- The acquires of a set of groups that fits raise the references of each by one (R122). -/
theorem Vp.refs_acquireAll {v : Vp} {gs : List Group} (hn : gs.Nodup) (hf : v.fits gs = true) (h : Group) :
    (v.acquireAll gs).refs h = v.refs h + gs.count h := by
  unfold Vp.acquireAll
  induction gs generalizing v with
  | nil => simp
  | cons g gs ih =>
    have room : v.stored g = true ∨ v.store.length < storeCapacity := by
      by_cases hs : v.stored g = true
      · exact .inl hs
      · simp only [Vp.fits, distinctGroups_of_nodup hn, decide_eq_true_eq, List.filter_cons, hs, Bool.not_false,
          if_true, List.length_cons] at hf
        simp at hf
        omega
    obtain ⟨w, hw⟩ := Vp.exists_acquire room
    rw [List.foldl_cons, hw, Option.getD_some, ih (List.nodup_cons.mp hn).2 (Vp.fits_tail hn hf hw), Vp.refs_acquire hw]
    by_cases hg : h = g
    · subst hg; simp; omega
    · have : ¬g = h := fun x => hg x.symm
      simp [hg, this]

/-! ## The exchange of R123 -/

/-- A walk keeps a front part of the list, and acquires the groups of it that were not held. -/
theorem fitWalk_spec (held : List Group) (l : List ListenItem) (v : Vp) :
    (fitWalk held l v).2.1 ++ (fitWalk held l v).2.2 = l ∧
      ∀ h, (fitWalk held l v).1.refs h =
        v.refs h + (((fitWalk held l v).2.1.map ListenItem.group).filter fun g => !held.contains g).count h := by
  induction l generalizing v with
  | nil => simp [fitWalk]
  | cons i is ih =>
    by_cases hi : i.group ∈ held
    · obtain ⟨h1, h2⟩ := ih v
      simp only [fitWalk, if_pos hi]
      exact ⟨by simp [h1], fun h => by rw [h2]; simp [hi]⟩
    · simp only [fitWalk, if_neg hi]
      cases hw : v.acquire i.group with
      | none => simp
      | some w =>
        obtain ⟨h1, h2⟩ := ih w
        refine ⟨by simp [h1], fun h => ?_⟩
        rw [h2, Vp.refs_acquire hw]
        by_cases hh : h = i.group
        · simp [hh, hi]; omega
        · have : ¬i.group = h := fun x => hh x.symm
          simp [hh, hi, this]

/-- The groups a fit keeps are distinct (R123). -/
theorem Vp.nodup_fit (held : List Group) (l : List ListenItem) (v : Vp) :
    ((v.fit held l).kept.map ListenItem.group).Nodup := by
  have h := (fitWalk_spec held (firstPerGroup l)
    (v.releaseAll (held.filter fun g => !((firstPerGroup l).map ListenItem.group).contains g))).1
  refine List.Nodup.sublist ?_ (nodup_firstPerGroup l)
  rw [← h, List.map_append]
  exact List.sublist_append_left _ _

/-- A fit exchanges the held references for those of the list it keeps (R123). -/
theorem Vp.refs_fit {v : Vp} (hv : v.Sound) {held : List Group} (hn : held.Nodup) (hr : ∀ g ∈ held, 1 ≤ v.refs g)
    (l : List ListenItem) (h : Group) :
    (v.fit held l).vp.refs h = v.refs h - held.count h + ((v.fit held l).kept.map ListenItem.group).count h := by
  have hnew := nodup_firstPerGroup l
  unfold Vp.fit
  dsimp only
  generalize hv' : v.releaseAll (held.filter fun g => !((firstPerGroup l).map ListenItem.group).contains g) = v'
  obtain ⟨happ, hwalk⟩ := fitWalk_spec held (firstPerGroup l) v'
  have hs' : v'.Sound := hv' ▸ Vp.sound_releaseAll hv _
  rw [Vp.refs_releaseAll (Vp.sound_fitWalk hs' _ _), hwalk, ← hv', Vp.refs_releaseAll hv]
  rw [hv']
  generalize fitWalk held (firstPerGroup l) v' = w at happ
  rw [← happ, List.map_append] at hnew ⊢
  obtain ⟨hk, hc, hd⟩ := List.nodup_append.mp hnew
  by_cases hh : h ∈ held
  · have := hr h hh
    by_cases hkept : h ∈ w.2.1.map ListenItem.group
    · have hcut : h ∉ w.2.2.map ListenItem.group := fun hx => hd h hkept h hx rfl
      rw [List.count_eq_zero_of_not_mem (l := List.filter _ held) (by simp_all),
        List.count_eq_zero_of_not_mem (l := List.filter _ (w.2.1.map _)) (by simp_all),
        List.count_eq_zero_of_not_mem (l := List.filter _ (w.2.2.map _)) (by simp_all),
        List.count_eq_one_of_mem hn hh, List.count_eq_one_of_mem hk hkept]
      omega
    · by_cases hcut : h ∈ w.2.2.map ListenItem.group
      · rw [List.count_eq_zero_of_not_mem (l := List.filter _ held) (by simp_all),
          List.count_eq_zero_of_not_mem (l := List.filter _ (w.2.1.map _)) (by simp_all),
          List.count_eq_one_of_mem (hc.filter _) (by simp_all),
          List.count_eq_one_of_mem hn hh, List.count_eq_zero_of_not_mem hkept]
        omega
      · rw [List.count_eq_one_of_mem (hn.filter _) (by simp_all),
          List.count_eq_zero_of_not_mem (l := List.filter _ (w.2.1.map _)) (by simp_all),
          List.count_eq_zero_of_not_mem (l := List.filter _ (w.2.2.map _)) (by simp_all),
          List.count_eq_one_of_mem hn hh, List.count_eq_zero_of_not_mem hkept]
        omega
  · rw [List.count_eq_zero_of_not_mem (l := List.filter _ held) (by simp_all),
      List.count_filter (by simpa using hh),
      List.count_eq_zero_of_not_mem (l := List.filter _ (w.2.2.map _)) (by simp_all),
      List.count_eq_zero_of_not_mem hh]
    omega

end Sys2Proof.Machine
end

section
/-!
# The books of the group store, and the fields of R2 and R48

`State.Kept b f` is the law of the tables with two riders that can each be left out: under `b` the group store is sound and
its references are the books (one set of groups for each serve entry and each claim, R121), under `f` the optional fields stand
where R2 and R48 let them. Each primitive change of the tables keeps it; so does every operation made of them.
-/

namespace Sys2Proof.Machine

/-- The sets of groups that hold references: one for each serve entry and one for each claim (R121). -/
def Re.books (r : Re) : List (List Group) :=
  r.serve.map (fun e => e.listen.map ListenItem.group) ++ r.claimRecords.map ClaimRecord.groups

/-- With no group twice in a set, the sets that hold a group are its occurrences in all of them. -/
theorem length_filter_mem_eq_count {α : Type} {l : List α} {f : α → List Group}
    (hl : ∀ x ∈ l, (f x).Nodup) (g : Group) :
    (l.filter fun x => g ∈ f x).length = (l.map f).flatten.count g := by
  induction l with
  | nil => rfl
  | cons x xs ih =>
    have ih := ih fun y hy => hl y (List.mem_cons_of_mem _ hy)
    rw [List.map_cons, List.flatten_cons, List.count_append, (hl x List.mem_cons_self).count, ← ih]
    by_cases hg : g ∈ f x <;> simp [hg]; omega

theorem Re.holders_eq_count {r : Re} (hl : ∀ l ∈ r.books, l.Nodup) (g : Group) : r.holders g = r.books.flatten.count g := by
  have he : ∀ e ∈ r.serve, (e.listen.map ListenItem.group).Nodup := fun e he =>
    hl _ (List.mem_append_left _ (List.mem_map.mpr ⟨e, he, rfl⟩))
  have hc : ∀ c ∈ r.claimRecords, c.groups.Nodup := fun c hc =>
    hl _ (List.mem_append_right _ (List.mem_map.mpr ⟨c, hc, rfl⟩))
  rw [Re.books, List.flatten_append, List.count_append, ← length_filter_mem_eq_count he, ← length_filter_mem_eq_count hc]
  rfl

/-- The law of the tables, with the books of the store under `b` and the field law under `f`. -/
structure State.Kept (b f : Prop) (s : State) : Prop where
  lawful : s.Lawful
  store : b → s.vp.Sound
  distinct : b → ∀ l ∈ s.re.books, l.Nodup
  counts : b → ∀ g, s.vp.refs g = s.re.books.flatten.count g
  entries : f → ∀ e ∈ s.re.serve, e.Fields
  claims : f → ∀ c ∈ s.re.claimRecords, c.Fields

namespace State

theorem kept_of_refLaw {s : State} (hl : s.Lawful) (hv : s.vp.Sound) (h : s.RefLaw) : s.Kept True False := by
  have hd : ∀ l ∈ s.re.books, l.Nodup := fun l hm => by
    rcases List.mem_append.mp hm with hm | hm
    · obtain ⟨e, he, rfl⟩ := List.mem_map.mp hm
      exact h.listed e he
    · obtain ⟨c, hc, rfl⟩ := List.mem_map.mp hm
      exact h.reserved c hc
  exact ⟨hl, fun _ => hv, fun _ => hd, fun _ g => (h.counts g).trans (Re.holders_eq_count hd g), False.elim, False.elim⟩

theorem Kept.refLaw {f : Prop} {s : State} (h : s.Kept True f) : s.RefLaw :=
  ⟨fun e he => h.distinct trivial _ (List.mem_append_left _ (List.mem_map.mpr ⟨e, he, rfl⟩)),
    fun c hc => h.distinct trivial _ (List.mem_append_right _ (List.mem_map.mpr ⟨c, hc, rfl⟩)),
    fun g => (h.counts trivial g).trans (Re.holders_eq_count (h.distinct trivial) g).symm⟩

theorem kept_of_fieldLaw {s : State} (hl : s.Lawful) (h : s.FieldLaw) : s.Kept False True :=
  ⟨hl, False.elim, False.elim, False.elim, fun _ => h.entries, fun _ => h.claims⟩

theorem Kept.fieldLaw {b : Prop} {s : State} (h : s.Kept b True) : s.FieldLaw := ⟨h.entries trivial, h.claims trivial⟩

end State

/-! ## Fields -/

/-- The state of an entry and its optional fields. -/
def ServeEntry.optional (e : ServeEntry) :
    EntryState × Option Origin × Option Nat × Option Tag × Option Nat × Option HandingRecord × Option YieldOwed :=
  (e.state, e.origin, e.arrivalTimer, e.tag, e.rescueTimer, e.handing, e.yieldOwed)

/-- An entry with the state and the optional fields of another has its field law. -/
theorem ServeEntry.Fields.same {e x : ServeEntry} (h : e.Fields) (hx : x.optional = e.optional) : x.Fields := by
  simp only [ServeEntry.optional, Prod.mk.injEq] at hx
  obtain ⟨hst, ho, ha, ht, hr, hh, hy⟩ := hx
  obtain ⟨h1, h2, h3, h4, h5, h6, h7, h8⟩ := h
  constructor <;> simpa only [hst, ho, ha, ht, hr, hh, hy]

/-- An entry with the scores and the ring of another is as sound. -/
theorem ServeEntry.Sound.same {e x : ServeEntry} (h : e.Sound) (hx : (x.q, x.r, x.ring) = (e.q, e.r, e.ring)) : x.Sound := by
  obtain ⟨hq, hr, hring⟩ : x.q = e.q ∧ x.r = e.r ∧ x.ring = e.ring := by simpa using hx
  exact ServeEntry.sound_of_fields h hq hr (hring ▸ h.ring)

/-- In ARRIVING an origin, an arrival timer and a tag stand, and none of the other fields. -/
theorem ServeEntry.Fields.arriving {e : ServeEntry} (hs : e.state = .arriving) (ho : e.origin.isSome = true)
    (ha : e.arrivalTimer.isSome = true) (ht : e.tag.isSome = true) (hr : e.rescueTimer = none) (hh : e.handing = none)
    (hy : e.yieldOwed = none) : e.Fields := by
  constructor <;> simp [hs, ho, ha, ht, hr, hh, hy]

/-- In SERVED, OFFERED and DRAINING none of the optional fields stands. -/
theorem ServeEntry.Fields.plain {e : ServeEntry} (hs : e.state = .served ∨ e.state = .offered ∨ e.state = .draining)
    (ho : e.origin = none) (ha : e.arrivalTimer = none) (ht : e.tag = none) (hr : e.rescueTimer = none)
    (hh : e.handing = none) (hy : e.yieldOwed = none) : e.Fields := by
  rcases hs with hs | hs | hs <;> constructor <;> simp [hs, ho, ha, ht, hr, hh, hy]

/-- In HANDING the handing record stands alone, with its timer in MOVE_SENT. -/
theorem ServeEntry.Fields.inHanding {e : ServeEntry} {h : HandingRecord} (hs : e.state = .handing) (ho : e.origin = none)
    (ha : e.arrivalTimer = none) (ht : e.tag = none) (hr : e.rescueTimer = none) (hh : e.handing = some h)
    (hy : e.yieldOwed = none) (hm : h.timer.isSome = true ↔ h.phase = .moveSent) : e.Fields := by
  constructor <;> simp [hs, ho, ha, ht, hr, hh, hy, hm]

/-- In LOST the rescue timer stands, and a tag or a YIELD owed, not both. -/
theorem ServeEntry.Fields.inLost {e : ServeEntry} (hs : e.state = .lost) (ho : e.origin = none)
    (ha : e.arrivalTimer = none) (hr : e.rescueTimer.isSome = true) (hh : e.handing = none)
    (hy : e.yieldOwed.isSome = true → e.tag = none) : e.Fields := by
  constructor <;> simp_all

section
variable {e : ServeEntry} (h : e.Fields)
include h

theorem ServeEntry.Fields.origin_none (hs : e.state ≠ .arriving) : e.origin = none := by
  simpa using (not_congr h.origin).mpr hs

theorem ServeEntry.Fields.arrivalTimer_none (hs : e.state ≠ .arriving) : e.arrivalTimer = none := by
  simpa using (not_congr h.arrivalTimer).mpr hs

theorem ServeEntry.Fields.tag_none (ha : e.state ≠ .arriving) (hl : e.state ≠ .lost) : e.tag = none := by
  simpa using mt h.tag (not_or.mpr ⟨ha, hl⟩)

theorem ServeEntry.Fields.rescueTimer_none (hs : e.state ≠ .lost) : e.rescueTimer = none := by
  simpa using (not_congr h.rescueTimer).mpr hs

theorem ServeEntry.Fields.handing_none (hs : e.state ≠ .handing) : e.handing = none := by
  simpa using (not_congr h.handing).mpr hs

theorem ServeEntry.Fields.yieldOwed_none (hs : e.state ≠ .lost) : e.yieldOwed = none := by
  simpa using mt (fun x => (h.yieldOwed x).1) hs

theorem ServeEntry.Fields.state_of_handing {r : HandingRecord} (hr : e.handing = some r) : e.state = .handing :=
  h.handing.mp (by simp [hr])

/-- An entry that is not ARRIVING may go to LOST (R20). -/
theorem ServeEntry.Fields.toLost (hs : e.state ≠ .arriving) (cfg : Settings) : (e.toLost cfg).Fields :=
  .inLost rfl (h.origin_none hs) (h.arrivalTimer_none hs) rfl rfl fun hy => (h.yieldOwed hy).2

/-- A HANDING entry may return to service (R10). -/
theorem ServeEntry.Fields.fromHanding (hs : e.state = .handing) (cfg : Settings) : (e.fromHanding cfg).Fields := by
  have ha : e.state ≠ .arriving := by simp [hs]
  have hl : e.state ≠ .lost := by simp [hs]
  unfold ServeEntry.fromHanding
  split
  · exact .plain (.inr (.inl rfl)) (h.origin_none ha) (h.arrivalTimer_none ha) (h.tag_none ha hl) (h.rescueTimer_none hl) rfl
      (h.yieldOwed_none hl)
  · exact .plain (.inl rfl) (h.origin_none ha) (h.arrivalTimer_none ha) (h.tag_none ha hl) (h.rescueTimer_none hl) rfl
      (h.yieldOwed_none hl)

/-- The offered test moves between SERVED and OFFERED alone (R10). -/
theorem ServeEntry.Fields.offeredTest (cfg : Settings) : (e.offeredTest cfg).Fields := by
  unfold ServeEntry.offeredTest
  split
  · next hs =>
    split
    · exact .plain (.inr (.inl rfl)) (h.origin_none (by simp [hs])) (h.arrivalTimer_none (by simp [hs]))
        (h.tag_none (by simp [hs]) (by simp [hs])) (h.rescueTimer_none (by simp [hs])) (h.handing_none (by simp [hs]))
        (h.yieldOwed_none (by simp [hs]))
    · exact h
  · next hs =>
    split
    · exact .plain (.inl rfl) (h.origin_none (by simp [hs])) (h.arrivalTimer_none (by simp [hs]))
        (h.tag_none (by simp [hs]) (by simp [hs])) (h.rescueTimer_none (by simp [hs])) (h.handing_none (by simp [hs]))
        (h.yieldOwed_none (by simp [hs]))
    · exact h
  · exact h

/-- A LOST entry's reclaim may end (R92). -/
theorem ServeEntry.Fields.endReclaim (hs : e.state = .lost) : e.endReclaim.Fields :=
  .inLost hs (h.origin_none (by simp [hs])) (h.arrivalTimer_none (by simp [hs])) (h.rescueTimer.mpr hs)
    (h.handing_none (by simp [hs])) fun _ => rfl

/-- A mark moves timers and counters (R2). -/
theorem ServeEntry.Fields.tick : e.tick.Fields := by
  obtain ⟨h1, h2, h3, h4, h5, h6, h7, h8⟩ := h
  refine ⟨h1, by simpa [ServeEntry.tick] using h2, h3, h4, by simpa [ServeEntry.tick] using h5,
    by simpa [ServeEntry.tick] using h6, fun r hr => ?_, h8⟩
  obtain ⟨x, hx, rfl⟩ := Option.map_eq_some_iff.mp hr
  simpa using h7 x hx

end

theorem ClaimRecord.Fields.tick {c : ClaimRecord} (h : c.Fields) :
    ClaimRecord.Fields { c with replyTimer := c.replyTimer.map (· - 1) } :=
  ⟨by simpa using h.replyTimer, h.seek, h.call⟩

/-! ## Lists with one member taken out -/

/-- A list with distinct keys is one member and those of other keys. -/
theorem perm_cons_filter_ne {α β : Type} [BEq β] [LawfulBEq β] {key : α → β} {l : List α} (hd : (l.map key).Nodup)
    {x : α} (hx : x ∈ l) : l.Perm (x :: l.filter fun y => key y != key x) := by
  induction l with
  | nil => cases hx
  | cons y ys ih =>
    obtain ⟨hy, hys⟩ := List.nodup_cons.mp hd
    rcases List.mem_cons.mp hx with rfl | hx
    · have : ys.filter (fun y => key y != key x) = ys := List.filter_eq_self.mpr fun z hz =>
        bne_iff_ne.mpr fun hzx => hy (hzx ▸ List.mem_map_of_mem hz)
      simp [this]
    · have hne : key y ≠ key x := fun hyx => hy (hyx ▸ List.mem_map_of_mem hx)
      rw [List.filter_cons_of_pos (by simpa using hne)]
      exact ((ih hys hx).cons y).trans (.swap _ _ _)

/-- A change of the one member of a key. -/
theorem perm_map_ite {α β : Type} [DecidableEq β] {key : α → β} {l : List α} (hd : (l.map key).Nodup) {x : α}
    (hx : x ∈ l) (f : α → α) :
    (l.map fun y => if key y = key x then f y else y).Perm (f x :: l.filter fun y => key y != key x) := by
  refine ((perm_cons_filter_ne hd hx).map _).trans ?_
  rw [List.map_cons, if_pos rfl]
  refine List.Perm.cons _ (List.Perm.of_eq ?_)
  refine (List.map_congr_left (g := id) fun y hy => ?_).trans (List.map_id _)
  rw [if_neg (by simpa using (List.mem_filter.mp hy).2)]
  rfl

namespace State

/-! ## The primitive changes -/

section
variable {b f : Prop} {s t : State}

/-- Anything that leaves both tables, the states of the slots and VP. -/
theorem Kept.beside (h : s.Kept b f) (hs : t.re.serve = s.re.serve) (hx : t.re.survey = s.re.survey)
    (ha : ∀ k, t.apc.stateOf k = s.apc.stateOf k) (hv : t.vp = s.vp) : t.Kept b f := by
  have hc : t.re.claimRecords = s.re.claimRecords := by simp only [Re.claimRecords, hx]
  have hb : t.re.books = s.re.books := by simp only [Re.books, hs, hc]
  exact ⟨h.lawful.of_eq hs hx ha, hv ▸ h.store, hb ▸ h.distinct, by rw [hb, hv]; exact h.counts, hs ▸ h.entries,
    hc ▸ h.claims⟩

theorem kept_onTqu (h : s.Kept b f) (g : Tqu → Tqu) : (s.onTqu g).Kept b f := h.beside rfl rfl (fun _ => rfl) rfl
theorem kept_onMlc (h : s.Kept b f) (g : Mlc → Mlc) : (s.onMlc g).Kept b f := h.beside rfl rfl (fun _ => rfl) rfl
theorem kept_count (h : s.Kept b f) (c : Counter) : (s.count c).Kept b f := kept_onMlc h _
theorem kept_notify (h : s.Kept b f) (n : Notice) : (s.notify n).Kept b f := kept_onMlc h _

/-- A change of APC that leaves the state of every slot. -/
theorem kept_onApc (h : s.Kept b f) (g : Apc → Apc) (hg : ∀ k, (g s.apc).stateOf k = s.apc.stateOf k) :
    (s.onApc g).Kept b f := h.beside rfl rfl hg rfl

theorem kept_ite {c : Prop} [Decidable c] (hs : c → s.Kept b f) (ht : ¬c → t.Kept b f) :
    (if c then s else t : State).Kept b f := by
  split
  · next h => exact hs h
  · next h => exact ht h

/-- A change of VP that leaves the references. -/
theorem kept_onVp (h : s.Kept b f) (v : Vp → Vp) (hv : s.vp.Sound → (v s.vp).Sound)
    (hr : ∀ g, (v s.vp).refs g = s.vp.refs g) : (s.onVp v).Kept b f :=
  ⟨h.lawful, fun hb => hv (h.store hb), h.distinct, fun hb g => (hr g).trans (h.counts hb g), h.entries, h.claims⟩

/-- An exchange of the sets `old` for the sets `new` in the books, with the references following. -/
theorem Kept.exchange (h : s.Kept b f) (hl : t.Lawful) (hv : s.vp.Sound → t.vp.Sound) {old new rest : List (List Group)}
    (hs : s.re.books.Perm (old ++ rest)) (ht : t.re.books.Perm (new ++ rest)) (hn : b → ∀ l ∈ new, l.Nodup)
    (hr : b → ∀ g, t.vp.refs g = s.vp.refs g - old.flatten.count g + new.flatten.count g)
    (he : f → ∀ e ∈ t.re.serve, e.Fields) (hc : f → ∀ c ∈ t.re.claimRecords, c.Fields) : t.Kept b f := by
  refine ⟨hl, fun hb => hv (h.store hb), fun hb l hm => ?_, fun hb g => ?_, he, hc⟩
  · rcases List.mem_append.mp (ht.mem_iff.mp hm) with hm | hm
    · exact hn hb l hm
    · exact h.distinct hb l (hs.mem_iff.mpr (List.mem_append_right _ hm))
  · rw [hr hb, h.counts hb, hs.flatten.count_eq, ht.flatten.count_eq]
    simp only [List.flatten_append, List.count_append]
    omega

/-- A change of serve entries that keeps headset, slot, soundness, listen list and field law. -/
theorem kept_mapServe (h : s.Kept b f) (F : ServeEntry → ServeEntry) (hh : ∀ e ∈ s.re.serve, (F e).headset = e.headset)
    (hs : ∀ e ∈ s.re.serve, (F e).slot = e.slot) (hd : ∀ e ∈ s.re.serve, e.Sound → (F e).Sound)
    (hl : ∀ e ∈ s.re.serve, (F e).listen = e.listen) (hf : f → ∀ e ∈ s.re.serve, e.Fields → (F e).Fields) :
    (s.onRe fun r => { r with serve := r.serve.map F }).Kept b f := by
  have hb : (s.onRe fun r => { r with serve := r.serve.map F }).re.books = s.re.books := by
    simp only [Re.books, onRe_re, List.map_map]
    exact congrArg (· ++ _) (List.map_congr_left fun e he => by simp [hl e he])
  refine ⟨TableLaw.mapServe h.lawful F hh hs hd, h.store, hb ▸ h.distinct, hb ▸ h.counts, fun hf' e he => ?_, h.claims⟩
  obtain ⟨x, hx, rfl⟩ := List.mem_map.mp he
  exact hf hf' x hx (h.entries hf' x hx)

/-- A change of the entry at a slot that keeps headset, slot, soundness, listen list and field law. -/
theorem kept_updateEntry (h : s.Kept b f) (k : Nat) (F : ServeEntry → ServeEntry)
    (hF : ∀ e, (F e).headset = e.headset ∧ (F e).slot = e.slot ∧ (F e).listen = e.listen)
    (hd : ∀ e : ServeEntry, e.Sound → (F e).Sound)
    (hf : f → ∀ e ∈ s.re.serve, e.slot = k → e.Fields → (F e).Fields) : (s.updateEntry k F).Kept b f := by
  refine kept_mapServe h (fun e => if e.slot = k then F e else e) (fun e _ => ?_) (fun e _ => ?_) (fun e _ he => ?_)
    (fun e _ => ?_) fun hf' e he hx => ?_ <;> split
  · exact (hF e).1
  · rfl
  · exact (hF e).2.1
  · rfl
  · exact hd e he
  · exact he
  · exact (hF e).2.2
  · rfl
  · next hk => exact hf hf' e he hk hx
  · exact hx

/-- A change of survey entries that keeps headset and soundness, and of a claim its slot, tag, groups and field law. -/
theorem kept_mapSurvey (h : s.Kept b f) (F : SurveyEntry → SurveyEntry) (G : ClaimRecord → ClaimRecord)
    (hh : ∀ e ∈ s.re.survey, (F e).headset = e.headset) (hd : ∀ e ∈ s.re.survey, e.Sound → (F e).Sound)
    (hc : ∀ e ∈ s.re.survey, (F e).claim = e.claim.map G) (hs : ∀ c, (G c).slot = c.slot) (ht : ∀ c, (G c).tag = c.tag)
    (hg : ∀ c, (G c).groups = c.groups) (hf : f → ∀ c ∈ s.re.claimRecords, c.Fields → (G c).Fields) :
    (s.onRe fun r => { r with survey := r.survey.map F }).Kept b f := by
  have hr : (s.onRe fun r => { r with survey := r.survey.map F }).re.claimRecords = s.re.claimRecords.map G := by
    simp only [Re.claimRecords, onRe_re, List.filterMap_map, List.map_filterMap]
    exact List.filterMap_congr fun e he => hc e he
  have hb : (s.onRe fun r => { r with survey := r.survey.map F }).re.books = s.re.books := by
    unfold Re.books
    rw [hr, List.map_map]
    exact congrArg (_ ++ ·) (List.map_congr_left fun c _ => hg c)
  refine ⟨TableLaw.mapSurvey h.lawful F hh hd fun e he => ?_, h.store, hb ▸ h.distinct, hb ▸ h.counts, h.entries,
    fun hf' c hc' => ?_⟩
  · rw [hc e he, Option.map_map]
    exact congrArg (Option.map · e.claim) (funext fun c => by simp [hs, ht])
  · rw [hr] at hc'
    obtain ⟨x, hx, rfl⟩ := List.mem_map.mp hc'
    exact hf hf' x hx (h.claims hf' x hx)

/-- A change of the survey entry of a headset that keeps its claim. -/
theorem kept_updateSurvey (h : s.Kept b f) (x : Headset) (F : SurveyEntry → SurveyEntry)
    (hF : ∀ e, (F e).headset = e.headset ∧ (F e).claim = e.claim) (hd : ∀ e : SurveyEntry, e.Sound → (F e).Sound) :
    (s.updateSurvey x F).Kept b f := by
  refine kept_mapSurvey h (fun e => if e.headset = x then F e else e) id (fun e _ => ?_) (fun e _ he => ?_) (fun e _ => ?_)
    (fun _ => rfl) (fun _ => rfl) (fun _ => rfl) fun _ _ _ hx => hx
  all_goals split
  · exact (hF e).1
  · rfl
  · exact hd e he
  · exact he
  · simp [(hF e).2]
  · simp

/-! ## Releases -/

/-- A release of the entry found at a slot, block by block (R3, R101). -/
theorem releaseEntry_eq {k : Nat} {e : ServeEntry} (he : s.entryAt k = some e) :
    s.releaseEntry k =
      { s with
        re := { s.re with serve := s.re.serve.filter fun x => x.slot != k }
        apc := s.apc.close k
        vp := s.vp.releaseAll (e.listen.map ListenItem.group)
        tqu := match e.state, e.tag with
          | .lost, some tag => s.tqu.dropClaim e.headset tag
          | _, _ => s.tqu } := by
  unfold releaseEntry
  rw [he]
  dsimp only
  generalize e.state = st, e.tag = tag
  cases st <;> cases tag <;> rfl

theorem releaseEntry_none {k : Nat} (he : s.entryAt k = none) : s.releaseEntry k = s := by
  unfold releaseEntry
  rw [he]

/-- In a lawful state two entries of one slot are the same entry. -/
theorem eq_of_slot (h : s.Lawful) {x y : ServeEntry} (hx : x ∈ s.re.serve) (hy : y ∈ s.re.serve) (hs : x.slot = y.slot) :
    x = y := List.inj_on_of_nodup_map (nodup_slots h) hx hy hs

theorem eq_of_entryAt (h : s.Lawful) {k : Nat} {x e : ServeEntry} (he : s.entryAt k = some e) (hx : x ∈ s.re.serve)
    (hk : x.slot = k) : x = e :=
  eq_of_slot h hx (mem_of_entryAt he).1 (hk.trans (mem_of_entryAt he).2.symm)

theorem entryAt_of_mem (h : s.Lawful) {e : ServeEntry} (he : e ∈ s.re.serve) : s.entryAt e.slot = some e := by
  cases hx : s.entryAt e.slot with
  | none => exact absurd (List.find?_eq_none.mp hx e he) (by simp)
  | some x => exact congrArg some (eq_of_entryAt h hx he rfl).symm

theorem claim_mem_claimRecords {r : Re} {e : SurveyEntry} {c : ClaimRecord} (he : e ∈ r.survey) (hc : e.claim = some c) :
    c ∈ r.claimRecords := List.mem_filterMap.mpr ⟨e, he, hc⟩

theorem kept_releaseEntry (h : s.Kept b f) (k : Nat) : (s.releaseEntry k).Kept b f := by
  cases he : s.entryAt k with
  | none => rw [releaseEntry_none he]; exact h
  | some e =>
    obtain ⟨hm, hk⟩ := mem_of_entryAt he
    have hp := perm_cons_filter_ne (nodup_slots h.lawful) hm
    rw [hk] at hp
    refine h.exchange (old := [e.listen.map ListenItem.group]) (new := []) (lawful_releaseEntry h.lawful k)
      (stays_releaseEntry k s).vp (hp.map _ |>.append_right _) (.of_eq ?_) (by simp) (fun hb g => ?_) (fun hf x hx => ?_) ?_
    · rw [releaseEntry_eq he]; rfl
    · rw [releaseEntry_eq he]
      simp [Vp.refs_releaseAll (h.store hb)]
    · rw [releaseEntry_eq he] at hx
      exact h.entries hf x (List.mem_filter.mp hx).1
    · rw [releaseEntry_eq he]
      exact h.claims

/-! ## Claims -/

/-- The end of the claim found for a headset, block by block (R49). -/
theorem endClaim_eq {x : Headset} {c : ClaimRecord} (hc : (s.surveyFor x).bind SurveyEntry.claim = some c) :
    s.endClaim x =
      { s with
        re := { s.re with survey := s.re.survey.map fun e =>
                  if e.headset = x then { e with claim := none, dwell := 0 } else e }
        apc := s.apc.release c.slot c.tag
        vp := s.vp.releaseAll c.groups
        tqu := s.tqu.dropClaim x c.tag } := by
  unfold endClaim
  rw [hc]
  rfl

theorem endClaim_none {x : Headset} (hc : (s.surveyFor x).bind SurveyEntry.claim = none) : s.endClaim x = s := by
  unfold endClaim
  rw [hc]

/-- The claims of a survey list whose entry of a headset is changed to have the claim `c`. -/
theorem perm_claims_update (hd : (s.re.survey.map SurveyEntry.headset).Nodup) {e : SurveyEntry} (he : e ∈ s.re.survey)
    {F : SurveyEntry → SurveyEntry} {c : Option ClaimRecord} (hc : (F e).claim = c) :
    ((s.re.survey.map fun y => if y.headset = e.headset then F y else y).filterMap SurveyEntry.claim).Perm
      (c.toList ++ (s.re.survey.filter fun y => y.headset != e.headset).filterMap SurveyEntry.claim) := by
  refine ((perm_map_ite hd he F).filterMap _).trans ?_
  subst hc
  cases h : (F e).claim <;> simp [h]

theorem perm_claims (hd : (s.re.survey.map SurveyEntry.headset).Nodup) {e : SurveyEntry} (he : e ∈ s.re.survey) :
    s.re.claimRecords.Perm
      (e.claim.toList ++ (s.re.survey.filter fun y => y.headset != e.headset).filterMap SurveyEntry.claim) := by
  refine ((perm_cons_filter_ne hd he).filterMap _).trans ?_
  cases h : e.claim <;> simp [h]

theorem perm_books_of_claims {r : Re} {cs rest : List ClaimRecord} (h : r.claimRecords.Perm (cs ++ rest)) :
    r.books.Perm (cs.map ClaimRecord.groups ++
      (r.serve.map (fun e => e.listen.map ListenItem.group) ++ rest.map ClaimRecord.groups)) := by
  refine ((h.map ClaimRecord.groups).append_left _).trans ?_
  rw [List.map_append, ← List.append_assoc, ← List.append_assoc]
  exact List.perm_append_comm.append_right _

theorem kept_endClaim (h : s.Kept b f) (x : Headset) : (s.endClaim x).Kept b f := by
  cases hc : (s.surveyFor x).bind SurveyEntry.claim with
  | none => rw [endClaim_none hc]; exact h
  | some c =>
    obtain ⟨e, he, hec⟩ := Option.bind_eq_some_iff.mp hc
    obtain ⟨hm, rfl⟩ := mem_of_surveyFor he
    have hs := perm_claims h.lawful.surveyOnce hm
    have ht := perm_claims_update h.lawful.surveyOnce hm (F := fun e => { e with claim := none, dwell := 0 }) rfl
    rw [hec] at hs
    refine h.exchange (old := [c.groups]) (new := []) (lawful_endClaim h.lawful _) (stays_endClaim _ s).vp
      (perm_books_of_claims hs) ?_ (by simp) (fun hb g => ?_) ?_ fun hf y hy => ?_
    · rw [endClaim_eq hc]; exact perm_books_of_claims (cs := []) ht
    · rw [endClaim_eq hc]; simp [Vp.refs_releaseAll (h.store hb)]
    · rw [endClaim_eq hc]; exact h.entries
    · rw [endClaim_eq hc] at hy
      exact h.claims hf y (hs.mem_iff.mpr (List.mem_append_right _ (by simpa using ht.mem_iff.mp hy)))

/-- A survey entry without a claim taken out (R42). -/
theorem kept_removeSurvey (h : s.Kept b f) (x : Headset) (hx : ∀ e ∈ s.re.survey, e.headset = x → e.claim = none) :
    (s.removeSurvey x).Kept b f := by
  have hc : (s.removeSurvey x).re.claimRecords = s.re.claimRecords := by
    simp only [Re.claimRecords, removeSurvey_re, List.filterMap_filter]
    refine List.filterMap_congr fun e he => ?_
    by_cases hk : e.headset = x
    · simp [hk, hx e he hk]
    · simp [hk]
  have hb : (s.removeSurvey x).re.books = s.re.books := by
    unfold Re.books; rw [hc]; rfl
  exact ⟨lawful_removeSurvey h.lawful x, h.store, hb ▸ h.distinct, hb ▸ h.counts, h.entries, hc ▸ h.claims⟩

theorem mem_of_victim {l : List SurveyEntry} {v : SurveyEntry} (h : victim l = some v) : v ∈ l ∧ v.claim = none := by
  induction l with
  | nil => cases h
  | cons y ys ih =>
    unfold victim at h
    split at h
    · exact ⟨List.mem_cons_of_mem _ (ih h).1, (ih h).2⟩
    · next hy =>
      split at h
      · cases h; exact ⟨List.mem_cons_self, by simpa using hy⟩
      · next w hw =>
        split at h
        · cases h; exact ⟨List.mem_cons_self, by simpa using hy⟩
        · cases h; exact ⟨List.mem_cons_of_mem _ (ih hw).1, (ih hw).2⟩

/-- A newcomer without a claim leaves the claims as they are: neither it nor a victim holds one (R41). -/
theorem claims_enterSurveyList {n : SurveyEntry} (hn : n.claim = none) {l : List SurveyEntry}
    (hd : (l.map SurveyEntry.headset).Nodup) :
    (enterSurveyList n l).filterMap SurveyEntry.claim = l.filterMap SurveyEntry.claim := by
  unfold enterSurveyList
  split
  · simp [hn]
  · split
    · next v hv =>
      obtain ⟨hm, hc⟩ := mem_of_victim hv
      split
      · simp only [List.filterMap_append, List.filterMap_filter, List.filterMap_cons, hn, List.filterMap_nil,
          List.append_nil]
        refine List.filterMap_congr fun e he => ?_
        by_cases hk : e.headset = v.headset
        · rw [eq_of_headset hd he hm hk]; simp [hc]
        · simp [hk]
      · rfl
    · rfl

theorem kept_enterSurvey (h : s.Kept b f) {n : SurveyEntry} (hn : n.Sound) (hc : n.claim = none)
    (hserve : ∀ e ∈ s.re.serve, e.headset ≠ n.headset) (hsurvey : ∀ e ∈ s.re.survey, e.headset ≠ n.headset) :
    (s.enterSurvey n).Kept b f := by
  have hr : (s.enterSurvey n).re.claimRecords = s.re.claimRecords := claims_enterSurveyList hc h.lawful.surveyOnce
  have hb : (s.enterSurvey n).re.books = s.re.books := by
    unfold Re.books; rw [hr]; rfl
  exact ⟨lawful_enterSurvey h.lawful hn hc hserve hsurvey, h.store, hb ▸ h.distinct, hb ▸ h.counts,
    h.entries, hr ▸ h.claims⟩

/-- A claim made at the slot APC grants, its groups distinct and found to fit (R59, R82). -/
theorem kept_addClaim (h : s.Kept b f) {k : Nat} (hk : s.apc.lowestFree = some k) {x : SurveyEntry}
    (hx : x ∈ s.re.survey) (hxc : x.claim = none) (hroom : s.re.claimsOutstanding < claimCapacity) {gs : List Group}
    (hg : gs.Nodup) (hfit : s.vp.fits gs = true) (r : ClaimRecord)
    (hr : r.slot = k ∧ r.tag = s.re.claimCounter ∧ r.groups = gs) (hf : r.Fields) :
    ((((s.advanceTag).onApc (Apc.reserve k s.re.claimCounter)).onVp (Vp.acquireAll gs)).updateSurvey x.headset
      fun e => { e with claim := some r }).Kept b f := by
  obtain ⟨hrs, hrt, hrg⟩ := hr
  have hs := perm_claims h.lawful.surveyOnce hx
  have ht := perm_claims_update h.lawful.surveyOnce hx (F := fun e => { e with claim := some r }) rfl
  rw [hxc] at hs
  refine h.exchange (old := []) (new := [gs]) (lawful_addClaim h.lawful hk hx hxc hroom gs r ⟨hrs, hrt⟩)
    (fun hv => Vp.sound_acquireAll hv gs) (perm_books_of_claims (cs := []) hs) (hrg ▸ perm_books_of_claims (cs := [r]) ht)
    (by simpa using fun _ => hg) (fun hb g => ?_) h.entries fun hf' y hy => ?_
  · simpa using Vp.refs_acquireAll hg hfit g
  · rcases List.mem_append.mp (ht.mem_iff.mp hy) with hy | hy
    · simp at hy; subst hy; exact hf
    · exact h.claims hf' y (hs.mem_iff.mpr hy)

/-! ## The exchange of held references -/

/-- A claim that succeeds, block by block (R6, R49, R66, R87). -/
theorem enterServe_eq (e : SurveyEntry) (c : ClaimRecord) (t : ArrivalTerms) :
    s.enterServe e c t =
      { s with
        re := { s.re with
          serve := insertBySlot (arrivingEntry e c t (s.vp.fit c.groups t.listen).kept) s.re.serve
          survey := s.re.survey.filter fun x => x.headset != e.headset }
        apc := s.apc.assign c.slot c.tag e.headset
        vp := (s.vp.fit c.groups t.listen).vp
        tqu := s.tqu.dropClaim e.headset c.tag
        mlc := if (s.vp.fit c.groups t.listen).dropped then s.mlc.count .groupDrops else s.mlc } := by
  unfold enterServe
  dsimp only
  split <;> rfl

/-- The references to a set of the books are at least one for each of its groups. -/
theorem Kept.refs_pos (h : s.Kept b f) (hb : b) {l : List Group} (hl : l ∈ s.re.books) : ∀ g ∈ l, 1 ≤ s.vp.refs g := by
  intro g hg
  rw [h.counts hb, Nat.one_le_iff_ne_zero, ← Nat.pos_iff_ne_zero, List.count_pos_iff]
  exact List.mem_flatten.mpr ⟨l, hl, hg⟩

theorem kept_enterServe (h : s.Kept b f) {e : SurveyEntry} {c : ClaimRecord} (he : e ∈ s.re.survey)
    (hc : e.claim = some c) (t : ArrivalTerms) : (s.enterServe e c t).Kept b f := by
  have hs := perm_claims h.lawful.surveyOnce he
  rw [hc] at hs
  have hmem : c.groups ∈ s.re.books :=
    List.mem_append_right _ (List.mem_map_of_mem (claim_mem_claimRecords he hc))
  have hp := insertBySlot_perm (arrivingEntry e c t (s.vp.fit c.groups t.listen).kept) s.re.serve
  refine h.exchange (old := [c.groups]) (new := [(s.vp.fit c.groups t.listen).kept.map ListenItem.group])
    (lawful_enterServe h.lawful he hc t) (stays_enterServe e c t s).vp (perm_books_of_claims hs) ?_
    (by simpa using fun _ => Vp.nodup_fit _ _ _) (fun hb g => ?_) (fun hf x hx => ?_) fun hf x hx => ?_
  · rw [enterServe_eq]
    exact (hp.map _).append_right _
  · rw [enterServe_eq]
    simpa using Vp.refs_fit (h.store hb) (h.distinct hb _ hmem) (h.refs_pos hb hmem) t.listen g
  · rw [enterServe_eq] at hx
    rcases List.mem_cons.mp (hp.mem_iff.mp hx) with rfl | hx
    · exact .arriving rfl rfl rfl rfl rfl rfl rfl
    · exact h.entries hf x hx
  · rw [enterServe_eq] at hx
    exact h.claims hf x (hs.mem_iff.mpr (List.mem_append_right _ hx))

/-- A context replaced, block by block (R89). -/
theorem replaceContext_eq {k : Nat} {e : ServeEntry} (he : s.entryAt k = some e) (n : Node) (c : Context) :
    s.replaceContext k n c =
      { s with
        re := { s.re with serve := s.re.serve.map fun x =>
                  if x.slot = k then
                    { x with listen := (s.vp.fit (e.listen.map ListenItem.group) c.listen).kept, talk := c.talk
                             count := c.count, origin := some .yield, previous := some n }
                  else x }
        vp := (s.vp.fit (e.listen.map ListenItem.group) c.listen).vp
        mlc := if (s.vp.fit (e.listen.map ListenItem.group) c.listen).dropped then s.mlc.count .groupDrops else s.mlc } := by
  unfold replaceContext
  rw [he]
  dsimp only
  split <;> rfl

theorem kept_replaceContext (h : s.Kept b f) {k : Nat} {e : ServeEntry} (he : s.entryAt k = some e)
    (hs : f → e.state = .arriving) (n : Node) (c : Context) : (s.replaceContext k n c).Kept b f := by
  obtain ⟨hm, rfl⟩ := mem_of_entryAt he
  have hmem : e.listen.map ListenItem.group ∈ s.re.books := List.mem_append_left _ (List.mem_map.mpr ⟨e, hm, rfl⟩)
  have hold := perm_cons_filter_ne (nodup_slots h.lawful) hm
  have hnew := perm_map_ite (nodup_slots h.lawful) hm fun x =>
    { x with listen := (s.vp.fit (e.listen.map ListenItem.group) c.listen).kept, talk := c.talk
             count := c.count, origin := some .yield, previous := some n }
  refine h.exchange (old := [e.listen.map ListenItem.group])
    (new := [(s.vp.fit (e.listen.map ListenItem.group) c.listen).kept.map ListenItem.group])
    (lawful_replaceContext h.lawful _ n c) (stays_replaceContext _ n c s).vp ((hold.map _).append_right _) ?_
    (by simpa using fun _ => Vp.nodup_fit _ _ _) (fun hb g => ?_) (fun hf x hx => ?_) ?_
  · rw [replaceContext_eq he]
    exact (hnew.map _).append_right _
  · rw [replaceContext_eq he]
    simpa using Vp.refs_fit (h.store hb) (h.distinct hb _ hmem) (h.refs_pos hb hmem) c.listen g
  · rw [replaceContext_eq he] at hx
    rcases List.mem_cons.mp (hnew.mem_iff.mp hx) with rfl | hx
    · have hF := h.entries hf e hm
      have hst := hs hf
      exact .arriving hst rfl (hF.arrivalTimer.mpr hst) (hF.tagArriving hst) (hF.rescueTimer_none (by simp [hst]))
        (hF.handing_none (by simp [hst])) (hF.yieldOwed_none (by simp [hst]))
    · exact h.entries hf x (List.mem_filter.mp hx).1
  · rw [replaceContext_eq he]
    exact h.claims

end

end State
end Sys2Proof.Machine
end

section
/-!
# Every operation of RE keeps the books and the fields

One lemma for each operation, in the order of the model. Where an operation acts on an entry of one state alone, the lemma
asks for that state at the slot, which is needed for the fields only.
-/

namespace Sys2Proof.Machine
namespace State

/-- What holds of the entry at a slot, if there is one. -/
def AtSlot (k : Nat) (P : ServeEntry → Prop) (s : State) : Prop := ∀ e ∈ s.re.serve, e.slot = k → P e

section
variable {b f : Prop} {s : State}

theorem atSlot_of_entryAt (h : s.Lawful) {k : Nat} {e : ServeEntry} (he : s.entryAt k = some e) {P : ServeEntry → Prop}
    (hp : P e) : s.AtSlot k P := fun _ hx hk => eq_of_entryAt h he hx hk ▸ hp

theorem atSlot_updateEntry {k : Nat} {P Q : ServeEntry → Prop} (h : s.AtSlot k P) (F : ServeEntry → ServeEntry)
    (hq : ∀ e, P e → Q (F e)) : (s.updateEntry k F).AtSlot k Q := by
  intro x hx hk
  obtain ⟨e, he, rfl⟩ := List.mem_map.mp hx
  by_cases hek : e.slot = k
  · rw [if_pos hek]
    exact hq e (h e he hek)
  · rw [if_neg hek] at hk
    exact absurd hk hek

theorem entryAt_of_entryFor (h : s.Lawful) {x : Headset} {e : ServeEntry} (he : s.entryFor x = some e) :
    s.entryAt e.slot = some e := entryAt_of_mem h (mem_of_entryFor he).1

theorem kept_foldl {α : Type} (F : State → α → State) (hF : ∀ (s : State) a, s.Kept b f → (F s a).Kept b f)
    (l : List α)
    (h : s.Kept b f) : (l.foldl F s).Kept b f := by
  induction l generalizing s with
  | nil => exact h
  | cons a as ih => exact ih (hF s a h)

/-! ## Ends -/

theorem kept_departEntry (h : s.Kept b f) (k : Nat) : (s.departEntry k).Kept b f := by
  unfold departEntry
  split
  · exact h
  · exact kept_count (kept_notify (kept_releaseEntry h k) _) _

theorem kept_failClaim (h : s.Kept b f) (x : Headset) : (s.failClaim x).Kept b f :=
  kept_updateSurvey (kept_endClaim h x) x _ (fun _ => ⟨rfl, rfl⟩) fun _ he => ⟨he.q, he.r, he.dwell, le_refl _⟩

theorem kept_withdrawSeek (h : s.Kept b f) (x : Headset) : (s.withdrawSeek x).Kept b f :=
  kept_count (kept_endClaim h x) _

theorem kept_forget (h : s.Kept b f) (x : Headset) : (s.updateSurvey x SurveyEntry.forget).Kept b f :=
  kept_updateSurvey h x _ (fun _ => ⟨rfl, rfl⟩) sound_forget

/-! ## Loss -/

theorem kept_enterLost (h : s.Kept b f) (cfg : Settings) (k : Nat) (hs : f → s.AtSlot k fun e => e.state ≠ .arriving) :
    (s.enterLost cfg k).Kept b f := by
  unfold enterLost
  split
  · exact h
  · exact kept_notify (kept_updateEntry h k (ServeEntry.toLost cfg) (fun _ => ⟨rfl, rfl, rfl⟩)
      (fun _ he => ServeEntry.sound_of_fields he rfl rfl he.ring) fun hf e he hk hF => hF.toLost (hs hf e he hk) cfg) _

theorem kept_fromHanding (h : s.Kept b f) (cfg : Settings) (k : Nat) (hs : f → s.AtSlot k fun e => e.state = .handing) :
    (s.updateEntry k (ServeEntry.fromHanding cfg)).Kept b f := by
  refine kept_updateEntry h k _ (fun e => ?_) (fun e he => ?_) fun hf e he hk hF => hF.fromHanding (hs hf e he hk) cfg
  · obtain ⟨hh, hs, -⟩ := fromHanding_fields cfg e
    exact ⟨hh, hs, by unfold ServeEntry.fromHanding; split <;> rfl⟩
  · obtain ⟨-, -, hq, hr, hring⟩ := fromHanding_fields cfg e
    exact ServeEntry.sound_of_fields he hq hr (hring ▸ he.ring)

theorem kept_revert (h : s.Kept b f) (cfg : Settings) (k : Nat) : (s.revert cfg k).Kept b f := by
  unfold revert
  split
  · next e he =>
    split
    · next r hr =>
      exact kept_notify (kept_fromHanding h cfg k fun hf => atSlot_of_entryAt h.lawful he
        ((h.entries hf e (mem_of_entryAt he).1).state_of_handing hr)) _
    · exact h
  · exact h

theorem kept_askAnswer (h : s.Kept b f) (cfg : Settings) (x : Headset) (k : Nat) : (s.askAnswer cfg x k).Kept b f :=
  kept_onApc h _ fun _ => Apc.stateOf_order_getD _ _ _ _ _

/-! ## Entry into the serve table -/

theorem kept_winSeek (h : s.Kept b f) (cfg : Settings) {e : SurveyEntry} {c : ClaimRecord} (he : e ∈ s.re.survey)
    (hc : e.claim = some c) : (s.winSeek cfg e c).Kept b f :=
  kept_count (kept_askAnswer (kept_enterServe h he hc _) _ _ _) _

/-- A won reclaim makes a LOST entry with a tag ARRIVING: no YIELD was owed (R90). -/
theorem ServeEntry.Fields.reclaimed {e : ServeEntry} (h : e.Fields) (hl : e.state = .lost) (ht : e.tag.isSome = true)
    (cfg : Settings) : (e.reclaimed cfg).Fields := by
  refine .arriving rfl rfl rfl ht rfl (h.handing_none (by simp [hl])) ?_
  show e.yieldOwed = none
  by_contra hy
  have hy := (h.yieldOwed (Option.isSome_iff_ne_none.mpr hy)).2
  simp [hy] at ht

theorem kept_winReclaim (h : s.Kept b f) (cfg : Settings) (k : Nat)
    (hs : f → s.AtSlot k fun e => e.state = .lost ∧ e.tag.isSome = true) : (s.winReclaim cfg k).Kept b f := by
  unfold winReclaim
  split
  · exact h
  · have g : (s.updateEntry k (ServeEntry.reclaimed cfg)).Kept b f :=
      kept_updateEntry h k _ (fun _ => ⟨rfl, rfl, rfl⟩)
        (fun e he => ServeEntry.sound_of_fields he rfl rfl (Nat.zero_le _))
        fun hf e he hk hF => ServeEntry.Fields.reclaimed hF (hs hf e he hk).1 (hs hf e he hk).2 cfg
    exact kept_count (kept_askAnswer g _ _ _) _

/-! ## The YIELD owed and reclaims -/

theorem kept_concludeYield (h : s.Kept b f) (cfg : Settings) (k : Nat) (n : Node) : (s.concludeYield cfg k n).Kept b f := by
  unfold concludeYield
  split
  · exact h
  · next e he =>
    have hs := h.lawful.served e (mem_of_entryAt he).1
    exact kept_enterSurvey (kept_notify (kept_releaseEntry h k) _) ⟨hs.q, hs.r, Nat.zero_le _, Nat.zero_le _⟩ rfl
      (gone_releaseEntry h.lawful he).1 (gone_releaseEntry h.lawful he).2

theorem kept_oweYield (h : s.Kept b f) (cfg : Settings) (k : Nat) (n : Node) (tag : Tag)
    (hs : f → s.AtSlot k fun e => e.state = .lost ∧ e.tag = none) : (s.oweYield cfg k n tag).Kept b f := by
  unfold oweYield
  split
  · exact h
  · refine kept_ite (fun _ => ?_) fun _ => kept_concludeYield (kept_count h _) cfg k n
    refine kept_updateEntry (kept_onTqu h _) k _ (fun _ => ⟨rfl, rfl, rfl⟩)
      (fun _ he => ServeEntry.sound_of_fields he rfl rfl he.ring) fun hf e he hk hF => ?_
    obtain ⟨hl, ht⟩ := hs hf e he hk
    exact .inLost hl (hF.origin_none (by simp [hl])) (hF.arrivalTimer_none (by simp [hl])) (hF.rescueTimer.mpr hl)
      (hF.handing_none (by simp [hl])) fun _ => ht

theorem kept_endReclaim (h : s.Kept b f) (k : Nat) (hs : f → s.AtSlot k fun e => e.state = .lost) :
    (s.updateEntry k ServeEntry.endReclaim).Kept b f :=
  kept_updateEntry h k _ (fun _ => ⟨rfl, rfl, rfl⟩) (fun _ he => ServeEntry.sound_of_fields he rfl rfl he.ring)
    fun hf e he hk hF => hF.endReclaim (hs hf e he hk)

theorem kept_failReclaim (h : s.Kept b f) (k : Nat) (hs : f → s.AtSlot k fun e => e.state = .lost) :
    (s.failReclaim k).Kept b f := by
  have g := kept_endReclaim h k hs
  unfold failReclaim
  dsimp only
  split
  · exact kept_ite (fun _ => kept_departEntry g k) fun _ => g
  · exact g

theorem kept_withdrawReclaim (h : s.Kept b f) (k : Nat) (hs : f → s.AtSlot k fun e => e.state = .lost) :
    (s.withdrawReclaim k).Kept b f := by
  unfold withdrawReclaim
  split
  · split
    · exact kept_count (kept_endReclaim (kept_onTqu h _) k hs) _
    · exact h
  · exact h

/-- The entry of an outstanding reclaim is LOST and has its tag (R21, R80). -/
theorem atSlot_of_reclaimOf (h : s.Lawful) {x : Headset} {tag : Tag} {e : ServeEntry} (he : s.reclaimOf x tag = some e) :
    s.AtSlot e.slot fun e => e.state = .lost ∧ e.tag.isSome = true := by
  obtain ⟨hf, hp⟩ := Option.filter_eq_some_iff.mp he
  have hp : e.state = .lost ∧ e.tag = some tag := by simpa using hp
  exact atSlot_of_entryAt h (entryAt_of_entryFor h hf) ⟨hp.1, by simp [hp.2]⟩

theorem AtSlot.mono {k : Nat} {P Q : ServeEntry → Prop} (h : s.AtSlot k P) (hq : ∀ e, P e → Q e) : s.AtSlot k Q :=
  fun e he hk => hq e (h e he hk)

theorem kept_seekDisplaced (h : s.Kept b f) (c : ClaimBody) : (s.seekDisplaced c).Kept b f := by
  unfold seekDisplaced
  split
  · exact kept_endClaim h _
  · split
    · next e he => exact kept_failReclaim h _ fun _ => (atSlot_of_reclaimOf h.lawful he).mono fun _ => And.left
    · exact h

theorem kept_queueTaken (h : s.Kept b f) (x : Headset) (n : Nat) (p : Option Node) : (s.queueTaken x n p).Kept b f := by
  unfold queueTaken
  dsimp only
  refine kept_ite (fun _ => kept_onTqu h _) fun _ => ?_
  split
  · split
    · exact kept_seekDisplaced (kept_onTqu h _) _
    · exact kept_onTqu h _
  · exact kept_ite (fun _ => kept_onTqu h _) fun _ => kept_count h _

/-! ## Frames and calls at an entry -/

theorem kept_toRing (h : s.Kept b f) (cfg : Settings) (k : Nat) (q : Seq) (payload : List Byte) :
    (s.toRing cfg k q payload).Kept b f := by
  unfold toRing
  split
  · exact h
  · next e he =>
    refine kept_ite (fun _ => ?_) fun _ => h
    exact kept_onMlc (kept_updateEntry h k (fun x => { x with ring := (e.ring.place cfg q payload).ring })
      (fun _ => ⟨rfl, rfl, rfl⟩)
      (fun x hx => ServeEntry.sound_of_fields hx rfl rfl
        (Ring.place_length cfg q payload (h.lawful.served e (mem_of_entryAt he).1).ring))
      fun _ x _ _ hF => hF.same rfl) _

theorem retains_offeredTest (cfg : Settings) (e : ServeEntry) :
    (e.offeredTest cfg).headset = e.headset ∧ (e.offeredTest cfg).slot = e.slot ∧
      (e.offeredTest cfg).listen = e.listen := by
  obtain ⟨hh, hs, -⟩ := ServeEntry.offeredTest_fields cfg e
  refine ⟨hh, hs, ?_⟩
  unfold ServeEntry.offeredTest
  split
  · split <;> rfl
  · split <;> rfl
  · rfl

theorem kept_offeredTest (h : s.Kept b f) (cfg : Settings) (k : Nat) :
    (s.updateEntry k (ServeEntry.offeredTest cfg)).Kept b f :=
  kept_updateEntry h k _ (retains_offeredTest cfg) (fun _ he => ServeEntry.sound_offeredTest he cfg)
    fun _ _ _ _ hF => hF.offeredTest cfg

theorem kept_arrival (h : s.Kept b f) (cfg : Settings) (k : Nat) (q : Seq) (payload : List Byte)
    (hs : f → s.AtSlot k fun e => e.state = .arriving) : (s.arrival cfg k q payload).Kept b f := by
  unfold arrival
  split
  · exact h
  · have g : (s.updateEntry k (ServeEntry.arrive cfg q)).Kept b f :=
      kept_updateEntry h k _ (fun _ => ⟨rfl, rfl, rfl⟩) (fun _ he => ServeEntry.sound_of_fields he rfl rfl he.ring)
        fun hf e he hk hF => by
        have ha := hs hf e he hk
        exact .plain (.inl rfl) rfl rfl rfl (hF.rescueTimer_none (by simp [ha])) (hF.handing_none (by simp [ha]))
          (hF.yieldOwed_none (by simp [ha]))
    have g := kept_toRing g cfg k q payload
    exact kept_offeredTest (kept_notify (kept_queueTaken (kept_ite (fun _ => kept_count g _) fun _ => g) _ _ _) _) cfg k

theorem kept_callAtLost (h : s.Kept b f) (cfg : Settings) (k : Nat) {n : Nat} (hn : n ≤ 90)
    (hs : f → s.AtSlot k fun e => e.state = .lost) : (s.callAtLost cfg k n).Kept b f := by
  unfold callAtLost
  split
  · exact h
  · next e he =>
    refine kept_ite (fun hc => ?_) fun _ => ?_
    · have g : (s.updateEntry k fun x => { x.reseed n with tag := some s.re.claimCounter }).Kept b f := by
        refine kept_updateEntry h k _ (fun _ => ⟨rfl, rfl, rfl⟩) (fun x hx => ?_) fun hf x hx hk hF => ?_
        · have g := ServeEntry.sound_reseed hx hn
          exact ServeEntry.sound_of_fields g rfl rfl g.ring
        · have hl := hs hf x hx hk
          have hxe := eq_of_entryAt h.lawful he hx hk
          subst hxe
          refine .inLost hl (hF.origin_none (by simp [hl])) (hF.arrivalTimer_none (by simp [hl])) (hF.rescueTimer.mpr hl)
            (hF.handing_none (by simp [hl])) fun hy => ?_
          have : x.yieldOwed.isSome = true := hy
          simp [hc.2.1] at this
      exact g.beside rfl rfl (fun _ => rfl) rfl
    · exact kept_updateEntry h k (ServeEntry.sample cfg n) (fun _ => ⟨rfl, rfl, rfl⟩)
        (fun _ he => ServeEntry.sound_sample he cfg hn) fun _ _ _ _ hF => hF.same rfl

/-! ## Claims -/

theorem kept_decideSeek (h : s.Kept b f) (cfg : Settings) (c : SeekCall) : (s.decideSeek cfg c).Kept b f := by
  unfold decideSeek
  split
  · next e k he hk =>
    refine kept_ite (fun hc => ?_) fun _ => h
    obtain ⟨-, -, hnone, hroom, hfit, -⟩ := hc
    obtain ⟨hm, hx⟩ := mem_of_surveyFor he
    rw [← hx]
    exact kept_onTqu (kept_addClaim h hk hm hnone hroom (nodup_distinctGroups _) (hx ▸ hfit) _ ⟨rfl, rfl, rfl⟩
      ⟨by simp, fun _ => rfl, fun hk => by cases hk⟩) _
  · exact h

theorem kept_decideNormal (h : s.Kept b f) (cfg : Settings) (x : Headset) : (s.decideNormal cfg x).Kept b f := by
  unfold decideNormal
  split
  · next e k he hk =>
    split
    · refine kept_ite (fun hc => ?_) fun _ => h
      obtain ⟨-, -, hnone, hroom, hfit, -⟩ := hc
      obtain ⟨hm, rfl⟩ := mem_of_surveyFor he
      exact kept_onTqu (kept_addClaim h hk hm hnone hroom (nodup_distinctGroups _) hfit _ ⟨rfl, rfl, rfl⟩
        ⟨by simp, fun hk => (by cases hk), fun _ => ⟨rfl, rfl⟩⟩) _
    · exact h
  · exact h

theorem kept_resolveDuplicate (h : s.Kept b f) (cfg : Settings) (x : Headset) (n : Node) (c : Nat) :
    (s.resolveDuplicate cfg x n c).Kept b f := by
  unfold resolveDuplicate
  split
  · exact h
  · exact kept_ite (fun _ => kept_notify (kept_count (kept_releaseEntry h _) _) _) fun _ => h

end
end State
end Sys2Proof.Machine
end

section
/-!
# Marks, reports, outcomes and handlings keep the books and the fields

The rest of RE's operations, and with them every move of the machine: the slot map and store laws (O57) and the table laws
(O59).
-/

namespace Sys2Proof.Machine
namespace State

section
variable {b f : Prop} {s : State}

/-! ## Cycle marks -/

theorem kept_expireArrival (h : s.Kept b f) (k : Nat) : (s.expireArrival k).Kept b f := by
  unfold expireArrival
  split
  · exact h
  · next e he =>
    refine kept_ite (fun _ => kept_departEntry h k) fun _ => ?_
    have hs := h.lawful.served e (mem_of_entryAt he).1
    exact kept_enterSurvey (kept_releaseEntry h k) ⟨hs.q, rfl, Nat.zero_le _, le_refl _⟩ rfl
      (gone_releaseEntry h.lawful he).1 (gone_releaseEntry h.lawful he).2

/-- An expiry that sends its entry to LOST is not that of an ARRIVING entry. -/
def Lossy (x : Expiry) : Prop := x = .handing ∨ x = .cutLink

theorem kept_expire (h : s.Kept b f) (cfg : Settings) (k : Nat) (x : Expiry)
    (hs : Lossy x → s.AtSlot k fun e => e.state ≠ .arriving) : (s.expire cfg k x).Kept b f := by
  cases x with
  | arrival => exact kept_expireArrival h k
  | handing => exact kept_enterLost h cfg k fun _ => hs (.inl rfl)
  | rescue => exact kept_departEntry h k
  | cutLink => exact kept_enterLost h cfg k fun _ => hs (.inr rfl)

theorem lossy_of_entryDue {cfg : Settings} {e : ServeEntry} {x : Expiry} (h : s.entryDue cfg e = some x) (hx : Lossy x) :
    e.state ≠ .arriving := by
  intro ha
  unfold entryDue at h
  rw [ha] at h
  dsimp only at h
  split at h
  · cases h
    rcases hx with hx | hx <;> cases hx
  · cases h

/-- A release leaves every other property of a slot's entry. -/
theorem atSlot_releaseEntry {j k : Nat} {P : ServeEntry → Prop} (h : s.AtSlot j P) : (s.releaseEntry k).AtSlot j P := by
  cases he : s.entryAt k with
  | none => rw [releaseEntry_none he]; exact h
  | some e =>
    rw [releaseEntry_eq he]
    exact fun x hx => h x (List.mem_filter.mp hx).1

theorem atSlot_departEntry {j k : Nat} {P : ServeEntry → Prop} (h : s.AtSlot j P) : (s.departEntry k).AtSlot j P := by
  unfold departEntry
  split
  · exact h
  · exact atSlot_releaseEntry h

theorem notArriving_enterLost {j k : Nat} (cfg : Settings) (h : s.AtSlot j fun e => e.state ≠ .arriving) :
    (s.enterLost cfg k).AtSlot j fun e => e.state ≠ .arriving := by
  unfold enterLost
  split
  · exact h
  · intro x hx hj
    obtain ⟨e, he, rfl⟩ := List.mem_map.mp hx
    by_cases hk : e.slot = k
    · rw [if_pos hk]
      simp [ServeEntry.toLost]
    · rw [if_neg hk] at hj ⊢
      exact h e he hj

/-- No expiry makes an entry ARRIVING. -/
theorem notArriving_expire {j k : Nat} (cfg : Settings) (x : Expiry) (h : s.AtSlot j fun e => e.state ≠ .arriving) :
    (s.expire cfg k x).AtSlot j fun e => e.state ≠ .arriving := by
  cases x with
  | arrival =>
    show (s.expireArrival k).AtSlot j _
    unfold expireArrival
    split
    · exact h
    · split
      · exact atSlot_departEntry h
      · exact atSlot_releaseEntry h
  | handing => exact notArriving_enterLost cfg h
  | rescue => exact atSlot_departEntry h
  | cutLink => exact notArriving_enterLost cfg h

theorem kept_expireAll (cfg : Settings) (due : List (Nat × Expiry)) (h : s.Kept b f)
    (hs : ∀ d ∈ due, Lossy d.2 → s.AtSlot d.1 fun e => e.state ≠ .arriving) :
    (due.foldl (fun s d => s.expire cfg d.1 d.2) s).Kept b f := by
  induction due generalizing s with
  | nil => exact h
  | cons d ds ih =>
    refine ih (kept_expire h cfg d.1 d.2 (hs d List.mem_cons_self)) fun c hc hx => ?_
    exact notArriving_expire cfg d.2 (hs c (List.mem_cons_of_mem _ hc) hx)

theorem kept_takeResult (h : s.Kept b f) (cfg : Settings) (k : Nat) (kind : OrderKind) (a : Bool) :
    (s.takeResult cfg k kind a).Kept b f := by
  unfold takeResult
  refine kept_ite (fun _ => h) fun _ => ?_
  split
  · exact h
  · split
    · exact kept_ite (fun _ => kept_revert h _ _) fun _ => h
    · exact kept_askAnswer h _ _ _
    · exact h

theorem kept_endOrder (h : s.Kept b f) (k : Nat) : (s.onApc (Apc.endOrder k)).Kept b f :=
  kept_onApc h _ (Apc.stateOf_endOrder _ k)

theorem kept_expireOrder (h : s.Kept b f) (cfg : Settings) (k : Nat) : (s.expireOrder cfg k).Kept b f := by
  unfold expireOrder
  split
  · exact kept_ite (fun _ => kept_takeResult (kept_endOrder h k) _ _ _ _) fun _ => h
  · exact h

theorem kept_markOrders (h : s.Kept b f) (cfg : Settings) : (s.markOrders cfg).Kept b f :=
  kept_foldl _ (fun _ k hs => kept_expireOrder hs cfg k) _ (kept_onApc h _ (Apc.stateOf_age _))

theorem kept_buildStanding (h : s.Kept b f) (cfg : Settings) : (s.buildStanding cfg).Kept b f := by
  unfold buildStanding
  refine kept_ite (fun _ => ?_) fun _ => h
  refine kept_mapServe (kept_onTqu h _) (ServeEntry.markNamed (s.named cfg)) (fun e _ => (markNamed_fields _ e).1)
    (fun e _ => (markNamed_fields _ e).2.1) (fun e _ => (markNamed_fields _ e).2.2) (fun e _ => ?_) fun _ e _ hF => ?_
  all_goals unfold ServeEntry.markNamed; split
  · rfl
  · rfl
  · exact hF.same rfl
  · exact hF

theorem kept_tick (h : s.Kept b f) : (s.onRe Re.tick).Kept b f := by
  have hs := kept_mapServe h ServeEntry.tick (fun _ _ => rfl) (fun _ _ => rfl) (fun _ _ he => he.same rfl)
    (fun _ _ => rfl) fun _ _ _ hF => hF.tick
  have hv := kept_mapSurvey hs SurveyEntry.tick (fun c => { c with replyTimer := c.replyTimer.map (· - 1) })
    (fun _ _ => rfl) (fun _ _ he => ⟨he.q, he.r, he.dwell, he.pacing⟩) (fun _ _ => rfl) (fun _ => rfl) (fun _ => rfl)
    (fun _ => rfl) fun _ _ _ hF => hF.tick
  exact hv.beside rfl rfl (fun _ => rfl) rfl

theorem kept_removeAged (l : List Headset) (h : s.Kept b f)
    (hl : ∀ x ∈ l, ∀ e ∈ s.re.survey, e.headset = x → e.claim = none) :
    (l.foldl (fun s x => s.removeSurvey x) s).Kept b f := by
  induction l generalizing s with
  | nil => exact h
  | cons x xs ih =>
    exact ih (kept_removeSurvey h x (hl x List.mem_cons_self)) fun y hy e he =>
      hl y (List.mem_cons_of_mem _ hy) e (List.mem_filter.mp he).1

theorem claim_none_of_aged (h : s.Lawful) {cfg : Settings} {e : SurveyEntry} (he : e ∈ s.re.survey)
    (hx : e.headset ∈ s.re.surveyed (SurveyEntry.agesOut cfg)) : e.claim = none := by
  obtain ⟨y, hy, hye⟩ := List.mem_map.mp hx
  obtain ⟨hm, ha⟩ := List.mem_filter.mp hy
  rw [← eq_of_headset h.surveyOnce hm he hye]
  exact Option.isNone_iff_eq_none.mp (Bool.and_eq_true_iff.mp ha).1

theorem serve_endClaim (x : Headset) (s : State) : (s.endClaim x).re.serve = s.re.serve := by
  unfold endClaim
  split <;> rfl

theorem serve_failClaim (x : Headset) (s : State) : (s.failClaim x).re.serve = s.re.serve := serve_endClaim x s

theorem serve_foldl {α : Type} (F : State → α → State) (hF : ∀ (s : State) a, (F s a).re.serve = s.re.serve)
    (l : List α)
    (s : State) : (l.foldl F s).re.serve = s.re.serve := by
  induction l generalizing s with
  | nil => rfl
  | cons a as ih => exact (ih _).trans (hF s a)

/-- The survey list's part of a mark leaves the serve table as the counters made it. -/
theorem kept_markRe (h : s.Kept b f) (cfg : Settings) : (s.markRe cfg).Kept b f := by
  unfold markRe
  have ht := kept_tick h
  have ha := kept_removeAged (s.re.surveyed (SurveyEntry.agesOut cfg)) ht fun x hx e he hex => by
    obtain ⟨y, hy, rfl⟩ := List.mem_map.mp he
    have : y.claim = none := claim_none_of_aged h.lawful hy (hex ▸ hx)
    simp [SurveyEntry.tick, this]
  have hf := kept_foldl _ (fun _ x hs => kept_forget hs x) (s.re.surveyed (SurveyEntry.knowledgeEnds cfg)) ha
  have hc := kept_foldl _ (fun _ x hs => kept_failClaim hs x) (s.re.surveyed SurveyEntry.replyEnds) hf
  refine kept_buildStanding (kept_expireAll cfg _ hc fun d hd hx => ?_) cfg
  obtain ⟨e, he, hed⟩ := List.mem_filterMap.mp hd
  obtain ⟨x, hdue, rfl⟩ := Option.map_eq_some_iff.mp hed
  intro y hy hk
  rw [serve_foldl _ (fun s x => serve_failClaim x s), serve_foldl (fun s x => s.updateSurvey x SurveyEntry.forget)
    (fun _ _ => rfl), serve_foldl (fun s x => s.removeSurvey x) (fun _ _ => rfl)] at hy
  obtain ⟨z, hz, rfl⟩ := List.mem_map.mp hy
  rw [eq_of_slot h.lawful hz he hk]
  show e.state ≠ .arriving
  exact lossy_of_entryDue hdue hx

theorem kept_playRing (h : s.Kept b f) (cfg : Settings) {e : ServeEntry} (he : e.ring.frames.length ≤ ringCapacity) :
    (s.playRing cfg e).Kept b f := by
  have g : (s.updateEntry e.slot fun x => { x with ring := (e.play cfg).1 }).Kept b f :=
    kept_updateEntry h e.slot _ (fun _ => ⟨rfl, rfl, rfl⟩)
      (fun x hx => ServeEntry.sound_of_fields hx rfl rfl (le_trans (ServeEntry.play_length cfg e) he))
      fun _ _ _ _ hF => hF.same rfl
  unfold playRing
  dsimp only
  refine kept_ite (fun _ => kept_count ?_ _) fun _ => ?_
  all_goals split
  · exact kept_onMlc g _
  · exact g
  · exact kept_onMlc g _
  · exact g

theorem kept_playRings (cfg : Settings) (l : List ServeEntry) (hl : ∀ e ∈ l, e.ring.frames.length ≤ ringCapacity)
    (h : s.Kept b f) : (l.foldl (playRing cfg) s).Kept b f := by
  induction l generalizing s with
  | nil => exact h
  | cons e es ih =>
    exact ih (fun x hx => hl x (List.mem_cons_of_mem _ hx)) (kept_playRing h cfg (hl e List.mem_cons_self))

theorem kept_mixEntry (h : s.Kept b f) (e : ServeEntry) : (s.mixEntry e).Kept b f := by
  unfold mixEntry
  exact kept_onApc (kept_ite (fun _ => kept_count h _) fun _ => h) _ (Apc.stateOf_downlink _ _ _)

theorem kept_consume (h : s.Kept b f) : (s.onVp Vp.consume).Kept b f :=
  kept_onVp h Vp.consume Vp.sound_consume fun g => Vp.refs_consume s.vp g

theorem kept_mark (h : s.Kept b f) (cfg : Settings) : (s.mark cfg).Kept b f := by
  have hr := kept_markRe (kept_onTqu (kept_markOrders h cfg) (Tqu.mark cfg)) cfg
  have hp := kept_playRings cfg _ (fun e he => (hr.lawful.served e he).ring) hr
  exact kept_foldl _ (fun _ k hs => kept_releaseEntry hs k) _
    (kept_consume (kept_foldl _ (fun _ e hs => kept_mixEntry hs e) _ hp))

/-! ## Reports of the front end -/

theorem kept_scored (h : s.Kept b f) (cfg : Settings) (k : Nat) {n : Nat} (hn : n ≤ 90) :
    (s.updateEntry k (ServeEntry.sample cfg n)).Kept b f :=
  kept_updateEntry h k _ (fun _ => ⟨rfl, rfl, rfl⟩) (fun _ he => ServeEntry.sound_sample he cfg hn)
    fun _ _ _ _ hF => hF.same rfl

theorem kept_servedFrame (h : s.Kept b f) (cfg : Settings) (k : Nat) {n : Nat} (hn : n ≤ 90) (q : Seq)
    (payload : List Byte) : (s.servedFrame cfg k n q payload).Kept b f :=
  kept_offeredTest (kept_toRing (kept_updateEntry h k (fun e => { e.sample cfg n with heard := true })
    (fun _ => ⟨rfl, rfl, rfl⟩) (fun _ he => (ServeEntry.sound_sample he cfg hn).same rfl)
    fun _ _ _ _ hF => hF.same rfl) cfg k q payload) cfg k

theorem kept_scoredTest (h : s.Kept b f) (cfg : Settings) (k : Nat) {n : Nat} (hn : n ≤ 90) :
    (s.updateEntry k fun e => (e.sample cfg n).offeredTest cfg).Kept b f :=
  kept_updateEntry h k _ (fun _ => retains_offeredTest cfg _)
    (fun _ he => ServeEntry.sound_offeredTest (ServeEntry.sound_sample he cfg hn) cfg)
    fun _ e _ _ hF => (ServeEntry.Fields.same (x := e.sample cfg n) hF rfl).offeredTest cfg

theorem kept_reportAtEntry (h : s.Kept b f) (cfg : Settings) {r : SlotReport} {e : ServeEntry}
    (he : s.entryAt r.slot = some e) : (s.reportAtEntry cfg r e).Kept b f := by
  have hv := fun kind => sampleValue_le kind r.level
  unfold reportAtEntry
  split
  · next ha _ =>
    exact kept_arrival (kept_scored h cfg _ (hv _)) cfg _ _ _ fun _ =>
      atSlot_updateEntry (atSlot_of_entryAt h.lawful he ha) _ fun _ hx => hx
  · exact h
  · exact h
  · exact kept_servedFrame h cfg _ (hv _) _ _
  · exact kept_servedFrame h cfg _ (hv _) _ _
  · exact kept_scoredTest h cfg _ (hv _)
  · exact kept_scoredTest h cfg _ (hv _)
  · exact kept_scoredTest h cfg _ (hv _)
  · exact kept_scoredTest h cfg _ (hv _)
  · exact kept_ite (fun _ => kept_servedFrame (kept_revert h _ _) cfg _ (hv _) _ _)
      fun _ => kept_toRing (kept_scored h cfg _ (hv _)) cfg _ _ _
  · exact kept_ite (fun _ => h) fun _ => kept_scored h cfg _ (hv _)
  · exact kept_ite (fun _ => h) fun _ => kept_scored h cfg _ (hv _)
  · exact kept_count h _
  · exact kept_count h _
  all_goals exact h

theorem kept_slotReport (h : s.Kept b f) (cfg : Settings) (r : SlotReport) : (s.slotReport cfg r).Kept b f := by
  unfold slotReport
  split
  · exact kept_count h _
  · exact kept_count h _
  · refine kept_ite (fun _ => kept_count h _) fun _ => ?_
    split
    · next he => exact kept_reportAtEntry h cfg he
    · exact h

theorem kept_sampleSurvey (h : s.Kept b f) (cfg : Settings) (x : Headset) {n : Nat} (hn : n ≤ 90) :
    (s.updateSurvey x (SurveyEntry.sample cfg n)).Kept b f :=
  kept_updateSurvey h x _ (fun _ => ⟨rfl, rfl⟩) fun _ he => SurveyEntry.sound_sample he cfg hn

theorem kept_newcomer (h : s.Kept b f) {x : Headset} {n : Nat} (hn : n ≤ 90) (he : s.entryFor x = none)
    (hs : s.surveyFor x = none) : (s.enterSurvey (SurveyEntry.fresh x (seeded n))).Kept b f :=
  kept_enterSurvey h (SurveyEntry.sound_fresh x (seeded_limit hn)) rfl (not_mem_of_entryFor he) (not_mem_of_surveyFor hs)

theorem kept_surveyReport (h : s.Kept b f) (cfg : Settings) (r : SurveyReport) : (s.surveyReport cfg r).Kept b f := by
  unfold surveyReport
  dsimp only
  refine kept_ite (fun _ => h) fun hc => ?_
  split
  · exact kept_decideNormal (kept_sampleSurvey h cfg _ (sampleValue_le _ _)) cfg _
  · next hs =>
    rw [Bool.or_eq_true, not_or] at hc
    exact kept_newcomer h (sampleValue_le _ _) (by simpa using hc.1) hs

/-- A headset's entry in LOST, whatever state sent it there (R20). -/
theorem lost_enterLost {k : Nat} {e : ServeEntry} (he : s.entryAt k = some e) (cfg : Settings) :
    (s.enterLost cfg k).AtSlot k fun e => e.state = .lost := by
  unfold enterLost
  rw [he]
  exact atSlot_updateEntry (P := fun _ => True) (fun _ _ _ => trivial) _ fun _ _ => rfl

theorem kept_seekCall (h : s.Kept b f) (cfg : Settings) (c : SeekCall) : (s.seekCall cfg c).Kept b f := by
  have hv := sampleValue_le .seekCall c.level
  unfold seekCall
  dsimp only
  split
  · next e he =>
    have hat := entryAt_of_entryFor h.lawful he
    have served (hst : e.state ≠ .arriving) :
        ((s.enterLost cfg e.slot).callAtLost cfg e.slot (sampleValue .seekCall c.level)).Kept b f :=
      kept_callAtLost (kept_enterLost h cfg _ fun _ => atSlot_of_entryAt h.lawful hat hst) cfg _ hv fun _ =>
        lost_enterLost hat cfg
    split
    · next hst => exact served (by simp [hst])
    · next hst => exact served (by simp [hst])
    · next hst => exact kept_callAtLost h cfg _ hv fun _ => atSlot_of_entryAt h.lawful hat hst
    all_goals exact kept_count h _
  · next he =>
    refine kept_ite (fun _ => h) fun _ => ?_
    split
    · exact kept_decideSeek (kept_sampleSurvey h cfg _ hv) cfg c
    · next hs => exact kept_decideSeek (kept_newcomer h hv he hs) cfg c

theorem kept_orderResult (h : s.Kept b f) (cfg : Settings) (r : OrderResult) : (s.orderResult cfg r).Kept b f := by
  unfold orderResult
  split
  · exact kept_takeResult (kept_endOrder h _) _ _ _ _
  · exact h

/-! ## Outcomes -/

theorem kept_sendMove (h : s.Kept b f) (cfg : Settings) (e : ServeEntry) (r : HandingRecord)
    (hs : f → s.AtSlot e.slot fun e => e.state = .handing) : (s.sendMove cfg e r).Kept b f := by
  have g : (s.updateEntry e.slot fun x =>
      { x with handing := some { r with phase := .moveSent, timer := some cfg.handingTime } }).Kept b f :=
    kept_updateEntry h _ _ (fun _ => ⟨rfl, rfl, rfl⟩) (fun _ he => he.same rfl) fun hf x hx hk hF => by
      have hh : x.state = .handing := hs hf x hx hk
      have hl : x.state ≠ .lost := by simp [hh]
      have ha : x.state ≠ .arriving := by simp [hh]
      exact .inHanding hh (hF.origin_none ha) (hF.arrivalTimer_none ha) (hF.tag_none ha hl) (hF.rescueTimer_none hl) rfl
        (hF.yieldOwed_none hl) (by simp)
  unfold sendMove
  dsimp only
  split
  · next ha => exact g.beside rfl rfl (Apc.stateOf_order ha) rfl
  · exact kept_revert g _ _

theorem kept_yieldOutcome (h : s.Kept b f) (cfg : Settings) (d : Bool) (c : Context) (n : Node) :
    (s.yieldOutcome cfg d c n).Kept b f := by
  unfold yieldOutcome
  split
  · next e r hp =>
    have hat : s.AtSlot e.slot fun e => e.state = .handing := by
      unfold pendingYield at hp
      split at hp
      · next x hx =>
        split at hp
        · next hst _ =>
          split at hp
          · cases hp
            exact atSlot_of_entryAt h.lawful (entryAt_of_entryFor h.lawful hx) hst
          · cases hp
        · cases hp
      · cases hp
    exact kept_ite (fun _ => kept_sendMove h _ _ _ fun _ => hat) fun _ => kept_fromHanding h _ _ fun _ => hat
  · exact h

theorem kept_owedOutcome (h : s.Kept b f) (cfg : Settings) (c : Context) (n : Node) :
    (s.owedOutcome cfg c n).Kept b f := by
  unfold owedOutcome
  split
  · exact kept_ite (fun _ => kept_concludeYield h _ _ _) fun _ => h
  · exact h

/-- A claim record changed that keeps slot, tag and groups. -/
theorem kept_changeClaim (h : s.Kept b f) {e : SurveyEntry} (he : e ∈ s.re.survey) {r r' : ClaimRecord}
    (hr : e.claim = some r) (hs : r'.slot = r.slot) (ht : r'.tag = r.tag) (hg : r'.groups = r.groups)
    (hf : f → r'.Fields) : (s.updateSurvey e.headset fun e => { e with claim := some r' }).Kept b f := by
  have old := perm_claims h.lawful.surveyOnce he
  have new := perm_claims_update h.lawful.surveyOnce he (F := fun e => { e with claim := some r' }) rfl
  rw [hr] at old
  have hl : (s.updateSurvey e.headset fun e => { e with claim := some r' }).Lawful :=
    TableLaw.updateSurvey h.lawful e.headset _ (fun _ _ _ => rfl) (fun _ _ _ hx => ⟨hx.q, hx.r, hx.dwell, hx.pacing⟩)
      fun x hx hxe => by
        rw [eq_of_headset h.lawful.surveyOnce hx he hxe, hr]
        simp [hs, ht]
  have hnew := perm_books_of_claims (r := (s.updateSurvey e.headset fun e => { e with claim := some r' }).re) (cs := [r']) new
  simp only [List.map_cons, hg] at hnew
  refine h.exchange (old := []) (new := []) hl id (perm_books_of_claims (cs := [r]) old) hnew (by simp) (by simp) h.entries
    fun hf' c hc => ?_
  rcases List.mem_cons.mp (new.mem_iff.mp hc) with rfl | hc
  · exact hf hf'
  · exact h.claims hf' c (old.mem_iff.mpr (List.mem_cons_of_mem _ hc))

theorem kept_claimOutcome (h : s.Kept b f) (cfg : Settings) (d : Bool) (c : ClaimBody) :
    (s.claimOutcome cfg d c).Kept b f := by
  unfold claimOutcome
  split
  · next y r hr =>
    obtain ⟨hm, hx, hc, -⟩ := mem_of_claimOf hr
    refine kept_ite (fun hk => kept_ite (fun _ => ?_) fun _ => kept_forget (kept_failClaim h _) _) fun _ => h
    rw [← hx]
    refine kept_changeClaim h hm hc rfl rfl rfl fun hf => ?_
    have hF := h.claims hf r (claim_mem_claimRecords hm hc)
    exact ⟨by simp, fun hs => by simp [hk.1] at hs, hF.call⟩
  · exact h

theorem kept_seekOutcome (h : s.Kept b f) (cfg : Settings) (d : Bool) (c : ClaimBody) :
    (s.seekOutcome cfg d c).Kept b f := by
  unfold seekOutcome
  split
  · next e r hr =>
    obtain ⟨hm, -, hc, -⟩ := mem_of_claimOf hr
    exact kept_ite (fun _ => kept_ite (fun _ => kept_endClaim h _) fun _ =>
      kept_ite (fun _ => kept_withdrawSeek h _) fun _ => kept_winSeek h cfg hm hc) fun _ => h
  · split
    · next e he =>
      have hat := atSlot_of_reclaimOf h.lawful he
      have lost : s.AtSlot e.slot fun e => e.state = .lost := hat.mono fun _ => And.left
      exact kept_ite (fun _ => kept_failReclaim h _ fun _ => lost) fun _ =>
        kept_ite (fun _ => kept_withdrawReclaim h _ fun _ => lost) fun _ => kept_winReclaim h cfg _ fun _ => hat
    · exact h

theorem kept_tellOwner (h : s.Kept b f) (cfg : Settings) (d : Bool) (m : Queued) : (s.tellOwner cfg d m).Kept b f := by
  unfold tellOwner
  split
  · exact kept_owedOutcome h _ _ _
  · exact kept_yieldOutcome h _ _ _ _
  · split
    · exact kept_claimOutcome h _ _ _
    · exact kept_seekOutcome h _ _ _
  all_goals exact h

/-! ## Handlings -/

theorem kept_takenAtSurvey (h : s.Kept b f) (x : Headset) (n : Node) (c : Nat) : (s.takenAtSurvey x n c).Kept b f := by
  have g : (s.updateSurvey x (SurveyEntry.learnTaken n c)).Kept b f :=
    kept_updateSurvey h x _ (fun _ => ⟨rfl, rfl⟩) fun _ he => ⟨he.q, he.r, Nat.zero_le _, he.pacing⟩
  unfold takenAtSurvey
  dsimp only
  split
  · split
    · exact kept_failClaim g _
    · exact kept_withdrawSeek g _
  · exact g

theorem kept_drain (h : s.Kept b f) (k : Nat) (x : Headset) (n : Node) (hs : f → s.AtSlot k fun e => e.state = .handing) :
    (s.drain k x n).Kept b f := by
  refine kept_count (kept_notify (kept_updateEntry h k
    (fun e => { e with state := .draining, handing := none, ring := { e.ring with playing := true } })
    (fun _ => ⟨rfl, rfl, rfl⟩) (fun _ he => ServeEntry.sound_of_fields he rfl rfl he.ring) fun hf e he hk hF => ?_) _) _
  have hh : e.state = .handing := hs hf e he hk
  have hl : e.state ≠ .lost := by simp [hh]
  have ha : e.state ≠ .arriving := by simp [hh]
  exact .plain (.inr (.inr rfl)) (hF.origin_none ha) (hF.arrivalTimer_none ha) (hF.tag_none ha hl) (hF.rescueTimer_none hl)
    rfl (hF.yieldOwed_none hl)

theorem kept_handleTaken (h : s.Kept b f) (cfg : Settings) (x : Headset) (n : Node) (c : Nat) :
    (s.handleTaken cfg x n c).Kept b f := by
  unfold handleTaken
  split
  · next e he =>
    split
    · exact kept_releaseEntry h _
    · exact kept_resolveDuplicate h _ _ _ _
    · exact kept_resolveDuplicate h _ _ _ _
    · exact kept_resolveDuplicate h _ _ _ _
    · next hst =>
      exact kept_ite (fun _ => kept_drain h _ _ _ fun _ =>
        atSlot_of_entryAt h.lawful (entryAt_of_entryFor h.lawful he) hst) fun _ => h
    · exact h
  · exact kept_takenAtSurvey h _ _ _

/-- A CLAIM is accepted at a SERVED or OFFERED entry alone (R62). -/
theorem accepted_of_answerClaim (h : s.Lawful) {cfg : Settings} {n : Node} {c : ClaimBody} {e : ServeEntry}
    (ha : s.answerClaim cfg n c = .inr e) : s.AtSlot e.slot fun e => e.state = .served ∨ e.state = .offered := by
  unfold answerClaim at ha
  split at ha
  · cases ha
  · split at ha
    · cases ha
    · split at ha
      · cases ha
      · next x hx =>
        have hat := entryAt_of_entryFor h hx
        have served (hst : x.state = .served ∨ x.state = .offered)
            (ha : (if 0 < x.settle then (Sum.inl Reason.settling : Reason ⊕ ServeEntry)
              else if x.scoreAdmits cfg c.score then .inr x else .inl .notOffered) = .inr e) :
            s.AtSlot e.slot fun e => e.state = .served ∨ e.state = .offered := by
          split at ha
          · cases ha
          · split at ha
            · cases ha
              exact atSlot_of_entryAt h hat hst
            · cases ha
        split at ha
        · cases ha
        · cases ha
        · cases ha
        · cases ha
        · next hst => exact served (.inl hst) ha
        · next hst => exact served (.inr hst) ha

theorem ServeEntry.Fields.accept {e : ServeEntry} (hF : e.Fields) (hs : e.state = .served ∨ e.state = .offered) (n : Node)
    (c : ClaimBody) : (e.accept n c).Fields := by
  have ha : e.state ≠ .arriving := by rcases hs with hs | hs <;> simp [hs]
  have hl : e.state ≠ .lost := by rcases hs with hs | hs <;> simp [hs]
  exact .inHanding rfl (hF.origin_none ha) (hF.arrivalTimer_none ha) (hF.tag_none ha hl) (hF.rescueTimer_none hl) rfl
    (hF.yieldOwed_none hl) (by simp)

theorem kept_handleClaim (h : s.Kept b f) (cfg : Settings) (n : Node) (c : ClaimBody) :
    (s.handleClaim cfg n c).Kept b f := by
  unfold handleClaim
  split
  · exact kept_onTqu h _
  · next e he =>
    have hat := accepted_of_answerClaim h.lawful he
    exact kept_onTqu (kept_updateEntry h _ (ServeEntry.accept n c) (fun _ => ⟨rfl, rfl, rfl⟩) (fun _ he => he.same rfl)
      fun _ x hx hk hF => ServeEntry.Fields.accept hF (hat x hx hk) n c) _

theorem kept_rivalAtSurvey (h : s.Kept b f) (cfg : Settings) (e : SurveyEntry) : (s.rivalAtSurvey cfg e).Kept b f := by
  unfold rivalAtSurvey
  exact kept_updateSurvey (kept_ite (fun _ => kept_withdrawSeek h _) fun _ => h) _ _ (fun _ => ⟨rfl, rfl⟩)
    fun _ he => ⟨he.q, he.r, he.dwell, he.pacing⟩

/-- After a withdrawal the LOST entry has no reclaim outstanding. -/
theorem lost_withdrawReclaim (h : s.Lawful) {k : Nat} {e : ServeEntry} (he : s.entryAt k = some e) (hl : e.state = .lost) :
    (s.withdrawReclaim k).AtSlot k fun e => e.state = .lost ∧ e.tag = none := by
  unfold withdrawReclaim
  rw [he]
  dsimp only
  split
  · exact atSlot_updateEntry (P := fun e => e.state = .lost) (atSlot_of_entryAt h he hl) _ fun _ hx => ⟨hx, rfl⟩
  · next ht => exact atSlot_of_entryAt h he ⟨hl, ht⟩

theorem kept_handleSeekClaim (h : s.Kept b f) (cfg : Settings) (n : Node) (c : ClaimBody) :
    (s.handleSeekClaim cfg n c).Kept b f := by
  unfold handleSeekClaim
  split
  · next e he =>
    have hat := entryAt_of_entryFor h.lawful he
    have served (ha : e.state ≠ .arriving) (hl : e.state ≠ .lost) :
        ((s.enterLost cfg e.slot).oweYield cfg e.slot n c.tag).Kept b f := by
      refine kept_oweYield (kept_enterLost h cfg _ fun _ => atSlot_of_entryAt h.lawful hat ha) cfg _ n _ fun hf => ?_
      have ht := (h.entries hf e (mem_of_entryAt hat).1).tag_none ha hl
      unfold enterLost
      rw [hat]
      exact atSlot_updateEntry (P := fun e => e.tag = none) (atSlot_of_entryAt h.lawful hat ht) _ fun _ hx => ⟨rfl, hx⟩
    split
    · next hst => exact served (by simp [hst]) (by simp [hst])
    · next hst => exact served (by simp [hst]) (by simp [hst])
    · next hst =>
      exact kept_ite (fun _ => h) fun _ =>
        kept_oweYield (kept_withdrawReclaim h _ fun _ => atSlot_of_entryAt h.lawful hat hst) cfg _ n _ fun _ =>
          lost_withdrawReclaim h.lawful hat hst
    all_goals exact h
  · split
    · exact kept_rivalAtSurvey h _ _
    · exact h

theorem kept_raiseCount (h : s.Kept b f) (k n : Nat) : (s.updateEntry k (ServeEntry.raiseCount n)).Kept b f :=
  kept_updateEntry h k _ (fun _ => ⟨rfl, rfl, rfl⟩) (fun _ he => he.same rfl) fun _ _ _ _ hF => hF.same rfl

/-- The entry a won seek inserts is ARRIVING; it is the one at the claim's slot. -/
theorem arriving_winSeek (h : s.Lawful) (cfg : Settings) {e : SurveyEntry} {r : ClaimRecord} (he : e ∈ s.re.survey)
    (hc : e.claim = some r) {x : ServeEntry} (hx : (s.winSeek cfg e r).entryAt r.slot = some x) : x.state = .arriving := by
  have hl := lawful_winSeek h cfg he hc
  have hre : (s.winSeek cfg e r).re = (s.enterServe e r
      { origin := .seek, listen := (seekContext cfg e.headset r).1, talk := (seekContext cfg e.headset r).2, count := 0
        timer := cfg.seekWait, previous := none, expected := none }).re := rfl
  rw [enterServe_eq] at hre
  have hmem := (insertBySlot_perm (arrivingEntry e r
    { origin := .seek, listen := (seekContext cfg e.headset r).1, talk := (seekContext cfg e.headset r).2, count := 0
      timer := cfg.seekWait, previous := none, expected := none }
    (s.vp.fit r.groups (seekContext cfg e.headset r).1).kept) s.re.serve).mem_iff.mpr List.mem_cons_self
  have := eq_of_entryAt hl hx (x := arrivingEntry e r _ _) (by rw [hre]; exact hmem) rfl
  rw [← this]
  rfl

theorem kept_yieldAtEntry (h : s.Kept b f) {e : ServeEntry} (he : s.entryAt e.slot = some e) (n : Node) (c : Context) :
    (s.yieldAtEntry e n c).Kept b f := by
  unfold yieldAtEntry
  split
  · next ha _ => exact kept_replaceContext h he (fun _ => ha) _ _
  · exact kept_raiseCount h _ _
  · exact kept_raiseCount h _ _
  · exact kept_count h _

theorem kept_handleYield (h : s.Kept b f) (cfg : Settings) (n : Node) (c : Context) : (s.handleYield cfg n c).Kept b f := by
  unfold handleYield
  split
  · next e r hr =>
    obtain ⟨hm, -, hc, -⟩ := mem_of_claimOf hr
    split
    · exact kept_enterServe h hm hc _
    · have g := kept_winSeek h cfg hm hc
      cases hx : (s.winSeek cfg e r).entryAt r.slot with
      | some x => exact kept_replaceContext g hx (fun _ => arriving_winSeek h.lawful cfg hm hc hx) _ _
      | none =>
        unfold replaceContext
        rw [hx]
        exact g
  · split
    · next e he =>
      exact kept_yieldAtEntry h (entryAt_of_entryFor h.lawful (Option.filter_eq_some_iff.mp he).1) _ _
    · exact kept_count h _

theorem kept_handleDecline (h : s.Kept b f) (x : Headset) (tag : Tag) (r : Reason) : (s.handleDecline x tag r).Kept b f := by
  unfold handleDecline
  split
  · split
    · have g := kept_count (kept_failClaim h x) .declinesReceived
      exact kept_ite (fun _ => kept_forget g _) fun _ => g
    · exact kept_count h _
  · exact kept_count h _

theorem kept_handleNaming (h : s.Kept b f) (cfg : Settings) (n : Node) (x : Naming) : (s.handleNaming cfg n x).Kept b f := by
  unfold handleNaming
  split
  · split
    · exact kept_resolveDuplicate h _ _ _ _
    · exact kept_resolveDuplicate h _ _ _ _
    · exact kept_resolveDuplicate h _ _ _ _
    all_goals exact h
  · refine kept_updateSurvey h _ _ (fun e => ?_) fun e he => ?_
    all_goals unfold SurveyEntry.learnNaming; split
    · exact ⟨rfl, rfl⟩
    · exact ⟨rfl, rfl⟩
    · exact he
    · exact ⟨he.q, he.r, he.dwell, le_trans (Nat.sub_le _ _) he.pacing⟩

theorem kept_evict (h : s.Kept b f) (x : Headset) : (s.evict x).Kept b f := by
  unfold evict
  split
  · exact kept_onMlc h _
  · split
    · exact kept_onMlc (kept_notify (kept_releaseEntry h _) _) _
    · exact kept_onMlc (kept_notify (kept_releaseEntry h _) _) _
    · exact kept_onMlc (kept_notify (kept_releaseEntry h _) _) _
    all_goals exact kept_onMlc h _

theorem kept_groupFrame (h : s.Kept b f) (g : Group) (q : Byte) (x : List Sample) : (s.groupFrame g q x).Kept b f := by
  unfold groupFrame
  refine kept_ite (fun _ => h) fun _ => ?_
  split
  · exact kept_count h _
  · have hg : ∀ e : StoredGroup, (if e.group = g then e.take q x else e).group = e.group := fun e => by split <;> rfl
    have hr : ∀ e : StoredGroup, (if e.group = g then e.take q x else e).refs = e.refs := fun e => by split <;> rfl
    have taken := kept_onVp h (fun v => { v with store := v.store.map fun e => if e.group = g then e.take q x else e })
      (fun hv => Vp.sound_map hv _ hg hr) fun i => Vp.refs_map (v := s.vp) _ hg hr i
    exact kept_ite (fun _ => h) fun _ => kept_ite (fun _ => kept_count taken _) fun _ => taken

/-! ## Every move -/

theorem kept_settleEnds (h : s.Kept b f) (k : Nat) :
    (s.updateEntry k fun e => if e.settle ≤ 1 then { e with settle := 0 } else e).Kept b f := by
  refine kept_updateEntry h k _ (fun e => ?_) (fun e he => ?_) fun _ e _ _ hF => ?_
  all_goals split
  · exact ⟨rfl, rfl, rfl⟩
  · exact ⟨rfl, rfl, rfl⟩
  · exact he.same rfl
  · exact he
  · exact hF.same rfl
  · exact hF

theorem kept_knowledgeEnds (h : s.Kept b f) (cfg : Settings) (x : Headset) :
    (s.updateSurvey x fun e => if e.knowledgeEnds cfg then e.forget else e).Kept b f := by
  refine kept_updateSurvey h x _ (fun e => ?_) fun e he => ?_
  all_goals split
  · exact ⟨rfl, rfl⟩
  · exact ⟨rfl, rfl⟩
  · exact sound_forget e he
  · exact he

theorem kept_holdOffEnds (h : s.Kept b f) (x : Headset) :
    (s.updateSurvey x fun e => if e.holdOff ≤ 1 then { e with holdOff := 0 } else e).Kept b f := by
  refine kept_updateSurvey h x _ (fun e => ?_) fun e he => ?_
  all_goals split
  · exact ⟨rfl, rfl⟩
  · exact ⟨rfl, rfl⟩
  · exact ⟨he.q, he.r, he.dwell, he.pacing⟩
  · exact he

theorem kept_rescueEnds (h : s.Kept b f) {k : Nat} {e : ServeEntry} (he : s.entryAt k = some e) (hl : e.state = .lost) :
    (s.updateEntry k fun e => { e with rescueTimer := some 0 }).Kept b f :=
  kept_updateEntry h k _ (fun _ => ⟨rfl, rfl, rfl⟩) (fun _ hx => hx.same rfl) fun _ x hx hk hF => by
    have hx := eq_of_entryAt h.lawful he hx hk
    subst hx
    exact .inLost hl (hF.origin_none (by simp [hl])) (hF.arrivalTimer_none (by simp [hl])) rfl
      (hF.handing_none (by simp [hl])) fun hy => (hF.yieldOwed hy).2

theorem claim_none_of_agesOut (h : s.Lawful) {cfg : Settings} {x : Headset}
    (ha : (s.surveyFor x).any (SurveyEntry.agesOut cfg) = true) : ∀ e ∈ s.re.survey, e.headset = x → e.claim = none := by
  obtain ⟨y, hy, hage⟩ := (Option.any_eq_true _ _).mp ha
  obtain ⟨hm, hyx⟩ := mem_of_surveyFor hy
  intro e he hex
  rw [eq_of_headset h.surveyOnce he hm (hex.trans hyx.symm)]
  exact Option.isNone_iff_eq_none.mp (Bool.and_eq_true_iff.mp hage).1

theorem acts_kept {t : State} (ha : s.Acts t) (h : s.Kept b f) : t.Kept b f := by
  cases ha with
  | mark cfg => exact kept_mark h cfg
  | expire he hd => exact kept_expire h _ _ _ fun hx => atSlot_of_entryAt h.lawful he (lossy_of_entryDue hd hx)
  | rescueEnds he hl => exact kept_rescueEnds h he hl
  | claimFails x => exact kept_failClaim h x
  | settleEnds k => exact kept_settleEnds h k
  | agesOut ha => exact kept_removeSurvey h _ (claim_none_of_agesOut h.lawful ha)
  | knowledgeEnds cfg x => exact kept_knowledgeEnds h cfg x
  | holdOffEnds x => exact kept_holdOffEnds h x
  | expireOrder cfg k => exact kept_expireOrder h cfg k
  | release k => exact kept_releaseEntry h k
  | slotReport cfg r => exact kept_slotReport h cfg r
  | surveyReport cfg r => exact kept_surveyReport h cfg r
  | seekCall cfg c => exact kept_seekCall h cfg c
  | orderResult cfg r => exact kept_orderResult h cfg r
  | tellOwner cfg d m => exact kept_tellOwner h cfg d m
  | handleTaken cfg x n c => exact kept_handleTaken h cfg x n c
  | handleClaim cfg n c => exact kept_handleClaim h cfg n c
  | handleSeekClaim cfg n c => exact kept_handleSeekClaim h cfg n c
  | handleYield cfg n c => exact kept_handleYield h cfg n c
  | handleDecline x tag r => exact kept_handleDecline h x tag r
  | namings cfg n ns => exact kept_foldl _ (fun _ x hs => kept_handleNaming hs cfg n x) ns h
  | evict x => exact kept_evict h x

theorem OffTables.kept {t : State} (g : s.OffTables t) (h : s.Kept b f) : t.Kept b f :=
  h.beside g.serve g.survey (Apc.stateOf_of_slots g.slots) g.vp

theorem Bare.kept (h : s.Bare) : s.Kept b f := by
  have hc : s.re.claimRecords = [] := by simp [Re.claimRecords, h.survey]
  have hb : s.re.books = [] := by simp [Re.books, h.serve, hc]
  refine ⟨h.lawful, fun _ => h.vp ▸ Vp.sound_cold, fun _ => by simp [hb], fun _ g => ?_, fun _ => by simp [h.serve],
    fun _ => by simp [hc]⟩
  rw [hb, h.vp]
  rfl

theorem moves_kept {t : State} (m : s.Moves t) (h : s.Kept b f) : t.Kept b f := by
  cases m with
  | off g => exact g.kept h
  | bare g => exact g.kept
  | frame g ht => subst ht; exact kept_groupFrame (g.kept h) _ _ _
  | acts g _ ha => exact acts_kept ha (g.kept h)

end
end State

/-- Settles O57: every move keeps the laws of APC and VP, and the books of the group store with them. -/
theorem slotMapAndStoreLaws : Obligations.SlotMapAndStoreLaws := by
  unfold Obligations.SlotMapAndStoreLaws
  refine ⟨fun s t ha hv hst => State.moves_sound (State.step_moves hst) ha hv, fun s t hv hre hsl href hst => ?_⟩
  have h := State.kept_of_refLaw ((State.lawful_iff s).mpr ⟨hre, hsl⟩) hv href
  exact (State.moves_kept (State.step_moves hst) h).refLaw

/-- Settles O59: every move keeps the law of the tables and slots, and the optional fields where R2 and R48 let them stand. -/
theorem tableLaws : Obligations.TableLaws := by
  unfold Obligations.TableLaws
  refine ⟨fun s t hre hsl hst => ?_, fun s t hre hsl hf hst => ?_⟩
  · exact (State.lawful_iff t).mp (State.moves_lawful (State.step_moves hst) ((State.lawful_iff s).mpr ⟨hre, hsl⟩))
  · have h := State.kept_of_fieldLaw ((State.lawful_iff s).mpr ⟨hre, hsl⟩) hf
    exact (State.moves_kept (State.step_moves hst) h).fieldLaw

end Sys2Proof.Machine
end

section
/-!
# Resets, timers and orders of single entries

The fixed values after a reset, and the rows that move one counter, timer or order of the tables. In RUN such a row is its
body (`State.InRun.next_whenRun`); what remains is the body's case for the entry that it finds.
-/

namespace Sys2Proof.Machine

/-- A rule of RUN taken in RUN is its body. -/
theorem State.InRun.next_whenRun {cfg : Settings} {s t : State} (h : s.InRun cfg) {f : Settings → State → State}
    (ht : f cfg s = t) : (Host.Outcome.next (s.whenRun f) : Host.Outcome State Fault Refusal) = .next t := by
  rw [State.whenRun_inRun h, ht]

/-- A rule of RUN whose body changes nothing. -/
theorem State.next_whenRun_idle {s : State} {f : Settings → State → State} (h : ∀ cfg, f cfg s = s) :
    (Host.Outcome.next (s.whenRun f) : Host.Outcome State Fault Refusal) = .next s := by
  unfold State.whenRun
  split
  · rw [h]
  · rfl

/-! ## Resets -/

theorem Mlc.sound_cold : Mlc.cold.Sound := ⟨rfl, Nat.zero_le _, Nat.zero_le _, rfl, fun h => by cases h⟩

theorem Tqu.sound_cold : Tqu.cold.Sound :=
  ⟨Nat.zero_le _, Nat.zero_le _, Nat.zero_le _, Nat.zero_le _, Nat.zero_le _⟩

theorem State.bare_reset : State.reset.Bare := ⟨rfl, rfl, rfl, rfl⟩

/-- A bare state meets the laws of tables, slot map and store. -/
theorem State.Bare.laws {s : State} (h : s.Bare) : s.re.Sound ∧ s.SlotLaw ∧ s.RefLaw ∧ s.FieldLaw :=
  ⟨((State.lawful_iff s).mp h.lawful).1, ((State.lawful_iff s).mp h.lawful).2,
    (h.kept (b := True) (f := True)).refLaw, (h.kept (b := True) (f := True)).fieldLaw⟩

theorem State.queueLaw_reset : State.reset.QueueLaw where
  sound := Tqu.sound_cold
  reserved _ h := by cases h
  quiet _ := ⟨rfl, rfl, rfl, rfl⟩

theorem State.safe_reset : State.reset.Safe := by
  obtain ⟨hre, hsl, href, hf⟩ := State.bare_reset.laws
  exact ⟨Mlc.sound_cold, Tlc.sound_cold 0, Apc.sound_bare rfl, Vp.sound_cold, State.queueLaw_reset, hre, hsl, href, hf,
    fun h => by cases h⟩

/-- Settles O3: the reset state is written out, and it is bare. -/
theorem resetValues : Obligations.ResetValues := by
  unfold Obligations.ResetValues
  refine ⟨?_, State.safe_reset⟩
  refine ⟨rfl, rfl, rfl, rfl, rfl, rfl, rfl, rfl, rfl, rfl, rfl, rfl, rfl, rfl, rfl, rfl, rfl, rfl, rfl, rfl, rfl, rfl, rfl,
    rfl, rfl, ?_, rfl, rfl, rfl, rfl, rfl, rfl⟩
  decide

theorem ne_standby_of {n a b : NodeState} (h : n = a ∨ n = b) (ha : a ≠ .standby) (hb : b ≠ .standby) :
    n ≠ .standby := by
  rcases h with rfl | rfl
  · exact ha
  · exact hb

/-- What a warm restart makes of a state, block by block (R181). -/
theorem State.warmRestart_eq (s : State) :
    s.warmRestart = { s.warmRestart with mlc := s.mlc.answerEvict } := rfl

/-- Settles O8: a warm restart is the emptied blocks and the entry to JOINING, in the two states that take it. -/
theorem warmRestart : Obligations.WarmRestart := by
  unfold Obligations.WarmRestart
  refine ⟨fun record s hr hn => ?_, fun record s hr hn => ?_⟩
  · refine congrArg Host.Outcome.next ?_
    rw [State.takeRecord_sound (ne_standby_of hn (by decide) (by decide)) hr]
    have hw : (match s.cfl.node with
        | .joining | .run => s.warmRestart
        | .standby | .loading | .fault => s) = s.warmRestart := by
      rcases hn with hn | hn <;> rw [hn]
    refine hw.trans ?_
    rw [State.warmRestart_eq]
    unfold Mlc.answerEvict
    cases s.mlc.evict <;> rfl
  · refine congrArg Host.Outcome.next ?_
    rw [State.takeRecord_sound (ne_standby_of hn (by decide) (by decide)) hr]
    rcases hn with hn | hn <;> rw [hn]

/-! ## Counters -/

/-- An update under a condition of the member is an update under both conditions. -/
theorem map_ite_of_iff {α : Type} (l : List α) {p q r : α → Prop} [DecidablePred p] [DecidablePred q] [DecidablePred r]
    (hr : ∀ e, r e ↔ p e ∧ q e) (f : α → α) :
    (l.map fun e => if p e then (if q e then f e else e) else e) = l.map fun e => if r e then f e else e :=
  List.map_congr_left fun e _ => by
    by_cases hp : p e
    · by_cases hq : q e
      · rw [if_pos hp, if_pos hq, if_pos ((hr e).mpr ⟨hp, hq⟩)]
      · rw [if_pos hp, if_neg hq, if_neg fun h => hq ((hr e).mp h).2]
    · rw [if_neg hp, if_neg fun h => hp ((hr e).mp h).1]

theorem State.updateEntry_of_iff (s : State) (k : Nat) {q r : ServeEntry → Prop} [DecidablePred q] [DecidablePred r]
    (hr : ∀ e, r e ↔ e.slot = k ∧ q e) (f : ServeEntry → ServeEntry) :
    (s.updateEntry k fun e => if q e then f e else e) =
      { s with re := { s.re with serve := s.re.serve.map fun e => if r e then f e else e } } :=
  congrArg (fun l => { s with re := { s.re with serve := l } }) (map_ite_of_iff s.re.serve hr f)

theorem State.updateSurvey_of_iff (s : State) (x : Headset) {q r : SurveyEntry → Prop} [DecidablePred q]
    [DecidablePred r] (hr : ∀ e, r e ↔ e.headset = x ∧ q e) (f : SurveyEntry → SurveyEntry) :
    (s.updateSurvey x fun e => if q e then f e else e) =
      { s with re := { s.re with survey := s.re.survey.map fun e => if r e then f e else e } } :=
  congrArg (fun l => { s with re := { s.re with survey := l } }) (map_ite_of_iff s.re.survey hr f)

theorem SurveyEntry.knowledgeEnds_iff (cfg : Settings) (e : SurveyEntry) :
    e.knowledgeEnds cfg = true ↔ ∃ k, e.knowledge = some k ∧ 4 * cfg.standing ≤ k.age + 1 := by
  simp [SurveyEntry.knowledgeEnds, Option.any_eq_true]

theorem State.failClaim_eq {s : State} {x : Headset} {c : ClaimRecord}
    (hc : (s.surveyFor x).bind SurveyEntry.claim = some c) :
    s.failClaim x =
      { s with
        re := { s.re with survey := s.re.survey.map fun e =>
                  if e.headset = x then { e with claim := none, dwell := 0, pacing := fullPacing } else e }
        apc := s.apc.release c.slot c.tag
        vp := s.vp.releaseAll c.groups
        tqu := s.tqu.dropClaim x c.tag } := by
  unfold State.failClaim
  rw [State.endClaim_eq hc]
  simp only [State.updateSurvey, State.onRe, List.map_map, State.mk.injEq, Re.mk.injEq, true_and, and_true]
  refine List.map_congr_left fun e _ => ?_
  by_cases hx : e.headset = x <;> simp [hx]

theorem Apc.release_reserved {a : Apc} {k : Nat} {tag : Tag} (h : (a.slot k).state = .reserved tag) :
    a.release k tag = { a with slots := a.slots.modify k fun x => { x with state := .free } } := if_pos h

/-- Settles O14: each row changes its counter alone; a claim that fails is `State.failClaim_eq`. -/
theorem countersEnd : Obligations.CountersEnd := by
  unfold Obligations.CountersEnd
  refine ⟨fun cfg s hrun => ⟨fun k => ?_, fun h => ?_, fun h => ?_, fun n hn => ?_⟩,
    fun cfg s e hrun he => ⟨fun hc ha => ?_, fun c hc => ?_, fun c n hc hk hp ht hn hr => ?_, fun c n hc ht hn => ?_⟩⟩
  · exact hrun.next_whenRun (State.updateEntry_of_iff s k (fun _ => Iff.rfl) _)
  · exact hrun.next_whenRun (State.updateSurvey_of_iff s h (fun e => by rw [SurveyEntry.knowledgeEnds_iff]) _)
  · exact hrun.next_whenRun (State.updateSurvey_of_iff s h (fun _ => Iff.rfl) _)
  · refine hrun.next_whenRun ?_
    simp [State.onRe, hn]
  · refine hrun.next_whenRun ?_
    rw [he]
    exact if_pos (by simp [SurveyEntry.agesOut, hc, ha])
  · refine hrun.next_whenRun ?_
    rw [he]
    exact if_neg (by simp [SurveyEntry.agesOut, hc])
  · refine hrun.next_whenRun ?_
    rw [he, if_pos (by simp [SurveyEntry.replyEnds, hc, hk, hp, ht, hn]),
      State.failClaim_eq (by rw [he]; exact hc), Apc.release_reserved hr]
    rfl
  · refine hrun.next_whenRun ?_
    rw [he, if_neg]
    simp only [SurveyEntry.replyEnds, hc, ht, Option.any_some, Bool.and_eq_true, decide_eq_true_eq]
    omega

/-! ## Releases -/

theorem Apc.close_assigned {a : Apc} {k : Nat} {h : Headset} (hk : (a.slot k).state = .assigned h) :
    a.close k = { a with slots := a.slots.modify k fun _ => { state := .free, order := none }
                         out := a.out ++ [(AirOrder.slotClose k).bytes] } :=
  if_pos (by rw [hk]; rfl)

theorem ServeEntry.drained_iff (e : ServeEntry) : e.drained = true ↔ e.state = .draining ∧ e.ring.frames = [] := by
  simp [ServeEntry.drained]

/-- Settles O15: a release is `State.releaseEntry_eq` with the slot ASSIGNED; DRAIN_EMPTY asks for a drained entry. -/
theorem releaseFreesEntry : Obligations.ReleaseFreesEntry := by
  unfold Obligations.ReleaseFreesEntry
  refine ⟨fun s e he hk => ?_, fun cfg s e hrun he => ?_⟩
  · rw [State.releaseEntry_eq he, Apc.close_assigned hk]
    rfl
  · refine hrun.next_whenRun ?_
    rw [he]
    simp only [Option.any_some, ServeEntry.drained_iff]

/-! ## Expiries of serve entries -/

namespace State

section
variable {cfg : Settings} {s : State} {e : ServeEntry}

/-- The expiry row of an entry that is due for it. -/
theorem next_expireIfDue (h : s.InRun cfg) (he : s.entryAt e.slot = some e) {x : Expiry}
    (hd : s.entryDue cfg e = some x) :
    (Host.Outcome.next (s.expireIfDue e.slot x) : Host.Outcome State Fault Refusal) = .next (s.expire cfg e.slot x) :=
  h.next_whenRun (by rw [he]; exact if_pos hd)

/-- The expiry row of an entry that is not due for it. -/
theorem next_expireIfDue_not (h : s.InRun cfg) (he : s.entryAt e.slot = some e) {x : Expiry}
    (hd : s.entryDue cfg e ≠ some x) :
    (Host.Outcome.next (s.expireIfDue e.slot x) : Host.Outcome State Fault Refusal) = .next s :=
  h.next_whenRun (by rw [he]; exact if_neg hd)

theorem entryDue_arriving (hs : e.state = .arriving) :
    s.entryDue cfg e = if e.arrivalTimer.any (· ≤ 1) then some .arrival else none := by
  unfold entryDue; rw [hs]

theorem entryDue_handing (hs : e.state = .handing) :
    s.entryDue cfg e =
      if e.handing.any (fun h => h.phase == .moveSent && h.timer.any (· ≤ 1)) then some .handing else none := by
  unfold entryDue; rw [hs]

theorem entryDue_lost (hs : e.state = .lost) :
    s.entryDue cfg e = if e.rescueTimer.any (· ≤ 1) && !s.rescueWaits e then some .rescue else none := by
  unfold entryDue; rw [hs]

theorem entryDue_serving (hs : e.state = .served ∨ e.state = .offered) :
    s.entryDue cfg e = if !e.heard && decide (cfg.cutLink ≤ min 255 (e.lossRun + 1)) then some .cutLink else none := by
  unfold entryDue; rcases hs with hs | hs <;> rw [hs]

theorem entryDue_draining (hs : e.state = .draining) : s.entryDue cfg e = none := by
  unfold entryDue; rw [hs]

/-- An arrival timer ends in ARRIVING alone. -/
theorem arriving_of_entryDue (hd : s.entryDue cfg e = some .arrival) :
    e.state = .arriving ∧ e.arrivalTimer.any (· ≤ 1) := by
  cases hs : e.state with
  | arriving =>
    rw [entryDue_arriving hs] at hd
    exact ⟨rfl, by by_contra h; rw [if_neg h] at hd; cases hd⟩
  | served => rw [entryDue_serving (.inl hs)] at hd; split at hd <;> cases hd
  | offered => rw [entryDue_serving (.inr hs)] at hd; split at hd <;> cases hd
  | handing => rw [entryDue_handing hs] at hd; split at hd <;> cases hd
  | lost => rw [entryDue_lost hs] at hd; split at hd <;> cases hd
  | draining => rw [entryDue_draining hs] at hd; cases hd

theorem departEntry_eq {k : Nat} (he : s.entryAt k = some e) :
    s.departEntry k = ((s.releaseEntry k).notify (.departed e.headset)).count .departures := by
  unfold departEntry; rw [he]

theorem enterLost_eq {k : Nat} (he : s.entryAt k = some e) (cfg : Settings) :
    s.enterLost cfg k = (s.updateEntry k (ServeEntry.toLost cfg)).notify (.lost e.headset) := by
  unfold enterLost; rw [he]

theorem expireArrival_reclaim (he : s.entryAt e.slot = some e) (ho : e.origin = some .reclaim) :
    s.expireArrival e.slot = s.departEntry e.slot := by
  unfold expireArrival; rw [he]; exact if_pos ho

theorem expireArrival_other (he : s.entryAt e.slot = some e) (ho : e.origin ≠ some .reclaim) :
    s.expireArrival e.slot =
      (s.releaseEntry e.slot).enterSurvey { SurveyEntry.fresh e.headset e.q with pacing := fullPacing } := by
  unfold expireArrival; rw [he]; exact if_neg ho

end
end State

/-- Settles O16: each expiry row is `State.expire` of the entry where it is due, and nothing where it is not. -/
theorem entriesTimeOut : Obligations.EntriesTimeOut := by
  unfold Obligations.EntriesTimeOut
  refine ⟨fun cfg s e n hrun he hn => ⟨fun hs h1 ho => ?_, fun hs h1 ho => ?_, fun hnot => ?_⟩,
    fun cfg s e hrun he => ⟨fun h n hs hh hp ht h1 => ?_, fun hs hh hc => ?_, fun hs hh => ?_, fun hs ht hr => ?_,
      fun tag n hs ht hr h1 => ?_⟩⟩
  · refine (State.next_expireIfDue hrun he ?_).trans (congrArg _ ?_)
    · rw [State.entryDue_arriving hs, hn]
      exact if_pos (by simpa using h1)
    · exact (State.expireArrival_reclaim he ho).trans (State.departEntry_eq he)
  · refine (State.next_expireIfDue hrun he ?_).trans (congrArg _ ?_)
    · rw [State.entryDue_arriving hs, hn]
      exact if_pos (by simpa using h1)
    · exact State.expireArrival_other he ho
  · refine State.next_expireIfDue_not hrun he fun hd => ?_
    obtain ⟨hs, ht⟩ := State.arriving_of_entryDue hd
    rw [hn] at ht
    rcases hnot with h1 | hne
    · have : n ≤ 1 := by simpa using ht
      omega
    · exact hne hs
  · refine (State.next_expireIfDue hrun he ?_).trans (congrArg _ (State.enterLost_eq he cfg))
    rw [State.entryDue_handing hs, hh]
    exact if_pos (by simp [hp, ht, h1])
  · refine (State.next_expireIfDue hrun he ?_).trans (congrArg _ (State.enterLost_eq he cfg))
    rw [State.entryDue_serving hs]
    exact if_pos (by simpa [hh] using hc)
  · refine State.next_expireIfDue_not hrun he fun hd => ?_
    rw [State.entryDue_serving hs, if_neg (by simp [hh])] at hd
    cases hd
  · refine hrun.next_whenRun ?_
    have hd : s.entryDue cfg e = some .rescue := by
      rw [State.entryDue_lost hs, hr]
      exact if_pos (by simp [State.rescueWaits, ht, hr])
    rw [he]
    exact (if_pos hd).trans (State.departEntry_eq he)
  · refine hrun.next_whenRun ?_
    have hd : s.entryDue cfg e ≠ some .rescue := by
      rw [State.entryDue_lost hs, if_neg (by simp [State.rescueWaits, ht])]
      exact fun h => by cases h
    rw [he]
    exact (if_neg hd).trans (if_pos ⟨hs, by simpa [hr] using h1⟩)

/-! ## Orders -/

namespace State

section
variable {cfg : Settings} {s : State} {k : Nat} {o : PendingOrder}

theorem orderResult_some (ho : (s.apc.slot k).order = some o) (a : Bool) :
    s.orderResult cfg ⟨k, a⟩ = (s.onApc (Apc.endOrder k)).takeResult cfg k o.kind a := by
  unfold orderResult; rw [ho]

theorem orderResult_none (ho : (s.apc.slot k).order = none) (a : Bool) : s.orderResult cfg ⟨k, a⟩ = s := by
  unfold orderResult; rw [ho]

theorem expireOrder_due (ho : (s.apc.slot k).order = some o) (hd : 4 ≤ o.age + 1) :
    s.expireOrder cfg k = (s.onApc (Apc.endOrder k)).takeResult cfg k o.kind false := by
  unfold expireOrder; rw [ho]; exact if_pos (decide_eq_true hd)

theorem expireOrder_young (ho : (s.apc.slot k).order = some o) (hd : o.age + 1 < 4) : s.expireOrder cfg k = s := by
  unfold expireOrder
  rw [ho]
  refine if_neg fun h => ?_
  have : 4 ≤ o.age + 1 := of_decide_eq_true h
  omega

theorem expireOrder_none (ho : (s.apc.slot k).order = none) : s.expireOrder cfg k = s := by
  unfold expireOrder; rw [ho]

theorem next_orderResult (h : s.InRun cfg) {record : List Byte} {a : Bool} (hr : readOrderResult record = some ⟨k, a⟩) :
    exec (.orderResult record) s = .next (s.orderResult cfg ⟨k, a⟩) := h.next_whenRun (by rw [hr])

/-- The two ways an order ends unacknowledged (R106). -/
theorem next_unacknowledged (h : s.InRun cfg) {c : Instr} (ho : (s.apc.slot k).order = some o)
    (hc : (∃ record, c = .orderResult record ∧ readOrderResult record = some ⟨k, false⟩) ∨
      (c = .orderExpiry k ∧ 4 ≤ o.age + 1)) :
    exec c s = .next ((s.onApc (Apc.endOrder k)).takeResult cfg k o.kind false) := by
  rcases hc with ⟨record, rfl, hr⟩ | ⟨rfl, hd⟩
  · rw [next_orderResult h hr, orderResult_some ho]
  · exact h.next_whenRun (expireOrder_due ho hd)

variable {e : ServeEntry}

theorem revert_eq {h : HandingRecord} (he : s.entryAt k = some e) (hh : e.handing = some h) :
    s.revert cfg k = (s.updateEntry k (ServeEntry.fromHanding cfg)).notify (.reverted e.headset h.claimant) := by
  unfold revert
  rw [he]
  dsimp only
  rw [hh]

theorem takeResult_move {h : HandingRecord} (he : s.entryAt k = some e) (hs : e.state = .handing)
    (hh : e.handing = some h) (hp : h.phase = .moveSent) : s.takeResult cfg k .move false = s.revert cfg k := by
  unfold takeResult
  rw [he]
  simp [hs, hh, hp]

theorem takeResult_answer (he : s.entryAt k = some e) (hs : e.state = .arriving) :
    s.takeResult cfg k .answer false = s.askAnswer cfg e.headset k := by
  unfold takeResult
  rw [he]
  simp [hs]

theorem takeResult_other (he : s.entryAt k = some e) (hh : e.state ≠ .handing) (ha : e.state ≠ .arriving)
    (kind : OrderKind) : s.takeResult cfg k kind false = s := by
  unfold takeResult
  rw [he]
  cases kind <;> cases hs : e.state <;> simp_all

end
end State

theorem Apc.slot_modify_self {a : Apc} {k : Nat} (f : AirSlot → AirSlot) (hk : k < a.slots.length) :
    Apc.slot { a with slots := a.slots.modify k f } k = f (a.slot k) := by
  simp [Apc.slot, List.getElem?_eq_getElem hk]

/-- A slot that is ASSIGNED is one of the map. -/
theorem Apc.lt_of_assigned {a : Apc} {k : Nat} {h : Headset} (hk : (a.slot k).state = .assigned h) : k < a.slots.length := by
  by_contra hlt
  rw [Apc.slot, List.getElem?_eq_none (Nat.le_of_not_lt hlt)] at hk
  cases hk

/-- An order asked for on an ASSIGNED slot whose order has just ended. -/
theorem Apc.order_after_end {a : Apc} {k : Nat} {h : Headset} (hk : (a.slot k).state = .assigned h) (kind : OrderKind)
    (r : AirOrder) :
    (a.endOrder k).order k kind r = some { a with
      slots := a.slots.modify k fun x => { x with order := some { kind := kind, age := 0 } }
      out := a.out ++ [r.bytes] } := by
  have hs := Apc.slot_modify_self (a := a) (fun x => { x with order := none }) (Apc.lt_of_assigned hk)
  unfold Apc.order Apc.endOrder
  rw [if_pos ⟨by rw [hs]; simp [hk, SlotState.isAssigned], by rw [hs]⟩]
  simp only [Apc.send, List.modify_modify_eq]
  rfl

theorem State.askAnswer_order {s : State} {cfg : Settings} {x : Headset} {k : Nat} {a : Apc}
    (ha : s.apc.order k .answer (.seekAnswer x cfg.channel k) = some a) :
    s.askAnswer cfg x k = { s with apc := a } :=
  congrArg (fun a => { s with apc := a }) (congrArg (Option.getD · s.apc) ha)

theorem State.onApc_endOrder (s : State) (k : Nat) :
    s.onApc (Apc.endOrder k) =
      { s with apc := { s.apc with slots := s.apc.slots.modify k fun x => { x with order := none } } } := rfl

/-- Settles O17: an order's end is `State.takeResult` of the entry at its slot, by the entry's state. -/
theorem ordersEnd : Obligations.OrdersEnd := by
  unfold Obligations.OrdersEnd
  refine ⟨fun cfg s c k o hrun ho => ⟨fun record hr => ?_, fun hc => ⟨fun e h hk he hs hh hp => ?_,
    fun e hk he hs hat => ?_, fun e he hh ha => ?_⟩, fun hd => ?_⟩, fun s k ho => ⟨?_, fun record a hr => ?_⟩⟩
  · rw [State.next_orderResult hrun hr, State.orderResult_some ho]
    rfl
  · have he' : (s.onApc (Apc.endOrder k)).entryAt k = some e := he
    rw [State.next_unacknowledged hrun ho hc, hk, State.takeResult_move he' hs hh hp, State.revert_eq he' hh]
    rfl
  · have he' : (s.onApc (Apc.endOrder k)).entryAt k = some e := he
    rw [State.next_unacknowledged hrun ho hc, hk, State.takeResult_answer he' hs]
    refine congrArg _ ?_
    rw [State.askAnswer_order (Apc.order_after_end hat _ _)]
    rfl
  · have he' : (s.onApc (Apc.endOrder k)).entryAt k = some e := he
    rw [State.next_unacknowledged hrun ho hc, State.takeResult_other he' hh ha, State.onApc_endOrder]
  · exact hrun.next_whenRun (State.expireOrder_young ho hd)
  · exact State.next_whenRun_idle fun cfg => State.expireOrder_none ho
  · exact State.next_whenRun_idle fun cfg => by rw [hr]; exact State.orderResult_none ho a

/-! ## Slot reports that do not reach an entry -/

theorem State.next_slotReport {cfg : Settings} {s : State} {record : List Byte} {r : SlotReport} (h : s.InRun cfg)
    (hr : readSlotReport record = some r) : exec (.slotReport record) s = .next (s.slotReport cfg r) :=
  h.next_whenRun (by rw [hr])

/-- A report that APC passes on reaches the entry of its slot (R102). -/
theorem State.slotReport_at {cfg : Settings} {s : State} {r : SlotReport} {e : ServeEntry}
    (hk : (s.apc.slot r.slot).state = .assigned e.headset) (hf : r.kind.isForeign e.headset = false)
    (he : s.entryAt r.slot = some e) : s.slotReport cfg r = s.reportAtEntry cfg r e := by
  unfold State.slotReport
  rw [hk, he]
  simp [hf]

/-- Settles O19: the checks of APC in order, and the stray of a DRAINING or LOST entry. -/
theorem slotReportChecks : Obligations.SlotReportChecks := by
  unfold Obligations.SlotReportChecks
  refine fun cfg s record hrun => ⟨fun hr => ?_, fun r hr hk => ?_, fun r h h' q p hr hf hk hne => ?_,
    fun r e q p hr hf hk he hs => ?_⟩
  · exact hrun.next_whenRun (by rw [hr])
  · rw [State.next_slotReport hrun hr]
    unfold State.slotReport
    cases hst : (s.apc.slot r.slot).state with
    | free => rfl
    | reserved tag => rfl
    | assigned h => rw [hst] at hk; cases hk
  · rw [State.next_slotReport hrun hr]
    unfold State.slotReport
    rw [hk, hf]
    exact congrArg _ (if_pos (by simpa [SlotKind.isForeign] using hne))
  · rw [State.next_slotReport hrun hr, State.slotReport_at hk (by simp [hf, SlotKind.isForeign]) he]
    unfold State.reportAtEntry
    rcases hs with hs | hs <;> rw [hs, hf] <;> rfl

end Sys2Proof.Machine
end

section
/-!
# Handlings of TAKEN and of a NORMAL CLAIM, and EVICT

A handling is the effect of the oldest message on the state whose point is reached (`State.begun`). Readers of payloads that
R184 discards answer nothing.
-/

namespace Sys2Proof.Machine

/-! ## The point of a handling -/

/-- The state with the point of the oldest message's handling reached (R159). -/
def State.begun (s : State) : State := { s with tqu := { s.tqu with reached := true } }

theorem State.Handles.next_handle {cfg : Settings} {s t : State} {m : Placed} (h : s.Handles cfg m) {p : Placed → Bool}
    (hp : p m = true) {f : Settings → Placed → State → State} (ht : f cfg m s.begun = t) :
    (Host.Outcome.next (s.handle p f) : Host.Outcome State Fault Refusal) = .next t := by
  rw [State.handle_eq h p hp]
  exact congrArg _ ht

/-! ## Payloads that R184 discards -/

/-- Four bytes that name no headset (R184). -/
def NamesNone (payload : List Byte) : Prop :=
  payload.take 4 = [0, 0, 0, 0] ∨ payload.take 4 = [0xFF, 0xFF, 0xFF, 0xFF]

theorem not_isIdentity_of_namesNone {a b c d : Byte} {rest : List Byte} (h : NamesNone (a :: b :: c :: d :: rest)) :
    isIdentity (word32 a b c d) = false := by
  rcases h with h | h
  · obtain ⟨rfl, rfl, rfl, rfl⟩ : a = 0 ∧ b = 0 ∧ c = 0 ∧ d = 0 := by simpa using h
    decide
  · obtain ⟨rfl, rfl, rfl, rfl⟩ : a = 0xFF ∧ b = 0xFF ∧ c = 0xFF ∧ d = 0xFF := by simpa using h
    decide

theorem readTaken_eq_none {payload : List Byte} (h : payload.length ≠ 6 ∨ NamesNone payload) :
    readTaken payload = none := by
  unfold readTaken
  split
  · have hn : isIdentity _ = false := not_isIdentity_of_namesNone (h.resolve_left fun hl => hl rfl)
    simp [hn]
  · rfl

theorem readClaim_eq_none {payload : List Byte}
    (h : payload.length ≠ 9 ∨ (payload[5]? ≠ some 0 ∧ payload[5]? ≠ some 1) ∨ NamesNone payload) :
    readClaim payload = none := by
  unfold readClaim
  split
  · next a b c d tag kind score channel slot =>
    rcases h with hl | ⟨h0, h1⟩ | hn
    · exact absurd rfl hl
    · have h0 : kind ≠ 0 := by simpa using h0
      have h1 : kind ≠ 1 := by simpa using h1
      exact if_neg fun hc => hc.1.elim h0 h1
    · simp [not_isIdentity_of_namesNone hn]
  · rfl

theorem readYield_eq_none {payload : List Byte}
    (h : (∀ n : Byte, payload[7]? = some n → 4 < n.toNat ∨ payload.length ≠ 10 + 2 * n.toNat) ∨ NamesNone payload) :
    readYield payload = none := by
  unfold readYield
  split
  · next a b c d tag seq count n present talk items =>
    refine if_neg fun hc => ?_
    obtain ⟨hn, hi, hid⟩ := hc
    rcases h with hl | hnn
    · rcases hl n rfl with h4 | hlen
      · omega
      · simp only [List.length_cons, hi] at hlen
        omega
    · rw [not_isIdentity_of_namesNone hnn] at hid
      cases hid
  · rfl

/-! ## Updates of one member of a table -/

/-- Two updates under one condition, which the first keeps, are one. -/
theorem map_ite_map_ite {α : Type} (l : List α) {p : α → Prop} [DecidablePred p] {f : α → α} (g : α → α)
    (hf : ∀ e, p e → p (f e)) :
    ((l.map fun e => if p e then f e else e).map fun e => if p e then g e else e) =
      l.map fun e => if p e then g (f e) else e := by
  rw [List.map_map]
  refine List.map_congr_left fun e _ => ?_
  by_cases hp : p e
  · simp only [Function.comp, if_pos hp, if_pos (hf e hp)]
  · simp only [Function.comp, if_neg hp]

namespace State

section
variable {s : State}

theorem entryAt_updateEntry_self {k : Nat} {e : ServeEntry} (he : s.entryAt k = some e) (f : ServeEntry → ServeEntry)
    (hf : ∀ e, (f e).slot = e.slot) : (s.updateEntry k f).entryAt k = some (f e) := by
  rw [entryAt_updateEntry s k f hf, if_pos rfl, he]
  rfl

theorem updateEntry_updateEntry (k : Nat) {f : ServeEntry → ServeEntry} (g : ServeEntry → ServeEntry)
    (hf : ∀ e, (f e).slot = e.slot) : (s.updateEntry k f).updateEntry k g = s.updateEntry k fun e => g (f e) :=
  congrArg (fun l => { s with re := { s.re with serve := l } })
    (map_ite_map_ite s.re.serve (p := fun e => e.slot = k) g fun e he => (hf e).trans he)

theorem updateSurvey_updateSurvey (x : Headset) {f : SurveyEntry → SurveyEntry} (g : SurveyEntry → SurveyEntry)
    (hf : ∀ e, (f e).headset = e.headset) : (s.updateSurvey x f).updateSurvey x g = s.updateSurvey x fun e => g (f e) :=
  congrArg (fun l => { s with re := { s.re with survey := l } })
    (map_ite_map_ite s.re.survey (p := fun e => e.headset = x) g fun e he => (hf e).trans he)

/-- An update of the survey entry of a headset that has none. -/
theorem updateSurvey_none {x : Headset} (h : s.surveyFor x = none) (f : SurveyEntry → SurveyEntry) :
    s.updateSurvey x f = s := by
  have hl : (s.re.survey.map fun e => if e.headset = x then f e else e) = s.re.survey :=
    (List.map_congr_left fun e he => if_neg (not_mem_of_surveyFor h e he)).trans (List.map_id _)
  exact congrArg (fun l => { s with re := { s.re with survey := l } }) hl

/-- What a claim holds beside its record given back: its slot, its references and its CLAIM (R49). -/
def giveBack (x : Headset) (c : ClaimRecord) (s : State) : State :=
  { s with apc := s.apc.release c.slot c.tag, vp := s.vp.releaseAll c.groups, tqu := s.tqu.dropClaim x c.tag }

/-- With the slot RESERVED under its tag the release of APC is done (R100). -/
theorem giveBack_reserved {c : ClaimRecord} (hc : (s.apc.slot c.slot).state = .reserved c.tag) (x : Headset) :
    s.giveBack x c =
      { s with
        apc := { s.apc with slots := s.apc.slots.modify c.slot fun y => { y with state := .free } }
        vp := s.vp.releaseAll c.groups
        tqu := s.tqu.dropClaim x c.tag } := by
  unfold giveBack
  rw [Apc.release_reserved hc]

theorem giveBack_updateSurvey (x y : Headset) (c : ClaimRecord) (f : SurveyEntry → SurveyEntry) :
    (s.updateSurvey y f).giveBack x c = (s.giveBack x c).updateSurvey y f := rfl

/-- The end of a claim, as the update of its entry and of the other blocks. -/
theorem endClaim_eq_updateSurvey {x : Headset} {c : ClaimRecord} (hc : (s.surveyFor x).bind SurveyEntry.claim = some c) :
    s.endClaim x = (s.giveBack x c).updateSurvey x fun e => { e with claim := none, dwell := 0 } := by
  unfold endClaim
  rw [hc]
  rfl

/-! ## TAKEN -/

theorem claim_updateSurvey {x : Headset} {e : SurveyEntry} {f : SurveyEntry → SurveyEntry} (he : s.surveyFor x = some e)
    (hf : ∀ e, (f e).headset = e.headset ∧ (f e).claim = e.claim) :
    ((s.updateSurvey x f).surveyFor x).bind SurveyEntry.claim = e.claim := by
  rw [surveyFor_updateSurvey s x f fun e => (hf e).1, if_pos rfl, he]
  exact (hf e).2

/-- A TAKEN at no entry at all. -/
theorem takenAtSurvey_unknown {x : Headset} (he : s.surveyFor x = none) (n : Node) (c : Nat) :
    s.takenAtSurvey x n c = s := by
  unfold takenAtSurvey
  simp only [updateSurvey_none he, he, Option.bind_none]

/-- A TAKEN at a survey entry without a claim (R46). -/
theorem takenAtSurvey_plain {x : Headset} {e : SurveyEntry} (he : s.surveyFor x = some e) (hc : e.claim = none) (n : Node)
    (c : Nat) : s.takenAtSurvey x n c = s.updateSurvey x (SurveyEntry.learnTaken n c) := by
  unfold takenAtSurvey
  simp only [(claim_updateSurvey (f := SurveyEntry.learnTaken n c) he fun _ => ⟨rfl, rfl⟩).trans hc]

/-- A TAKEN at a survey entry with a claim: it fails, or is withdrawn as a SEEK claim (R46, R71, R86). -/
theorem takenAtSurvey_claim {x : Headset} {e : SurveyEntry} {r : ClaimRecord} (he : s.surveyFor x = some e)
    (hc : e.claim = some r) (n : Node) (c : Nat) :
    s.takenAtSurvey x n c =
      let t := (s.giveBack x r).updateSurvey x fun e =>
        { e.learnTaken n c with claim := none, pacing := if r.kind = .normal then 31 else e.pacing }
      if r.kind = .normal then t else t.count .seekLosses := by
  have hb : ((s.updateSurvey x (SurveyEntry.learnTaken n c)).surveyFor x).bind SurveyEntry.claim = some r :=
    (claim_updateSurvey (f := SurveyEntry.learnTaken n c) he fun _ => ⟨rfl, rfl⟩).trans hc
  have hend := endClaim_eq_updateSurvey hb
  rw [giveBack_updateSurvey, updateSurvey_updateSurvey (f := SurveyEntry.learnTaken n c) x _ fun _ => rfl] at hend
  unfold takenAtSurvey
  simp only [hb]
  cases hk : r.kind with
  | normal =>
    simp only [failClaim, hend, if_true]
    exact updateSurvey_updateSurvey x _ fun _ => rfl
  | seek => exact congrArg (State.count .seekLosses) hend

section
variable {cfg : Settings} {x : Headset} {e : ServeEntry}

theorem handleTaken_none (he : s.entryFor x = none) (n : Node) (c : Nat) :
    s.handleTaken cfg x n c = s.takenAtSurvey x n c := by
  unfold handleTaken
  rw [he]

theorem handleTaken_arriving (he : s.entryFor x = some e) (hs : e.state = .arriving) (n : Node) (c : Nat) :
    s.handleTaken cfg x n c = s.releaseEntry e.slot := by
  unfold handleTaken
  simp only [he, hs]

theorem handleTaken_draining (he : s.entryFor x = some e) (hs : e.state = .draining) (n : Node) (c : Nat) :
    s.handleTaken cfg x n c = s := by
  unfold handleTaken
  simp only [he, hs]

theorem handleTaken_handing (he : s.entryFor x = some e) (hs : e.state = .handing) (n : Node) (c : Nat) :
    s.handleTaken cfg x n c = s.takenAtHanding e n c := by
  unfold handleTaken
  simp only [he, hs]

theorem handleTaken_held (he : s.entryFor x = some e) (hs : e.state = .served ∨ e.state = .offered ∨ e.state = .lost)
    (n : Node) (c : Nat) :
    s.handleTaken cfg x n c =
      if e.count < c ∨ (c = e.count ∧ n.toNat < cfg.node.toNat) then
        ((s.releaseEntry e.slot).count .duplicatesResolved).notify (.left x n)
      else s := by
  unfold handleTaken resolveDuplicate
  rcases hs with hs | hs | hs <;> simp only [he, hs]

end

theorem next_takenHandling {cfg : Settings} {p : Placed} (h : s.Handles cfg p) (hk : p.kind = 1) {x : Headset} {n : Nat}
    {v : Option Node} (hr : readTaken p.payload = some (x, n, v)) {t : State}
    (ht : s.begun.handleTaken cfg x p.sender n = t) : exec .takenHandling s = .next t :=
  h.next_handle (by simp [hk]) (by rw [hr]; exact ht)

end
end State

/-- Settles O43: where the TAKEN finds the headset decides, by the lemmas about `State.handleTaken`. -/
theorem takenHandled : Obligations.TakenHandled := by
  unfold Obligations.TakenHandled
  refine ⟨fun cfg s p h hk hbad => ?_, fun cfg s p x n v h hk hr => ⟨fun he hx => ?_, fun e he hx hc => ?_,
    fun e r he hx hc hat => ?_, fun e he hat => ⟨fun hs => ?_, fun hs => ?_, fun hs => ?_, fun r hs hh => ⟨fun hw => ?_,
      fun hne hle => ?_⟩⟩⟩⟩
  · exact h.next_handle (by simp [hk]) (by rw [readTaken_eq_none hbad]; rfl)
  · exact State.next_takenHandling h hk hr ((State.handleTaken_none (s := s.begun) he _ _).trans
      (State.takenAtSurvey_unknown (s := s.begun) hx _ _))
  · exact State.next_takenHandling h hk hr ((State.handleTaken_none (s := s.begun) he _ _).trans
      (State.takenAtSurvey_plain (s := s.begun) hx hc _ _))
  · refine State.next_takenHandling h hk hr ((State.handleTaken_none (s := s.begun) he _ _).trans ?_)
    rw [State.takenAtSurvey_claim (s := s.begun) hx hc, State.giveBack_reserved (s := s.begun) hat]
    cases hkind : r.kind <;> rfl
  · exact State.next_takenHandling h hk hr (State.handleTaken_arriving (s := s.begun) he hs _ _)
  · exact State.next_takenHandling h hk hr (State.handleTaken_draining (s := s.begun) he hs _ _)
  · exact State.next_takenHandling h hk hr (State.handleTaken_held (s := s.begun) he hs _ _)
  · refine State.next_takenHandling h hk hr ((State.handleTaken_handing (s := s.begun) he hs _ _).trans ?_)
    obtain ⟨-, rfl⟩ := State.mem_of_entryFor he
    exact if_pos (by simpa [hh] using hw)
  · refine State.next_takenHandling h hk hr ((State.handleTaken_handing (s := s.begun) he hs _ _).trans ?_)
    exact if_neg (by simp [hh, hne, hle])

/-! ## NORMAL CLAIM -/

theorem Placed.isSeek_iff {p : Placed} (hk : p.kind = 3) : p.isSeek = true ↔ p.payload[5]? = some 1 := by
  simp [Placed.isSeek, hk]

theorem Placed.isNormal_of {p : Placed} (hk : p.kind = 3) (h1 : p.payload[5]? ≠ some 1) :
    (p.kind == 3 && !p.isSeek) = true := by
  rw [Bool.eq_false_iff.mpr fun h => h1 ((Placed.isSeek_iff hk).mp h), hk]
  rfl

namespace State

section
variable {cfg : Settings} {s : State} {n : Node} {c : ClaimBody} {e : ServeEntry}

/-- A claim from a neighbour that names a channel and a slot there are (R62). -/
def ClaimInRange (cfg : Settings) (n : Node) (c : ClaimBody) : Prop :=
  (∃ i ∈ cfg.neighbours, i.node = n) ∧ c.channel ≤ 31 ∧ c.slot ≤ 23

theorem isNeighbour_iff : cfg.isNeighbour n = true ↔ ∃ i ∈ cfg.neighbours, i.node = n := by
  simp [Settings.isNeighbour, Settings.neighbour]

theorem answerClaim_outOfRange (h : ¬ClaimInRange cfg n c) : s.answerClaim cfg n c = .inl .notServed := by
  unfold answerClaim
  by_cases hn : cfg.isNeighbour n = true
  · have hr : 31 < c.channel ∨ 23 < c.slot := by
      by_contra hr
      rw [not_or, Nat.not_lt, Nat.not_lt] at hr
      exact h ⟨isNeighbour_iff.mp hn, hr⟩
    simp [hn, hr]
  · simp [hn]

/-- In range the entry decides (R62). -/
theorem ClaimInRange.checks (h : ClaimInRange cfg n c) : cfg.isNeighbour n = true ∧ ¬(31 < c.channel ∨ 23 < c.slot) := by
  obtain ⟨hn, hc, hs⟩ := h
  exact ⟨isNeighbour_iff.mpr hn, by omega⟩

theorem answerClaim_unknown (h : ClaimInRange cfg n c) (he : s.entryFor c.headset = none) :
    s.answerClaim cfg n c = .inl .notServed := by
  unfold answerClaim
  simp [h.checks, he]

theorem answerClaim_notServed (h : ClaimInRange cfg n c) (he : s.entryFor c.headset = some e)
    (hs : e.state = .arriving ∨ e.state = .draining ∨ e.state = .lost) : s.answerClaim cfg n c = .inl .notServed := by
  unfold answerClaim
  rcases hs with hs | hs | hs <;> simp [h.checks, he, hs]

theorem answerClaim_busy (h : ClaimInRange cfg n c) (he : s.entryFor c.headset = some e) (hs : e.state = .handing) :
    s.answerClaim cfg n c = .inl .busy := by
  unfold answerClaim
  simp [h.checks, he, hs]

theorem answerClaim_served (h : ClaimInRange cfg n c) (he : s.entryFor c.headset = some e)
    (hs : e.state = .served ∨ e.state = .offered) :
    s.answerClaim cfg n c =
      if 0 < e.settle then .inl .settling else if e.scoreAdmits cfg c.score then .inr e else .inl .notOffered := by
  unfold answerClaim
  rcases hs with hs | hs <;> simp only [h.checks, he, hs, Bool.not_true, if_false, Bool.false_eq_true]

theorem handleClaim_declined {r : Reason} (h : s.answerClaim cfg n c = .inl r) :
    s.handleClaim cfg n c = s.keepReply (Queued.new .handover (.decline c.headset c.tag r) n) := by
  unfold handleClaim
  rw [h]

theorem handleClaim_accepted (h : s.answerClaim cfg n c = .inr e) :
    s.handleClaim cfg n c =
      (s.updateEntry e.slot (ServeEntry.accept n c)).keepReply (Queued.new .handover (.yield (e.context c.tag)) n) := by
  unfold handleClaim
  rw [h]

end

theorem next_claimHandling {s : State} {cfg : Settings} {p : Placed} (h : s.Handles cfg p) (hk : p.kind = 3)
    (h1 : p.payload[5]? ≠ some 1) {c : ClaimBody} (hr : readClaim p.payload = some c) {t : State}
    (ht : (if p.destination = cfg.node then s.begun.handleClaim cfg p.sender c else s.begun) = t) :
    exec .claimHandling s = .next t :=
  h.next_handle (Placed.isNormal_of hk h1) (by rw [hr]; exact ht)

end State

/-- Settles O44: the reply is what `State.answerClaim` says of the checks of R62 in order. -/
theorem claimAnswered : Obligations.ClaimAnswered := by
  unfold Obligations.ClaimAnswered
  refine ⟨fun cfg s p h hk h1 hbad => ?_, fun cfg s p c h hk h1 hr => ⟨fun hd => ?_, fun hd => ?_⟩⟩
  · refine h.next_handle (Placed.isNormal_of hk h1) ?_
    rw [readClaim_eq_none (hbad.imp id (Or.imp (fun h0 => ⟨h0, h1⟩) id))]
    rfl
  · exact State.next_claimHandling h hk h1 hr (if_neg hd)
  have declined {r : Reason} (ha : s.begun.answerClaim cfg p.sender c = .inl r) :
      exec .claimHandling s = .next (s.begun.keepReply (Queued.new .handover (.decline c.headset c.tag r) p.sender)) :=
    State.next_claimHandling h hk h1 hr ((if_pos hd).trans (State.handleClaim_declined ha))
  refine ⟨fun hin => declined (State.answerClaim_outOfRange hin), fun hin => ⟨fun he => ?_, fun e he => ⟨fun hs => ?_,
    fun hs => ?_, fun hs hset => ?_, fun hs hset hsc => ?_, fun hset hs => ?_⟩⟩⟩
  · exact declined (State.answerClaim_unknown (s := s.begun) hin he)
  · exact declined (State.answerClaim_notServed (s := s.begun) hin he hs)
  · exact declined (State.answerClaim_busy (s := s.begun) hin he hs)
  · exact declined ((State.answerClaim_served (s := s.begun) hin he hs).trans (if_pos hset))
  · refine declined ((State.answerClaim_served (s := s.begun) hin he (.inl hs)).trans ?_)
    rw [if_neg (by omega), if_neg]
    simp [ServeEntry.scoreAdmits, hs, hsc]
  · have hst : e.state = .served ∨ e.state = .offered := hs.elim .inr fun h => .inl h.1
    have ha : s.begun.answerClaim cfg p.sender c = .inr e := by
      rw [State.answerClaim_served (s := s.begun) hin he hst, if_neg (by omega), if_pos]
      rcases hs with hs | ⟨hs, hsc⟩
      · simp [ServeEntry.scoreAdmits, hs]
      · simp [ServeEntry.scoreAdmits, hs, hsc]
    exact State.next_claimHandling h hk h1 hr ((if_pos hd).trans (State.handleClaim_accepted ha))

/-! ## EVICT -/

namespace State

section
variable {s : State} {x : Headset} {e : ServeEntry}

theorem evict_none (he : s.entryFor x = none) : s.evict x = s.answer (.evictResult x .notServed) := by
  unfold evict
  rw [he]

theorem evict_draining (he : s.entryFor x = some e) (hs : e.state = .draining) :
    s.evict x = s.answer (.evictResult x .notServed) := by
  unfold evict
  simp only [he, hs]

theorem evict_busy (he : s.entryFor x = some e) (hs : e.state = .arriving ∨ e.state = .handing) :
    s.evict x = s.answer (.evictResult x .busy) := by
  unfold evict
  rcases hs with hs | hs <;> simp only [he, hs]

theorem evict_done (he : s.entryFor x = some e) (hs : e.state = .served ∨ e.state = .offered ∨ e.state = .lost) :
    s.evict x = ((s.releaseEntry e.slot).notify (.evicted x)).answer (.evictResult x .done) := by
  unfold evict
  rcases hs with hs | hs | hs <;> simp only [he, hs]

theorem takeEvict_taken (hf : s.mlc.slotFree = false) (body : List Byte) : s.takeEvict body = s := by
  unfold takeEvict
  rw [hf]
  rfl

theorem takeEvict_joining (hf : s.mlc.slotFree = true) (hn : s.cfl.node = .joining) (body : List Byte) :
    s.takeEvict body = s.answer (.evictResult (evictHeadset body) .notServed) := by
  unfold takeEvict
  simp only [hf, hn, if_true]

theorem takeEvict_run (hf : s.mlc.slotFree = true) (hn : s.cfl.node = .run) (body : List Byte) :
    s.takeEvict body =
      if s.tqu.reached then s.onMlc fun m => { m with evict := some (evictHeadset body) }
      else s.evict (evictHeadset body) := by
  unfold takeEvict
  simp only [hf, hn, if_true]

theorem takeEvict_silent (hn : s.cfl.node = .loading ∨ s.cfl.node = .fault) (body : List Byte) : s.takeEvict body = s := by
  unfold takeEvict
  rcases hn with hn | hn <;> simp [hn]

end
end State

theorem Mlc.slotFree_iff (m : Mlc) : m.slotFree = true ↔ m.answer = none ∧ m.evict = none := by
  simp [Mlc.slotFree]

/-- A record in STANDBY has no effect; elsewhere a sound one acts (R163, R164). -/
theorem State.takeRecord_standby {s : State} (h : s.cfl.node = .standby) {kind : Byte} {need : Nat} {record : List Byte}
    (act : List Byte → State → State) : s.takeRecord kind need record act = s := by
  unfold State.takeRecord
  rw [h]

/-- Settles O50: the decision by `State.evict`, and the EVICT's way to it by node state. -/
theorem evictAnswered : Obligations.EvictAnswered := by
  unfold Obligations.EvictAnswered
  refine ⟨fun s x => ⟨State.evict_none, fun e he =>
      ⟨State.evict_draining he, State.evict_busy he, State.evict_done he⟩⟩,
    fun s record a b c d hr => ⟨fun hno => ?_, fun ha hv => ?_⟩⟩
  · refine congrArg Host.Outcome.next ?_
    by_cases hn : s.cfl.node = .standby
    · exact State.takeRecord_standby hn _
    · rw [State.takeRecord_sound hn hr]
      rcases hno with ha | hv | hs | hl
      · exact State.takeEvict_taken (by rw [← Bool.not_eq_true, Mlc.slotFree_iff]; exact fun h => ha h.1) _
      · exact State.takeEvict_taken (by rw [← Bool.not_eq_true, Mlc.slotFree_iff]; exact fun h => hv h.2) _
      · exact absurd hs hn
      · exact State.takeEvict_silent hl _
  · have hf : s.mlc.slotFree = true := (Mlc.slotFree_iff _).mpr ⟨ha, hv⟩
    have taken (hn : s.cfl.node ≠ .standby) : exec (.evict record) s = .next (s.takeEvict [a, b, c, d]) :=
      congrArg Host.Outcome.next (State.takeRecord_sound hn hr _)
    refine ⟨fun hn => ?_, fun hn hreach => ?_, fun hn hreach => ?_⟩
    · rw [taken (by simp [hn]), State.takeEvict_joining hf hn]
      refine congrArg Host.Outcome.next ?_
      unfold State.answer Mlc.place State.onMlc
      rw [← hv]
      rfl
    · rw [taken (by simp [hn]), State.takeEvict_run hf hn, hreach]
      rfl
    · rw [taken (by simp [hn]), State.takeEvict_run hf hn, hreach]
      rfl

end Sys2Proof.Machine
end

section
/-!
# Outcomes at RE

What a delivered or undeliverable message does to its claim or entry (R15, R49, R60, R85, R87, R91, R92), by the owner that
`State.tellOwner` finds.
-/

namespace Sys2Proof.Machine

/-! ## Slots of the air port -/

theorem Apc.slot_lt_of_reserved {a : Apc} {k : Nat} {tag : Tag} (hk : (a.slot k).state = .reserved tag) :
    k < a.slots.length := by
  by_contra hlt
  rw [Apc.slot, List.getElem?_eq_none (Nat.le_of_not_lt hlt)] at hk
  cases hk

theorem Apc.assign_reserved {a : Apc} {k : Nat} {tag : Tag} (h : Headset) (hk : (a.slot k).state = .reserved tag) :
    a.assign k tag h = { a with slots := a.slots.modify k fun x => { x with state := .assigned h }
                                out := a.out ++ [(AirOrder.slotAssign k h).bytes] } := if_pos hk

theorem Apc.order_free {a : Apc} {k : Nat} {h : Headset} (hk : (a.slot k).state = .assigned h)
    (ho : (a.slot k).order = none) (kind : OrderKind) (r : AirOrder) :
    a.order k kind r = some { a with
      slots := a.slots.modify k fun x => { x with order := some { kind := kind, age := 0 } }
      out := a.out ++ [r.bytes] } := if_pos ⟨by rw [hk]; rfl, ho⟩

theorem Apc.order_pending {a : Apc} {k : Nat} (ho : (a.slot k).order ≠ none) (kind : OrderKind) (r : AirOrder) :
    a.order k kind r = none := if_neg fun h => ho h.2

/-- An order asked for on a RESERVED slot that has just been assigned (R87). -/
theorem Apc.order_after_assign {a : Apc} {k : Nat} {tag : Tag} (hk : a.slot k = { state := .reserved tag, order := none })
    (h : Headset) (kind : OrderKind) (r : AirOrder) :
    (a.assign k tag h).order k kind r = some { a with
      slots := a.slots.modify k fun _ => { state := .assigned h, order := some { kind := kind, age := 0 } }
      out := a.out ++ [(AirOrder.slotAssign k h).bytes, r.bytes] } := by
  have hres : (a.slot k).state = .reserved tag := by rw [hk]
  have hs := Apc.slot_modify_self (a := a) (fun x => { x with state := .assigned h }) (Apc.slot_lt_of_reserved hres)
  have hat : ((a.assign k tag h).slot k).state = .assigned h := by
    rw [Apc.assign_reserved h hres]
    exact congrArg AirSlot.state hs
  have hord : ((a.assign k tag h).slot k).order = none := by
    rw [Apc.assign_reserved h hres]
    exact (congrArg AirSlot.order hs).trans (by rw [hk])
  rw [Apc.order_free hat hord, Apc.assign_reserved h hres]
  simp only [List.modify_modify_eq, List.append_assoc]
  rfl

/-! ## Lookups -/

namespace State

section
variable {s : State} {cfg : Settings}

theorem claimOf_some {x : Headset} {tag : Tag} {e : SurveyEntry} {r : ClaimRecord} (he : s.surveyFor x = some e)
    (hr : e.claim = some r) (ht : r.tag = tag) : s.claimOf x tag = some (e, r) := by
  unfold claimOf
  simp [he, hr, ht]

theorem claimOf_none {x : Headset} {tag : Tag}
    (h : ∀ e r, s.surveyFor x = some e → e.claim = some r → r.tag ≠ tag) : s.claimOf x tag = none := by
  cases hc : s.claimOf x tag with
  | none => rfl
  | some q =>
    obtain ⟨e, r⟩ := q
    unfold claimOf at hc
    split at hc
    · next y hy =>
      obtain ⟨c, hf, hp⟩ := Option.map_eq_some_iff.mp hc
      obtain ⟨hyc, ht⟩ := Option.filter_eq_some_iff.mp hf
      exact absurd (by simpa using ht) (h y c hy hyc)
    · cases hc

theorem reclaimOf_some {x : Headset} {tag : Tag} {e : ServeEntry} (he : s.entryFor x = some e) (hs : e.state = .lost)
    (ht : e.tag = some tag) : s.reclaimOf x tag = some e := by
  unfold reclaimOf
  rw [he]
  simp [hs, ht]

theorem reclaimOf_none {x : Headset} {tag : Tag}
    (h : ∀ e, s.entryFor x = some e → e.state ≠ .lost ∨ e.tag ≠ some tag) : s.reclaimOf x tag = none := by
  cases hc : s.reclaimOf x tag with
  | none => rfl
  | some e =>
    obtain ⟨he, hp⟩ := Option.filter_eq_some_iff.mp hc
    have hp : e.state = .lost ∧ e.tag = some tag := by simpa using hp
    rcases h e he with hn | hn
    · exact absurd hp.1 hn
    · exact absurd hp.2 hn

/-! ## The owner of a message -/

theorem tellOwner_owed {m : Queued} {c : Context} (hb : m.body = .yield c) (hc : m.cls = .urgent) (d : Bool) :
    s.tellOwner cfg d m = s.owedOutcome cfg c m.destination := by
  unfold tellOwner
  simp only [hb, hc]

theorem tellOwner_yield {m : Queued} {c : Context} (hb : m.body = .yield c) (hc : m.cls ≠ .urgent) (d : Bool) :
    s.tellOwner cfg d m = s.yieldOutcome cfg d c m.destination := by
  unfold tellOwner
  rw [hb]
  cases h : m.cls with
  | urgent => exact absurd h hc
  | flow => rfl
  | handover => rfl
  | report => rfl

theorem tellOwner_claim {m : Queued} {c : ClaimBody} (hb : m.body = .claim c) (hk : c.kind = .normal) (d : Bool) :
    s.tellOwner cfg d m = s.claimOutcome cfg d c := by
  unfold tellOwner
  simp only [hb, hk]

theorem tellOwner_seek {m : Queued} {c : ClaimBody} (hb : m.body = .claim c) (hk : c.kind = .seek) (d : Bool) :
    s.tellOwner cfg d m = s.seekOutcome cfg d c := by
  unfold tellOwner
  simp only [hb, hk]

theorem tellOwner_other {m : Queued} (h : (∃ t, m.body = .hold t) ∨ (∃ h n p, m.body = .taken h n p) ∨
    (∃ h t r, m.body = .decline h t r) ∨ ∃ ns, m.body = .standing ns) (d : Bool) : s.tellOwner cfg d m = s := by
  unfold tellOwner
  rcases h with ⟨t, hb⟩ | ⟨h, n, p, hb⟩ | ⟨h, t, r, hb⟩ | ⟨ns, hb⟩ <;> simp only [hb]

/-! ## YIELD -/

theorem pendingYield_some {c : Context} {n : Node} {e : ServeEntry} {r : HandingRecord}
    (he : s.entryFor c.headset = some e) (hs : e.state = .handing) (hh : e.handing = some r) (hp : r.phase = .yieldPending)
    (hc : r.claimant = n) (ht : r.tag = c.tag) : s.pendingYield c n = some (e, r) := by
  unfold pendingYield
  simp [he, hs, hh, hp, hc, ht]

theorem pendingYield_none {c : Context} {n : Node}
    (h : ∀ e r, s.entryFor c.headset = some e → e.handing = some r →
      e.state ≠ .handing ∨ r.phase ≠ .yieldPending ∨ r.claimant ≠ n ∨ r.tag ≠ c.tag) :
    s.pendingYield c n = none := by
  unfold pendingYield
  split
  · next e he =>
    split
    · next r hs hh =>
      refine if_neg fun hc => ?_
      obtain ⟨hp, hn, ht⟩ := hc
      rcases h e r he hh with h | h | h | h <;> contradiction
    · rfl
  · rfl

/-- A YIELD delivered with its order taken: MOVE_SENT with the timer T_h (R15). -/
theorem sendMove_taken {e : ServeEntry} {r : HandingRecord} {a : Apc}
    (ha : s.apc.order e.slot .move (.moveOrder e.slot r.channel r.slot) = some a) :
    s.sendMove cfg e r =
      { s.updateEntry e.slot fun x =>
          { x with handing := some { r with phase := .moveSent, timer := some cfg.handingTime } } with apc := a } := by
  unfold sendMove
  dsimp only [updateEntry_apc]
  rw [ha]

/-- A YIELD delivered with its order refused: the entry reverts at once (R15, R17). -/
theorem sendMove_refused {e : ServeEntry} {r : HandingRecord} (he : s.entryAt e.slot = some e)
    (ha : s.apc.order e.slot .move (.moveOrder e.slot r.channel r.slot) = none) :
    s.sendMove cfg e r =
      (s.updateEntry e.slot (ServeEntry.fromHanding cfg)).notify (.reverted e.headset r.claimant) := by
  unfold sendMove
  dsimp only [updateEntry_apc]
  rw [ha]
  dsimp only
  have hat := entryAt_updateEntry_self he (fun x =>
    { x with handing := some { r with phase := .moveSent, timer := some cfg.handingTime } }) fun _ => rfl
  rw [revert_eq hat rfl, updateEntry_updateEntry]
  · rfl
  · exact fun _ => rfl

theorem concludeYield_eq {k : Nat} {e : ServeEntry} (he : s.entryAt k = some e) (n : Node) :
    s.concludeYield cfg k n =
      ((s.releaseEntry k).notify (.left e.headset n)).enterSurvey
        { SurveyEntry.fresh e.headset e.q with r := e.r, holdOff := cfg.seekWait } := by
  unfold concludeYield
  rw [he]

theorem owedOutcome_owed {c : Context} {n : Node} {e : ServeEntry} (he : s.entryFor c.headset = some e)
    (hs : e.state = .lost) (hy : e.yieldOwed = some { winner := n, tag := c.tag }) :
    s.owedOutcome cfg c n = s.concludeYield cfg e.slot n := by
  unfold owedOutcome
  rw [he]
  exact if_pos ⟨hs, hy⟩

theorem owedOutcome_other {c : Context} {n : Node}
    (h : ∀ e, s.entryFor c.headset = some e → e.state ≠ .lost ∨ e.yieldOwed ≠ some { winner := n, tag := c.tag }) :
    s.owedOutcome cfg c n = s := by
  unfold owedOutcome
  split
  · next e he => exact if_neg fun hc => (h e he).elim (fun hn => hn hc.1) fun hn => hn hc.2
  · rfl

/-! ## NORMAL CLAIM -/

theorem claimOutcome_queued {c : ClaimBody} {e : SurveyEntry} {r : ClaimRecord} (he : s.surveyFor c.headset = some e)
    (hr : e.claim = some r) (ht : r.tag = c.tag) (hk : r.kind = .normal) (hp : r.phase = .queued) (d : Bool) :
    s.claimOutcome cfg d c =
      if d then s.updateSurvey c.headset fun e =>
        { e with claim := some { r with phase := .sent, replyTimer := some cfg.replyTime } }
      else (s.failClaim c.headset).updateSurvey c.headset SurveyEntry.forget := by
  unfold claimOutcome
  rw [claimOf_some he hr ht]
  exact if_pos ⟨hk, hp⟩

theorem claimOutcome_other {c : ClaimBody}
    (h : ∀ e r, s.surveyFor c.headset = some e → e.claim = some r →
      r.tag ≠ c.tag ∨ r.kind ≠ .normal ∨ r.phase ≠ .queued) (d : Bool) : s.claimOutcome cfg d c = s := by
  unfold claimOutcome
  split
  · next e r hr =>
    refine if_neg fun hc => ?_
    have hs : s.surveyFor c.headset = some e ∧ e.claim = some r ∧ r.tag = c.tag := by
      unfold claimOf at hr
      split at hr
      · next y hy =>
        obtain ⟨q, hf, hq⟩ := Option.map_eq_some_iff.mp hr
        cases hq
        obtain ⟨hyc, ht⟩ := Option.filter_eq_some_iff.mp hf
        exact ⟨hy, hyc, by simpa using ht⟩
      · cases hr
    obtain ⟨he, hec, ht⟩ := hs
    rcases h e r he hec with hn | hn | hn
    · exact hn ht
    · exact hn hc.1
    · exact hn hc.2
  · rfl

/-- A claim that fails and its knowledge removed (R60, R65). -/
theorem failClaim_forget {x : Headset} {e : SurveyEntry} {r : ClaimRecord} (he : s.surveyFor x = some e)
    (hr : e.claim = some r) :
    (s.failClaim x).updateSurvey x SurveyEntry.forget =
      (s.giveBack x r).updateSurvey x fun e => { e with claim := none, dwell := 0, pacing := 31, knowledge := none } := by
  unfold failClaim
  rw [endClaim_eq_updateSurvey (by rw [he]; exact hr), updateSurvey_updateSurvey, updateSurvey_updateSurvey]
  · rfl
  · exact fun _ => rfl
  · exact fun _ => rfl

end
end State

/-- Settles O35: each kind of message by its owner, each owner by what it finds. -/
theorem outcomesAtRe : Obligations.OutcomesAtRe := by
  unfold Obligations.OutcomesAtRe
  refine fun cfg s m => ⟨fun d h => State.tellOwner_other h d, fun c e h hb hc he hat hs hh hp hcl ht =>
    ⟨fun hk ho => ?_, fun ho => ?_, ?_⟩, fun c d hb hc hno => ?_,
    fun c d hb hc => ⟨fun e he hat hs hy => ?_, fun hno => ?_⟩,
    fun c e r hb hk he hr ht hrk hp => ⟨?_, fun hat => ?_⟩, fun c d hb hk hno => ?_⟩
  · rw [State.tellOwner_yield hb hc, State.yieldOutcome, State.pendingYield_some he hs hh hp hcl ht]
    exact State.sendMove_taken (Apc.order_free hk ho _ _)
  · rw [State.tellOwner_yield hb hc, State.yieldOutcome, State.pendingYield_some he hs hh hp hcl ht]
    exact State.sendMove_refused hat (Apc.order_pending ho _ _)
  · rw [State.tellOwner_yield hb hc, State.yieldOutcome, State.pendingYield_some he hs hh hp hcl ht]
    rfl
  · rw [State.tellOwner_yield hb hc, State.yieldOutcome, State.pendingYield_none hno]
  · rw [State.tellOwner_owed hb hc, State.owedOutcome_owed he hs hy]
    exact State.concludeYield_eq hat _
  · rw [State.tellOwner_owed hb hc, State.owedOutcome_other hno]
  · rw [State.tellOwner_claim hb hk, State.claimOutcome_queued he hr ht hrk hp]
    rfl
  · rw [State.tellOwner_claim hb hk, State.claimOutcome_queued he hr ht hrk hp]
    refine (State.failClaim_forget he hr).trans ?_
    rw [State.giveBack_reserved hat]
    rfl
  · rw [State.tellOwner_claim hb hk, State.claimOutcome_other hno]

/-! ## SEEK CLAIM -/

namespace State

section
variable {s : State} {cfg : Settings}

/-- What a won SEEK claim is entered with (R6, R87). -/
def seekTerms (cfg : Settings) (x : Headset) (r : ClaimRecord) : ArrivalTerms :=
  { origin := .seek, listen := (seekContext cfg x r).1, talk := (seekContext cfg x r).2, count := 0, timer := cfg.seekWait
    previous := none, expected := none }

/-- A SEEK claim that wins, block by block (R87). -/
theorem winSeek_eq {e : SurveyEntry} {r : ClaimRecord}
    (hk : s.apc.slot r.slot = { state := .reserved r.tag, order := none }) :
    s.winSeek cfg e r =
      { s with
        re := { s.re with
          serve := insertBySlot
            (arrivingEntry e r (seekTerms cfg e.headset r) (s.vp.fit r.groups (seekTerms cfg e.headset r).listen).kept)
            s.re.serve
          survey := s.re.survey.filter fun x => x.headset != e.headset }
        apc := { s.apc with
          slots := s.apc.slots.modify r.slot fun _ =>
            { state := .assigned e.headset, order := some { kind := .answer, age := 0 } }
          out := s.apc.out ++ [(AirOrder.slotAssign r.slot e.headset).bytes,
            (AirOrder.seekAnswer e.headset cfg.channel r.slot).bytes] }
        vp := (s.vp.fit r.groups (seekTerms cfg e.headset r).listen).vp
        tqu := s.tqu.dropClaim e.headset r.tag
        mlc := (if (s.vp.fit r.groups (seekTerms cfg e.headset r).listen).dropped then s.mlc.count .groupDrops
          else s.mlc).count .seekWins } := by
  have h : s.winSeek cfg e r =
      ((s.enterServe e r (seekTerms cfg e.headset r)).askAnswer cfg e.headset r.slot).count .seekWins := rfl
  have hapc : (s.enterServe e r (seekTerms cfg e.headset r)).apc = s.apc.assign r.slot r.tag e.headset := by
    rw [enterServe_eq]
  rw [h, askAnswer_order (by rw [hapc]; exact Apc.order_after_assign hk _ _ _), enterServe_eq]
  rfl

theorem seekOutcome_other {c : ClaimBody} {e : SurveyEntry} {r : ClaimRecord} (he : s.surveyFor c.headset = some e)
    (hr : e.claim = some r) (ht : r.tag = c.tag) (hk : r.kind = .normal) (d : Bool) : s.seekOutcome cfg d c = s := by
  unfold seekOutcome
  rw [claimOf_some he hr ht]
  exact if_neg (by simp [hk])

theorem seekOutcome_claim {c : ClaimBody} {e : SurveyEntry} {r : ClaimRecord} (he : s.surveyFor c.headset = some e)
    (hr : e.claim = some r) (ht : r.tag = c.tag) (hk : r.kind = .seek) (d : Bool) :
    s.seekOutcome cfg d c =
      if !d then s.endClaim c.headset
      else if s.tqu.rivalWaits c.headset then s.withdrawSeek c.headset
      else s.winSeek cfg e r := by
  unfold seekOutcome
  rw [claimOf_some he hr ht]
  exact if_pos hk

theorem seekOutcome_reclaim {c : ClaimBody} {e : ServeEntry}
    (hno : ∀ x r, s.surveyFor c.headset = some x → x.claim = some r → r.tag ≠ c.tag)
    (he : s.entryFor c.headset = some e)
    (hs : e.state = .lost) (ht : e.tag = some c.tag) (d : Bool) :
    s.seekOutcome cfg d c =
      if !d then s.failReclaim e.slot
      else if s.tqu.rivalWaits c.headset then s.withdrawReclaim e.slot
      else s.winReclaim cfg e.slot := by
  unfold seekOutcome
  rw [claimOf_none hno]
  dsimp only
  rw [reclaimOf_some he hs ht]

theorem seekOutcome_none {c : ClaimBody}
    (hno : ∀ x r, s.surveyFor c.headset = some x → x.claim = some r → r.tag ≠ c.tag)
    (h : ∀ e, s.entryFor c.headset = some e → e.state ≠ .lost ∨ e.tag ≠ some c.tag) (d : Bool) :
    s.seekOutcome cfg d c = s := by
  unfold seekOutcome
  rw [claimOf_none hno]
  dsimp only
  rw [reclaimOf_none h]

theorem winReclaim_eq {e : ServeEntry} (he : s.entryAt e.slot = some e)
    (hk : s.apc.slot e.slot = { state := .assigned e.headset, order := none }) :
    s.winReclaim cfg e.slot =
      ({ s.updateEntry e.slot (ServeEntry.reclaimed cfg) with
        apc := { s.apc with
          slots := s.apc.slots.modify e.slot fun x => { x with order := some { kind := .answer, age := 0 } }
          out := s.apc.out ++ [(AirOrder.seekAnswer e.headset cfg.channel e.slot).bytes] } } : State).count .seekWins := by
  unfold winReclaim
  rw [he]
  dsimp only
  rw [askAnswer_order (Apc.order_free (h := e.headset) (by exact congrArg AirSlot.state hk)
    (by exact congrArg AirSlot.order hk) _ _)]
  rfl

theorem withdrawReclaim_eq {e : ServeEntry} {tag : Tag} (he : s.entryAt e.slot = some e) (ht : e.tag = some tag) :
    s.withdrawReclaim e.slot =
      ((s.onTqu (Tqu.dropClaim e.headset tag)).updateEntry e.slot ServeEntry.endReclaim).count .seekLosses := by
  unfold withdrawReclaim
  rw [he]
  dsimp only
  rw [ht]

theorem failReclaim_eq {e : ServeEntry} (he : s.entryAt e.slot = some e) :
    s.failReclaim e.slot =
      let t := s.updateEntry e.slot ServeEntry.endReclaim
      if e.rescueTimer = some 0 then ((t.releaseEntry e.slot).notify (.departed e.headset)).count .departures else t := by
  have hat := entryAt_updateEntry_self he ServeEntry.endReclaim fun _ => rfl
  unfold failReclaim
  dsimp only
  rw [hat]
  dsimp only
  rw [departEntry_eq hat]
  rfl

end

theorem seekContext_of {cfg : Settings} {x : Headset} {r : ClaimRecord} {listen : List ListenItem} {talk : Option Group}
    (h : (r.callListen = some listen ∧ talk = r.callTalk) ∨
      (r.callListen = none ∧ listen = (cfg.defaultsFor x).listen ∧
        talk = if r.callTalk = none then (cfg.defaultsFor x).talk else r.callTalk)) :
    seekContext cfg x r = (listen, talk) := by
  unfold seekContext
  rcases h with ⟨hl, rfl⟩ | ⟨hl, rfl, rfl⟩
  · rw [hl]
  · rw [hl]
    cases r.callTalk <;> rfl

end State

/-- Settles O36: a SEEK CLAIM's outcome at its claim record, else at its reclaim, else nothing. -/
theorem seekOutcomes : Obligations.SeekOutcomes := by
  unfold Obligations.SeekOutcomes
  refine fun cfg s m c hb hk => ⟨fun e r he hr ht hrk hslot => ⟨?_, fun hw => ?_, fun listen talk hw hctx => ?_⟩,
    fun e r d he hr ht hrk => ?_,
    fun hno => ⟨fun e he hat hs ht => ⟨fun hw hslot => ?_, fun hw => ?_, ?_⟩, fun d hn => ?_⟩⟩
  · have hres : (s.apc.slot r.slot).state = .reserved r.tag := by rw [hslot]
    rw [State.tellOwner_seek hb hk, State.seekOutcome_claim he hr ht hrk]
    refine (State.endClaim_eq_updateSurvey (by rw [he]; exact hr)).trans ?_
    rw [State.giveBack_reserved hres]
    rfl
  · have hres : (s.apc.slot r.slot).state = .reserved r.tag := by rw [hslot]
    rw [State.tellOwner_seek hb hk, State.seekOutcome_claim he hr ht hrk, hw]
    refine (congrArg (State.count .seekLosses) (State.endClaim_eq_updateSurvey (by rw [he]; exact hr))).trans ?_
    rw [State.giveBack_reserved hres]
    rfl
  · obtain ⟨-, hx⟩ := State.mem_of_surveyFor he
    rw [State.tellOwner_seek hb hk, State.seekOutcome_claim he hr ht hrk, hw]
    refine (State.winSeek_eq hslot).trans ?_
    have hctx := State.seekContext_of hctx
    unfold State.seekTerms
    rw [hx, hctx]
    unfold arrivingEntry
    rw [hx]
    rfl
  · rw [State.tellOwner_seek hb hk, State.seekOutcome_other he hr ht hrk]
  · rw [State.tellOwner_seek hb hk, State.seekOutcome_reclaim hno he hs ht, hw]
    exact State.winReclaim_eq hat hslot
  · rw [State.tellOwner_seek hb hk, State.seekOutcome_reclaim hno he hs ht, hw]
    exact State.withdrawReclaim_eq hat ht
  · rw [State.tellOwner_seek hb hk, State.seekOutcome_reclaim hno he hs ht]
    exact State.failReclaim_eq hat
  · rw [State.tellOwner_seek hb hk, State.seekOutcome_none hno hn]

end Sys2Proof.Machine
end

section
/-!
# Handlings of a YIELD and of a rival's SEEK CLAIM

A YIELD by what it matches (R64, R66, R87, R89, R93), a rival's claim by the state of the headset's entry (R82 to R84, R90).
-/

namespace Sys2Proof.Machine

/-! ## A new entry among entries of other slots -/

theorem find_insertBySlot {n : ServeEntry} {l : List ServeEntry} (h : ∀ x ∈ l, x.slot ≠ n.slot) :
    (insertBySlot n l).find? (fun e => e.slot = n.slot) = some n := by
  induction l with
  | nil => simp [insertBySlot]
  | cons x xs ih =>
    unfold insertBySlot
    split
    · simp
    · rw [List.find?_cons_of_neg (by simpa using h x List.mem_cons_self)]
      exact ih fun y hy => h y (List.mem_cons_of_mem _ hy)

/-- A change of the new entry alone, which keeps its slot. -/
theorem map_insertBySlot {n : ServeEntry} {l : List ServeEntry} (h : ∀ x ∈ l, x.slot ≠ n.slot)
    (f : ServeEntry → ServeEntry) (hf : (f n).slot = n.slot) :
    ((insertBySlot n l).map fun e => if e.slot = n.slot then f e else e) = insertBySlot (f n) l := by
  induction l with
  | nil => simp [insertBySlot]
  | cons x xs ih =>
    have hx : x.slot ≠ n.slot := h x List.mem_cons_self
    have hxs : (xs.map fun e => if e.slot = n.slot then f e else e) = xs :=
      (List.map_congr_left fun y hy => if_neg (h y (List.mem_cons_of_mem _ hy))).trans (List.map_id _)
    unfold insertBySlot
    rw [hf]
    split
    · rw [List.map_cons, List.map_cons, if_pos rfl, if_neg hx, hxs]
    · rw [List.map_cons, if_neg hx, ih fun y hy => h y (List.mem_cons_of_mem _ hy)]

namespace State

section
variable {s : State} {cfg : Settings}

/-! ## YIELD -/

theorem handleYield_normal {c : Context} {e : SurveyEntry} {r : ClaimRecord} (he : s.surveyFor c.headset = some e)
    (hr : e.claim = some r) (ht : r.tag = c.tag) (hk : r.kind = .normal) (n : Node) :
    s.handleYield cfg n c = s.yieldMatched cfg e r n c := by
  unfold handleYield
  simp only [claimOf_some he hr ht, hk]

theorem handleYield_seek {c : Context} {e : SurveyEntry} {r : ClaimRecord} (he : s.surveyFor c.headset = some e)
    (hr : e.claim = some r) (ht : r.tag = c.tag) (hk : r.kind = .seek) (n : Node) :
    s.handleYield cfg n c = (s.winSeek cfg e r).replaceContext r.slot n c := by
  unfold handleYield
  simp only [claimOf_some he hr ht, hk]

/-- A YIELD that no claim waits for goes to the entry with its tag, if there is one (R64). -/
theorem handleYield_entry {c : Context} {e : ServeEntry}
    (hno : ∀ x r, s.surveyFor c.headset = some x → x.claim = some r → r.tag ≠ c.tag)
    (he : s.entryFor c.headset = some e)
    (ht : e.tag = some c.tag) (n : Node) : s.handleYield cfg n c = s.yieldAtEntry e n c := by
  have hf : (s.entryFor c.headset).filter (fun e => e.tag == some c.tag) = some e :=
    Option.filter_eq_some_iff.mpr ⟨he, by simp [ht]⟩
  unfold handleYield
  rw [claimOf_none hno]
  dsimp only
  rw [hf]

theorem handleYield_late {c : Context}
    (hno : ∀ x r, s.surveyFor c.headset = some x → x.claim = some r → r.tag ≠ c.tag)
    (h : ∀ e, s.entryFor c.headset = some e → e.tag ≠ some c.tag) (n : Node) :
    s.handleYield cfg n c = s.count .lateReplies := by
  have hf : (s.entryFor c.headset).filter (fun e => e.tag == some c.tag) = none :=
    Option.filter_eq_none_iff.mpr fun e he => by simpa using h e he
  unfold handleYield
  rw [claimOf_none hno]
  dsimp only
  rw [hf]

theorem yieldAtEntry_seek {e : ServeEntry} (hs : e.state = .arriving) (ho : e.origin = some .seek) (n : Node)
    (c : Context) : s.yieldAtEntry e n c = s.replaceContext e.slot n c := by
  unfold yieldAtEntry
  simp only [hs, ho]

theorem yieldAtEntry_reclaim {e : ServeEntry} (h : (e.state = .arriving ∧ e.origin = some .reclaim) ∨ e.state = .lost)
    (n : Node) (c : Context) : s.yieldAtEntry e n c = s.updateEntry e.slot (ServeEntry.raiseCount c.count) := by
  unfold yieldAtEntry
  rcases h with ⟨hs, ho⟩ | hs
  · simp only [hs, ho]
  · simp only [hs]

theorem yieldAtEntry_late {e : ServeEntry} (hs : e.state = .arriving) (ho : e.origin = some .yield) (n : Node)
    (c : Context) : s.yieldAtEntry e n c = s.count .lateReplies := by
  unfold yieldAtEntry
  simp only [hs, ho]

/-- A won seek whose slot no other entry holds, its context then replaced by the YIELD's (R89). -/
theorem replaceContext_winSeek {e : SurveyEntry} {r : ClaimRecord}
    (hk : s.apc.slot r.slot = { state := .reserved r.tag, order := none }) (hfree : ∀ x ∈ s.re.serve, x.slot ≠ r.slot)
    (n : Node) (c : Context) :
    let won := s.vp.fit r.groups (seekTerms cfg e.headset r).listen
    let fit := won.vp.fit (won.kept.map ListenItem.group) c.listen
    let t := s.winSeek cfg e r
    t.replaceContext r.slot n c =
      { t with
        re := { t.re with
          serve := insertBySlot
            { arrivingEntry e r (seekTerms cfg e.headset r) won.kept with
              listen := fit.kept, talk := c.talk, count := c.count, origin := some .yield, previous := some n }
            s.re.serve }
        vp := fit.vp
        mlc := if fit.dropped then t.mlc.count .groupDrops else t.mlc } := by
  intro won fit t
  have ht : t = _ := winSeek_eq hk
  have hserve : t.re.serve = insertBySlot (arrivingEntry e r (seekTerms cfg e.headset r) won.kept) s.re.serve := by
    rw [ht]
  have hvp : t.vp = won.vp := by rw [ht]
  have hat : t.entryAt r.slot = some (arrivingEntry e r (seekTerms cfg e.headset r) won.kept) := by
    unfold entryAt
    rw [hserve]
    exact find_insertBySlot (n := arrivingEntry e r _ won.kept) hfree
  rw [replaceContext_eq hat, hvp, hserve]
  have hmap := map_insertBySlot (n := arrivingEntry e r (seekTerms cfg e.headset r) won.kept) hfree
    (fun x => { x with listen := fit.kept, talk := c.talk, count := c.count, origin := some .yield, previous := some n }) rfl
  exact congrArg (fun l => { t with
    re := { t.re with serve := l }
    vp := fit.vp
    mlc := if fit.dropped then t.mlc.count .groupDrops else t.mlc }) hmap

theorem next_yieldHandling {p : Placed} (h : s.Handles cfg p) (hk : p.kind = 2) {c : Context}
    (hr : readYield p.payload = some c) {t : State} (ht : s.begun.handleYield cfg p.sender c = t) :
    exec .yieldHandling s = .next t :=
  h.next_handle (by simp [hk]) (by rw [hr]; exact ht)

end
end State

/-- Settles O46: a YIELD finds its claim, else the entry with its tag, else it is late. -/
theorem yieldHandled : Obligations.YieldHandled := by
  unfold Obligations.YieldHandled
  refine ⟨fun cfg s p h hk hbad => ?_, fun cfg s p c h hk hr => ⟨fun e r he hec ht hslot => ⟨fun hrk => ?_,
    fun hrk hfree => ?_⟩,
    fun hno => ⟨fun e he hat => ⟨fun hs ho ht => ?_, fun hs ht => ?_, fun hs => ?_⟩, fun he => ?_⟩⟩⟩
  · exact h.next_handle (by simp [hk]) (by rw [readYield_eq_none hbad]; rfl)
  · obtain ⟨-, hx⟩ := State.mem_of_surveyFor he
    have hres : (s.apc.slot r.slot).state = .reserved r.tag := by rw [hslot]
    refine State.next_yieldHandling h hk hr ((State.handleYield_normal (s := s.begun) he hec ht hrk _).trans ?_)
    unfold State.yieldMatched
    rw [State.enterServe_eq, Apc.assign_reserved (a := s.begun.apc) e.headset hres]
    unfold arrivingEntry
    rw [hx]
    rfl
  · obtain ⟨-, hx⟩ := State.mem_of_surveyFor he
    refine State.next_yieldHandling h hk hr ((State.handleYield_seek (s := s.begun) he hec ht hrk _).trans ?_)
    have hl : (State.seekTerms cfg c.headset r).listen = r.callListen.getD (cfg.defaultsFor c.headset).listen := by
      unfold State.seekTerms seekContext
      cases r.callListen <;> rfl
    refine (State.replaceContext_winSeek (s := s.begun) hslot hfree _ _).trans ?_
    rw [State.winSeek_eq (s := s.begun) hslot, hx, hl]
    unfold arrivingEntry
    rw [hx]
    rfl
  · refine State.next_yieldHandling h hk hr ((State.handleYield_entry (s := s.begun) hno he ht _).trans ?_)
    rw [State.yieldAtEntry_seek hs ho]
    exact State.replaceContext_eq (s := s.begun) hat _ _
  · refine State.next_yieldHandling h hk hr ((State.handleYield_entry (s := s.begun) hno he ht _).trans ?_)
    exact State.yieldAtEntry_reclaim hs _ _
  · by_cases ht : e.tag = some c.tag
    · obtain ⟨hst, ho⟩ := hs.resolve_right fun hn => hn ht
      refine State.next_yieldHandling h hk hr ((State.handleYield_entry (s := s.begun) hno he ht _).trans ?_)
      exact State.yieldAtEntry_late hst ho _ _
    · refine State.next_yieldHandling h hk hr (State.handleYield_late (s := s.begun) hno (fun y hy => ?_) _)
      obtain rfl : e = y := Option.some.inj (he.symm.trans hy)
      exact ht
  · refine State.next_yieldHandling h hk hr (State.handleYield_late (s := s.begun) hno (fun y hy => ?_) _)
    exact absurd (he.symm.trans hy) (by simp)

/-! ## A rival's SEEK CLAIM -/

namespace State

section
variable {s : State} {cfg : Settings}

theorem oweYield_room {k : Nat} {e : ServeEntry} (he : s.entryAt k = some e) (hr : s.tqu.urgent.length < 4) (n : Node)
    (tag : Tag) :
    s.oweYield cfg k n tag =
      (s.onTqu (Tqu.push (Queued.new .urgent (.yield (e.context tag)) n))).updateEntry k
        fun e => { e with yieldOwed := some { winner := n, tag := tag } } := by
  unfold oweYield
  rw [he]
  exact if_pos (decide_eq_true hr)

theorem oweYield_full {k : Nat} {e : ServeEntry} (he : s.entryAt k = some e) (hr : 4 ≤ s.tqu.urgent.length) (n : Node)
    (tag : Tag) :
    s.oweYield cfg k n tag =
      (((s.count .droppedAtLimit).releaseEntry k).notify (.left e.headset n)).enterSurvey
        { SurveyEntry.fresh e.headset e.q with r := e.r, holdOff := cfg.seekWait } := by
  unfold oweYield
  rw [he]
  refine (if_neg ?_).trans (concludeYield_eq (s := s.count .droppedAtLimit) he n)
  rw [Tqu.urgentRoom, decide_eq_true_eq]
  exact Nat.not_lt.mpr hr

theorem handleSeekClaim_served {c : ClaimBody} {e : ServeEntry} (he : s.entryFor c.headset = some e)
    (hs : e.state = .served ∨ e.state = .offered) (n : Node) :
    s.handleSeekClaim cfg n c = (s.enterLost cfg e.slot).oweYield cfg e.slot n c.tag := by
  unfold handleSeekClaim
  rcases hs with hs | hs <;> simp only [he, hs]

theorem handleSeekClaim_lost {c : ClaimBody} {e : ServeEntry} (he : s.entryFor c.headset = some e) (hs : e.state = .lost)
    (n : Node) :
    s.handleSeekClaim cfg n c =
      if e.yieldOwed.isSome then s else (s.withdrawReclaim e.slot).oweYield cfg e.slot n c.tag := by
  unfold handleSeekClaim
  simp only [he, hs]

theorem handleSeekClaim_idle {c : ClaimBody} {e : ServeEntry} (he : s.entryFor c.headset = some e)
    (hs : e.state = .arriving ∨ e.state = .handing ∨ e.state = .draining) (n : Node) : s.handleSeekClaim cfg n c = s := by
  unfold handleSeekClaim
  rcases hs with hs | hs | hs <;> simp only [he, hs]

theorem handleSeekClaim_survey {c : ClaimBody} {e : SurveyEntry} (he : s.entryFor c.headset = none)
    (hx : s.surveyFor c.headset = some e) (n : Node) : s.handleSeekClaim cfg n c = s.rivalAtSurvey cfg e := by
  unfold handleSeekClaim
  simp only [he, hx]

theorem handleSeekClaim_unknown {c : ClaimBody} (he : s.entryFor c.headset = none) (hx : s.surveyFor c.headset = none)
    (n : Node) : s.handleSeekClaim cfg n c = s := by
  unfold handleSeekClaim
  simp only [he, hx]

theorem withdrawReclaim_none {k : Nat} {e : ServeEntry} (he : s.entryAt k = some e) (ht : e.tag = none) :
    s.withdrawReclaim k = s := by
  unfold withdrawReclaim
  rw [he]
  dsimp only
  rw [ht]

theorem rivalAtSurvey_other {e : SurveyEntry} (h : ∀ r, e.claim = some r → r.kind = .normal) :
    s.rivalAtSurvey cfg e = s.updateSurvey e.headset fun e => { e with holdOff := cfg.seekWait } := by
  have hc : ¬e.claim.any (fun c => c.kind == .seek) = true := by
    cases hr : e.claim with
    | none => simp
    | some r => simp [h r hr]
  unfold rivalAtSurvey
  rw [if_neg hc]

theorem rivalAtSurvey_seek {e : SurveyEntry} {r : ClaimRecord} (he : s.surveyFor e.headset = some e)
    (hr : e.claim = some r) (hk : r.kind = .seek) :
    s.rivalAtSurvey cfg e =
      ((s.giveBack e.headset r).updateSurvey e.headset fun e =>
        { e with claim := none, dwell := 0, holdOff := cfg.seekWait }).count .seekLosses := by
  have hc : e.claim.any (fun c => c.kind == .seek) = true := by simp [hr, hk]
  unfold rivalAtSurvey withdrawSeek
  rw [if_pos hc, endClaim_eq_updateSurvey (by rw [he]; exact hr)]
  refine congrArg (State.count .seekLosses) (updateSurvey_updateSurvey _ _ ?_)
  exact fun _ => rfl

theorem next_seekClaimHandling {p : Placed} (h : s.Handles cfg p) (hk : p.kind = 3) (h1 : p.payload[5]? = some 1)
    {c : ClaimBody} (hr : readClaim p.payload = some c) {t : State}
    (ht : (if p.destination = broadcast then s.begun.handleSeekClaim cfg p.sender c else s.begun) = t) :
    exec .seekClaimHandling s = .next t :=
  h.next_handle ((Placed.isSeek_iff hk).mpr h1) (by rw [hr]; exact ht)

/-- What the YIELD owed by an entry comes to, where the entry was changed by `f` before (R90). -/
theorem oweYield_updated {k : Nat} {e : ServeEntry} (he : s.entryAt k = some e) (f : ServeEntry → ServeEntry)
    (hf : ∀ e, (f e).slot = e.slot) (n : Node) (tag : Tag) :
    (s.tqu.urgent.length < 4 →
      (s.updateEntry k f).oweYield cfg k n tag =
        (s.onTqu (Tqu.push (Queued.new .urgent (.yield ((f e).context tag)) n))).updateEntry k
          fun e => { f e with yieldOwed := some { winner := n, tag := tag } }) ∧
    (4 ≤ s.tqu.urgent.length →
      (s.updateEntry k f).oweYield cfg k n tag =
        ((((s.updateEntry k f).count .droppedAtLimit).releaseEntry k).notify (.left (f e).headset n)).enterSurvey
          { SurveyEntry.fresh (f e).headset (f e).q with r := (f e).r, holdOff := cfg.seekWait }) := by
  have hat := entryAt_updateEntry_self he f hf
  refine ⟨fun hr => ?_, fun hr => oweYield_full hat hr n tag⟩
  rw [oweYield_room (s := s.updateEntry k f) hat hr]
  exact updateEntry_updateEntry (s := s.onTqu (Tqu.push (Queued.new .urgent (.yield ((f e).context tag)) n))) k _ hf

end
end State

/-- Settles O45: where the SEEK CLAIM finds the headset decides; a YIELD owed is `State.oweYield_updated`. -/
theorem seekClaimHandled : Obligations.SeekClaimHandled := by
  unfold Obligations.SeekClaimHandled
  refine ⟨fun cfg s p h hk h1 hbad => ?_, fun cfg s p c h hk h1 hr => ⟨fun hd => ?_, fun hd => ⟨fun e he hat => ?_,
    fun he => ⟨fun hx => ?_, fun e hx hc => ?_, fun e r hx hc hrk hres => ?_⟩⟩⟩⟩
  · refine h.next_handle ((Placed.isSeek_iff hk).mpr h1) ?_
    rw [readClaim_eq_none (hbad.imp id Or.inr)]
    rfl
  · exact State.next_seekClaimHandling h hk h1 hr (if_neg hd)
  · have run {t : State} (ht : s.begun.handleSeekClaim cfg p.sender c = t) : exec .seekClaimHandling s = .next t :=
      State.next_seekClaimHandling h hk h1 hr ((if_pos hd).trans ht)
    refine ⟨fun hs => ?_, fun hs hy ht => ?_, fun tag hs hy ht => ?_, fun hs => ?_⟩
    · have hat' : (s.begun.notify (.lost e.headset)).entryAt e.slot = some e := hat
      obtain ⟨room, full⟩ :=
        State.oweYield_updated (cfg := cfg) hat' (ServeEntry.toLost cfg) (fun _ => rfl) p.sender c.tag
      have hto : s.begun.handleSeekClaim cfg p.sender c =
          ((s.begun.notify (.lost e.headset)).updateEntry e.slot (ServeEntry.toLost cfg)).oweYield cfg e.slot p.sender
            c.tag := by
        rw [State.handleSeekClaim_served (s := s.begun) he hs, State.enterLost_eq (s := s.begun) hat]
        rfl
      exact ⟨fun hu => run (hto.trans (room hu)), fun hu => run (hto.trans (full hu))⟩
    · have hto : s.begun.handleSeekClaim cfg p.sender c = s.begun.oweYield cfg e.slot p.sender c.tag := by
        rw [State.handleSeekClaim_lost (s := s.begun) he hs, State.withdrawReclaim_none (s := s.begun) hat ht, hy]
        rfl
      have hid : s.begun.updateEntry e.slot id = s.begun := by
        have hl : (s.begun.re.serve.map fun x => if x.slot = e.slot then id x else x) = s.begun.re.serve :=
          (List.map_congr_left fun x _ => ite_self x).trans (List.map_id _)
        exact congrArg (fun l => { s.begun with re := { s.begun.re with serve := l } }) hl
      obtain ⟨room, full⟩ := State.oweYield_updated (s := s.begun) (cfg := cfg) hat id (fun _ => rfl) p.sender c.tag
      rw [hid] at room
      have hto' : s.begun.handleSeekClaim cfg p.sender c =
          (s.begun.updateEntry e.slot id).oweYield cfg e.slot p.sender c.tag := by rw [hid, hto]
      exact ⟨fun hu => run (hto.trans (room hu)), fun hu => run (hto'.trans (full hu))⟩
    · have hto : s.begun.handleSeekClaim cfg p.sender c =
          ((((s.begun.onTqu (Tqu.dropClaim e.headset tag)).count .seekLosses)).updateEntry e.slot
            ServeEntry.endReclaim).oweYield cfg e.slot p.sender c.tag := by
        rw [State.handleSeekClaim_lost (s := s.begun) he hs, State.withdrawReclaim_eq (s := s.begun) hat ht, hy]
        rfl
      obtain ⟨room, full⟩ :=
        State.oweYield_updated (s := (s.begun.onTqu (Tqu.dropClaim e.headset tag)).count .seekLosses) (cfg := cfg) hat
          ServeEntry.endReclaim (fun _ => rfl) p.sender c.tag
      exact ⟨fun hu => run (hto.trans (room hu)), fun hu => run (hto.trans (full hu))⟩
    · rcases hs with hs | hs | hs | ⟨hs, hy⟩
      · exact run (State.handleSeekClaim_idle (s := s.begun) he (.inl hs) _)
      · exact run (State.handleSeekClaim_idle (s := s.begun) he (.inr (.inl hs)) _)
      · exact run (State.handleSeekClaim_idle (s := s.begun) he (.inr (.inr hs)) _)
      · exact run ((State.handleSeekClaim_lost (s := s.begun) he hs _).trans (if_pos (Option.isSome_iff_ne_none.mpr hy)))
  · exact State.next_seekClaimHandling h hk h1 hr ((if_pos hd).trans (State.handleSeekClaim_unknown (s := s.begun) he hx _))
  · refine State.next_seekClaimHandling h hk h1 hr ((if_pos hd).trans
      ((State.handleSeekClaim_survey (s := s.begun) he hx _).trans ?_))
    obtain ⟨-, hxe⟩ := State.mem_of_surveyFor hx
    rw [State.rivalAtSurvey_other hc, hxe]
    rfl
  · refine State.next_seekClaimHandling h hk h1 hr ((if_pos hd).trans
      ((State.handleSeekClaim_survey (s := s.begun) he hx _).trans ?_))
    obtain ⟨-, hxe⟩ := State.mem_of_surveyFor hx
    rw [State.rivalAtSurvey_seek (s := s.begun) (by rw [hxe]; exact hx) hc hrk, hxe,
      State.giveBack_reserved (s := s.begun) hres]
    rfl

end Sys2Proof.Machine
end

section
/-!
# Slot reports at their entry

Each row of the table of R7 but the arrival is one update of the entry, with what its frame counts
(`State.entryBecomes_update`).
-/

namespace Sys2Proof.Machine

/-- A report without a frame, of the sample `n` (R25). -/
def SlotReport.Frameless (r : SlotReport) (n : Nat) : Prop :=
  (r.kind = .errored ∧ n = (clampLevel r.level + 110 - 12).toNat) ∨ (r.kind = .silent ∧ n = 0)

/-! ## A frame put into the ring of an entry -/

/-- An entry with the ring that a frame placed in the ring of `e` leaves, where `e` has a talk group (R7, R114). -/
def ServeEntry.takeFrame (cfg : Settings) (q : Seq) (payload : List Byte) (e x : ServeEntry) : ServeEntry :=
  if e.talk = none then x else { x with ring := (e.ring.place cfg q payload).ring }

/-- An entry scored by the sample `n` of a frame, and heard. -/
def ServeEntry.hear (cfg : Settings) (n : Nat) (e : ServeEntry) : ServeEntry := { e.sample cfg n with heard := true }

/-- What the placement of a frame in the ring of `e` counts. -/
def ServeEntry.countFrame (cfg : Settings) (q : Seq) (payload : List Byte) (e : ServeEntry) (m : Mlc) : Mlc :=
  if e.talk = none then m else m.countPlacement (e.ring.place cfg q payload)

theorem ServeEntry.slot_takeFrame (cfg : Settings) (q : Seq) (payload : List Byte) (e x : ServeEntry) :
    (e.takeFrame cfg q payload x).slot = x.slot := by
  unfold ServeEntry.takeFrame
  split <;> rfl

theorem ServeEntry.slot_offeredTest (cfg : Settings) (e : ServeEntry) : (e.offeredTest cfg).slot = e.slot :=
  (State.retains_offeredTest cfg e).2.1

theorem ServeEntry.offeredTest_eq (cfg : Settings) (e : ServeEntry) :
    e.offeredTest cfg =
      if e.state = .served ∧ e.r < cfg.floor then { e with state := .offered, offerChanged := true }
      else if e.state = .offered ∧ cfg.floor + 4 ≤ e.r then { e with state := .served, offerChanged := true }
      else e := by
  unfold ServeEntry.offeredTest
  cases e.state <;> simp

namespace State

section
variable {s : State} {k : Nat} {e : ServeEntry}

theorem toRing_eq (he : s.entryAt k = some e) (cfg : Settings) (q : Seq) (payload : List Byte) :
    s.toRing cfg k q payload =
      (s.updateEntry k (e.takeFrame cfg q payload)).onMlc (e.countFrame cfg q payload) := by
  unfold toRing
  rw [he]
  cases ht : e.talk with
  | none =>
    have hf : e.takeFrame cfg q payload = id := funext fun x => if_pos ht
    have hc : e.countFrame cfg q payload = id := funext fun m => if_pos ht
    simp [ht, hf, hc, updateEntry, onMlc, onRe]
  | some g =>
    have hf : e.takeFrame cfg q payload = fun x => { x with ring := (e.ring.place cfg q payload).ring } :=
      funext fun x => if_neg (by simp [ht])
    have hc : e.countFrame cfg q payload = Mlc.countPlacement (e.ring.place cfg q payload) :=
      funext fun m => if_neg (by simp [ht])
    simp only [ht, hf, hc, Option.isSome_some, if_true]

/-- The entry of slot `k` has become `x` and MLC `m`; nothing else has changed. -/
def EntryBecomes (s : State) (k : Nat) (x : ServeEntry) (m : Mlc) (t : State) : Prop :=
  t.entryAt k = some x ∧ (∀ j : Nat, j ≠ k → t.entryAt j = s.entryAt j) ∧
    t.re.serve.map ServeEntry.slot = s.re.serve.map ServeEntry.slot ∧ t.re.survey = s.re.survey ∧
    t.re.claimCounter = s.re.claimCounter ∧ t.re.listenIn = s.re.listenIn ∧ t.mlc = m ∧ t.apc = s.apc ∧ t.vp = s.vp ∧
    t.tqu = s.tqu ∧ t.tlc = s.tlc ∧ t.cfl = s.cfl ∧ t.pending = s.pending

theorem entryBecomes_update (he : s.entryAt k = some e) {f : ServeEntry → ServeEntry} (hf : ∀ x, (f x).slot = x.slot)
    (g : Mlc → Mlc) : s.EntryBecomes k (f e) (g s.mlc) ((s.updateEntry k f).onMlc g) :=
  ⟨entryAt_updateEntry_self he f hf, fun j hj => (entryAt_updateEntry s k f hf j).trans (if_neg hj),
    slots_updateEntry s k f hf, rfl, rfl, rfl, rfl, rfl, rfl, rfl, rfl, rfl, rfl⟩

/-- The steps of a good frame at an entry in service, as one update of it (R7, R10, R36). -/
theorem servedFrame_eq (he : s.entryAt k = some e) (cfg : Settings) (n : Nat) (q : Seq) (payload : List Byte) :
    s.servedFrame cfg k n q payload =
      (s.updateEntry k fun x => (e.takeFrame cfg q payload (x.hear cfg n)).offeredTest cfg).onMlc
        (e.countFrame cfg q payload) := by
  have h1 : (s.updateEntry k (ServeEntry.hear cfg n)).entryAt k = some (e.hear cfg n) :=
    entryAt_updateEntry_self he _ fun _ => rfl
  calc s.servedFrame cfg k n q payload
      = ((s.updateEntry k (ServeEntry.hear cfg n)).toRing cfg k q payload).updateEntry k (ServeEntry.offeredTest cfg) :=
        rfl
    _ = (((s.updateEntry k (ServeEntry.hear cfg n)).updateEntry k (e.takeFrame cfg q payload)).updateEntry k
          (ServeEntry.offeredTest cfg)).onMlc (e.countFrame cfg q payload) := by rw [toRing_eq h1]; rfl
    _ = _ := by
      rw [updateEntry_updateEntry (f := ServeEntry.hear cfg n), updateEntry_updateEntry]
      · exact fun x => e.slot_takeFrame cfg q payload (x.hear cfg n)
      · exact fun _ => rfl

theorem ring_fromHanding (cfg : Settings) (e : ServeEntry) :
    (e.fromHanding cfg).ring = e.ring ∧ (e.fromHanding cfg).talk = e.talk ∧ (e.fromHanding cfg).slot = e.slot := by
  unfold ServeEntry.fromHanding
  split <;> exact ⟨rfl, rfl, rfl⟩

theorem takeFrame_fromHanding (cfg : Settings) (q : Seq) (payload : List Byte) (e : ServeEntry) :
    (e.fromHanding cfg).takeFrame cfg q payload = e.takeFrame cfg q payload := by
  obtain ⟨hring, htalk, -⟩ := ring_fromHanding cfg e
  unfold ServeEntry.takeFrame
  rw [hring, htalk]

theorem countFrame_fromHanding (cfg : Settings) (q : Seq) (payload : List Byte) (e : ServeEntry) :
    (e.fromHanding cfg).countFrame cfg q payload = e.countFrame cfg q payload := by
  obtain ⟨hring, htalk, -⟩ := ring_fromHanding cfg e
  unfold ServeEntry.countFrame
  rw [hring, htalk]

end

section
variable {cfg : Settings} {s : State} {r : SlotReport} {e : ServeEntry} {x : Headset} {q : Seq} {payload : List Byte}

theorem reportAtEntry_frame (hs : e.state = .served ∨ e.state = .offered) (hk : r.kind = .frame x q payload) :
    s.reportAtEntry cfg r e = s.servedFrame cfg r.slot (sampleValue .frame r.level) q payload := by
  unfold reportAtEntry
  rcases hs with hs | hs <;> rw [hs, hk]

theorem reportAtEntry_yielding {h : HandingRecord} (he : s.entryAt r.slot = some e) (hs : e.state = .handing)
    (hh : e.handing = some h) (hp : h.phase = .yieldPending) (hk : r.kind = .frame x q payload) :
    s.reportAtEntry cfg r e =
      (s.updateEntry r.slot fun y => e.takeFrame cfg q payload (y.sample cfg (sampleValue .frame r.level))).onMlc
        (e.countFrame cfg q payload) := by
  have he' := entryAt_updateEntry_self he (ServeEntry.sample cfg (sampleValue .frame r.level)) fun _ => rfl
  calc s.reportAtEntry cfg r e
      = (s.updateEntry r.slot (ServeEntry.sample cfg (sampleValue .frame r.level))).toRing cfg r.slot q payload := by
        unfold reportAtEntry
        rw [hs, hk]
        exact if_neg (by simp [hh, hp])
    _ = ((s.updateEntry r.slot (ServeEntry.sample cfg (sampleValue .frame r.level))).updateEntry r.slot
          (e.takeFrame cfg q payload)).onMlc (e.countFrame cfg q payload) := toRing_eq he' cfg q payload
    _ = _ := by
      rw [updateEntry_updateEntry]
      exact fun _ => rfl

theorem reportAtEntry_moved {h : HandingRecord} (he : s.entryAt r.slot = some e) (hs : e.state = .handing)
    (hh : e.handing = some h) (hp : h.phase = .moveSent) (hk : r.kind = .frame x q payload) :
    s.reportAtEntry cfg r e =
      ((s.updateEntry r.slot fun y => (e.takeFrame cfg q payload
        ((y.fromHanding cfg).hear cfg (sampleValue .frame r.level))).offeredTest cfg).notify
          (.reverted e.headset h.claimant)).onMlc (e.countFrame cfg q payload) := by
  have he' : ((s.updateEntry r.slot (ServeEntry.fromHanding cfg)).notify (.reverted e.headset h.claimant)).entryAt r.slot =
      some (e.fromHanding cfg) := entryAt_updateEntry_self he _ fun x => (ring_fromHanding cfg x).2.2
  calc s.reportAtEntry cfg r e
      = (s.revert cfg r.slot).servedFrame cfg r.slot (sampleValue .frame r.level) q payload := by
        unfold reportAtEntry
        rw [hs, hk]
        exact if_pos (by simp [hh, hp])
    _ = (((s.updateEntry r.slot (ServeEntry.fromHanding cfg)).updateEntry r.slot fun y => (e.takeFrame cfg q payload
          (y.hear cfg (sampleValue .frame r.level))).offeredTest cfg).notify
            (.reverted e.headset h.claimant)).onMlc (e.countFrame cfg q payload) := by
        rw [revert_eq he hh, servedFrame_eq he', takeFrame_fromHanding, countFrame_fromHanding]
        rfl
    _ = _ := by
      rw [updateEntry_updateEntry]
      exact fun y => (ring_fromHanding cfg y).2.2

theorem reportAtEntry_frameless_served {n : Nat} (hs : e.state = .served ∨ e.state = .offered) (hk : r.Frameless n) :
    s.reportAtEntry cfg r e = s.updateEntry r.slot fun x => (x.sample cfg n).offeredTest cfg := by
  unfold reportAtEntry
  rcases hs with hs | hs <;> rcases hk with ⟨hk, rfl⟩ | ⟨hk, rfl⟩ <;> rw [hs, hk] <;> rfl

theorem reportAtEntry_frameless_yielding {n : Nat} {h : HandingRecord} (hs : e.state = .handing)
    (hh : e.handing = some h) (hp : h.phase = .yieldPending) (hk : r.Frameless n) :
    s.reportAtEntry cfg r e = s.updateEntry r.slot (ServeEntry.sample cfg n) := by
  unfold reportAtEntry
  rcases hk with ⟨hk, rfl⟩ | ⟨hk, rfl⟩ <;> rw [hs, hk] <;> exact if_neg (by simp [hh, hp])

theorem reportAtEntry_frameless_moved {n : Nat} {h : HandingRecord} (hs : e.state = .handing)
    (hh : e.handing = some h) (hp : h.phase = .moveSent) (hk : r.Frameless n) : s.reportAtEntry cfg r e = s := by
  unfold reportAtEntry
  rcases hk with ⟨hk, -⟩ | ⟨hk, -⟩ <;> rw [hs, hk] <;> exact if_pos (by simp [hh, hp])

theorem reportAtEntry_frameless_idle {n : Nat} (hs : e.state = .arriving ∨ e.state = .draining ∨ e.state = .lost)
    (hk : r.Frameless n) : s.reportAtEntry cfg r e = s := by
  unfold reportAtEntry
  rcases hs with hs | hs | hs <;> rcases hk with ⟨hk, -⟩ | ⟨hk, -⟩ <;> rw [hs, hk]

theorem next_reportAtEntry (h : s.InRun cfg) {record : List Byte} (hr : readSlotReport record = some r)
    (hk : (s.apc.slot r.slot).state = .assigned e.headset) (hf : r.kind.isForeign e.headset = false)
    (he : s.entryAt r.slot = some e) : exec (.slotReport record) s = .next (s.reportAtEntry cfg r e) := by
  rw [next_slotReport h hr, slotReport_at hk hf he]

end

end State

theorem SlotReport.Frameless.not_foreign {r : SlotReport} {n : Nat} (h : r.Frameless n) (x : Headset) :
    r.kind.isForeign x = false := by
  rcases h with ⟨hk, -⟩ | ⟨hk, -⟩ <;> rw [hk] <;> rfl

/-- Settles O20: a slot report at its entry is one update of that entry, by the entry's state and the report's kind. -/
theorem servedFrame : Obligations.ServedFrame := by
  unfold Obligations.ServedFrame
  intro cfg s record r e hrun hr hk he level becomes scored tested returned
  have htest : ∀ x : ServeEntry, x.offeredTest cfg = tested x := ServeEntry.offeredTest_eq cfg
  refine ⟨fun seq payload hf => ?_, fun n hn => ?_⟩
  · have hnext : exec (.slotReport record) s = .next (s.reportAtEntry cfg r e) :=
      State.next_reportAtEntry hrun hr hk (by simp [hf, SlotKind.isForeign]) he
    intro sample placed toRing counted
    refine ⟨fun hs => ⟨_, hnext, ?_⟩, fun h hs hh => ⟨fun hp => ⟨_, hnext, ?_⟩, fun hp => ⟨_, hnext, ?_⟩⟩⟩
    · rw [State.reportAtEntry_frame hs hf, State.servedFrame_eq he, ← htest]
      exact State.entryBecomes_update he (fun x => (ServeEntry.slot_offeredTest cfg _).trans
        (e.slot_takeFrame cfg seq payload (x.hear cfg sample))) _
    · rw [State.reportAtEntry_yielding he hs hh hp hf]
      exact State.entryBecomes_update he (fun x => e.slot_takeFrame cfg seq payload (x.sample cfg sample)) _
    · rw [State.reportAtEntry_moved he hs hh hp hf, ← htest]
      exact State.entryBecomes_update he (fun x => ((ServeEntry.slot_offeredTest cfg _).trans
        (e.slot_takeFrame cfg seq payload ((x.fromHanding cfg).hear cfg sample))).trans (State.ring_fromHanding cfg x).2.2)
        fun m => e.countFrame cfg seq payload (m.notify (.reverted e.headset h.claimant))
  · have hnext : exec (.slotReport record) s = .next (s.reportAtEntry cfg r e) :=
      State.next_reportAtEntry hrun hr hk (SlotReport.Frameless.not_foreign hn e.headset) he
    refine ⟨fun hs => ⟨_, hnext, ?_⟩, fun h hs hh hp => ⟨_, hnext, ?_⟩, fun h hs hh hp => ?_, fun hs => ?_⟩
    · rw [State.reportAtEntry_frameless_served hs hn, ← htest]
      exact State.entryBecomes_update he (fun x => ServeEntry.slot_offeredTest cfg (x.sample cfg n)) id
    · rw [State.reportAtEntry_frameless_yielding hs hh hp hn]
      exact State.entryBecomes_update he (f := ServeEntry.sample cfg n) (fun _ => rfl) id
    · rw [hnext, State.reportAtEntry_frameless_moved hs hh hp hn]
    · rw [hnext, State.reportAtEntry_frameless_idle hs hn]

end Sys2Proof.Machine
end

section
/-!
# The arrival of a headset

R8 as two updates of the entry with the TAKEN queued between them; what a TAKEN does to a full URGENT queue (R153) is said on
any state.
-/

namespace Sys2Proof.Machine

theorem removeFirst_append {older younger : List Queued} {m : Queued} {p : Queued → Bool}
    (ho : ∀ x ∈ older, p x = false) (hm : p m = true) :
    removeFirst p (older ++ m :: younger) = older ++ younger := by
  induction older with
  | nil => simp [removeFirst, hm]
  | cons y ys ih =>
    simp [removeFirst, ho y (List.mem_cons_self ..), ih fun x hx => ho x (List.mem_cons_of_mem _ hx)]

/-- R153 names the messages that give way: a SEEK CLAIM not in hand. -/
theorem Queued.givesWay_iff (m : Queued) :
    m.givesWay = true ↔ (∃ c : ClaimBody, m.body = .claim c ∧ c.kind = .seek) ∧ m.inHand = false := by
  unfold Queued.givesWay Body.isSeekClaim
  cases m.body <;> simp

/-! ## Lookups after an update and after a release -/

namespace State

section
variable {s : State} {k : Nat} {e : ServeEntry}

theorem entryFor_updateEntry (f : ServeEntry → ServeEntry) (hf : ∀ e, (f e).headset = e.headset) (x : Headset) :
    (s.updateEntry k f).entryFor x = (s.entryFor x).map fun e => if e.slot = k then f e else e := by
  have hp : ((fun e : ServeEntry => decide (e.headset = x)) ∘ fun e => if e.slot = k then f e else e) =
      fun e => decide (e.headset = x) := by
    funext e
    by_cases hk : e.slot = k <;> simp [hk, hf]
  change (s.re.serve.map fun e => if e.slot = k then f e else e).find? _ = _
  rw [List.find?_map, hp]
  rfl

theorem entryAt_releaseEntry_self : (s.releaseEntry k).entryAt k = none := by
  cases he : s.entryAt k with
  | none => rw [releaseEntry_none he, he]
  | some e =>
    rw [releaseEntry_eq he]
    refine List.find?_eq_none.mpr fun x hx => ?_
    simpa using (List.mem_filter.mp hx).2

theorem entryAt_releaseEntry {j : Nat} (hj : j ≠ k) : (s.releaseEntry k).entryAt j = s.entryAt j := by
  cases he : s.entryAt k with
  | none => rw [releaseEntry_none he]
  | some e =>
    rw [releaseEntry_eq he]
    change (s.re.serve.filter _).find? _ = _
    rw [List.find?_filter]
    refine congrArg (fun p => s.re.serve.find? p) (funext fun x => ?_)
    by_cases hx : x.slot = j
    · simp [hx, hj]
    · simp [hx]

/-- The release of an entry that has no reclaim outstanding. -/
theorem releaseEntry_untagged (he : s.entryAt k = some e) (ht : e.tag = none) :
    s.releaseEntry k =
      { s with
        re := { s.re with serve := s.re.serve.filter fun x => x.slot != k }
        apc := s.apc.close k
        vp := s.vp.releaseAll (e.listen.map ListenItem.group) } := by
  rw [releaseEntry_eq he, ht]
  cases e.state <;> rfl

/-! ## A TAKEN queued (R153) -/

/-- The TAKEN of an arrival, as queued. -/
def takenOf (cls : TxClass) (x : Headset) (n : Nat) (p : Option Node) : Queued :=
  Queued.new cls (.taken x n p) broadcast

variable {x : Headset} {n : Nat} {p : Option Node}

theorem queueTaken_room (hr : s.tqu.urgent.length < 4) :
    s.queueTaken x n p = s.onTqu fun t => { t with urgent := t.urgent ++ [takenOf .urgent x n p] } :=
  if_pos (decide_eq_true hr)

theorem not_urgentRoom (hr : 4 ≤ s.tqu.urgent.length) : ¬s.tqu.urgentRoom = true := by
  rw [Tqu.urgentRoom, decide_eq_true_eq]
  exact Nat.not_lt.mpr hr

theorem queueTaken_handover (hr : 4 ≤ s.tqu.urgent.length) (hg : ∀ m ∈ s.tqu.urgent, m.givesWay = false)
    (hh : s.tqu.handover.length + s.tqu.reservations < 6) :
    s.queueTaken x n p = s.onTqu fun t => { t with handover := t.handover ++ [takenOf .handover x n p] } := by
  unfold queueTaken
  simp only [if_neg (not_urgentRoom hr), List.find?_eq_none.mpr fun m hm => Bool.not_eq_true _ ▸ hg m hm]
  exact if_pos (decide_eq_true hh)

theorem queueTaken_dropped (hr : 4 ≤ s.tqu.urgent.length) (hg : ∀ m ∈ s.tqu.urgent, m.givesWay = false)
    (hh : 6 ≤ s.tqu.handover.length + s.tqu.reservations) : s.queueTaken x n p = s.count .droppedAtLimit := by
  unfold queueTaken
  simp only [if_neg (not_urgentRoom hr), List.find?_eq_none.mpr fun m hm => Bool.not_eq_true _ ▸ hg m hm]
  refine if_neg ?_
  rw [Tqu.handoverRoom, decide_eq_true_eq]
  exact Nat.not_lt.mpr hh

/-- The oldest SEEK CLAIM not in hand gives its place to the TAKEN. -/
theorem queueTaken_displaced {older younger : List Queued} {m : Queued} {c : ClaimBody} (hr : 4 ≤ s.tqu.urgent.length)
    (hu : s.tqu.urgent = older ++ m :: younger) (ho : ∀ x ∈ older, x.givesWay = false) (hm : m.givesWay = true)
    (hc : m.body = .claim c) :
    s.queueTaken x n p =
      (s.onTqu fun t => { t with urgent := older ++ younger ++ [takenOf .urgent x n p] }).seekDisplaced c := by
  have hfind : s.tqu.urgent.find? Queued.givesWay = some m := by
    rw [hu, List.find?_append, List.find?_eq_none.mpr fun x hx => Bool.not_eq_true _ ▸ ho x hx, List.find?_cons_of_pos hm]
    rfl
  unfold queueTaken
  simp only [if_neg (not_urgentRoom hr), hfind, hc]
  refine congrArg (seekDisplaced c) ?_
  change { s with tqu := Tqu.push _ { s.tqu with urgent := removeFirst Queued.givesWay s.tqu.urgent } } = _
  rw [hu, removeFirst_append ho hm]
  rfl

/-! ## The claim or reclaim of a displaced SEEK CLAIM (R86, R92) -/

theorem seekDisplaced_claim {c : ClaimBody} {y : SurveyEntry} {r : ClaimRecord} (hy : s.surveyFor c.headset = some y)
    (hr : y.claim = some r) (ht : r.tag = c.tag) (hk : (s.apc.slot r.slot).state = .reserved r.tag) :
    s.seekDisplaced c =
      { s with
        re := { s.re with survey := s.re.survey.map fun e =>
                  if e.headset = c.headset then { e with claim := none, dwell := 0 } else e }
        apc := { s.apc with slots := s.apc.slots.modify r.slot fun y => { y with state := .free } }
        vp := s.vp.releaseAll r.groups
        tqu := s.tqu.dropClaim c.headset r.tag } := by
  unfold seekDisplaced
  rw [claimOf_some hy hr ht]
  refine (endClaim_eq (c := r) ?_).trans ?_
  · rw [hy]; exact hr
  · rw [Apc.release_reserved hk]

theorem seekDisplaced_reclaim {c : ClaimBody} {y : ServeEntry}
    (hs : ∀ e r, s.surveyFor c.headset = some e → e.claim = some r → r.tag ≠ c.tag)
    (hy : s.entryFor c.headset = some y) (hat : s.entryAt y.slot = some y) (hl : y.state = .lost) (ht : y.tag = some c.tag) :
    s.seekDisplaced c =
      let t := s.updateEntry y.slot ServeEntry.endReclaim
      if y.rescueTimer = some 0 then ((t.releaseEntry y.slot).notify (.departed y.headset)).count .departures else t := by
  unfold seekDisplaced
  rw [claimOf_none hs, reclaimOf_some hy hl ht]
  exact failReclaim_eq hat

theorem seekDisplaced_none {c : ClaimBody}
    (hs : ∀ e r, s.surveyFor c.headset = some e → e.claim = some r → r.tag ≠ c.tag)
    (hy : ∀ y, s.entryFor c.headset = some y → y.state ≠ .lost ∨ y.tag ≠ some c.tag) : s.seekDisplaced c = s := by
  unfold seekDisplaced
  rw [claimOf_none hs, reclaimOf_none hy]

/-! ## The arrival as an update before its TAKEN, and one after it (R8) -/

/-- The entry scored and arrived, its frame in the ring; the frame and a handover in counted. -/
def beginArrival (cfg : Settings) (k n : Nat) (q : Seq) (payload : List Byte) (e : ServeEntry) (s : State) : State :=
  (s.updateEntry k fun y => ((e.sample cfg n).arrive cfg q).takeFrame cfg q payload ((y.sample cfg n).arrive cfg q)).onMlc
    fun m =>
      let m := ((e.sample cfg n).arrive cfg q).countFrame cfg q payload m
      if e.origin = some .yield then m.count .handoversIn else m

/-- The notice and the offered test that end the arrival. -/
def closeArrival (cfg : Settings) (k : Nat) (e : ServeEntry) (s : State) : State :=
  (s.notify (.arrived e.headset e.previous)).updateEntry k (ServeEntry.offeredTest cfg)

theorem arrival_eq (he : s.entryAt k = some e) (cfg : Settings) (n : Nat) (q : Seq) (payload : List Byte) :
    (s.updateEntry k (ServeEntry.sample cfg n)).arrival cfg k q payload =
      ((s.beginArrival cfg k n q payload e).queueTaken e.headset ((e.sample cfg n).arrive cfg q).count
        e.previous).closeArrival cfg k e := by
  have h1 := entryAt_updateEntry_self he (ServeEntry.sample cfg n) fun _ => rfl
  have h2 := entryAt_updateEntry_self h1 (ServeEntry.arrive cfg q) fun _ => rfl
  have hring : ((s.updateEntry k (ServeEntry.sample cfg n)).updateEntry k (ServeEntry.arrive cfg q)).toRing cfg k q payload =
      (s.updateEntry k fun y =>
        ((e.sample cfg n).arrive cfg q).takeFrame cfg q payload ((y.sample cfg n).arrive cfg q)).onMlc
          (((e.sample cfg n).arrive cfg q).countFrame cfg q payload) := by
    rw [toRing_eq h2, updateEntry_updateEntry, updateEntry_updateEntry]
    · exact fun _ => rfl
    · exact fun _ => rfl
  have hcount : ∀ t : State, (if e.origin = some .yield then t.count .handoversIn else t) =
      t.onMlc fun m => if e.origin = some .yield then m.count .handoversIn else m := by
    intro t
    by_cases ho : e.origin = some .yield
    · simp only [if_pos ho]; rfl
    · simp only [if_neg ho]; rfl
  unfold arrival
  rw [h1]
  dsimp only
  rw [hring]
  exact congrArg (fun t => closeArrival cfg k e (queueTaken e.headset _ e.previous t)) (hcount _)

theorem closeArrival_entries {a : ServeEntry} (ha : s.entryAt k = some a) (cfg : Settings) (e : ServeEntry) :
    (s.closeArrival cfg k e).entryAt k = some (a.offeredTest cfg) ∧
      (∀ j : Nat, j ≠ k → (s.closeArrival cfg k e).entryAt j = s.entryAt j) ∧
      (s.closeArrival cfg k e).re.serve.map ServeEntry.slot = s.re.serve.map ServeEntry.slot :=
  ⟨entryAt_updateEntry_self (s := s.notify _) ha _ (ServeEntry.slot_offeredTest cfg),
    fun j hj => (entryAt_updateEntry _ k _ (ServeEntry.slot_offeredTest cfg) j).trans (if_neg hj),
    slots_updateEntry _ k _ (ServeEntry.slot_offeredTest cfg)⟩

theorem beginArrival_becomes (he : s.entryAt k = some e) (cfg : Settings) (n : Nat) (q : Seq) (payload : List Byte) :
    s.EntryBecomes k
      (((e.sample cfg n).arrive cfg q).takeFrame cfg q payload ((e.sample cfg n).arrive cfg q))
      (s.beginArrival cfg k n q payload e).mlc (s.beginArrival cfg k n q payload e) :=
  entryBecomes_update he (f := fun y => ((e.sample cfg n).arrive cfg q).takeFrame cfg q payload ((y.sample cfg n).arrive cfg q))
    (fun y => ((e.sample cfg n).arrive cfg q).slot_takeFrame cfg q payload ((y.sample cfg n).arrive cfg q)) _

theorem headset_takeFrame (cfg : Settings) (q : Seq) (payload : List Byte) (e x : ServeEntry) :
    (e.takeFrame cfg q payload x).headset = x.headset ∧ (e.takeFrame cfg q payload x).state = x.state ∧
      (e.takeFrame cfg q payload x).r = x.r := by
  unfold ServeEntry.takeFrame
  split <;> exact ⟨rfl, rfl, rfl⟩

/-- The arrival's entry after its offered test: OFFERED where it scores below F (R8, R10). -/
theorem offeredTest_arrived (cfg : Settings) (n : Nat) (q : Seq) (payload : List Byte) (e : ServeEntry) :
    (((e.sample cfg n).arrive cfg q).takeFrame cfg q payload ((e.sample cfg n).arrive cfg q)).offeredTest cfg =
      { (e.sample cfg n).arrive cfg q with
        state := if (e.sample cfg n).r < cfg.floor then .offered else .served
        offerChanged := e.offerChanged || decide ((e.sample cfg n).r < cfg.floor)
        ring := if e.talk = none then ((e.sample cfg n).arrive cfg q).ring
          else (((e.sample cfg n).arrive cfg q).ring.place cfg q payload).ring } := by
  obtain ⟨-, hst, hsc⟩ := headset_takeFrame cfg q payload ((e.sample cfg n).arrive cfg q) ((e.sample cfg n).arrive cfg q)
  have hst : (((e.sample cfg n).arrive cfg q).takeFrame cfg q payload ((e.sample cfg n).arrive cfg q)).state = .served := hst
  have hsc : (((e.sample cfg n).arrive cfg q).takeFrame cfg q payload ((e.sample cfg n).arrive cfg q)).r =
      (e.sample cfg n).r := hsc
  have ht : ((e.sample cfg n).arrive cfg q).talk = e.talk := rfl
  rw [ServeEntry.offeredTest_eq, hst, hsc]
  unfold ServeEntry.takeFrame
  rw [ht]
  by_cases hl : (e.sample cfg n).r < cfg.floor <;> by_cases ht : e.talk = none <;> simp [hl, ht] <;>
    simp [ServeEntry.arrive, ServeEntry.sample]

/-- An entry of another slot is found by its headset as before the arrival; the arriving one is SERVED. -/
theorem entryFor_beginArrival (cfg : Settings) (n : Nat) (q : Seq) (payload : List Byte) (x : Headset) {y : ServeEntry}
    (hy : (s.beginArrival cfg k n q payload e).entryFor x = some y) :
    s.entryFor x = some y ∨ y.state = .served := by
  have hu := entryFor_updateEntry (s := s) (k := k)
    (fun y => ((e.sample cfg n).arrive cfg q).takeFrame cfg q payload ((y.sample cfg n).arrive cfg q))
    (fun y => (headset_takeFrame cfg q payload _ _).1) x
  obtain ⟨z, hz, rfl⟩ := Option.map_eq_some_iff.mp (hu.symm.trans hy)
  by_cases hk : z.slot = k
  · rw [if_pos hk]
    exact .inr (headset_takeFrame cfg q payload _ _).2.1
  · rw [if_neg hk]
    exact .inl hz

theorem entryFor_beginArrival_other (cfg : Settings) (n : Nat) (q : Seq) (payload : List Byte) {x : Headset} {y : ServeEntry}
    (hy : s.entryFor x = some y) (hk : y.slot ≠ k) : (s.beginArrival cfg k n q payload e).entryFor x = some y := by
  refine (entryFor_updateEntry (s := s) (k := k)
    (fun y => ((e.sample cfg n).arrive cfg q).takeFrame cfg q payload ((y.sample cfg n).arrive cfg q))
    (fun y => (headset_takeFrame cfg q payload _ _).1) x).trans ?_
  rw [hy]
  exact congrArg some (if_neg hk)

end

end State

/-- Settles O21: between the arrival's two updates the TAKEN is queued, and a displaced SEEK CLAIM ends. -/
theorem arrivalCompletes : Obligations.ArrivalCompletes := by
  unfold Obligations.ArrivalCompletes
  intro cfg s record r e seq payload hrun hr hf hk he hs q score count ring placed voiced counted arrived taken completes
    served alone gives
  let sample := (max (-110) (min (-20) r.level) + 110).toNat
  let A := s.beginArrival cfg r.slot sample seq payload e
  obtain ⟨hat, hother, hslots, -⟩ := State.beginArrival_becomes he cfg sample seq payload
  have harr : ((((e.sample cfg sample).arrive cfg seq).takeFrame cfg seq payload
      ((e.sample cfg sample).arrive cfg seq)).offeredTest cfg) = arrived :=
    State.offeredTest_arrived cfg sample seq payload e
  have hnext : exec (.slotReport record) s =
      .next ((A.queueTaken e.headset count e.previous).closeArrival cfg r.slot e) := by
    rw [State.next_reportAtEntry hrun hr hk (by simp [hf, SlotKind.isForeign]) he]
    refine congrArg _ ?_
    unfold State.reportAtEntry
    rw [hs, hf]
    exact State.arrival_eq he cfg sample seq payload
  have hgives : ∀ m : Queued, m.givesWay = true ↔ gives m := Queued.givesWay_iff
  -- the arrival completes where `B` is the state with the TAKEN queued
  have hclose : ∀ (B : State) (rest : State → Prop), A.queueTaken e.headset count e.previous = B →
      B.entryAt r.slot = A.entryAt r.slot →
      (B.re.claimCounter, B.re.listenIn, B.tlc, B.cfl, B.pending) =
        (s.re.claimCounter, s.re.listenIn, s.tlc, s.cfl, s.pending) →
      (∀ t : State, (∀ j : Nat, j ≠ r.slot → t.entryAt j = B.entryAt j) →
        t.re.serve.map ServeEntry.slot = B.re.serve.map ServeEntry.slot →
        (t.re.survey, t.apc, t.vp) = (B.re.survey, B.apc, B.vp) → rest t) →
      completes B.tqu B.mlc rest := by
    intro B rest hB hBat hrest hdo
    obtain ⟨h1, h2, h3⟩ := State.closeArrival_entries (hBat.trans hat) cfg e
    simp only [Prod.mk.injEq] at hrest
    obtain ⟨hc, hl, ht, hf, hp⟩ := hrest
    exact ⟨_, hnext.trans (by rw [hB]), h1.trans (congrArg some harr), rfl, rfl, hdo _ h2 h3 rfl, hc, hl, ht, hf, hp⟩
  have halone : ∀ B : State, B.re = A.re → B.apc = A.apc → B.vp = A.vp → ∀ t : State,
      (∀ j : Nat, j ≠ r.slot → t.entryAt j = B.entryAt j) →
      t.re.serve.map ServeEntry.slot = B.re.serve.map ServeEntry.slot →
      (t.re.survey, t.apc, t.vp) = (B.re.survey, B.apc, B.vp) → alone t := by
    intro B hre hapc hvp t h2 h3 hb
    simp only [Prod.mk.injEq] at hb
    obtain ⟨hx, ha, hv⟩ := hb
    refine ⟨⟨fun j hj => ?_, ?_⟩, ?_, ?_, ?_⟩
    · rw [h2 j hj, State.entryAt, hre]
      exact hother j hj
    · rw [h3, hre]
      exact hslots
    · rw [hx, hre]
      rfl
    · rw [ha, hapc]
      rfl
    · rw [hv, hvp]
      rfl
  refine ⟨fun hroom => ?_, fun hfull hno => ⟨fun hh => ?_, fun hh => ?_⟩, fun older younger m c hfull hu ho hm hc => ?_⟩
  · exact hclose _ alone (State.queueTaken_room hroom) rfl rfl (halone _ rfl rfl rfl)
  · exact hclose _ alone (State.queueTaken_handover (s := A) hfull
      (fun x hx => Bool.eq_false_iff.mpr fun h => hno x hx ((hgives x).mp h)) hh) rfl rfl (halone _ rfl rfl rfl)
  · exact hclose _ alone (State.queueTaken_dropped (s := A) hfull
      (fun x hx => Bool.eq_false_iff.mpr fun h => hno x hx ((hgives x).mp h)) hh) rfl rfl (halone _ rfl rfl rfl)
  · intro urgent unclaimed
    let D := A.onTqu fun t => { t with urgent := urgent }
    have hq : A.queueTaken e.headset count e.previous = D.seekDisplaced c :=
      State.queueTaken_displaced hfull hu (fun x hx => Bool.eq_false_iff.mpr fun h => ho x hx ((hgives x).mp h))
        ((hgives m).mpr hm) hc
    refine ⟨fun x rec hx hxc htag hres => ?_, fun x hun hx hxat hne hl ht => ?_, fun hun hx => ?_⟩
    · refine hclose _ _ (hq.trans (State.seekDisplaced_claim (s := D) hx hxc htag hres)) rfl rfl ?_
      intro t h2 h3 hb
      simp only [Prod.mk.injEq] at hb
      obtain ⟨hv, ha, hp⟩ := hb
      exact ⟨⟨fun j hj => (h2 j hj).trans (hother j hj), h3.trans hslots⟩, hp, hv, ha⟩
    · let T := D.updateEntry x.slot ServeEntry.endReclaim
      have hD : D.entryAt x.slot = some x := (hother x.slot hne).trans hxat
      have hT : T.entryAt x.slot = some x.endReclaim := State.entryAt_updateEntry_self hD _ fun _ => rfl
      have hTj : ∀ j : Nat, j ≠ x.slot → T.entryAt j = A.entryAt j := fun j hj =>
        (State.entryAt_updateEntry D x.slot ServeEntry.endReclaim (fun _ => rfl) j).trans (if_neg hj)
      have hdrop := State.seekDisplaced_reclaim (s := D) hun
        (State.entryFor_beginArrival_other cfg sample seq payload hx hne) hD hl ht
      refine ⟨fun hz => ?_, fun hz has => ?_⟩
      · refine hclose T _ (hq.trans (hdrop.trans (if_neg hz))) (hTj r.slot hne.symm) rfl ?_
        intro t h2 _ hb
        simp only [Prod.mk.injEq] at hb
        obtain ⟨hv, ha, hp⟩ := hb
        exact ⟨(h2 x.slot hne).trans hT, fun j hj hjx => ((h2 j hj).trans (hTj j hjx)).trans (hother j hj), hv, ha, hp⟩
      · have hRx : (T.releaseEntry x.slot).entryAt x.slot = none := State.entryAt_releaseEntry_self
        have hRj : ∀ j : Nat, j ≠ x.slot → (T.releaseEntry x.slot).entryAt j = A.entryAt j := fun j hj =>
          (State.entryAt_releaseEntry hj).trans (hTj j hj)
        have hrel := State.releaseEntry_untagged hT rfl
        rw [Apc.close_assigned (a := T.apc) has] at hrel
        rw [hrel] at hRx hRj
        refine hclose _ _ (hq.trans ((hdrop.trans (if_pos hz)).trans (congrArg
          (fun u => (State.notify (.departed x.headset) u).count .departures) hrel))) (hRj r.slot hne.symm) rfl ?_
        intro t h2 _ hb
        simp only [Prod.mk.injEq] at hb
        obtain ⟨hv, ha, hp⟩ := hb
        exact ⟨(h2 x.slot hne).trans hRx, fun j hj hjx => ((h2 j hj).trans (hRj j hjx)).trans (hother j hj), hv, hp, ha⟩
    · exact hclose _ alone (hq.trans (State.seekDisplaced_none (s := D) hun fun y hy => by
        rcases State.entryFor_beginArrival cfg sample seq payload _ hy with hy | hy
        · exact hx y hy
        · exact .inl (by simp [hy]))) rfl rfl (halone _ rfl rfl rfl)

end Sys2Proof.Machine
end

section
/-!
# Seek calls

The table of R78: a reclaim at a LOST entry (R80), the decision of a SEEK claim at a survey entry (R81).
-/

namespace Sys2Proof.Machine

namespace State

section
variable {s : State} {cfg : Settings} {e : ServeEntry}

/-! ## A call at a LOST entry (R36, R80) -/

/-- The reclaim that a call with sample `n` starts: the entry reseeded, its SEEK CLAIM queued (R80, R82). -/
def startReclaim (cfg : Settings) (k : Nat) (x : Headset) (n : Nat) (s : State) : State :=
  ((s.updateEntry k fun e => { e.reseed n with tag := some s.re.claimCounter }).advanceTag).onTqu
    (Tqu.push (Queued.new .urgent
      (seekClaimBody cfg x s.re.claimCounter (reported (seeded n)) k) broadcast))

theorem callAtLost_reclaim {k : Nat} (he : s.entryAt k = some e) (ht : e.tag = none) (hy : e.yieldOwed = none)
    (hr : s.tqu.urgent.length < 4) (n : Nat) : s.callAtLost cfg k n = s.startReclaim cfg k e.headset n := by
  unfold callAtLost
  rw [he]
  exact if_pos ⟨ht, hy, decide_eq_true hr⟩

theorem callAtLost_sample {k : Nat} (he : s.entryAt k = some e)
    (h : e.tag ≠ none ∨ e.yieldOwed ≠ none ∨ 4 ≤ s.tqu.urgent.length) (n : Nat) :
    s.callAtLost cfg k n = s.updateEntry k (ServeEntry.sample cfg n) := by
  unfold callAtLost
  rw [he]
  refine if_neg fun ⟨ht, hy, hr⟩ => ?_
  rcases h with h | h | h
  · exact h ht
  · exact h hy
  · exact not_urgentRoom h hr

/-! ## The decision of a SEEK claim (R81) -/

/-- The SEEK claim that a call starts for a survey entry of score `score`, in the slot `k` (R81, R82). -/
def startSeek (cfg : Settings) (c : SeekCall) (score k : Nat) (s : State) : State :=
  let groups := seekGroups cfg c.headset c.listen
  let record : ClaimRecord :=
    { kind := .seek, tag := s.re.claimCounter, slot := k, groups := groups, phase := .queued, replyTimer := none,
      callListen := c.listen, callTalk := c.talk }
  ((((s.advanceTag).onApc (Apc.reserve k s.re.claimCounter)).onVp (Vp.acquireAll groups)).updateSurvey c.headset
    fun e => { e with claim := some record }).onTqu
      (Tqu.push (Queued.new .urgent (seekClaimBody cfg c.headset s.re.claimCounter score k) broadcast))

theorem decideSeek_starts {c : SeekCall} {x : SurveyEntry} {k : Nat} (hx : s.surveyFor c.headset = some x)
    (hp : cfg.permits c.headset = true) (hh : x.holdOff = 0) (hc : x.claim = none) (hn : s.re.claimsOutstanding < 4)
    (hk : s.apc.lowestFree = some k) (hr : s.tqu.urgent.length < 4)
    (hf : s.vp.fits (seekGroups cfg c.headset c.listen) = true) :
    s.decideSeek cfg c = s.startSeek cfg c x.r k := by
  unfold decideSeek
  rw [hx, hk]
  exact if_pos ⟨hp, hh, hc, hn, hf, decide_eq_true hr⟩

theorem decideSeek_none {c : SeekCall} (hx : s.surveyFor c.headset = none) : s.decideSeek cfg c = s := by
  unfold decideSeek
  rw [hx]

theorem decideSeek_not {c : SeekCall} {x : SurveyEntry} (hx : s.surveyFor c.headset = some x)
    (h : x.holdOff ≠ 0 ∨ x.claim ≠ none ∨ 4 ≤ s.re.claimsOutstanding ∨ s.apc.lowestFree = none ∨
      4 ≤ s.tqu.urgent.length ∨ s.vp.fits (seekGroups cfg c.headset c.listen) = false) :
    s.decideSeek cfg c = s := by
  unfold decideSeek
  rw [hx]
  cases hk : s.apc.lowestFree with
  | none => rfl
  | some k =>
    refine if_neg fun ⟨_, hh, hc, hn, hf, hr⟩ => ?_
    rcases h with h | h | h | h | h | h
    · exact h hh
    · exact h hc
    · exact absurd hn (Nat.not_lt.mpr h)
    · rw [hk] at h
      cases h
    · exact not_urgentRoom h hr
    · rw [h] at hf
      cases hf

/-! ## A call by where the headset stands (R78) -/

theorem next_seekCall (h : s.InRun cfg) {record : List Byte} {c : SeekCall} (hc : readSeekCall record = some c) :
    exec (.seekCall record) s = .next (s.seekCall cfg c) :=
  h.next_whenRun (by rw [hc])

variable {c : SeekCall}

theorem seekCall_ignored (he : s.entryFor c.headset = some e)
    (hs : e.state = .arriving ∨ e.state = .handing ∨ e.state = .draining) :
    s.seekCall cfg c = s.count .ignoredSeekCalls := by
  unfold seekCall
  rw [he]
  rcases hs with hs | hs | hs <;> simp only [hs]

theorem seekCall_lost (he : s.entryFor c.headset = some e) (hs : e.state = .lost) :
    s.seekCall cfg c = s.callAtLost cfg e.slot (sampleValue .seekCall c.level) := by
  unfold seekCall
  simp only [he, hs]

theorem seekCall_serving (he : s.entryFor c.headset = some e) (hs : e.state = .served ∨ e.state = .offered) :
    s.seekCall cfg c = (s.enterLost cfg e.slot).callAtLost cfg e.slot (sampleValue .seekCall c.level) := by
  unfold seekCall
  rcases hs with hs | hs <;> simp only [he, hs]

theorem seekCall_denied (he : s.entryFor c.headset = none) (hp : cfg.permits c.headset = false) :
    s.seekCall cfg c = s := by
  unfold seekCall
  rw [he]
  exact if_pos (by simp [hp])

theorem seekCall_newcomer (he : s.entryFor c.headset = none) (hp : cfg.permits c.headset = true)
    (hx : s.surveyFor c.headset = none) :
    s.seekCall cfg c =
      (s.enterSurvey (SurveyEntry.fresh c.headset (seeded (sampleValue .seekCall c.level)))).decideSeek cfg c := by
  unfold seekCall
  rw [he]
  simp only [hp, hx]
  rfl

theorem seekCall_survey {x : SurveyEntry} (he : s.entryFor c.headset = none) (hp : cfg.permits c.headset = true)
    (hx : s.surveyFor c.headset = some x) :
    s.seekCall cfg c =
      (s.updateSurvey c.headset (SurveyEntry.sample cfg (sampleValue .seekCall c.level))).decideSeek cfg c := by
  unfold seekCall
  rw [he]
  simp only [hp, hx]
  rfl

end

end State

/-- Settles O23: a call is ignored, starts a reclaim, is a sample, or starts a SEEK claim, by where its headset stands. -/
theorem seekCalls : Obligations.SeekCalls := by
  unfold Obligations.SeekCalls
  intro cfg s record c hrun hc sample run claim
  have hnext : exec (.seekCall record) s = .next (s.seekCall cfg c) := State.next_seekCall hrun hc
  refine ⟨fun e he hs => ?_, fun e he hat hs => ?_, fun he hp => ?_, fun he hp => ?_⟩
  · exact hnext.trans (congrArg _ (State.seekCall_ignored he hs))
  · intro lost noticed
    let L := (s.updateEntry e.slot lost).onMlc fun _ => noticed
    have hslot : ∀ x, (lost x).slot = x.slot := fun x => by simp only [lost]; split <;> rfl
    have hq : ∀ x, (lost x).q = x.q := fun x => by simp only [lost]; split <;> rfl
    have hkept : (lost e).headset = e.headset ∧ (lost e).tag = e.tag ∧ (lost e).yieldOwed = e.yieldOwed := by
      simp only [lost]
      split <;> exact ⟨rfl, rfl, rfl⟩
    have hL : L.entryAt e.slot = some (lost e) := State.entryAt_updateEntry_self hat lost hslot
    have hcall : s.seekCall cfg c = L.callAtLost cfg e.slot sample := by
      by_cases hl : e.state = .lost
      · have hid : lost = id := funext fun x => if_pos hl
        have hn : noticed = s.mlc := if_pos hl
        rw [State.seekCall_lost he hl]
        simp [L, hid, hn, State.updateEntry, State.onRe, State.onMlc, sample, sampleValue, clampLevel]
      · have hto : lost = ServeEntry.toLost cfg := funext fun x => if_neg hl
        have hn : noticed = s.mlc.notify (.lost e.headset) := if_neg hl
        rw [State.seekCall_serving he (by tauto), State.enterLost_eq hat]
        simp only [L, hto, hn]
        rfl
    refine ⟨fun ht hy hr => ?_, fun h => ?_⟩
    · have hstart := State.callAtLost_reclaim (cfg := cfg) hL (hkept.2.1.trans ht) (hkept.2.2.trans hy) hr sample
      refine hnext.trans (congrArg _ (hcall.trans (hstart.trans ?_)))
      rw [hkept.1]
      refine (congrArg (fun t => State.onTqu (Tqu.push (claim e.headset e.slot ((16 * sample + 8) / 16)))
        (State.advanceTag (State.onMlc (fun _ => noticed) t))) (State.updateEntry_updateEntry (s := s) e.slot (f := lost)
          (fun x => { x.reseed sample with tag := some s.re.claimCounter }) hslot)).trans ?_
      rfl
    · have hsample := State.callAtLost_sample (cfg := cfg) hL
        (by rw [hkept.2.1, hkept.2.2]; exact h) sample
      refine hnext.trans (congrArg _ (hcall.trans (hsample.trans ?_)))
      have hscored : (fun x => (lost x).sample cfg sample) =
          fun x => { lost x with q := smooth cfg.k x.q sample, r := (smooth cfg.k x.q sample + 8) / 16 } :=
        funext fun x => by rw [ServeEntry.sample, hq]; rfl
      refine (congrArg (State.onMlc fun _ => noticed) (State.updateEntry_updateEntry (s := s) e.slot (f := lost)
        (ServeEntry.sample cfg sample) hslot)).trans ?_
      rw [hscored]
      rfl
  · exact hnext.trans (congrArg _ (State.seekCall_denied he hp))
  · intro newcomer groups list sampled
    have hcall : s.seekCall cfg c = sampled.decideSeek cfg c := by
      cases hx : s.surveyFor c.headset with
      | none =>
        rw [State.seekCall_newcomer he hp hx]
        exact congrArg (fun l => State.decideSeek cfg c { s with re := { s.re with survey := l } }) (if_pos hx).symm
      | some x =>
        rw [State.seekCall_survey he hp hx]
        exact congrArg (fun l => State.decideSeek cfg c { s with re := { s.re with survey := l } })
          (if_neg (by simp [hx])).symm
    refine ⟨fun x k hx hh hxc hn hk hr hf => ?_, fun x hx hno => ?_, fun hx => ?_⟩
    · exact hnext.trans (congrArg _ (hcall.trans (State.decideSeek_starts (s := sampled) hx hp hh hxc hn hk hr hf)))
    · exact hnext.trans (congrArg _ (hcall.trans (State.decideSeek_not (s := sampled) hx hno)))
    · exact hnext.trans (congrArg _ (hcall.trans (State.decideSeek_none (s := sampled) hx)))

end Sys2Proof.Machine
end

section
/-!
# The parts of a mark, and the mark of a node with one serve entry

Equations for the tick, the ring and the mix of one entry; the one-entry mark is then read off them.
-/

namespace Sys2Proof.Machine

theorem foldl_filter_single {α β : Type} (f : β → α → β) (p : α → Bool) (a : α) (b : β) :
    ([a].filter p).foldl f b = if p a then f b a else b := by
  by_cases h : p a = true <;> simp [h]

/-! ## Counters and rings of an entry at a mark -/

namespace ServeEntry

section
variable {cfg : Settings} {e : ServeEntry}

theorem tick_serving (hs : e.state = .served ∨ e.state = .offered) :
    e.tick =
      { e with settle := e.settle - 1, arrivalTimer := e.arrivalTimer.map (· - 1)
               rescueTimer := e.rescueTimer.map (· - 1)
               handing := e.handing.map fun h => { h with timer := h.timer.map (· - 1) }
               heard := false, lossRun := if e.heard then 0 else min 255 (e.lossRun + 1)
               lastReported := min 255 (e.lastReported + 1) } := by
  unfold tick
  rcases hs with hs | hs <;> rw [hs] <;> rfl

theorem tick_handing (hs : e.state = .handing) :
    e.tick =
      { e with settle := e.settle - 1, arrivalTimer := e.arrivalTimer.map (· - 1)
               rescueTimer := e.rescueTimer.map (· - 1)
               handing := e.handing.map fun h => { h with timer := h.timer.map (· - 1) }
               lastReported := min 255 (e.lastReported + 1) } := by
  unfold tick
  rw [hs]
  rfl

theorem tick_idle (hs : e.state = .arriving ∨ e.state = .draining ∨ e.state = .lost) :
    e.tick =
      { e with settle := e.settle - 1, arrivalTimer := e.arrivalTimer.map (· - 1)
               rescueTimer := e.rescueTimer.map (· - 1)
               handing := e.handing.map fun h => { h with timer := h.timer.map (· - 1) } } := by
  unfold tick
  rcases hs with hs | hs | hs <;> rw [hs] <;> rfl

/-- A ring that sends nothing stays (R113, R118, R119). -/
theorem play_still (h : e.talk = none ∨ e.state = .arriving ∨
      ((e.state = .draining ∨ e.state = .lost) ∧ e.ring.frames = []) ∨
      ((e.state = .served ∨ e.state = .offered ∨ e.state = .handing) ∧ e.ring.playing = false ∧
        e.ring.frames.length < cfg.depth)) : e.play cfg = (e.ring, none, false) := by
  unfold play
  cases ht : e.talk with
  | none => rfl
  | some g =>
    rcases h with h | h | ⟨hs, hf⟩ | ⟨hs, hp, hd⟩
    · rw [ht] at h
      cases h
    · rw [h]
    · rcases hs with hs | hs <;> simp only [hs, hf]
    · have hno : ¬((e.ring.playing || decide (cfg.depth ≤ e.ring.frames.length)) = true) := by
        simp only [hp, Bool.false_or, decide_eq_true_eq]
        omega
      rcases hs with hs | hs | hs <;> simp only [hs, if_neg hno]

/-- A DRAINING or LOST entry's ring sends its oldest frame (R119). -/
theorem play_draining {f : VoiceFrame} {fs : List VoiceFrame} (ht : e.talk ≠ none)
    (hs : e.state = .draining ∨ e.state = .lost) (hf : e.ring.frames = f :: fs) :
    e.play cfg = ({ e.ring with frames := fs }, some f, false) := by
  unfold play
  obtain ⟨g, ht⟩ := Option.ne_none_iff_exists'.mp ht
  rcases hs with hs | hs <;> simp only [ht, hs, hf]

/-- A ring that plays, or has come to D frames, sends its oldest frame, or a late silence frame (R118). -/
theorem play_serving (ht : e.talk ≠ none) (hs : e.state = .served ∨ e.state = .offered ∨ e.state = .handing)
    (hp : e.ring.playing = true ∨ cfg.depth ≤ e.ring.frames.length) :
    e.play cfg =
      ({ e.ring with frames := e.ring.frames.drop 1, playing := true },
        some (e.ring.frames.head?.getD (silenceFrame cfg)), decide (e.ring.frames = [])) := by
  have hyes : (e.ring.playing || decide (cfg.depth ≤ e.ring.frames.length)) = true := by simpa using hp
  unfold play
  obtain ⟨g, ht⟩ := Option.ne_none_iff_exists'.mp ht
  generalize e.ring = ring at hyes ⊢
  obtain ⟨frames, expected, playing⟩ := ring
  cases frames <;> rcases hs with hs | hs | hs <;> simp only [ht, hs, if_pos hyes] <;> rfl

end

/-- What the ring of an entry sends to MLC at a mark: its frame, and a late frame counted (R118, R119, R120). -/
def sendPlay (cfg : Settings) (e : ServeEntry) (m : Mlc) : Mlc :=
  let sent := (e.play cfg).2.1.bind fun f =>
    e.talk.map fun g => m.takeUplink { headset := e.headset, talk := g, frame := f }
  let m := sent.getD m
  if (e.play cfg).2.2 then m.count .lateFrames else m

/-- What the mix of an entry counts (R127). -/
def countMix (v : Vp) (e : ServeEntry) (m : Mlc) : Mlc :=
  if (mixTotals v e.listen).any (fun t => clampTotal t != t) then m.count .clippedFrames else m

/-- The samples of the downlink frame of an entry (R127). -/
def mixedSamples (v : Vp) (e : ServeEntry) : List Sample :=
  (mixTotals v e.listen).map fun t => BitVec.ofInt 16 (clampTotal t)

end ServeEntry

namespace State

section
variable {cfg : Settings} {s : State} {e : ServeEntry}

theorem next_cycleMark (h : s.InRun cfg) {record : List Byte} {n : BitVec 16} (hr : readCycleMark record = some n)
    (hn : s.apc.lastCycle ≠ some n) : exec (.cycleMark record) s = .next ((s.noteCycle n).mark cfg) := by
  have hnote : (s.noteCycle n).InRun cfg := ⟨h.node, h.config⟩
  refine congrArg Host.Outcome.next ?_
  simp only [hr, if_neg hn, h.node]
  exact whenRun_inRun hnote _

theorem playRing_eq (s : State) (e : ServeEntry) (cfg : Settings) :
    s.playRing cfg e = (s.updateEntry e.slot fun x => { x with ring := (e.play cfg).1 }).onMlc (e.sendPlay cfg) := by
  rcases hp : e.play cfg with ⟨r, f, late⟩
  unfold playRing ServeEntry.sendPlay
  simp only [hp]
  cases late <;> cases f <;> cases e.talk <;> rfl

theorem mixEntry_eq (s : State) (e : ServeEntry) :
    s.mixEntry e = (s.onMlc (e.countMix s.vp)).onApc (Apc.downlink e.slot (e.mixedSamples s.vp)) := by
  unfold mixEntry ServeEntry.countMix
  dsimp only
  split <;> rfl

theorem markOrders_none (h : ∀ x ∈ s.apc.slots, x.order = none) : s.markOrders cfg = s := by
  have hage : s.apc.slots.map AirSlot.ageOrder = s.apc.slots := by
    refine List.map_congr_left (g := id) (fun x hx => ?_) |>.trans (List.map_id _)
    obtain ⟨st, o⟩ := x
    obtain rfl : o = none := h _ hx
    rfl
  have hslot : ∀ k, (s.apc.slot k).order = none := fun k => by
    unfold Apc.slot
    cases hk : s.apc.slots[k]? with
    | none => rfl
    | some x => exact h x (List.mem_of_getElem? hk)
  have hdue : s.apc.dueOrders = [] := List.filter_eq_nil_iff.mpr fun k _ => by simp [hslot k]
  unfold markOrders
  simp only [hdue, List.foldl_nil]
  change { s with apc := { s.apc with slots := s.apc.slots.map AirSlot.ageOrder } } = s
  rw [hage]

theorem named_nil (h : ∀ x ∈ s.re.serve, x.standingDue cfg = false) : s.named cfg = [] := by
  unfold named
  rw [List.filter_eq_nil_iff.mpr fun x hx => by simp [h x hx]]
  rfl

theorem buildStanding_none (h : ∀ x ∈ s.re.serve, x.standingDue cfg = false) : s.buildStanding cfg = s := by
  unfold buildStanding
  exact if_neg fun hn => hn.2 (named_nil h)

theorem mark_ownHold {t : Tqu} (h : t.ownHold = 0) (cfg : Settings) :
    t.mark cfg = { t with neighbourHolds := t.neighbourHolds.map (· - 1) } := by
  obtain ⟨f, u, ho, r, p, re, rp, rs, own, nh⟩ := t
  obtain rfl : own = 0 := h
  rfl

/-! ## A node with one serve entry and no survey entry -/

theorem markRe_single (hs : s.re.serve = [e]) (hx : s.re.survey = []) (hd : s.entryDue cfg e = none)
    (hn : e.tick.standingDue cfg = false) :
    s.markRe cfg = { s with re := { s.re with serve := [e.tick], listenIn := s.re.listenIn.map (· - 1) } } := by
  have hno : ∀ p, s.re.surveyed p = [] := fun p => by simp [Re.surveyed, hx]
  have hre : s.re.tick = { s.re with serve := [e.tick], listenIn := s.re.listenIn.map (· - 1) } := by
    simp [Re.tick, hs, hx]
  unfold markRe
  simp only [hno, hs, List.foldl_nil, List.filterMap_cons, hd, Option.map_none, List.filterMap_nil]
  rw [onRe, hre]
  exact buildStanding_none fun x h => by rwa [List.mem_singleton.mp h]

/-- The state after playout and mix of the only entry (R118, R119, R127, R128). -/
def playedSingle (cfg : Settings) (e : ServeEntry) (s : State) : State :=
  let s := { s with re := { s.re with serve := [{ e with ring := (e.play cfg).1 }] }, mlc := e.sendPlay cfg s.mlc }
  (if e.mixed then s.mixEntry e else s).onVp Vp.consume

theorem markVp_single (hs : s.re.serve = [e]) :
    s.markVp cfg = if e.drained then (s.playedSingle cfg e).releaseEntry e.slot else s.playedSingle cfg e := by
  have hplay : s.playRing cfg e =
      { s with re := { s.re with serve := [{ e with ring := (e.play cfg).1 }] }, mlc := e.sendPlay cfg s.mlc } := by
    rw [playRing_eq, updateEntry, onRe, hs]
    simp [onMlc]
  unfold markVp playedSingle
  simp only [hs, List.foldl_cons, List.foldl_nil, hplay]
  rw [List.foldl_map]
  simp only [foldl_filter_single]
  rfl

end

end State

theorem any_le_one {o : Option Nat} (h : ∀ m, o = some m → 1 < m) : o.any (· ≤ 1) = false := by
  cases o with
  | none => rfl
  | some m => simpa using h m rfl

theorem clampTotal_ne_iff (t : Int) : (clampTotal t != t) = true ↔ t < -32768 ∨ 32767 < t := by
  rw [bne_iff_ne, clampTotal]
  omega

theorem countMix_eq (v : Vp) (e : ServeEntry) (m : Mlc) :
    e.countMix v m = if ∃ t ∈ mixTotals v e.listen, t < -32768 ∨ 32767 < t then m.count .clippedFrames else m := by
  unfold ServeEntry.countMix
  refine if_congr ?_ rfl rfl
  simp only [List.any_eq_true, clampTotal_ne_iff]

/-- Settles O13: with one serve entry a mark is its tick, its ring played and, where it is mixed, one downlink frame. -/
theorem markOfOneServedEntry : Obligations.MarkOfOneServedEntry := by
  unfold Obligations.MarkOfOneServedEntry
  intro cfg record n s e hrun hr hn hs hx ho hl hord hk hhold silence totals mixed ticked after run sent rest playing
  let base : State :=
    { s with
      re := { s.re with serve := [e.tick], listenIn := s.re.listenIn.map (· - 1) }
      apc := { s.apc with lastCycle := some n }
      tqu := { s.tqu with neighbourHolds := s.tqu.neighbourHolds.map (· - 1) } }
  have hplayed : base.playedSingle cfg e.tick =
      after { e.tick with ring := (e.play cfg).1 } (e.sendPlay cfg s.mlc) e.mixed := by
    by_cases hm : e.mixed = true
    · have hmix : (if ∃ t ∈ totals, t < -32768 ∨ 32767 < t then (e.sendPlay cfg s.mlc).count .clippedFrames
          else e.sendPlay cfg s.mlc) = e.countMix s.vp (e.sendPlay cfg s.mlc) := (countMix_eq ..).symm
      have hdown : ({ s.apc with lastCycle := some n } : Apc).downlink e.slot mixed =
          { s.apc with lastCycle := some n, out := s.apc.out ++ [(AirOrder.downlinkFrame e.slot mixed).bytes] } :=
        if_pos (by rw [show ({ s.apc with lastCycle := some n } : Apc).slot e.slot = s.apc.slot e.slot from rfl, hk]; rfl)
      simp only [State.playedSingle, after, hm, true_and, if_true, hmix, ← hdown]
      rw [if_pos (show e.tick.mixed = true from hm), State.mixEntry_eq]
      rfl
    · simp only [State.playedSingle, after, hm, false_and, if_false, List.append_nil, Bool.false_eq_true]
      rw [if_neg (show ¬e.tick.mixed = true from hm)]
      rfl
  have hmark : s.entryDue cfg e = none → e.tick.standingDue cfg = false →
      run (if e.drained then (after { e.tick with ring := (e.play cfg).1 } (e.sendPlay cfg s.mlc) e.mixed).releaseEntry e.slot
        else after { e.tick with ring := (e.play cfg).1 } (e.sendPlay cfg s.mlc) e.mixed) := by
    intro hd hst
    let begun : State := { s with
      apc := { s.apc with lastCycle := some n }
      tqu := { s.tqu with neighbourHolds := s.tqu.neighbourHolds.map (· - 1) } }
    have hbegun : ((s.noteCycle n).markOrders cfg).onTqu (Tqu.mark cfg) = begun := by
      rw [State.markOrders_none (s := s.noteCycle n) hord, State.onTqu, State.mark_ownHold (t := (s.noteCycle n).tqu) hhold]
      rfl
    refine (State.next_cycleMark hrun hr hn).trans (congrArg _ ?_)
    unfold State.mark
    rw [hbegun, State.markRe_single (s := begun) hs hx hd hst, ← hplayed]
    exact State.markVp_single (s := base) (e := e.tick) rfl
  have hquiet : e.tick.standingDue cfg = false := by
    have hle : e.tick.lastReported ≤ e.lastReported + 1 := by
      change (if (_ : Bool) = true then _ else _) ≤ _
      split <;> omega
    have hof : e.tick.offerChanged = false := ho
    have hlt : decide (cfg.standing ≤ e.tick.lastReported) = false := by
      rw [decide_eq_false_iff_not]
      omega
    rw [ServeEntry.standingDue, hof, hlt]
    simp
  have hstill : s.entryDue cfg e = none → e.drained = false → e.play cfg = (e.ring, none, false) →
      run (after e.tick s.mlc e.mixed) := by
    intro hdue hdr hp
    have h := hmark hdue hquiet
    rw [hdr, ServeEntry.sendPlay, hp] at h
    exact h
  have hplaying : s.entryDue cfg e = none → e.drained = false → e.mixed = true →
      (e.state = .served ∨ e.state = .offered ∨ e.state = .handing) → playing e.tick := by
    intro hdue hdr hmx hst
    refine ⟨fun g ht hp => ?_, fun h => ?_⟩
    · have hp := ServeEntry.play_serving (cfg := cfg) (by simp [ht]) hst hp
      have hsend : e.sendPlay cfg s.mlc =
          if e.ring.frames = [] then (sent g silence).count .lateFrames
          else sent g (e.ring.frames.head?.getD silence) := by
        rw [ServeEntry.sendPlay, hp, ht]
        by_cases hf : e.ring.frames = []
        · simp only [hf, if_true, decide_true]
          rfl
        · simp only [hf, if_false, decide_false]
          rfl
      have h := hmark hdue hquiet
      rw [hdr, hmx, hsend, hp] at h
      exact h
    · have h := hstill hdue hdr (ServeEntry.play_still (by tauto))
      rwa [hmx] at h
  refine ⟨fun hst hcut => ?_, fun hst hto => ?_, fun hst hto => ?_, fun hst hto => ?_⟩
  · have hdue : s.entryDue cfg e = none := by
      rw [State.entryDue_serving hst]
      refine if_neg ?_
      simp only [Bool.and_eq_true, Bool.not_eq_true', decide_eq_true_eq]
      rintro ⟨hh, hc⟩
      rcases hcut with h | h
      · rw [h] at hh
        cases hh
      · omega
    rw [← ServeEntry.tick_serving hst]
    exact hplaying hdue (by rcases hst with h | h <;> simp [ServeEntry.drained, h])
      (by rcases hst with h | h <;> simp [ServeEntry.mixed, h]) (by tauto)
  · have hdue : s.entryDue cfg e = none := by
      rw [State.entryDue_handing hst]
      refine if_neg ?_
      cases hh : e.handing with
      | none => simp
      | some h =>
        simp only [Option.any_some, Bool.and_eq_true, beq_iff_eq, not_and]
        intro hp
        rw [any_le_one fun m hm => hto h m hh hp hm]
        exact Bool.false_ne_true
    rw [← ServeEntry.tick_handing hst]
    exact hplaying hdue (by simp [ServeEntry.drained, hst]) (by simp [ServeEntry.mixed, hst]) (by tauto)
  · have hdue : s.entryDue cfg e = none := by
      rcases hst with hst | hst
      · exact State.entryDue_draining hst
      · rw [State.entryDue_lost hst, any_le_one (hto hst)]
        rfl
    have hmx : e.mixed = false := by rcases hst with h | h <;> simp [ServeEntry.mixed, h]
    have htick : e.tick = ticked := ServeEntry.tick_idle (.inr hst)
    refine ⟨fun g f fs ht hf => ?_, fun h => ?_, fun hf hd => ?_⟩
    · have hp := ServeEntry.play_draining (cfg := cfg) (by simp [ht]) hst hf
      have hrest : rest = { e.ring with frames := fs } := by simp [rest, hf]
      have hsend : e.sendPlay cfg s.mlc = sent g f := by
        rw [ServeEntry.sendPlay, hp, ht]
        rfl
      have hdr : e.drained = false := by simp [ServeEntry.drained, hf]
      have h := hmark hdue hquiet
      rw [hdr, hmx, hsend, hp, htick] at h
      rw [hrest]
      exact h
    · have hdr : e.drained = false := by
        rcases h with ⟨-, hl⟩ | ⟨hf, -⟩
        · simp [ServeEntry.drained, hl]
        · simp [ServeEntry.drained, hf]
      have h := hstill hdue hdr (ServeEntry.play_still (by tauto))
      rwa [hmx, htick] at h
    · have hp := ServeEntry.play_still (cfg := cfg) (e := e) (.inr (.inr (.inl ⟨hst, hf⟩)))
      have h := hmark hdue hquiet
      rw [(ServeEntry.drained_iff e).mpr ⟨hd, hf⟩, hmx, ServeEntry.sendPlay, hp, htick] at h
      exact h
  · have hdue : s.entryDue cfg e = none := by
      rw [State.entryDue_arriving hst, any_le_one hto]
      rfl
    have h := hstill hdue (by simp [ServeEntry.drained, hst]) (ServeEntry.play_still (by tauto))
    rw [show e.mixed = false by simp [ServeEntry.mixed, hst], ServeEntry.tick_idle (.inl hst)] at h
    exact h

end Sys2Proof.Machine
end

section
/-!
# The entries that a STANDING names

The list of R51 is the library's insertion sort cut at four.
-/

namespace Sys2Proof.Machine

/-! ## The order of R51 -/

/-- The order of R51 among due entries: greater last reported, then lower slot. -/
def ServeEntry.ranks (e x : ServeEntry) : Bool :=
  decide (x.lastReported < e.lastReported ∨ (x.lastReported = e.lastReported ∧ e.slot ≤ x.slot))

theorem ServeEntry.ranks_iff (e x : ServeEntry) :
    e.ranks x = true ↔ x.lastReported < e.lastReported ∨ (x.lastReported = e.lastReported ∧ e.slot ≤ x.slot) :=
  decide_eq_true_iff

theorem insertDue_eq_orderedInsert (e : ServeEntry) (l : List ServeEntry) :
    insertDue e l = l.orderedInsert (fun a b => a.ranks b = true) e := by
  induction l with
  | nil => rfl
  | cons x xs ih =>
    simp only [insertDue, List.orderedInsert_cons, ServeEntry.ranks_iff, ih]

theorem foldr_insertDue (l : List ServeEntry) :
    l.foldr insertDue [] = l.insertionSort fun a b => a.ranks b = true := by
  unfold List.insertionSort
  exact congrArg (fun f => l.foldr f []) (funext fun e => funext fun m => insertDue_eq_orderedInsert e m)

theorem perm_foldr_insertDue (l : List ServeEntry) : (l.foldr insertDue []).Perm l := by
  rw [foldr_insertDue]
  exact List.perm_insertionSort _ l

theorem pairwise_foldr_insertDue (l : List ServeEntry) :
    (l.foldr insertDue []).Pairwise fun a b => a.ranks b = true := by
  have htotal : Std.Total fun a b : ServeEntry => a.ranks b = true :=
    ⟨fun a b => by simp only [ServeEntry.ranks_iff]; omega⟩
  have htrans : IsTrans ServeEntry fun a b => a.ranks b = true :=
    ⟨fun a b c => by simp only [ServeEntry.ranks_iff]; omega⟩
  rw [foldr_insertDue]
  exact List.pairwise_insertionSort _ l

/-! ## What a STANDING names (R51) -/

/-- An entry is due for a STANDING (R13, R51). -/
def ServeEntry.Due (cfg : Settings) (e : ServeEntry) : Prop :=
  (e.state = .served ∨ e.state = .offered ∨ e.state = .handing) ∧
    (cfg.standing ≤ e.lastReported ∨ e.offerChanged = true)

/-- One entry stands before another in a STANDING: greater last reported, ties by lower slot (R51). -/
def ServeEntry.Before (x y : ServeEntry) : Prop :=
  y.lastReported < x.lastReported ∨ (x.lastReported = y.lastReported ∧ x.slot < y.slot)

/-- `named` are the entries of `l` that a STANDING names. -/
def Picks (cfg : Settings) (l named : List ServeEntry) : Prop :=
  named.length ≤ 4 ∧ named.Pairwise ServeEntry.Before ∧ (∀ e ∈ named, e ∈ l ∧ e.Due cfg) ∧
    ∀ e ∈ l, e.Due cfg → e ∉ named → named.length = 4 ∧ ∀ x ∈ named, x.Before e

/-- The entries of a table that `State.named` takes. -/
def picked (cfg : Settings) (l : List ServeEntry) : List ServeEntry :=
  ((l.filter (ServeEntry.standingDue cfg)).foldr insertDue []).take 4

theorem ServeEntry.standingDue_iff (cfg : Settings) (e : ServeEntry) : e.standingDue cfg = true ↔ e.Due cfg := by
  simp [ServeEntry.standingDue, ServeEntry.Due, or_assoc]

theorem ServeEntry.Before.of_ranks {x y : ServeEntry} (h : x.ranks y = true) (hs : x.slot ≠ y.slot) : x.Before y := by
  rw [ServeEntry.ranks_iff] at h
  unfold ServeEntry.Before
  omega

/-- The due entries of a table, in the order of R51, none before itself. -/
theorem pairwise_before {cfg : Settings} {l : List ServeEntry} (hd : (l.map ServeEntry.slot).Nodup) :
    ((l.filter (ServeEntry.standingDue cfg)).foldr insertDue []).Pairwise ServeEntry.Before := by
  have hperm := perm_foldr_insertDue (l.filter (ServeEntry.standingDue cfg))
  have hslots : (((l.filter (ServeEntry.standingDue cfg)).foldr insertDue []).map ServeEntry.slot).Nodup :=
    (hperm.map ServeEntry.slot).nodup_iff.mpr (hd.sublist (List.filter_sublist.map _))
  exact ((pairwise_foldr_insertDue _).and (List.pairwise_map.mp hslots)).imp fun h => .of_ranks h.1 h.2

theorem mem_foldr_insertDue {cfg : Settings} {l : List ServeEntry} {e : ServeEntry} :
    e ∈ (l.filter (ServeEntry.standingDue cfg)).foldr insertDue [] ↔ e ∈ l ∧ e.Due cfg := by
  rw [(perm_foldr_insertDue _).mem_iff, List.mem_filter, ServeEntry.standingDue_iff]

theorem picks_picked (cfg : Settings) {l : List ServeEntry} (hd : (l.map ServeEntry.slot).Nodup) :
    Picks cfg l (picked cfg l) := by
  have hsorted := pairwise_before (cfg := cfg) hd
  have hmem := fun e => mem_foldr_insertDue (cfg := cfg) (l := l) (e := e)
  unfold picked
  generalize (l.filter (ServeEntry.standingDue cfg)).foldr insertDue [] = sorted at hsorted hmem ⊢
  refine ⟨List.length_take_le 4 _, hsorted.sublist (List.take_sublist 4 _),
    fun e he => (hmem e).mp (List.mem_of_mem_take he), fun e he hdue hnot => ?_⟩
  have hin : e ∈ sorted.take 4 ++ sorted.drop 4 := by
    rw [List.take_append_drop]
    exact (hmem e).mpr ⟨he, hdue⟩
  have hdrop : e ∈ sorted.drop 4 := (List.mem_append.mp hin).resolve_left hnot
  refine ⟨?_, fun x hx => ?_⟩
  · have hlong := List.length_pos_of_mem hdrop
    rw [List.length_drop] at hlong
    rw [List.length_take]
    omega
  · rw [← List.take_append_drop 4 sorted] at hsorted
    exact (List.pairwise_append.mp hsorted).2.2 x hx e hdrop

theorem picked_eq_nil {cfg : Settings} {l : List ServeEntry} : picked cfg l = [] ↔ ∀ e ∈ l, ¬e.Due cfg := by
  unfold picked
  rw [List.take_eq_nil_iff]
  constructor
  · rintro (h | h) e he hdue
    · cases h
    · have := mem_foldr_insertDue.mpr ⟨he, hdue⟩
      rw [h] at this
      cases this
  · intro h
    refine .inr (List.eq_nil_iff_forall_not_mem.mpr fun e he => ?_)
    obtain ⟨hl, hdue⟩ := mem_foldr_insertDue.mp he
    exact h e hl hdue

/-! ## The STANDING of a mark -/

theorem ServeEntry.markNamed_eq (named : List ServeEntry) (e : ServeEntry) :
    e.markNamed named =
      if ∃ x ∈ named, x.slot = e.slot then { e with lastReported := 0, offerChanged := false } else e := by
  unfold ServeEntry.markNamed
  refine if_congr ?_ rfl rfl
  simp

theorem ServeEntry.slot_markNamed (named : List ServeEntry) (e : ServeEntry) : (e.markNamed named).slot = e.slot := by
  unfold ServeEntry.markNamed
  split <;> rfl

/-- A STANDING that names the given entries, as queued (R52). -/
def standingOf (named : List ServeEntry) : Queued :=
  Queued.new .report (.standing (named.map ServeEntry.naming)) broadcast

namespace State

section
variable {cfg : Settings} {s : State}

theorem buildStanding_idle (h : 2 ≤ s.tqu.report.length ∨ picked cfg s.re.serve = []) : s.buildStanding cfg = s := by
  unfold buildStanding
  refine if_neg fun ⟨hr, hn⟩ => ?_
  have hr : s.tqu.report.length < 2 := of_decide_eq_true hr
  rcases h with h | h
  · omega
  · exact hn h

theorem buildStanding_sends (hr : s.tqu.report.length < 2) (hn : picked cfg s.re.serve ≠ []) :
    s.buildStanding cfg =
      { s with
        re := { s.re with serve := s.re.serve.map (ServeEntry.markNamed (picked cfg s.re.serve)) }
        tqu := { s.tqu with report := s.tqu.report ++ [standingOf (picked cfg s.re.serve)] } } :=
  if_pos ⟨decide_eq_true hr, hn⟩

end

end State

end Sys2Proof.Machine
end

section
/-!
# What a mark does to the serve table and sends to MLC

Notices and departures are followed by `Mlc.Logs`, the serve table by equations of its list.
-/

namespace Sys2Proof.Machine

/-! ## Notices and departures told to MLC -/

/-- A notice at the newest end of 16 (R171). -/
def pushNotice (l : List Notice) (x : Notice) : List Notice := if l.length < 16 then l ++ [x] else l.drop 1 ++ [x]

/-- MLC with these notices sent and this many departures counted since, whatever else was counted or sent. -/
def Mlc.Logs (ns : List Notice) (d : Nat) (m m' : Mlc) : Prop :=
  m'.notices = ns.foldl pushNotice m.notices ∧
    (m.counters.length = counterCount →
      m'.counters.length = counterCount ∧ m'.counter .departures = m.counter .departures + BitVec.ofNat 16 d)

namespace Mlc

theorem Logs.refl (m : Mlc) : m.Logs [] 0 m := ⟨rfl, fun h => ⟨h, by simp⟩⟩

theorem Logs.trans {ns ns' : List Notice} {d d' : Nat} {a b c : Mlc} (h : a.Logs ns d b) (g : b.Logs ns' d' c) :
    a.Logs (ns ++ ns') (d + d') c := by
  refine ⟨by rw [g.1, h.1, List.foldl_append], fun ha => ?_⟩
  obtain ⟨hb, hd⟩ := h.2 ha
  obtain ⟨hc, he⟩ := g.2 hb
  exact ⟨hc, by rw [he, hd, BitVec.ofNat_add, BitVec.add_assoc]⟩

theorem notices_count (c : Counter) (m : Mlc) : (m.count c).notices = m.notices := by
  unfold Mlc.count
  dsimp only
  split <;> rfl

theorem counters_count (c : Counter) (m : Mlc) : (m.count c).counters = m.counters.set c.index (m.counter c + 1) := by
  unfold Mlc.count
  dsimp only
  split <;> rfl

theorem logs_count {c : Counter} (hc : c.index ≠ Counter.departures.index) (m : Mlc) : m.Logs [] 0 (m.count c) := by
  refine ⟨notices_count c m, fun h => ⟨by rw [counters_count, List.length_set, h], ?_⟩⟩
  rw [Mlc.counter, counters_count, List.getElem?_set_ne hc]
  simp [Mlc.counter]

theorem logs_departure (m : Mlc) : m.Logs [] 1 (m.count .departures) := by
  refine ⟨notices_count _ m, fun h => ⟨by rw [counters_count, List.length_set, h], ?_⟩⟩
  have hlt : Counter.departures.index < m.counters.length := by
    rw [h]
    decide
  rw [Mlc.counter, counters_count, List.getElem?_set_self hlt]
  rfl

theorem logs_notify (n : Notice) (m : Mlc) : m.Logs [n] 0 (m.notify n) := by
  unfold Mlc.notify
  by_cases h : m.notices.length < noticeCapacity
  · rw [if_pos h]
    exact ⟨(if_pos h).symm, fun hc => ⟨hc, by simp [Mlc.counter]⟩⟩
  · rw [if_neg h]
    exact ⟨(if_neg h).symm, fun hc => ⟨hc, by simp [Mlc.counter, Mlc.withStatus]⟩⟩

theorem logs_takeUplink (u : Uplink) (m : Mlc) : m.Logs [] 0 (m.takeUplink u) := by
  unfold Mlc.takeUplink
  split <;> exact ⟨rfl, fun hc => ⟨hc, by simp [Mlc.counter]⟩⟩

theorem logs_sendPlay (cfg : Settings) (e : ServeEntry) (m : Mlc) : m.Logs [] 0 (e.sendPlay cfg m) := by
  have hlate : ∀ (c : Bool) (a : Mlc), a.Logs [] 0 (if c then a.count .lateFrames else a) := by
    rintro (_ | _) a
    · exact .refl a
    · exact logs_count (by decide) a
  unfold ServeEntry.sendPlay
  refine Logs.trans (ns := []) (d := 0) ?_ (hlate _ _)
  cases (e.play cfg).2.1 with
  | none => exact .refl m
  | some f =>
    cases e.talk with
    | none => exact .refl m
    | some g => exact logs_takeUplink _ m

theorem logs_countMix (v : Vp) (e : ServeEntry) (m : Mlc) : m.Logs [] 0 (e.countMix v m) := by
  unfold ServeEntry.countMix
  split
  · exact logs_count (by decide) m
  · exact .refl m

end Mlc

/-! ## Orders that a mark brings to their expiry (R17, R106) -/

/-- The unacknowledged MOVE of an entry's slot would revert it (R17). -/
def ServeEntry.moved (a : Apc) (e : ServeEntry) : Bool :=
  e.state == .handing && (e.handing.any fun h => h.phase == .moveSent) && (a.slot e.slot).order.any fun o => o.kind == .move

theorem ServeEntry.moved_iff (a : Apc) (e : ServeEntry) :
    e.moved a = true ↔ e.state = .handing ∧ (∃ h, e.handing = some h ∧ h.phase = .moveSent) ∧
      ∃ o, (a.slot e.slot).order = some o ∧ o.kind = .move := by
  simp [ServeEntry.moved, Option.any_eq_true, and_assoc]

/-- The notice of a revert at a slot. -/
def State.reversal (s : State) (k : Nat) : Option Notice :=
  ((s.entryAt k).filter (ServeEntry.moved s.apc)).bind fun e => e.handing.map fun h => .reverted e.headset h.claimant

namespace State

section
variable {cfg : Settings} {s : State} {k : Nat} {o : PendingOrder}

/-- The expiry of a MOVE at an entry that waits for it. -/
theorem expireOrder_moved {e : ServeEntry} {h : HandingRecord} (ho : (s.apc.slot k).order = some o) (hd : 4 ≤ o.age + 1)
    (he : s.entryAt k = some e) (hs : e.state = .handing) (hh : e.handing = some h) (hp : h.phase = .moveSent)
    (hk : o.kind = .move) :
    s.expireOrder cfg k = ((s.onApc (Apc.endOrder k)).updateEntry k (ServeEntry.fromHanding cfg)).notify
      (.reverted e.headset h.claimant) := by
  have he' : (s.onApc (Apc.endOrder k)).entryAt k = some e := he
  rw [expireOrder_due ho hd, hk, takeResult_move he' hs hh hp, revert_eq he' hh]

theorem slot_endOrder {j : Nat} (hj : j ≠ k) (a : Apc) : (a.endOrder k).slot j = a.slot j := by
  exact congrArg (Option.getD · AirSlot.cold) (List.getElem?_modify_ne _ a.slots hj.symm)

/-- An order that APC takes or refuses is of its own slot (R105). -/
theorem slot_order {j : Nat} (hj : j ≠ k) (a : Apc) (kind : OrderKind) (r : AirOrder) :
    ((a.order k kind r).getD a).slot j = a.slot j := by
  unfold Apc.order
  split
  · exact congrArg (Option.getD · AirSlot.cold) (List.getElem?_modify_ne _ a.slots hj.symm)
  · rfl

/-- The expiry of any other order leaves the tables. -/
theorem expireOrder_idle (ho : (s.apc.slot k).order = some o) (hd : 4 ≤ o.age + 1)
    (hm : ∀ e, s.entryAt k = some e → e.moved s.apc = false) :
    ∃ a : Apc, s.expireOrder cfg k = { s with apc := a } ∧ ∀ j, j ≠ k → a.slot j = s.apc.slot j := by
  have hend : ∀ j, j ≠ k → (s.apc.endOrder k).slot j = s.apc.slot j := fun j hj => slot_endOrder hj s.apc
  rw [expireOrder_due ho hd]
  unfold takeResult
  cases he : (s.onApc (Apc.endOrder k)).entryAt k with
  | none => exact ⟨_, rfl, hend⟩
  | some e =>
    simp only [Bool.false_eq_true, if_false]
    split
    · next hkind hs =>
      refine ⟨_, if_neg fun hp => ?_, hend⟩
      have hslot : e.slot = k := (mem_of_entryAt (s := s) he).2
      have hno := hm e he
      rw [ServeEntry.moved, hs, hp, hslot, ho, Option.any_some, hkind] at hno
      cases hno
    · exact ⟨_, rfl, fun j hj => (slot_order hj _ _ _).trans (hend j hj)⟩
    · exact ⟨_, rfl, hend⟩

theorem entryAt_of_nodup (hn : (s.re.serve.map ServeEntry.slot).Nodup) {e : ServeEntry} (he : e ∈ s.re.serve) :
    s.entryAt e.slot = some e := by
  cases hx : s.entryAt e.slot with
  | none => exact absurd (List.find?_eq_none.mp hx e he) (by simp)
  | some x =>
    obtain ⟨hmem, hslot⟩ := mem_of_entryAt hx
    exact congrArg some (List.inj_on_of_nodup_map hn hmem he hslot)

theorem slot_fromHanding (cfg : Settings) (e : ServeEntry) : (e.fromHanding cfg).slot = e.slot := (ring_fromHanding cfg e).2.2

/-- An entry after the MOVE orders of the slots `l` have expired (R17). -/
def reverted (cfg : Settings) (a : Apc) (l : List Nat) (e : ServeEntry) : ServeEntry :=
  if e.slot ∈ l ∧ e.moved a = true then e.fromHanding cfg else e

theorem slot_reverted (cfg : Settings) (a : Apc) (l : List Nat) (e : ServeEntry) : (reverted cfg a l e).slot = e.slot := by
  unfold reverted
  split
  · exact slot_fromHanding cfg e
  · rfl

theorem reverted_of_not_mem {l : List Nat} {e : ServeEntry} (h : e.slot ∉ l) (cfg : Settings) (a : Apc) :
    reverted cfg a l e = e := if_neg fun hc => h hc.1

/-- What the expiry of an order does: the entry it reverts, the notice of that, and no other slot's order. -/
theorem expireOrder_effect (hn : (s.re.serve.map ServeEntry.slot).Nodup) (ho : (s.apc.slot k).order = some o)
    (hd : 4 ≤ o.age + 1) :
    (s.expireOrder cfg k).re.serve =
        s.re.serve.map (reverted cfg s.apc [k]) ∧
      s.mlc.Logs (s.reversal k).toList 0 (s.expireOrder cfg k).mlc ∧ (s.expireOrder cfg k).tqu = s.tqu ∧
      ∀ j, j ≠ k → (s.expireOrder cfg k).apc.slot j = s.apc.slot j := by
  by_cases hm : ∃ e, s.entryAt k = some e ∧ e.moved s.apc = true
  · obtain ⟨e, he, hmove⟩ := hm
    obtain ⟨hs, ⟨h, hh, hp⟩, o', ho', hk⟩ := (ServeEntry.moved_iff _ _).mp hmove
    obtain ⟨hmem, hslot⟩ := mem_of_entryAt he
    obtain rfl : o' = o := Option.some.inj (ho'.symm.trans (hslot ▸ ho))
    rw [expireOrder_moved ho hd he hs hh hp hk]
    refine ⟨List.map_congr_left fun x hx => ?_, ?_, rfl, fun j hj => slot_endOrder hj s.apc⟩
    · by_cases hxk : x.slot = k
      · obtain rfl : x = e := List.inj_on_of_nodup_map hn hx hmem (hxk.trans hslot.symm)
        rw [if_pos hxk, reverted, if_pos ⟨List.mem_singleton.mpr hxk, hmove⟩]
      · rw [if_neg hxk, reverted_of_not_mem (by simpa using hxk)]
    · have hrev : s.reversal k = some (.reverted e.headset h.claimant) := by
        rw [reversal, he, Option.filter_some, if_pos hmove, Option.bind_some, hh]
        rfl
      rw [hrev]
      exact Mlc.logs_notify _ _
  · obtain ⟨a, ha, hslots⟩ := expireOrder_idle (cfg := cfg) ho hd fun e he =>
      Bool.eq_false_iff.mpr fun h => hm ⟨e, he, h⟩
    rw [ha]
    have hrev : s.reversal k = none := by
      unfold reversal
      cases he : s.entryAt k with
      | none => rfl
      | some e =>
        rw [Option.filter_some, if_neg fun h => hm ⟨e, he, h⟩]
        rfl
    refine ⟨?_, hrev ▸ Mlc.Logs.refl _, rfl, hslots⟩
    refine (List.map_id _).symm.trans (List.map_congr_left fun x hx => (if_neg ?_).symm)
    rintro ⟨hk, hmove⟩
    exact hm ⟨x, List.mem_singleton.mp hk ▸ entryAt_of_nodup hn hx, hmove⟩

theorem entryAt_of_map {t : State} {f : ServeEntry → ServeEntry} (ht : t.re.serve = s.re.serve.map f)
    (hs : ∀ e, (f e).slot = e.slot) (hk : ∀ e, e.slot = k → f e = e) : t.entryAt k = s.entryAt k := by
  have hp : ((fun e : ServeEntry => decide (e.slot = k)) ∘ f) = fun e => decide (e.slot = k) :=
    funext fun e => by simp [hs]
  unfold entryAt
  rw [ht, List.find?_map, hp]
  cases hx : s.re.serve.find? fun e => e.slot = k with
  | none => rfl
  | some x => exact congrArg some (hk x (mem_of_entryAt hx).2)

theorem moved_congr {a b : Apc} {e : ServeEntry} (h : a.slot e.slot = b.slot e.slot) : e.moved a = e.moved b := by
  unfold ServeEntry.moved
  rw [h]

theorem slots_map {f : ServeEntry → ServeEntry} (hf : ∀ e, (f e).slot = e.slot) (l : List ServeEntry) :
    (l.map f).map ServeEntry.slot = l.map ServeEntry.slot := by
  rw [List.map_map]
  exact List.map_congr_left fun e _ => hf e

theorem reversal_congr {t : State} (he : t.entryAt k = s.entryAt k) (ha : t.apc.slot k = s.apc.slot k) :
    t.reversal k = s.reversal k := by
  unfold reversal
  rw [he]
  cases hx : s.entryAt k with
  | none => rfl
  | some x =>
    obtain ⟨-, hslot⟩ := mem_of_entryAt hx
    rw [Option.filter_some, Option.filter_some, moved_congr (hslot ▸ ha)]

theorem reverted_reverted {a b : Apc} {ks : List Nat} (hk : k ∉ ks) (hs : ∀ j, j ≠ k → b.slot j = a.slot j)
    (e : ServeEntry) : reverted cfg b ks (reverted cfg a [k] e) = reverted cfg a (k :: ks) e := by
  by_cases hek : e.slot = k
  · have hout : (reverted cfg a [k] e).slot ∉ ks := by rwa [slot_reverted, hek]
    rw [reverted_of_not_mem hout]
    simp [reverted, hek]
  · rw [reverted_of_not_mem (l := [k]) (by simpa using hek), reverted, reverted, moved_congr (hs e.slot hek)]
    simp [hek]

/-- The orders of the slots `l` expire one after another. -/
theorem expireOrders_effect {l : List Nat} (hl : l.Nodup) (hn : (s.re.serve.map ServeEntry.slot).Nodup)
    (ho : ∀ k ∈ l, ∃ o, (s.apc.slot k).order = some o ∧ 4 ≤ o.age + 1) :
    (l.foldl (fun s k => s.expireOrder cfg k) s).re.serve = s.re.serve.map (reverted cfg s.apc l) ∧
      s.mlc.Logs (l.filterMap s.reversal) 0 (l.foldl (fun s k => s.expireOrder cfg k) s).mlc ∧
      (l.foldl (fun s k => s.expireOrder cfg k) s).tqu = s.tqu := by
  induction l generalizing s with
  | nil =>
    refine ⟨(List.map_id _).symm.trans (List.map_congr_left fun e _ => (if_neg fun h => ?_).symm), .refl _, rfl⟩
    cases h.1
  | cons k ks ih =>
    obtain ⟨hk, hks⟩ := List.nodup_cons.mp hl
    obtain ⟨o, hko, hd⟩ := ho k List.mem_cons_self
    obtain ⟨hserve, hlogs, htqu, hother⟩ := expireOrder_effect (cfg := cfg) hn hko hd
    have hne : ∀ j ∈ ks, j ≠ k := fun j hj hjk => hk (hjk ▸ hj)
    have hn' : ((s.expireOrder cfg k).re.serve.map ServeEntry.slot).Nodup := by
      rw [hserve, slots_map (slot_reverted cfg s.apc [k])]
      exact hn
    obtain ⟨hserve', hlogs', htqu'⟩ := ih (s := s.expireOrder cfg k) hks hn'
      fun j hj => by
        rw [hother j (hne j hj)]
        exact ho j (List.mem_cons_of_mem _ hj)
    rw [List.foldl_cons]
    refine ⟨?_, ?_, htqu'.trans htqu⟩
    · rw [hserve', hserve, List.map_map]
      exact List.map_congr_left fun e _ => reverted_reverted hk hother e
    · have hrev : ks.filterMap (s.expireOrder cfg k).reversal = ks.filterMap s.reversal :=
        List.filterMap_congr fun j hj => reversal_congr
          (entryAt_of_map hserve (slot_reverted cfg s.apc [k]) fun e he =>
            reverted_of_not_mem (by simpa [he] using hne j hj) ..) (hother j (hne j hj))
      have := hlogs.trans hlogs'
      rw [hrev] at this
      rw [List.filterMap_cons]
      cases hr : s.reversal k with
      | none => rwa [hr] at this
      | some x => rwa [hr] at this

theorem slot_ageOrders (a : Apc) (k : Nat) :
    Apc.slot { a with slots := a.slots.map AirSlot.ageOrder } k = (a.slot k).ageOrder := by
  unfold Apc.slot
  rw [List.getElem?_map]
  cases a.slots[k]? <;> rfl

/-- APC's part of a mark, at RE and MLC (R106). -/
theorem markOrders_effect (cfg : Settings) (hn : (s.re.serve.map ServeEntry.slot).Nodup) :
    (s.markOrders cfg).re.serve = s.re.serve.map (reverted cfg s.apc s.apc.dueOrders) ∧
      s.mlc.Logs (s.apc.dueOrders.filterMap s.reversal) 0 (s.markOrders cfg).mlc ∧ (s.markOrders cfg).tqu = s.tqu := by
  let aged := s.onApc fun a => { a with slots := a.slots.map AirSlot.ageOrder }
  have hmoved : ∀ e : ServeEntry, e.moved aged.apc = e.moved s.apc := fun e => by
    unfold ServeEntry.moved
    rw [show aged.apc.slot e.slot = _ from slot_ageOrders s.apc e.slot]
    cases hs : s.apc.slot e.slot with
    | mk st o => cases o <;> rfl
  have hrev : aged.reversal = s.reversal := by
    funext k
    unfold reversal
    exact congrArg (fun p => ((s.entryAt k).filter p).bind _) (funext hmoved)
  have hage : reverted cfg aged.apc s.apc.dueOrders = reverted cfg s.apc s.apc.dueOrders := by
    funext e
    unfold reverted
    rw [hmoved]
  have h := expireOrders_effect (cfg := cfg) (s := aged) (List.nodup_range.filter _ : s.apc.dueOrders.Nodup) hn
    fun k hk => by
      have hdue := (List.mem_filter.mp hk).2
      rw [show aged.apc.slot k = _ from slot_ageOrders s.apc k]
      cases hs : s.apc.slot k with
      | mk st o =>
        rw [hs] at hdue
        cases o with
        | none => cases hdue
        | some o => exact ⟨_, rfl, Nat.le_succ_of_le (of_decide_eq_true hdue)⟩
  obtain ⟨hserve, hlogs, htqu⟩ := h
  exact ⟨hserve.trans (congrArg (List.map · s.re.serve) hage), hrev ▸ hlogs, htqu⟩

end

end State

end Sys2Proof.Machine
end

section
/-!
# The serve table through a mark

A mark goes along the table entry by entry: `State.foldl_table` is that induction, used for the expiries, the rings and the
releases.
-/

namespace Sys2Proof.Machine

namespace State

/-! ## Steps along the table -/

/-- From `s` to `t` these notices are sent and this many departures counted, and the REPORT queue stays. -/
def Turns (ns : List Notice) (d : Nat) (s t : State) : Prop :=
  s.mlc.Logs ns d t.mlc ∧ t.tqu.report = s.tqu.report

theorem Turns.refl (s : State) : s.Turns [] 0 s := ⟨.refl _, rfl⟩

theorem Turns.trans {ns ns' : List Notice} {d d' : Nat} {a b c : State} (h : a.Turns ns d b) (g : b.Turns ns' d' c) :
    a.Turns (ns ++ ns') (d + d') c := ⟨h.1.trans g.1, g.2.trans h.2⟩

theorem Turns.foldl {α : Type} {F : State → α → State} (hF : ∀ (s : State) a, s.Turns [] 0 (F s a)) (l : List α)
    (s : State) : s.Turns [] 0 (l.foldl F s) := by
  induction l generalizing s with
  | nil => exact .refl s
  | cons a as ih => exact (hF s a).trans (ih _)

/-- A step for each entry of the table in turn, each of which turns its own item of the table into `h e`. -/
theorem foldl_table {op : State → ServeEntry → State} {g : ServeEntry → ServeEntry} {h : ServeEntry → Option ServeEntry}
    {n : ServeEntry → List Notice} {d : ServeEntry → Nat} (hh : ∀ e x, h e = some x → x.slot = e.slot)
    (hg : ∀ e, (g e).slot = e.slot)
    (hop : ∀ (s : State) (e : ServeEntry) (pre post : List ServeEntry), s.re.serve = pre ++ g e :: post →
      (∀ x ∈ pre ++ post, x.slot ≠ e.slot) →
      (op s e).re.serve = pre ++ ((h e).toList ++ post) ∧ s.Turns (n e) (d e) (op s e))
    {l : List ServeEntry} (hl : (l.map ServeEntry.slot).Nodup) {s : State} {pre : List ServeEntry}
    (hs : s.re.serve = pre ++ l.map g) (hp : ∀ x ∈ pre, x.slot ∉ l.map ServeEntry.slot) :
    (l.foldl op s).re.serve = pre ++ l.filterMap h ∧ s.Turns (l.flatMap n) (l.map d).sum (l.foldl op s) := by
  induction l generalizing s pre with
  | nil => exact ⟨hs, .refl s⟩
  | cons e es ih =>
    obtain ⟨hne, hes⟩ := List.nodup_cons.mp hl
    have hpost : ∀ x ∈ pre ++ es.map g, x.slot ≠ e.slot := by
      intro x hx hxe
      rcases List.mem_append.mp hx with hx | hx
      · exact hp x hx (hxe ▸ List.mem_cons_self)
      · obtain ⟨y, hy, rfl⟩ := List.mem_map.mp hx
        exact hne (List.mem_map.mpr ⟨y, hy, (hg y).symm.trans hxe⟩)
    obtain ⟨hserve, hturn⟩ := hop s e pre (es.map g) hs hpost
    obtain ⟨hserve', hturn'⟩ := ih hes (s := op s e) (pre := pre ++ (h e).toList)
      (by rw [hserve, List.append_assoc]) fun x hx hxs => by
        rcases List.mem_append.mp hx with hx | hx
        · exact hp x hx (List.mem_cons_of_mem _ hxs)
        · exact hne (hh e x (Option.mem_toList.mp hx) ▸ hxs)
    refine ⟨?_, ?_⟩
    · rw [List.foldl_cons, hserve', List.append_assoc, List.filterMap_cons]
      cases h e <;> rfl
    · exact hturn.trans hturn'

section
variable {s : State} {pre post : List ServeEntry} {x : ServeEntry} {k : Nat}

theorem entryAt_of_append (hs : s.re.serve = pre ++ x :: post) (hx : x.slot = k) (hp : ∀ y ∈ pre ++ post, y.slot ≠ k) :
    s.entryAt k = some x := by
  unfold entryAt
  rw [hs, List.find?_append, List.find?_eq_none.mpr fun y hy => by simpa using hp y (List.mem_append_left _ hy),
    List.find?_cons_of_pos (by simpa using hx)]
  rfl

theorem serve_updateEntry_append (hs : s.re.serve = pre ++ x :: post) (hx : x.slot = k)
    (hp : ∀ y ∈ pre ++ post, y.slot ≠ k) (f : ServeEntry → ServeEntry) :
    (s.updateEntry k f).re.serve = pre ++ f x :: post := by
  have hid : ∀ l : List ServeEntry, (∀ y ∈ l, y.slot ≠ k) → (l.map fun e => if e.slot = k then f e else e) = l :=
    fun l hl => (List.map_congr_left fun y hy => if_neg (hl y hy)).trans (List.map_id _)
  change s.re.serve.map _ = _
  rw [hs, List.map_append, List.map_cons, if_pos hx, hid pre fun y hy => hp y (List.mem_append_left _ hy),
    hid post fun y hy => hp y (List.mem_append_right _ hy)]

theorem serve_releaseEntry_append (hs : s.re.serve = pre ++ x :: post) (hx : x.slot = k)
    (hp : ∀ y ∈ pre ++ post, y.slot ≠ k) : (s.releaseEntry k).re.serve = pre ++ post := by
  have hid : ∀ l : List ServeEntry, (∀ y ∈ l, y.slot ≠ k) → (l.filter fun e => e.slot != k) = l :=
    fun l hl => List.filter_eq_self.mpr fun y hy => by simpa using hl y hy
  rw [releaseEntry_eq (entryAt_of_append hs hx hp)]
  change s.re.serve.filter _ = _
  rw [hs, List.filter_append, List.filter_cons_of_neg (by simpa using hx),
    hid pre fun y hy => hp y (List.mem_append_left _ hy), hid post fun y hy => hp y (List.mem_append_right _ hy)]

theorem turns_releaseEntry (s : State) (k : Nat) : s.Turns [] 0 (s.releaseEntry k) := by
  cases he : s.entryAt k with
  | none => rw [releaseEntry_none he]; exact .refl s
  | some e =>
    rw [releaseEntry_eq he]
    refine ⟨.refl _, ?_⟩
    dsimp only
    split <;> rfl

theorem turns_failClaim (s : State) (x : Headset) : s.Turns [] 0 (s.failClaim x) := by
  cases hc : (s.surveyFor x).bind SurveyEntry.claim with
  | none =>
    unfold failClaim
    rw [endClaim_none hc]
    exact ⟨.refl _, rfl⟩
  | some c =>
    unfold failClaim
    rw [endClaim_eq hc]
    exact ⟨.refl _, rfl⟩

end

end State

/-! ## Expiries (R9, R12, R18, R20) -/

/-- What the mark leaves of an entry whose expiry is `x`. -/
def ServeEntry.expired (cfg : Settings) (e : ServeEntry) : Option Expiry → Option ServeEntry
  | none => some e.tick
  | some .handing | some .cutLink => some (e.tick.toLost cfg)
  | some .arrival | some .rescue => none

/-- The notices of an expiry of an entry. -/
def ServeEntry.expiryNotices (e : ServeEntry) : Option Expiry → List Notice
  | none => []
  | some .handing | some .cutLink => [.lost e.headset]
  | some .arrival => if e.origin = some .reclaim then [.departed e.headset] else []
  | some .rescue => [.departed e.headset]

/-- The departures that an expiry of an entry counts. -/
def ServeEntry.expiryDepartures (e : ServeEntry) : Option Expiry → Nat
  | none | some .handing | some .cutLink => 0
  | some .arrival => if e.origin = some .reclaim then 1 else 0
  | some .rescue => 1

theorem ServeEntry.slot_expired {cfg : Settings} {e x : ServeEntry} {d : Option Expiry} (h : e.expired cfg d = some x) :
    x.slot = e.slot := by
  unfold ServeEntry.expired at h
  split at h <;> cases h <;> rfl

namespace State

section
variable {s : State} {pre post : List ServeEntry} {e : ServeEntry}

theorem turns_enterLost (he : s.entryAt e.slot = some e.tick) (cfg : Settings) :
    s.Turns [.lost e.headset] 0 (s.enterLost cfg e.slot) := by
  rw [enterLost_eq he]
  exact ⟨Mlc.logs_notify _ _, rfl⟩

theorem turns_departEntry (he : s.entryAt e.slot = some e.tick) : s.Turns [.departed e.headset] 1 (s.departEntry e.slot) := by
  rw [departEntry_eq he]
  have h := (turns_releaseEntry s e.slot).1.trans ((Mlc.logs_notify (.departed e.headset) _).trans (Mlc.logs_departure _))
  exact ⟨h, (turns_releaseEntry s e.slot).2⟩

/-- The expiry of an entry, ticked, in its place in the table. -/
theorem expire_effect (cfg : Settings) (hs : s.re.serve = pre ++ e.tick :: post) (hp : ∀ y ∈ pre ++ post, y.slot ≠ e.slot)
    (d : Option Expiry) :
    (d.elim s fun x => s.expire cfg e.slot x).re.serve = pre ++ ((e.expired cfg d).toList ++ post) ∧
      s.Turns (e.expiryNotices d) (e.expiryDepartures d) (d.elim s fun x => s.expire cfg e.slot x) := by
  have he : s.entryAt e.slot = some e.tick := entryAt_of_append hs rfl hp
  have hlost : (s.enterLost cfg e.slot).re.serve = pre ++ e.tick.toLost cfg :: post := by
    rw [enterLost_eq he]
    exact serve_updateEntry_append hs rfl hp _
  have hleft : (s.releaseEntry e.slot).re.serve = pre ++ post := serve_releaseEntry_append hs rfl hp
  have hdepart : (s.departEntry e.slot).re.serve = pre ++ post := by
    rw [departEntry_eq he]
    exact hleft
  rcases d with _ | d
  · exact ⟨hs, .refl s⟩
  · cases d with
    | handing => exact ⟨hlost, turns_enterLost he cfg⟩
    | cutLink => exact ⟨hlost, turns_enterLost he cfg⟩
    | rescue => exact ⟨hdepart, turns_departEntry he⟩
    | arrival =>
      change (s.expireArrival e.slot).re.serve = _ ∧ s.Turns _ _ (s.expireArrival e.slot)
      unfold expireArrival ServeEntry.expiryNotices ServeEntry.expiryDepartures
      rw [he]
      dsimp only
      by_cases ho : e.origin = some .reclaim
      · rw [if_pos (show e.tick.origin = some .reclaim from ho), if_pos ho, if_pos ho]
        exact ⟨hdepart, turns_departEntry he⟩
      · rw [if_neg (show ¬e.tick.origin = some .reclaim from ho), if_neg ho, if_neg ho]
        exact ⟨hleft, (turns_releaseEntry s e.slot).1, (turns_releaseEntry s e.slot).2⟩

/-! ## RE's part of a mark -/

theorem foldl_expiries {F : State → Nat × Expiry → State} (D : ServeEntry → Option Expiry) (l : List ServeEntry)
    (s : State) :
    (l.filterMap fun e => (D e).map fun x => (e.slot, x)).foldl F s =
      l.foldl (fun s e => (D e).elim s fun x => F s (e.slot, x)) s := by
  rw [List.foldl_filterMap]
  congr 1
  funext t e
  cases D e <;> rfl

/-- Before the STANDING of a mark the table is as the counters and the expiries leave it. -/
theorem markRe_effect (cfg : Settings) (hn : (s.re.serve.map ServeEntry.slot).Nodup) :
    ∃ t : State, s.markRe cfg = t.buildStanding cfg ∧
      t.re.serve = s.re.serve.filterMap (fun e => e.expired cfg (s.entryDue cfg e)) ∧
      s.Turns (s.re.serve.flatMap fun e => e.expiryNotices (s.entryDue cfg e))
        (s.re.serve.map fun e => e.expiryDepartures (s.entryDue cfg e)).sum t := by
  let aged := (s.re.surveyed (SurveyEntry.agesOut cfg)).foldl (fun s h => s.removeSurvey h) (s.onRe Re.tick)
  let stale := (s.re.surveyed (SurveyEntry.knowledgeEnds cfg)).foldl (fun s h => s.updateSurvey h SurveyEntry.forget) aged
  let failed := (s.re.surveyed SurveyEntry.replyEnds).foldl (fun s h => s.failClaim h) stale
  have hserve : failed.re.serve = [] ++ s.re.serve.map ServeEntry.tick := by
    rw [serve_foldl _ (fun s x => serve_failClaim x s), serve_foldl (fun s x => s.updateSurvey x SurveyEntry.forget)
      (fun _ _ => rfl), serve_foldl (fun s x => s.removeSurvey x) (fun _ _ => rfl)]
    rfl
  have hturn : s.Turns [] 0 failed := by
    have h1 : s.Turns [] 0 (s.onRe Re.tick) := ⟨.refl _, rfl⟩
    have h2 := Turns.foldl (F := fun s h => s.removeSurvey h) (fun _ _ => ⟨.refl _, rfl⟩)
      (s.re.surveyed (SurveyEntry.agesOut cfg)) (s.onRe Re.tick)
    have h3 := Turns.foldl (F := fun s h => s.updateSurvey h SurveyEntry.forget) (fun _ _ => ⟨.refl _, rfl⟩)
      (s.re.surveyed (SurveyEntry.knowledgeEnds cfg)) aged
    have h4 := Turns.foldl (F := fun s h => s.failClaim h) turns_failClaim (s.re.surveyed SurveyEntry.replyEnds) stale
    exact ((h1.trans h2).trans h3).trans h4
  have hfold := foldl_table (op := fun t e => (s.entryDue cfg e).elim t fun x => t.expire cfg e.slot x)
    (g := ServeEntry.tick)
    (fun e x hx => ServeEntry.slot_expired hx) (fun e => rfl)
    (fun t e pre post ht hp => expire_effect cfg ht hp (s.entryDue cfg e)) (pre := []) hn hserve fun x hx => by cases hx
  refine ⟨_, ?_, hfold.1, ?_⟩
  · unfold markRe
    dsimp only
    rw [foldl_expiries]
  · have h := hturn.trans hfold.2
    rwa [List.nil_append, Nat.zero_add] at h

/-! ## VP's part of a mark -/

/-- An entry with its ring as the mark leaves it. -/
def ringed (cfg : Settings) (e : ServeEntry) : ServeEntry := { e with ring := (e.play cfg).1 }

theorem turns_mixEntry (s : State) (e : ServeEntry) : s.Turns [] 0 (s.mixEntry e) := by
  rw [mixEntry_eq]
  exact ⟨Mlc.logs_countMix _ _ _, rfl⟩

theorem serve_mixEntry (s : State) (e : ServeEntry) : (s.mixEntry e).re.serve = s.re.serve := by
  rw [mixEntry_eq]
  rfl

/-- The rings played, the DRAINING entries whose rings were empty released (R118, R119). -/
theorem markVp_effect (cfg : Settings) (hn : (s.re.serve.map ServeEntry.slot).Nodup) :
    (s.markVp cfg).re.serve = s.re.serve.filterMap (fun e => if e.drained then none else some (ringed cfg e)) ∧
      s.Turns [] 0 (s.markVp cfg) := by
  let played := s.re.serve.foldl (State.playRing cfg) s
  let mixed := ((played.re.serve.filter ServeEntry.mixed).foldl State.mixEntry played).onVp Vp.consume
  have hplay := foldl_table (op := State.playRing cfg) (g := id) (h := fun e => some (ringed cfg e)) (n := fun _ => [])
    (d := fun _ => 0) (fun e x hx => by cases hx; rfl) (fun e => rfl)
    (fun t e pre post ht hp => by
      rw [playRing_eq]
      exact ⟨serve_updateEntry_append ht rfl hp _, Mlc.logs_sendPlay cfg e _, rfl⟩)
    hn (s := s) (pre := []) (List.map_id _).symm fun x hx => by cases hx
  have hmixed : mixed.re.serve = [] ++ s.re.serve.map (ringed cfg) := by
    have h : mixed.re.serve = played.re.serve := serve_foldl State.mixEntry serve_mixEntry _ _
    rw [h, hplay.1, List.filterMap_eq_map']
  have hsilent : ∀ {a t : State}, a.Turns (s.re.serve.flatMap fun _ => []) (s.re.serve.map fun _ => 0).sum t →
      a.Turns [] 0 t := fun h => by
    rw [List.flatMap_eq_nil_iff.mpr fun _ _ => rfl] at h
    simpa using h
  have hturn : s.Turns [] 0 mixed := by
    have h := (hsilent hplay.2).trans (Turns.foldl turns_mixEntry (played.re.serve.filter ServeEntry.mixed) played)
    exact ⟨h.1, h.2⟩
  have hrelease := foldl_table (op := fun t e => if e.drained then t.releaseEntry e.slot else t)
    (g := ringed cfg) (h := fun e => if e.drained then none else some (ringed cfg e)) (n := fun _ => []) (d := fun _ => 0)
    (fun e x hx => by
      split at hx <;> cases hx
      rfl) (fun e => rfl) (fun t e pre post ht hp => by
      by_cases hd : e.drained = true
      · rw [if_pos hd, if_pos hd]
        exact ⟨serve_releaseEntry_append ht rfl hp, turns_releaseEntry t e.slot⟩
      · rw [if_neg hd, if_neg hd]
        exact ⟨ht, .refl t⟩)
    hn (pre := []) hmixed fun x hx => by cases hx
  have heq : s.markVp cfg = s.re.serve.foldl (fun t e => if e.drained then t.releaseEntry e.slot else t) mixed := by
    unfold markVp
    dsimp only
    rw [List.foldl_map, List.foldl_filter]
  rw [heq]
  exact ⟨hrelease.1, hturn.trans (hsilent hrelease.2)⟩

end

end State

end Sys2Proof.Machine
end

section
/-!
# A CYCLE_MARK: the serve table, the STANDING and the notices it leaves
-/

namespace Sys2Proof.Machine

/-! ## The parts of a mark put together -/

/-- The hold timers of a mark leave the pool and the REPORT queue (R160, R161). -/
theorem Tqu.mark_beside (cfg : Settings) (t : Tqu) :
    (t.mark cfg).report = t.report ∧ (t.mark cfg).pool = t.pool ∧ (t.mark cfg).reached = t.reached := by
  have hqueue : ∀ (n : Nat) (u : Tqu), (u.queueHold n).report = u.report ∧ (u.queueHold n).pool = u.pool ∧
      (u.queueHold n).reached = u.reached := by
    intro n u
    unfold Tqu.queueHold
    split <;> exact ⟨rfl, rfl, rfl⟩
  unfold Tqu.mark Tqu.markOwn
  split
  · unfold Tqu.holdOnset
    split
    · exact hqueue _ _
    · exact ⟨rfl, rfl, rfl⟩
  · exact ⟨rfl, rfl, rfl⟩

namespace State

theorem entryDue_congr {s t : State} (hp : t.tqu.pool = s.tqu.pool) (hr : t.tqu.reached = s.tqu.reached) (cfg : Settings) :
    t.entryDue cfg = s.entryDue cfg := by
  have hw : ∀ h, t.tqu.rivalWaits h = s.tqu.rivalWaits h := fun h => by
    unfold Tqu.rivalWaits Tqu.waiting
    rw [hp, hr]
  funext e
  unfold entryDue rescueWaits
  rw [hw]

/-- The serve table after the orders of a mark (R17, R106). -/
def orderedByMark (cfg : Settings) (s : State) : List ServeEntry :=
  s.re.serve.map (reverted cfg s.apc s.apc.dueOrders)

/-- The serve table after the expiries of a mark (R9, R12, R18, R20). -/
def leftByMark (cfg : Settings) (s : State) : List ServeEntry :=
  (s.orderedByMark cfg).filterMap fun e => e.expired cfg (s.entryDue cfg e)

theorem nodup_filterMap_slots {h : ServeEntry → Option ServeEntry} (hh : ∀ e x, h e = some x → x.slot = e.slot)
    {l : List ServeEntry} (hl : (l.map ServeEntry.slot).Nodup) : ((l.filterMap h).map ServeEntry.slot).Nodup := by
  refine hl.sublist ?_
  clear hl
  induction l with
  | nil => exact .slnil
  | cons e es ih =>
    rw [List.filterMap_cons]
    cases hx : h e with
    | none => exact ih.cons _
    | some x =>
      rw [List.map_cons, List.map_cons, hh e x hx]
      exact ih.cons_cons _

theorem nodup_leftByMark (cfg : Settings) {s : State} (hn : (s.re.serve.map ServeEntry.slot).Nodup) :
    ((s.leftByMark cfg).map ServeEntry.slot).Nodup :=
  nodup_filterMap_slots (fun _ _ => ServeEntry.slot_expired)
    (by rw [orderedByMark, slots_map (slot_reverted cfg _ _)]; exact hn)

/-- The entries that a STANDING names where one is due and REPORT has room, else none (R51). -/
def standingNames (cfg : Settings) (s : State) : List ServeEntry :=
  if s.tqu.report.length < 2 then picked cfg s.re.serve else []

theorem buildStanding_eq (cfg : Settings) (s : State) :
    s.buildStanding cfg =
      { s with
        re := { s.re with serve := s.re.serve.map (ServeEntry.markNamed (s.standingNames cfg)) }
        tqu := { s.tqu with
          report := s.tqu.report ++ if s.standingNames cfg = [] then [] else [standingOf (s.standingNames cfg)] } } := by
  by_cases h : s.standingNames cfg = []
  · have hidle : s.buildStanding cfg = s := by
      refine buildStanding_idle ?_
      unfold standingNames at h
      by_cases hr : s.tqu.report.length < 2
      · rw [if_pos hr] at h
        exact .inr h
      · exact .inl (Nat.not_lt.mp hr)
    have hid : s.re.serve.map (ServeEntry.markNamed []) = s.re.serve := List.map_id _
    rw [hidle, h, hid, if_pos rfl, List.append_nil]
  · unfold standingNames at h ⊢
    by_cases hr : s.tqu.report.length < 2
    · rw [if_pos hr] at h ⊢
      rw [buildStanding_sends hr h, if_neg h]
    · exact absurd (if_neg hr) h

/-- What a mark leaves of the serve table, adds to REPORT and sends to MLC. -/
theorem mark_effect (cfg : Settings) {s : State} (hn : (s.re.serve.map ServeEntry.slot).Nodup) {named : List ServeEntry}
    (hnamed : named = if s.tqu.report.length < 2 then picked cfg (s.leftByMark cfg) else []) :
    (s.mark cfg).re.serve =
        ((s.leftByMark cfg).map (ServeEntry.markNamed named)).filterMap
          (fun e => if e.drained then none else some (ringed cfg e)) ∧
      (s.mark cfg).tqu.report = s.tqu.report ++ (if named = [] then [] else [standingOf named]) ∧
      s.mlc.Logs
        (s.apc.dueOrders.filterMap s.reversal ++
          (s.orderedByMark cfg).flatMap fun e => e.expiryNotices (s.entryDue cfg e))
        ((s.orderedByMark cfg).map fun e => e.expiryDepartures (s.entryDue cfg e)).sum (s.mark cfg).mlc := by
  obtain ⟨hserve, hlogs, htqu⟩ := markOrders_effect cfg hn
  let held := (s.markOrders cfg).onTqu (Tqu.mark cfg)
  obtain ⟨hreport, hpool, hreached⟩ := Tqu.mark_beside cfg (s.markOrders cfg).tqu
  rw [htqu] at hreport hpool hreached
  have hdue : held.entryDue cfg = s.entryDue cfg := entryDue_congr (t := held) (by rw [← hpool, ← htqu]; rfl)
    (by rw [← hreached, ← htqu]; rfl) cfg
  have hheld : held.re.serve = s.orderedByMark cfg := hserve
  have hheldn : (held.re.serve.map ServeEntry.slot).Nodup := by
    rw [hheld, orderedByMark, slots_map (slot_reverted cfg _ _)]
    exact hn
  obtain ⟨t, ht, htserve, htturn⟩ := markRe_effect cfg hheldn
  rw [hdue, hheld] at htserve htturn
  have htreport : t.tqu.report = s.tqu.report :=
    htturn.2.trans ((congrArg (fun u => (Tqu.mark cfg u).report) htqu).trans hreport)
  have htnames : t.standingNames cfg = named := by
    rw [hnamed, standingNames, htreport, htserve]
    rfl
  have hmark : s.mark cfg = (t.buildStanding cfg).markVp cfg := congrArg (State.markVp cfg) ht
  have hbuilt := buildStanding_eq cfg t
  rw [htnames, htreport, htserve] at hbuilt
  have hbuiltn : ((t.buildStanding cfg).re.serve.map ServeEntry.slot).Nodup := by
    rw [hbuilt]
    change (((s.leftByMark cfg).map _).map ServeEntry.slot).Nodup
    rw [slots_map (ServeEntry.slot_markNamed named)]
    exact nodup_leftByMark cfg hn
  obtain ⟨hfinal, hflogs, hfreport⟩ := markVp_effect cfg hbuiltn
  rw [hmark]
  refine ⟨?_, ?_, ?_⟩
  · rw [hfinal, hbuilt]
    rfl
  · rw [hfreport, hbuilt]
  · have hbmlc : (t.buildStanding cfg).mlc = t.mlc := by rw [hbuilt]
    rw [hbmlc] at hflogs
    have h := (hlogs.trans htturn.1).trans hflogs
    rwa [List.append_nil, Nat.add_zero, Nat.zero_add] at h

end State

end Sys2Proof.Machine
end

section
/-!
# The STANDING of a mark, and the serve table and notices it leaves (O42)
-/

namespace Sys2Proof.Machine

/-! ## What an expiry leaves of its entry -/

/-- An expiry takes the entry out of the table. -/
def Expiry.removes : Option Expiry → Bool
  | some .arrival | some .rescue => true
  | none | some .handing | some .cutLink => false

/-- An expiry sends the entry to LOST. -/
def Expiry.loses : Option Expiry → Bool
  | some .handing | some .cutLink => true
  | none | some .arrival | some .rescue => false

theorem ServeEntry.expired_eq (cfg : Settings) (e : ServeEntry) (d : Option Expiry) :
    e.expired cfg d =
      if Expiry.removes d then none else some (if Expiry.loses d then e.tick.toLost cfg else e.tick) := by
  rcases d with _ | d
  · rfl
  · cases d <;> rfl

theorem filterMap_ite_none {α β : Type} (p : α → Bool) (f : α → β) (l : List α) :
    (l.filterMap fun a => if p a then none else some (f a)) = (l.filter fun a => !p a).map f := by
  induction l with
  | nil => rfl
  | cons a as ih => by_cases h : p a = true <;> simp [h, ih]

theorem flatMap_toList {α β : Type} (f : α → Option β) (l : List α) :
    (l.flatMap fun a => (f a).toList) = l.filterMap f := by
  induction l with
  | nil => rfl
  | cons a as ih =>
    rw [List.flatMap_cons, List.filterMap_cons, ih]
    cases f a <;> rfl

theorem sum_map_ite {α : Type} (p : α → Bool) (l : List α) :
    (l.map fun a => if p a then 1 else 0).sum = (l.filter p).length := by
  induction l with
  | nil => rfl
  | cons a as ih =>
    by_cases h : p a = true
    · rw [List.map_cons, List.sum_cons, if_pos h, List.filter_cons_of_pos h, List.length_cons, ih, Nat.add_comm]
    · rw [List.map_cons, List.sum_cons, if_neg h, List.filter_cons_of_neg h, ih, Nat.zero_add]

theorem State.lost_of_entryDue {cfg : Settings} {s : State} {e : ServeEntry} (hd : s.entryDue cfg e = some .rescue) :
    e.state = .lost := by
  cases hs : e.state with
  | lost => rfl
  | arriving => rw [State.entryDue_arriving hs] at hd; split at hd <;> cases hd
  | served => rw [State.entryDue_serving (.inl hs)] at hd; split at hd <;> cases hd
  | offered => rw [State.entryDue_serving (.inr hs)] at hd; split at hd <;> cases hd
  | handing => rw [State.entryDue_handing hs] at hd; split at hd <;> cases hd
  | draining => rw [State.entryDue_draining hs] at hd; cases hd

section
variable {cfg : Settings} {s : State} {e : ServeEntry}

theorem removes_arriving (hs : e.state = .arriving) :
    Expiry.removes (s.entryDue cfg e) = e.arrivalTimer.any (· ≤ 1) := by
  rw [State.entryDue_arriving hs]
  cases e.arrivalTimer.any (· ≤ 1) <;> rfl

theorem removes_lost (hs : e.state = .lost) :
    Expiry.removes (s.entryDue cfg e) = (e.rescueTimer.any (· ≤ 1) && !s.rescueWaits e) := by
  rw [State.entryDue_lost hs]
  cases (e.rescueTimer.any (· ≤ 1) && !s.rescueWaits e) <;> rfl

theorem removes_other (ha : e.state ≠ .arriving) (hl : e.state ≠ .lost) : Expiry.removes (s.entryDue cfg e) = false := by
  cases hd : s.entryDue cfg e with
  | none => rfl
  | some x =>
    cases x with
    | arrival => exact absurd (State.arriving_of_entryDue hd).1 ha
    | rescue => exact absurd (State.lost_of_entryDue hd) hl
    | handing => rfl
    | cutLink => rfl

theorem loses_serving (hs : e.state = .served ∨ e.state = .offered) :
    Expiry.loses (s.entryDue cfg e) = (!e.heard && decide (cfg.cutLink ≤ min 255 (e.lossRun + 1))) := by
  rw [State.entryDue_serving hs]
  cases (!e.heard && decide (cfg.cutLink ≤ min 255 (e.lossRun + 1))) <;> rfl

theorem loses_handing (hs : e.state = .handing) :
    Expiry.loses (s.entryDue cfg e) = e.handing.any fun h => h.phase == .moveSent && h.timer.any (· ≤ 1) := by
  rw [State.entryDue_handing hs]
  cases (e.handing.any fun h => h.phase == .moveSent && h.timer.any (· ≤ 1)) <;> rfl

theorem loses_other (hs : e.state = .arriving ∨ e.state = .lost ∨ e.state = .draining) :
    Expiry.loses (s.entryDue cfg e) = false := by
  rcases hs with hs | hs | hs
  · rw [State.entryDue_arriving hs]
    split <;> rfl
  · rw [State.entryDue_lost hs]
    split <;> rfl
  · rw [State.entryDue_draining hs]
    rfl

end

/-- The entry departs by its expiry: it leaves from LOST or by a reclaim that did not arrive (R9, R20). -/
def ServeEntry.departsBy (e : ServeEntry) (d : Option Expiry) : Bool :=
  Expiry.removes d && (e.state == .lost || e.origin == some .reclaim)

theorem expiryNotices_eq (cfg : Settings) (s : State) (e : ServeEntry) :
    e.expiryNotices (s.entryDue cfg e) =
      (if Expiry.loses (s.entryDue cfg e) then some (Notice.lost e.headset)
        else if e.departsBy (s.entryDue cfg e) then some (.departed e.headset) else none).toList ∧
    e.expiryDepartures (s.entryDue cfg e) = if e.departsBy (s.entryDue cfg e) then 1 else 0 := by
  cases hd : s.entryDue cfg e with
  | none => exact ⟨rfl, rfl⟩
  | some x =>
    cases x with
    | handing => exact ⟨rfl, rfl⟩
    | cutLink => exact ⟨rfl, rfl⟩
    | rescue =>
      have hs := State.lost_of_entryDue hd
      simp [ServeEntry.expiryNotices, ServeEntry.expiryDepartures, ServeEntry.departsBy, Expiry.removes, Expiry.loses, hs]
    | arrival =>
      obtain ⟨hs, -⟩ := State.arriving_of_entryDue hd
      by_cases ho : e.origin = some .reclaim <;>
        simp [ServeEntry.expiryNotices, ServeEntry.expiryDepartures, ServeEntry.departsBy, Expiry.removes, Expiry.loses, hs, ho]

/-! ## The ring of an entry at a mark -/

theorem ServeEntry.ring_play (cfg : Settings) (e : ServeEntry) :
    (e.play cfg).1 =
      if e.talk = none ∨ e.state = .arriving then e.ring
      else if e.state = .draining ∨ e.state = .lost then { e.ring with frames := e.ring.frames.drop 1 }
      else if e.ring.playing = true ∨ cfg.depth ≤ e.ring.frames.length then
        { e.ring with frames := e.ring.frames.drop 1, playing := true }
      else e.ring := by
  by_cases h1 : e.talk = none ∨ e.state = .arriving
  · rw [if_pos h1, ServeEntry.play_still (by tauto)]
  · rw [if_neg h1]
    obtain ⟨ht, ha⟩ := not_or.mp h1
    by_cases h2 : e.state = .draining ∨ e.state = .lost
    · rw [if_pos h2]
      cases hf : e.ring.frames with
      | nil =>
        rw [ServeEntry.play_still (.inr (.inr (.inl ⟨h2, hf⟩))), List.drop_nil, ← hf]
      | cons f fs => rw [ServeEntry.play_draining ht h2 hf, List.drop_one, List.tail_cons]
    · rw [if_neg h2]
      have hs : e.state = .served ∨ e.state = .offered ∨ e.state = .handing := by
        cases hst : e.state <;> simp_all
      by_cases h3 : e.ring.playing = true ∨ cfg.depth ≤ e.ring.frames.length
      · rw [if_pos h3, ServeEntry.play_serving ht hs h3]
      · rw [if_neg h3, ServeEntry.play_still (.inr (.inr (.inr ⟨hs, ?_⟩)))]
        obtain ⟨hp, hl⟩ := not_or.mp h3
        exact ⟨by simpa using hp, Nat.not_le.mp hl⟩

/-- Settles O42: the STANDING by the order of `ServeEntry.ranks`; the mark by `State.mark_effect`, each expiry read off
`State.entryDue`. -/
theorem standingBuilt : Obligations.StandingBuilt := by
  unfold Obligations.StandingBuilt
  intro cfg due before picks message told
  have hpicks : ∀ l : List ServeEntry, (l.map ServeEntry.slot).Nodup → picks l (picked cfg l) :=
    fun l hl => picks_picked cfg hl
  have htold : ∀ named : List ServeEntry, ServeEntry.markNamed named = told named := fun named =>
    funext (ServeEntry.markNamed_eq named)
  have hmessage : ∀ named : List ServeEntry, standingOf named = message named := fun named => rfl
  refine ⟨fun s hn => ?_, fun record n s hrun hr hc hre hsl hapc hmlc => ?_⟩
  · intro t
    have hnil : picked cfg s.re.serve = [] ↔ ∀ e ∈ s.re.serve, ¬due e := picked_eq_nil
    refine ⟨fun h => State.buildStanding_idle (h.imp_right hnil.mpr), fun hr ⟨e, he, hdue⟩ => ?_⟩
    have hsome : picked cfg s.re.serve ≠ [] := fun h => hnil.mp h e he hdue
    refine ⟨_, hsome, hpicks _ hn, ?_⟩
    rw [← htold, ← hmessage]
    exact State.buildStanding_sends hr hsome
  · intro reverts ordered leaves falls ticked marked left played stays departs notices
    have hn : (s.re.serve.map ServeEntry.slot).Nodup := State.nodup_slots ((State.lawful_iff s).mpr ⟨hre, hsl⟩)
    let s0 := s.noteCycle n
    have htick : ∀ e : ServeEntry, e.tick = ticked e := by
      intro e
      cases hs : e.state <;> simp [ticked, ServeEntry.tick, hs]
    have hremoves : ∀ e : ServeEntry, Expiry.removes (s.entryDue cfg e) = leaves e := by
      intro e
      cases hs : e.state with
      | arriving => simp only [leaves, hs, removes_arriving hs]
      | lost =>
        simp only [leaves, hs, removes_lost hs, State.rescueWaits, Bool.not_or, Bool.and_assoc]
        rw [Option.not_isSome]
      | served => simp only [leaves, hs, removes_other (e := e) (by simp [hs]) (by simp [hs])]
      | offered => simp only [leaves, hs, removes_other (e := e) (by simp [hs]) (by simp [hs])]
      | handing => simp only [leaves, hs, removes_other (e := e) (by simp [hs]) (by simp [hs])]
      | draining => simp only [leaves, hs, removes_other (e := e) (by simp [hs]) (by simp [hs])]
    have hloses : ∀ e : ServeEntry, Expiry.loses (s.entryDue cfg e) = falls e := by
      intro e
      cases hs : e.state with
      | served => simp only [falls, hs, loses_serving (.inl hs)]
      | offered => simp only [falls, hs, loses_serving (.inr hs)]
      | handing => simp only [falls, hs, loses_handing hs]
      | arriving => simp only [falls, hs, loses_other (.inl hs)]
      | lost => simp only [falls, hs, loses_other (.inr (.inl hs))]
      | draining => simp only [falls, hs, loses_other (.inr (.inr hs))]
    have hdeparts : ∀ e : ServeEntry, e.departsBy (s.entryDue cfg e) = departs e := fun e =>
      congrArg (· && (e.state == .lost || e.origin == some .reclaim)) (hremoves e)
    have hreverts : ∀ e : ServeEntry, e.slot < 24 →
        (reverts e = true ↔ e.slot ∈ s.apc.dueOrders ∧ e.moved s.apc = true) := by
      intro e hlt
      have hin : e.slot ∈ s.apc.dueOrders ↔ (s.apc.slot e.slot).order.any PendingOrder.due = true := by
        rw [Apc.dueOrders, List.mem_filter, List.mem_range]
        exact and_iff_right hlt
      rw [hin]
      simp only [reverts, ServeEntry.moved]
      cases (s.apc.slot e.slot).order with
      | none => simp
      | some o =>
        simp only [Option.any_some, Bool.and_eq_true, PendingOrder.due, orderLimit]
        tauto
    have hslots : ∀ e ∈ s.re.serve, e.slot < 24 := fun e he =>
      (Apc.lt_of_assigned (hsl.entries e he)).trans_eq hapc.slots
    have hordered : s0.orderedByMark cfg = s.re.serve.map ordered := by
      refine List.map_congr_left fun e he => ?_
      exact (if_congr (hreverts e (hslots e he)) rfl rfl).symm
    have hleft : s0.leftByMark cfg = left := by
      unfold State.leftByMark
      rw [hordered]
      have hexpired : (fun e : ServeEntry => e.expired cfg (s.entryDue cfg e)) =
          fun e => if leaves e then none else some (marked e) := by
        funext e
        rw [ServeEntry.expired_eq, hremoves, hloses, htick]
        rfl
      refine (congrArg (List.filterMap · (s.re.serve.map ordered)) hexpired).trans (filterMap_ite_none _ _ _)
    have hleftn : (left.map ServeEntry.slot).Nodup := hleft ▸ State.nodup_leftByMark cfg (s := s0) hn
    let named := if s.tqu.report.length < 2 then picked cfg left else []
    obtain ⟨hserve, hreport, hnotices, hcounter⟩ := State.mark_effect cfg (s := s0) hn (named := named)
      (congrArg (fun l => if s.tqu.report.length < 2 then picked cfg l else []) hleft.symm)
    refine ⟨_, State.next_cycleMark hrun hr hc, ⟨named, ?_, ?_, ?_⟩, ?_, ?_⟩
    · by_cases hroom : s.tqu.report.length < 2
      · rw [if_pos hroom]
        simp only [named, if_pos hroom]
        exact hpicks left hleftn
      · rw [if_neg hroom]
        exact if_neg hroom
    · exact hreport
    · rw [hserve, hleft, filterMap_ite_none, htold]
      have hstays : (fun e : ServeEntry => !e.drained) = stays := funext fun e => by
        simp only [ServeEntry.drained, stays, Bool.not_and, bne]
      have hringed : State.ringed cfg = fun e => { e with ring := played e } :=
        funext fun e => congrArg (fun r => { e with ring := r }) (ServeEntry.ring_play cfg e)
      rw [hstays, hringed]
    · have htwice : (s0.orderedByMark cfg).flatMap (fun e => e.expiryNotices (s0.entryDue cfg e)) =
          (s.re.serve.map ordered).filterMap fun e =>
            if falls e then some (.lost e.headset) else if departs e then some (.departed e.headset) else none := by
        rw [hordered, ← flatMap_toList]
        refine congrArg (List.flatMap · (s.re.serve.map ordered)) (funext fun e => ?_)
        rw [← hloses, ← hdeparts]
        exact (expiryNotices_eq cfg s e).1
      have hfirst : s0.apc.dueOrders.filterMap s0.reversal = (List.range 24).filterMap fun k =>
          ((s.entryAt k).filter reverts).bind fun e => e.handing.map fun h => .reverted e.headset h.claimant := by
        refine (List.filterMap_filter ..).trans (List.filterMap_congr fun k hk => ?_)
        change (if (s.apc.slot k).order.any PendingOrder.due = true then s.reversal k else none) = _
        unfold State.reversal
        cases he : s.entryAt k with
        | none => split <;> rfl
        | some e =>
          obtain ⟨hmem, rfl⟩ := State.mem_of_entryAt he
          have hin : reverts e = true ↔ (s.apc.slot e.slot).order.any PendingOrder.due = true ∧ e.moved s.apc = true :=
            (hreverts e (hslots e hmem)).trans (and_congr_left' (by
              rw [Apc.dueOrders, List.mem_filter, and_iff_right hk]))
          by_cases hdue : (s.apc.slot e.slot).order.any PendingOrder.due = true
          · rw [if_pos hdue, Option.filter_some, Option.filter_some,
              if_congr (hin.trans (and_iff_right hdue)) rfl rfl]
          · rw [if_neg hdue, Option.filter_some, if_neg fun h => hdue (hin.mp h).1]
            rfl
      rw [hfirst, htwice] at hnotices
      exact hnotices
    · obtain ⟨-, hcount⟩ := hcounter hmlc.counters
      have hsum : ((s0.orderedByMark cfg).map fun e => e.expiryDepartures (s0.entryDue cfg e)).sum =
          (s.re.serve.filter departs).length := by
        have hcounts : (fun e : ServeEntry => e.expiryDepartures (s.entryDue cfg e)) =
            fun e => if departs e then 1 else 0 := funext fun e => by
          rw [← hdeparts]
          exact (expiryNotices_eq cfg s e).2
        have hstay : departs ∘ ordered = departs := funext fun e => by
          by_cases hrev : reverts e = true
          · have hs : e.state = .handing := by
              simp only [reverts, Bool.and_eq_true, beq_iff_eq] at hrev
              exact hrev.1.1
            have hno : departs e = false := by simp [departs, leaves, hs]
            simp only [Function.comp, ordered, if_pos hrev, hno]
            split <;> rfl
          · simp only [Function.comp, ordered, if_neg hrev]
        rw [hordered]
        refine (congrArg (fun f => ((s.re.serve.map ordered).map f).sum) hcounts).trans ?_
        rw [sum_map_ite, List.filter_map, List.length_map, hstay]
      rw [hsum] at hcount
      exact hcount

end Sys2Proof.Machine
end

section
/-!
# Link quality scores

The step of R26 and the Q it leads to, and the claim score of R29.
-/

namespace Sys2Proof.Machine

/-! ## Smoothing (R26) -/

/-- The quotient of R26, truncated toward zero. -/
def truncatedQuotient (k : Nat) (d : Int) : Int := if 0 ≤ d then d / 2 ^ k else -((-d) / 2 ^ k)

theorem tdiv_two_pow (k : Nat) (d : Int) : d.tdiv (2 ^ k) = truncatedQuotient k d := by
  unfold truncatedQuotient
  split
  · next hd => exact Int.tdiv_eq_ediv_of_nonneg hd
  · next hd =>
    rw [← Int.tdiv_eq_ediv_of_nonneg (by omega : 0 ≤ -d), Int.neg_tdiv, Int.neg_neg]

theorem sign_eq_ite (d : Int) : d.sign = if 0 < d then 1 else if d < 0 then -1 else 0 := by
  split
  · next h => exact Int.sign_eq_one_of_pos h
  · split
    · next h => exact Int.sign_eq_neg_one_of_neg h
    · rw [show d = 0 by omega, Int.sign_zero]

/-- The step is the truncated quotient, or one toward the target where that is 0. -/
theorem smoothStep_eq (k : Nat) (d : Int) :
    smoothStep k d =
      if truncatedQuotient k d ≠ 0 then truncatedQuotient k d else if 0 < d then 1 else if d < 0 then -1 else 0 := by
  unfold smoothStep
  rw [tdiv_two_pow, sign_eq_ite, ite_not]

/-- Off the target there is always a step. -/
theorem smoothStep_ne_zero (k : Nat) {d : Int} (hd : d ≠ 0) : smoothStep k d ≠ 0 := by
  unfold smoothStep
  dsimp only
  split
  · exact mt Int.sign_eq_zero_iff_zero.mp hd
  · assumption

theorem abs_smoothStep_le (k : Nat) (d : Int) : |smoothStep k d| ≤ |d| := by
  have hb := smoothStep_bounds k d
  rcases Int.le_total 0 d with hd | hd
  · rw [abs_of_nonneg hd, abs_of_nonneg (hb.1 hd).1]
    exact (hb.1 hd).2
  · rw [abs_of_nonpos hd, abs_of_nonpos (hb.2 hd).2]
    exact neg_le_neg (hb.2 hd).1

/-- Q never falls below 0, so that the truncation of `smooth` to Nat loses nothing. -/
theorem cast_smooth (k q s : Nat) : (smooth k q s : Int) = q + smoothStep k (16 * s - q) := by
  have hb := smoothStep_bounds k (16 * s - q)
  refine Int.toNat_of_nonneg ?_
  rcases Int.le_total 0 (16 * (s : Int) - q) with hd | hd
  · exact Int.add_nonneg (Int.natCast_nonneg q) (hb.1 hd).1
  · have := (hb.2 hd).1
    omega

/-- Q stays between its old value and the target. -/
theorem smooth_between (k q s : Nat) :
    (q ≤ 16 * s → q ≤ smooth k q s ∧ smooth k q s ≤ 16 * s) ∧
      (16 * s ≤ q → 16 * s ≤ smooth k q s ∧ smooth k q s ≤ q) := by
  have hb := smoothStep_bounds k (16 * s - q)
  have hc := cast_smooth k q s
  constructor <;> intro hq
  · have := hb.1 (by omega)
    omega
  · have := hb.2 (by omega)
    omega

/-- Off the target a sample moves Q strictly nearer to it. -/
theorem distance_smooth_lt {k q s : Nat} (hq : q ≠ 16 * s) :
    (16 * (s : Int) - smooth k q s).natAbs < (16 * (s : Int) - q).natAbs := by
  have hne := smoothStep_ne_zero k (d := 16 * s - q) (by omega)
  have hc := cast_smooth k q s
  have hb := smooth_between k q s
  rcases Nat.le_total q (16 * s) with h | h
  · have := hb.1 h
    omega
  · have := hb.2 h
    omega

/-- A run of equal samples brings Q to the target. -/
theorem smooth_reaches_target (k q s : Nat) : ∃ n : Nat, (fun x => smooth k x s)^[n] q = 16 * s := by
  induction hd : (16 * (s : Int) - q).natAbs using Nat.strong_induction_on generalizing q with
  | _ d ih =>
    by_cases hq : q = 16 * s
    · exact ⟨0, hq⟩
    · obtain ⟨n, hn⟩ := ih _ (hd ▸ distance_smooth_lt hq) (smooth k q s) rfl
      exact ⟨n + 1, by rw [Function.iterate_succ_apply, hn]⟩

/-! ## The claim score (R29, R44) -/

theorem cast_claimScore (r : Nat) (bias : Int) : (claimScore r bias : Int) = max 0 (min 90 ((r : Int) + bias)) :=
  Int.toNat_of_nonneg (Int.le_max_left _ _)

theorem claimScore_le (r : Nat) (bias : Int) : claimScore r bias ≤ 90 := by
  have := cast_claimScore r bias
  omega

/-- Settles O24: the step of R26, its bounds, and the distance to the target that it shortens. -/
theorem smoothedScore : Obligations.SmoothedScore := by
  unfold Obligations.SmoothedScore
  intro k q s hk hk5 hq hs d quotient step
  have hstep : smoothStep k d = step := smoothStep_eq k d
  have hlimit : smooth k q s ≤ 1440 := smooth_limit hq hs
  have hbetween := smooth_between k q s
  refine ⟨?_, hlimit, ?_, hbetween.1, hbetween.2, smooth_reaches_target k q s, reported_le hlimit,
    fun bias => claimScore_le _ bias⟩
  · rw [← hstep]
    exact cast_smooth k q s
  · rw [← hstep]
    exact abs_smoothStep_le k d

namespace SurveyEntry

variable {cfg : Settings} {e : SurveyEntry}

theorem claimScore_unknown (h : e.knowledge = none) : e.claimScore cfg = none := by
  unfold SurveyEntry.claimScore
  rw [h]
  rfl

theorem claimScore_known {k : Knowledge} (h : e.knowledge = some k) :
    e.claimScore cfg = (cfg.neighbour k.node).map fun n => Machine.claimScore e.r n.bias := by
  unfold SurveyEntry.claimScore
  rw [h]
  cases hn : cfg.neighbour k.node <;> simp [hn]

end SurveyEntry

theorem Settings.neighbour_none {cfg : Settings} {x : Node} (h : ∀ n ∈ cfg.neighbours, n.node ≠ x) :
    cfg.neighbour x = none :=
  List.find?_eq_none.mpr fun n hn => by simpa using h n hn

/-- The earliest item that names a node is its neighbour item (R44). -/
theorem Settings.neighbour_earliest {cfg : Settings} {x : Node} {before after : List Neighbour} {n : Neighbour}
    (hl : cfg.neighbours = before ++ n :: after) (hn : n.node = x) (hb : ∀ y ∈ before, y.node ≠ x) :
    cfg.neighbour x = some n :=
  List.find?_eq_some_iff_append.mpr ⟨by simpa using hn, before, after, hl, fun y hy => by simpa using hb y hy⟩

/-- Settles O25: the claim score by the neighbour item of the serving node. -/
theorem claimScores : Obligations.ClaimScores := by
  unfold Obligations.ClaimScores
  refine fun cfg e => ⟨fun hk => SurveyEntry.claimScore_unknown hk, fun k hk hno => ?_,
    fun k before after n hk hl hn hb => ⟨claimScore e.r n.bias, ?_, cast_claimScore _ _⟩⟩
  · rw [SurveyEntry.claimScore_known hk, Settings.neighbour_none hno]
    rfl
  · rw [SurveyEntry.claimScore_known hk, Settings.neighbour_earliest hl hn hb]
    rfl

end Sys2Proof.Machine
end

section
/-!
# Survey reports

A report is left alone, enters a newcomer, or is a sample of a survey entry (R39), behind which the conditions of R31 decide
whether a NORMAL claim is made (R59).
-/

namespace Sys2Proof.Machine

theorem sampleValue_survey (r : SurveyReport) :
    sampleValue r.sampleKind r.level =
      ((max (-110) (min (-20) r.level) + 110) - if r.good then 0 else 12).toNat := by
  cases hg : r.good <;> simp [SurveyReport.sampleKind, hg, sampleValue, clampLevel]

namespace SurveyEntry

variable {cfg : Settings} {e : SurveyEntry}

theorem candidate_unknown (h : e.knowledge = none) : e.candidate cfg = false := by
  unfold candidate
  rw [h]

theorem candidate_unscored {k : Knowledge} (h : e.knowledge = some k)
    (hno : k.score = none ∨ e.claimScore cfg = none) : e.candidate cfg = false := by
  unfold candidate
  rw [h]
  cases hc : e.claimScore cfg with
  | none => rfl
  | some score => simp only [hno.resolve_right (by simp [hc])]

theorem candidate_scored {k : Knowledge} {rs score : Nat} (h : e.knowledge = some k) (hrs : k.score = some rs)
    (hc : e.claimScore cfg = some score) : e.candidate cfg = decide (rs + cfg.hysteresis ≤ score) := by
  unfold candidate
  simp only [h, hc, hrs]

/-- The score conditions of R31, with what they leave to the claim: score and groups. -/
theorem bidWarranted_iff :
    e.bidWarranted cfg = true ↔
      ∃ k rs score groups, e.knowledge = some k ∧ k.score = some rs ∧ e.claimScore cfg = some score ∧
        k.groups = some groups ∧ cfg.dwellNeed ≤ e.dwell ∧ e.pacing = 0 ∧
        (k.offered = true ∨ rs + cfg.margin ≤ score) := by
  unfold bidWarranted
  cases hk : e.knowledge with
  | none => simp
  | some k =>
    cases hc : e.claimScore cfg with
    | none => simp
    | some score =>
      cases hs : k.score with
      | none => simp [hs]
      | some rs => simp [hs, Option.isSome_iff_exists]; tauto

end SurveyEntry

namespace State

section
variable {cfg : Settings} {s : State} {h : Headset} {x : SurveyEntry} {k : Knowledge} {rs score slot : Nat}
  {groups : List Group}

/-- The conditions of R31 on a survey entry, admission apart. -/
structure Bids (cfg : Settings) (s : State) (x : SurveyEntry) (k : Knowledge) (rs score slot : Nat)
    (groups : List Group) : Prop where
  dwell : cfg.dwellNeed ≤ x.dwell
  pacing : x.pacing = 0
  knowledge : x.knowledge = some k
  servingScore : k.score = some rs
  claimScore : x.claimScore cfg = some score
  margin : k.offered = true ∨ rs + cfg.margin ≤ score
  knownGroups : k.groups = some groups
  claim : x.claim = none
  outstanding : s.re.claimsOutstanding < 4
  free : s.apc.lowestFree = some slot
  fits : s.vp.fits (distinctGroups groups) = true
  listenIn : s.re.listenIn = some 0
  room : s.tqu.handover.length + s.tqu.reservations < 6

/-- The NORMAL claim of R59 with the rolling tag, in the slot `slot`, its CLAIM queued to the serving node. -/
def startNormal (cfg : Settings) (h : Headset) (n : Node) (score slot : Nat) (groups : List Group) (s : State) : State :=
  let record : ClaimRecord :=
    { kind := .normal, tag := s.re.claimCounter, slot := slot, groups := groups, phase := .queued, replyTimer := none,
      callListen := none, callTalk := none }
  let body := Body.claim
    { headset := h, tag := s.re.claimCounter, kind := .normal, score := score, channel := cfg.channel, slot := slot }
  ((((s.advanceTag).onApc (Apc.reserve slot s.re.claimCounter)).onVp (Vp.acquireAll groups)).updateSurvey h
    fun e => { e with claim := some record }).onTqu (Tqu.push (Queued.new .handover body n))

theorem decideNormal_bids (hx : s.surveyFor h = some x) (hp : cfg.permits h = true)
    (hb : s.Bids cfg x k rs score slot groups) :
    s.decideNormal cfg h = s.startNormal cfg h k.node score slot (distinctGroups groups) := by
  have hw : x.bidWarranted cfg = true := SurveyEntry.bidWarranted_iff.mpr
    ⟨k, rs, score, groups, hb.knowledge, hb.servingScore, hb.claimScore, hb.knownGroups, hb.dwell, hb.pacing, hb.margin⟩
  have hroom : s.tqu.handoverRoom = true := decide_eq_true hb.room
  unfold decideNormal
  simp only [hx, hb.free, hb.knowledge, hb.claimScore, hb.knownGroups, Option.getD_some]
  exact if_pos ⟨hw, hp, hb.claim, hb.outstanding, hb.fits, hb.listenIn, hroom⟩

theorem decideNormal_not (hx : s.surveyFor h = some x)
    (hno : ∀ k rs score slot groups, ¬s.Bids cfg x k rs score slot groups) : s.decideNormal cfg h = s := by
  unfold decideNormal
  rw [hx]
  cases hfree : s.apc.lowestFree with
  | none => rfl
  | some slot =>
    cases hk : x.knowledge with
    | none => simp only [hk]
    | some k =>
      cases hc : x.claimScore cfg with
      | none => simp only [hk, hc]
      | some score =>
        simp only [hk, hc]
        refine if_neg fun ⟨hw, _, hclaim, hout, hfits, hlisten, hroom⟩ => ?_
        obtain ⟨k', rs, score', groups, hk', hrs, hc', hg, hdwell, hpace, hmargin⟩ := SurveyEntry.bidWarranted_iff.mp hw
        obtain rfl : k = k' := Option.some.inj (hk.symm.trans hk')
        obtain rfl : score = score' := Option.some.inj (hc.symm.trans hc')
        rw [hg] at hfits
        exact hno k rs score slot groups
          ⟨hdwell, hpace, hk, hrs, hc, hmargin, hg, hclaim, hout, hfree, hfits, hlisten, of_decide_eq_true hroom⟩

/-! ## A report by where the headset stands (R39) -/

theorem next_surveyReport (hrun : s.InRun cfg) {record : List Byte} {r : SurveyReport}
    (hr : readSurveyReport record = some r) : exec (.surveyReport record) s = .next (s.surveyReport cfg r) :=
  hrun.next_whenRun (by rw [hr])

variable {r : SurveyReport}

theorem surveyReport_ignored (hi : s.entryFor r.headset ≠ none ∨ cfg.permits r.headset = false) :
    s.surveyReport cfg r = s := by
  refine if_pos ?_
  rcases hi with he | hp
  · simp [Option.isSome_iff_ne_none.mpr he]
  · simp [hp]

theorem surveyReport_newcomer (he : s.entryFor r.headset = none) (hp : cfg.permits r.headset = true)
    (hx : s.surveyFor r.headset = none) :
    s.surveyReport cfg r =
      s.enterSurvey (SurveyEntry.fresh r.headset (seeded (sampleValue r.sampleKind r.level))) := by
  unfold surveyReport
  simp only [he, hp, hx]
  rfl

theorem surveyReport_known (he : s.entryFor r.headset = none) (hp : cfg.permits r.headset = true)
    (hx : s.surveyFor r.headset = some x) :
    s.surveyReport cfg r =
      (s.updateSurvey r.headset (SurveyEntry.sample cfg (sampleValue r.sampleKind r.level))).decideNormal cfg
        r.headset := by
  unfold surveyReport
  simp only [he, hp, hx]
  rfl

/-- A sample leaves as many claims outstanding as there were. -/
theorem claimsOutstanding_updateSurvey (h : Headset) {f : SurveyEntry → SurveyEntry} (hf : ∀ e, (f e).claim = e.claim) :
    (s.updateSurvey h f).re.claimsOutstanding = s.re.claimsOutstanding := by
  have hsome : ((fun e : SurveyEntry => e.claim.isSome) ∘ fun e => if e.headset = h then f e else e) =
      fun e => e.claim.isSome := funext fun e => by
    simp only [Function.comp]
    split
    · rw [hf]
    · rfl
  simp only [Re.claimsOutstanding, updateSurvey_re, List.filter_map, List.length_map, hsome]

end

end State

/-- Settles O22: a report by where its headset stands, and behind a sample the conditions of R31. -/
theorem surveyReports : Obligations.SurveyReports := by
  unfold Obligations.SurveyReports
  intro cfg s record r hrun hr sample newcomer claimScoreOf sampled run
  have hnext : exec (.surveyReport record) s = .next (s.surveyReport cfg r) := State.next_surveyReport hrun hr
  have hvalue : sampleValue r.sampleKind r.level = sample := sampleValue_survey r
  have hclaim : ∀ (y : SurveyEntry) (k : Knowledge), y.knowledge = some k → y.claimScore cfg = claimScoreOf y.r k :=
    fun y k hk => SurveyEntry.claimScore_known hk
  have hsampled : sampled = SurveyEntry.sample cfg sample := by
    funext y
    let z : SurveyEntry :=
      { y with q := smooth cfg.k y.q sample, r := reported (smooth cfg.k y.q sample), lastHeard := 0 }
    refine congrArg (fun b : Bool => { z with dwell := if b then min 15 (y.dwell + 1) else 0 })
      (a₂ := z.candidate cfg) ?_
    cases hk : y.knowledge with
    | none => exact (SurveyEntry.candidate_unknown (e := z) hk).symm
    | some k =>
      have hz : z.claimScore cfg = claimScoreOf ((smooth cfg.k y.q sample + 8) / 16) k := hclaim z k hk
      cases hrs : k.score with
      | none => simp only [hrs, SurveyEntry.candidate_unscored (e := z) hk (.inl hrs)]
      | some rs =>
        cases hc : claimScoreOf ((smooth cfg.k y.q sample + 8) / 16) k with
        | none => simp only [hc, hrs, SurveyEntry.candidate_unscored (e := z) hk (.inr (hz.trans hc))]
        | some score => simp only [hc, hrs, SurveyEntry.candidate_scored (e := z) hk hrs (hz.trans hc)]
  refine ⟨fun hi => ?_, fun he hp hx => ?_, fun e he hp hx => ?_⟩
  · exact hnext.trans (congrArg _ (State.surveyReport_ignored hi))
  · refine hnext.trans (congrArg _ ((State.surveyReport_newcomer he hp hx).trans ?_))
    rw [hvalue]
    rfl
  intro x bids
  let t := s.updateSurvey r.headset (SurveyEntry.sample cfg sample)
  have hcall : s.surveyReport cfg r = t.decideNormal cfg r.headset := by
    rw [State.surveyReport_known he hp hx, hvalue]
  have hxt : t.surveyFor r.headset = some x := by
    refine (State.surveyFor_updateSurvey s r.headset (SurveyEntry.sample cfg sample) (fun _ => rfl) _).trans ?_
    rw [if_pos rfl, hx]
    exact congrArg (fun f => some (f e)) hsampled.symm
  have hout : t.re.claimsOutstanding = s.re.claimsOutstanding := State.claimsOutstanding_updateSurvey _ fun _ => rfl
  have hbids : ∀ k rs score slot groups, t.Bids cfg x k rs score slot groups ↔ bids k rs score slot groups := by
    refine fun k rs score slot groups => ⟨fun hb => ⟨hb.dwell, hb.pacing, hb.knowledge, hb.servingScore,
      (hclaim x k hb.knowledge).symm.trans hb.claimScore, hb.margin, hb.knownGroups, hb.claim,
      hout.symm.trans_lt hb.outstanding, hb.free, hb.fits, hb.listenIn, hb.room⟩, ?_⟩
    rintro ⟨hdwell, hpace, hk, hrs, hc, hmargin, hg, hclear, hless, hfree, hfits, hlisten, hroom⟩
    exact ⟨hdwell, hpace, hk, hrs, (hclaim x k hk).trans hc, hmargin, hg, hclear, hout.trans_lt hless, hfree, hfits,
      hlisten, hroom⟩
  refine ⟨fun hno => ?_, fun k rs score slot groups hb => ?_⟩
  · refine hnext.trans (congrArg _ (hcall.trans ((State.decideNormal_not hxt fun k rs score slot groups hb =>
      hno k rs score slot groups ((hbids _ _ _ _ _).mp hb)).trans ?_)))
    rw [hsampled]
    rfl
  · refine hnext.trans (congrArg _ (hcall.trans ((State.decideNormal_bids hxt hp ((hbids _ _ _ _ _).mpr hb)).trans ?_)))
    rw [hsampled]
    exact congrArg (fun l => { t.startNormal cfg r.headset k.node score slot (distinctGroups groups) with
      re := { s.re with claimCounter := s.re.claimCounter + 1, survey := l } }) (map_ite_map_ite s.re.survey
        (p := fun y => y.headset = r.headset) (f := SurveyEntry.sample cfg sample) _ fun _ hy => hy)

end Sys2Proof.Machine
end

section
/-!
# Handlings of a DECLINE and of a STANDING

A DECLINE ends the NORMAL claim it matches, or is late (R64, R65). A STANDING is its namings in turn, each by where this node
holds its headset (R45, R46, R54 to R57).
-/

namespace Sys2Proof.Machine

/-! ## Payloads (R184, section 12.1) -/

theorem readDecline_eq_none {payload : List Byte} (h : payload.length ≠ 6 ∨ NamesNone payload) :
    readDecline payload = none := by
  unfold readDecline
  split
  · have hn : isIdentity _ = false := not_isIdentity_of_namesNone (h.resolve_left fun hl => hl rfl)
    simp [hn]
  · rfl

theorem readStanding_eq_none {payload : List Byte}
    (h : ∀ e : Byte, payload[0]? = some e → e = 0 ∨ 4 < e.toNat ∨ payload.length ≠ 1 + 11 * e.toNat) :
    readStanding payload = none := by
  unfold readStanding
  split
  · next e rest =>
    refine if_neg fun ⟨h1, h4, hl⟩ => ?_
    rcases h e rfl with h0 | hgt | hne
    · rw [h0] at h1
      exact absurd h1 (by decide)
    · omega
    · rw [List.length_cons, hl] at hne
      omega
  · rfl

/-- The naming whose 11 bytes begin at the place `a` (section 12.1). -/
def namingAt (bytes : List Byte) (a : Nat) : Naming :=
  let b (j : Nat) : Byte := (bytes[a + j]?).getD 0
  { headset := word32 (b 0) (b 1) (b 2) (b 3), score := min 90 (b 4).toNat, offered := (b 5).getLsbD 7,
    count := (b 6).toNat, groups := [b 7, b 8, b 9, b 10].take (min 4 ((b 5).toNat % 8)) }

theorem namingAt_append (before bytes : List Byte) (a : Nat) :
    namingAt (before ++ bytes) (before.length + a) = namingAt bytes a := by
  simp only [namingAt, Nat.add_assoc, List.getElem?_append_right (Nat.le_add_right _ _), Nat.add_sub_cancel_left]

theorem exists_eleven_bytes : ∀ {bytes : List Byte}, 11 ≤ bytes.length →
    ∃ a b c d score flags count g0 g1 g2 g3 rest,
      bytes = [a, b, c, d, score, flags, count, g0, g1, g2, g3] ++ rest
  | a :: b :: c :: d :: score :: flags :: count :: g0 :: g1 :: g2 :: g3 :: rest, _ =>
    ⟨a, b, c, d, score, flags, count, g0, g1, g2, g3, rest, rfl⟩

theorem readNamings_eq (n : Nat) {bytes : List Byte} (h : bytes.length = 11 * n) :
    readNamings n bytes = (List.range n).map fun i => namingAt bytes (11 * i) := by
  induction n generalizing bytes with
  | zero => rfl
  | succ n ih =>
    obtain ⟨a, b, c, d, score, flags, count, g0, g1, g2, g3, rest, rfl⟩ :=
      exists_eleven_bytes (by omega : 11 ≤ bytes.length)
    have hrest : rest.length = 11 * n := by
      rw [List.length_append] at h
      simp only [List.length_cons, List.length_nil] at h
      omega
    have hnext : ∀ i, namingAt ([a, b, c, d, score, flags, count, g0, g1, g2, g3] ++ rest) (11 * (i + 1)) =
        namingAt rest (11 * i) := fun i => by
      rw [Nat.mul_succ, Nat.add_comm]
      exact namingAt_append [a, b, c, d, score, flags, count, g0, g1, g2, g3] rest (11 * i)
    rw [List.range_succ_eq_map, List.map_cons, List.map_map]
    refine congrArg₂ List.cons rfl ((ih hrest).trans (List.map_congr_left fun i _ => (hnext i).symm))

/-- A STANDING whose length its naming count states reads as those of its namings that name a headset. -/
theorem readStanding_eq {payload : List Byte} {e : Byte} (he : payload[0]? = some e) (h0 : e ≠ 0) (h4 : e.toNat ≤ 4)
    (hl : payload.length = 1 + 11 * e.toNat) :
    readStanding payload =
      some (((List.range e.toNat).map fun i => namingAt payload (1 + 11 * i)).filter fun n => isIdentity n.headset) := by
  cases payload with
  | nil => cases he
  | cons x rest =>
    obtain rfl : x = e := Option.some.inj he
    have hrest : rest.length = 11 * x.toNat := by
      rw [List.length_cons] at hl
      omega
    have h1 : 1 ≤ x.toNat := Nat.one_le_iff_ne_zero.mpr fun h => h0 (BitVec.eq_of_toNat_eq h)
    have hat : ∀ i, namingAt rest (11 * i) = namingAt (x :: rest) (1 + 11 * i) := fun i =>
      (namingAt_append [x] rest (11 * i)).symm
    refine (if_pos ⟨h1, h4, hrest⟩).trans ?_
    rw [readNamings_eq _ hrest]
    simp only [hat]

namespace State

section
variable {cfg : Settings} {s : State} {x : Headset}

/-! ## DECLINE (R64, R65) -/

/-- A claim that fails (R34, R49). -/
theorem failClaim_eq_updateSurvey {c : ClaimRecord} (hc : (s.surveyFor x).bind SurveyEntry.claim = some c) :
    s.failClaim x = (s.giveBack x c).updateSurvey x fun e => { e with claim := none, dwell := 0, pacing := 31 } := by
  unfold failClaim
  rw [endClaim_eq_updateSurvey hc]
  exact updateSurvey_updateSurvey x _ fun _ => rfl

theorem handleDecline_normal {tag : Tag} {e : SurveyEntry} {r : ClaimRecord} (he : s.surveyFor x = some e)
    (hr : e.claim = some r) (ht : r.tag = tag) (hk : r.kind = .normal) (reason : Reason) :
    s.handleDecline x tag reason =
      ((s.giveBack x r).updateSurvey x fun e =>
        { e with claim := none, dwell := 0, pacing := 31
                 knowledge := if reason = .notServed then none else e.knowledge }).count .declinesReceived := by
  unfold handleDecline
  simp only [claimOf_some he hr ht, hk]
  by_cases hn : reason = .notServed
  · simp only [if_pos hn]
    exact congrArg (State.count .declinesReceived) (failClaim_forget he hr)
  · simp only [if_neg hn]
    exact congrArg (State.count .declinesReceived) (failClaim_eq_updateSurvey (by rw [he]; exact hr))

theorem handleDecline_late {tag : Tag}
    (hno : ∀ e r, s.surveyFor x = some e → e.claim = some r → r.tag ≠ tag ∨ r.kind = .seek) (reason : Reason) :
    s.handleDecline x tag reason = s.count .lateReplies := by
  unfold handleDecline
  by_cases hm : ∃ e r, s.surveyFor x = some e ∧ e.claim = some r ∧ r.tag = tag
  · obtain ⟨e, r, he, hr, ht⟩ := hm
    have hk : r.kind = .seek := (hno e r he hr).resolve_left fun hne => hne ht
    simp only [claimOf_some he hr ht, hk]
  · rw [claimOf_none fun e r he hr ht => hm ⟨e, r, he, hr, ht⟩]

theorem next_declineHandling {p : Placed} (h : s.Handles cfg p) (hk : p.kind = 4) {tag : Tag} {reason : Reason}
    (hr : readDecline p.payload = some (x, tag, reason)) {t : State} (ht : s.begun.handleDecline x tag reason = t) :
    exec .declineHandling s = .next t :=
  h.next_handle (by simp [hk]) (by rw [hr]; exact ht)

/-! ## STANDING (R45, R54) -/

theorem next_standingHandling {p : Placed} (h : s.Handles cfg p) (hk : p.kind = 5) {ns : List Naming}
    (hr : readStanding p.payload = some ns) :
    exec .standingHandling s = .next (ns.foldl (State.handleNaming cfg p.sender) s.begun) :=
  h.next_handle (by simp [hk]) (by rw [hr])

/-- Updates that agree on the one survey entry of a headset. -/
theorem updateSurvey_congr (hd : (s.re.survey.map SurveyEntry.headset).Nodup) {e : SurveyEntry}
    (he : s.surveyFor x = some e) {f g : SurveyEntry → SurveyEntry} (hfg : f e = g e) :
    s.updateSurvey x f = s.updateSurvey x g := by
  obtain ⟨hm, hx⟩ := mem_of_surveyFor he
  refine congrArg (fun l => { s with re := { s.re with survey := l } }) (List.map_congr_left fun y hy => ?_)
  by_cases hyx : y.headset = x
  · rw [List.inj_on_of_nodup_map hd hy hm (hyx.trans hx.symm), hfg]
  · simp only [if_neg hyx]

theorem updateSurvey_id (x : Headset) : (s.updateSurvey x fun e => e) = s := by
  have hl : (s.re.survey.map fun e => if e.headset = x then e else e) = s.re.survey := by simp
  exact congrArg (fun l => { s with re := { s.re with survey := l } }) hl

variable {n : Naming} {sender : Node}

theorem handleNaming_none (he : s.entryFor n.headset = none) :
    s.handleNaming cfg sender n = s.updateSurvey n.headset (SurveyEntry.learnNaming sender n) := by
  unfold handleNaming
  rw [he]

theorem handleNaming_held {e : ServeEntry} (he : s.entryFor n.headset = some e)
    (hs : e.state = .served ∨ e.state = .offered ∨ e.state = .lost) :
    s.handleNaming cfg sender n =
      if e.count < n.count ∨ (n.count = e.count ∧ sender.toNat < cfg.node.toNat) then
        ((s.releaseEntry e.slot).count .duplicatesResolved).notify (.left n.headset sender)
      else s := by
  unfold handleNaming resolveDuplicate
  rcases hs with hs | hs | hs <;> simp only [he, hs]

theorem handleNaming_idle {e : ServeEntry} (he : s.entryFor n.headset = some e)
    (hs : e.state = .arriving ∨ e.state = .handing ∨ e.state = .draining) : s.handleNaming cfg sender n = s := by
  unfold handleNaming
  rcases hs with hs | hs | hs <;> simp only [he, hs]

/-- A naming is stale where the knowledge is of another node with a higher count (R45). -/
theorem stale_iff (e : SurveyEntry) :
    e.knowledge.any (fun k => k.outdates sender n) = true ↔
      ∃ k, e.knowledge = some k ∧ k.node ≠ sender ∧ n.count < k.count := by
  simp [Option.any_eq_true, Knowledge.outdates]

end

end State

/-- Settles O47: a DECLINE by the claim it matches, a STANDING naming by naming, each by the entry of its headset. -/
theorem declineAndStandingHandled : Obligations.DeclineAndStandingHandled := by
  unfold Obligations.DeclineAndStandingHandled
  refine ⟨fun cfg s p h => ⟨fun hk hbad => ?_, fun hk hbad => ?_, fun e hk he h0 h4 hl => ?_⟩,
    fun cfg s p x tag reason h hk hr => ⟨fun e r he hec ht hkind hat => ?_, fun hno => ?_⟩,
    fun cfg s p ns h hk hr => State.next_standingHandling h hk hr,
    fun cfg s sender n => ⟨fun he hx => ?_, fun e he hx hd => ?_, fun e he =>
      ⟨fun hs => State.handleNaming_held he hs, fun hs => State.handleNaming_idle he hs⟩⟩⟩
  · exact h.next_handle (by simp [hk]) (by rw [readDecline_eq_none hbad]; rfl)
  · exact h.next_handle (by simp [hk]) (by rw [readStanding_eq_none hbad]; rfl)
  · exact State.next_standingHandling h hk (readStanding_eq he h0 h4 hl)
  · refine State.next_declineHandling h hk hr
      ((State.handleDecline_normal (s := s.begun) he hec ht hkind reason).trans ?_)
    rw [State.giveBack_reserved (s := s.begun) hat]
    rfl
  · exact State.next_declineHandling h hk hr (State.handleDecline_late (s := s.begun) hno reason)
  · exact (State.handleNaming_none he).trans (State.updateSurvey_none hx _)
  · rw [State.handleNaming_none he]
    by_cases hst : ∃ k, e.knowledge = some k ∧ k.node ≠ sender ∧ n.count < k.count
    · have hsame : e.learnNaming sender n = e := if_pos ((State.stale_iff e).mpr hst)
      rw [if_pos hst, State.updateSurvey_congr (g := fun e => e) hd hx hsame, State.updateSurvey_id]
    · rw [if_neg hst]
      exact State.updateSurvey_congr hd hx (if_neg (mt (State.stale_iff e).mp hst))

end Sys2Proof.Machine
end

section
/-!
# The configuration image

Every value that an image loads is one of its bytes or words clamped into a range (R177, R178, section 12.4), and loading
changes nothing exactly where each is in its range already.
-/

namespace Sys2Proof.Machine

/-! ## Clamping -/

theorem clampNat_bounds {lo hi : Nat} (h : lo ≤ hi) (v : Nat) : lo ≤ clampNat lo hi v ∧ clampNat lo hi v ≤ hi := by
  unfold clampNat
  omega

theorem clampNat_of_mem {lo hi v : Nat} (h : lo ≤ v ∧ v ≤ hi) : clampNat lo hi v = v := by
  unfold clampNat
  omega

theorem outside_eq_false_iff {lo hi : Nat} (h : lo ≤ hi) (v : Nat) : outside lo hi v = false ↔ lo ≤ v ∧ v ≤ hi := by
  rw [outside, bne_eq_false_iff_eq]
  exact ⟨fun he => he ▸ clampNat_bounds h v, clampNat_of_mem⟩

theorem clampInt_bounds {lo hi : Int} (h : lo ≤ hi) (v : Int) : lo ≤ clampInt lo hi v ∧ clampInt lo hi v ≤ hi := by
  unfold clampInt
  omega

theorem clampInt_bne_eq_false_iff {lo hi : Int} (h : lo ≤ hi) (v : Int) :
    (clampInt lo hi v != v) = false ↔ lo ≤ v ∧ v ≤ hi := by
  rw [bne_eq_false_iff_eq]
  unfold clampInt
  omega

theorem parameter_bounds {lo hi : Nat} (h : lo ≤ hi) (image : List Byte) (a : Nat) :
    lo ≤ parameter image a lo hi ∧ parameter image a lo hi ≤ hi := clampNat_bounds h _

theorem toNat_byteOf {n : Nat} (h : n ≤ 255) : (byteOf n).toNat = n := by
  rw [byteOf, BitVec.toNat_ofNat]
  omega

/-! ## Fields of the image -/

theorem toNat_append_byte {w : Nat} (x : BitVec w) (b : Byte) : (x ++ b).toNat = x.toNat * 256 + b.toNat := by
  rw [BitVec.toNat_append, ← Nat.shiftLeft_add_eq_or_of_lt b.isLt, Nat.shiftLeft_eq]

theorem toNat_imageWord (image : List Byte) (a : Nat) :
    (imageWord image a).toNat = (imageByte image a).toNat * 256 + (imageByte image (a + 1)).toNat :=
  toNat_append_byte _ _

/-- The identity of four bytes is the number of its two words. -/
theorem toNat_admissionHeadset (image : List Byte) (a : Nat) :
    (admissionHeadset image a).toNat =
      (imageWord image a).toNat * 65536 + (imageWord image (a + 2)).toNat := by
  simp only [admissionHeadset, word32, toNat_imageWord, toNat_append_byte]
  ring

theorem isIdentity_eq (h : Headset) : isIdentity h = (decide (h.toNat ≠ 0) && decide (h.toNat ≠ 4294967295)) := by
  have h0 : h = 0 ↔ h.toNat = 0 := BitVec.toNat_inj.symm
  have h1 : h = 0xFFFFFFFF ↔ h.toNat = 4294967295 := BitVec.toNat_inj.symm
  rw [Bool.eq_iff_iff]
  simp only [isIdentity, Bool.and_eq_true, bne_iff_ne, decide_eq_true_eq, ne_eq, h0, h1]

/-- A byte read as a signed number. -/
theorem toInt_byte (b : Byte) : b.toInt = if b.toNat < 128 then (b.toNat : Int) else (b.toNat : Int) - 256 := by
  rw [BitVec.toInt_eq_toNat_cond]
  split <;> split <;> omega

theorem byte_eq_iff {b c : Byte} : (b == c) = true ↔ b.toNat = c.toNat := by
  rw [beq_iff_eq, BitVec.toNat_inj]

theorem eq_of_getElem?_map_range {α : Type} {f : Nat → α} {n i : Nat} {x : α}
    (h : ((List.range n).map f)[i]? = some x) : f i = x := by
  rw [List.getElem?_map, Option.map_eq_some_iff] at h
  obtain ⟨j, hj, hx⟩ := h
  obtain ⟨_, hij⟩ := List.getElem?_eq_some_iff.mp hj
  rwa [← hij, List.getElem_range] at hx

/-! ## Default blocks -/

/-- The items of a listen list read from the bytes of a function. -/
theorem readListen_range (n m : Nat) (f : Nat → Byte) :
    readListen n ((List.range (2 * n + m)).map f) =
      (List.range n).map fun i => { group := f (2 * i), shift := min 7 (f (2 * i + 1)).toNat } := by
  induction n generalizing f with
  | zero => cases m <;> rfl
  | succ n ih =>
    have hlen : 2 * (n + 1) + m = 2 * n + m + 1 + 1 := by omega
    rw [hlen, List.range_succ_eq_map, List.range_succ_eq_map, List.range_succ_eq_map]
    simp only [List.map_cons, List.map_map]
    refine congrArg (List.cons _) ((ih fun i => f (i + 2)).trans ?_)
    rfl

theorem readBlock_listen {lo : Nat} (h : lo ≤ 4) (image : List Byte) (a : Nat) :
    (readBlock lo image a).listen =
      (List.range (clampNat lo 4 (imageByte image a).toNat)).map fun i =>
        { group := imageByte image (a + 3 + 2 * i), shift := min 7 (imageByte image (a + 4 + 2 * i)).toNat } := by
  have h4 := (clampNat_bounds h (imageByte image a).toNat).2
  obtain ⟨m, hm⟩ := Nat.exists_eq_add_of_le (Nat.mul_le_mul_left 2 h4)
  have hread := readListen_range (clampNat lo 4 (imageByte image a).toNat) m fun i => imageByte image (a + 3 + i)
  rw [← hm] at hread
  refine hread.trans (List.map_congr_left fun i _ => ?_)
  rw [show a + 3 + (2 * i + 1) = a + 4 + 2 * i by omega]

/-- What a default block holds of the 11 bytes at `a`, its count clamped into 1..4 (R178, section 12.4). -/
def DefaultBlock.ReadAt (image : List Byte) (a : Nat) (b : DefaultBlock) : Prop :=
  b.listen.length = clampNat 1 4 (imageByte image a).toNat ∧
    (∀ (i : Nat) (x : ListenItem), b.listen[i]? = some x →
      x.group.toNat = (imageByte image (a + 3 + 2 * i)).toNat ∧
        x.shift = min 7 (imageByte image (a + 4 + 2 * i)).toNat) ∧
    b.talk =
      if (imageByte image (a + 1)).toNat = 0 then none else some (BitVec.ofNat 8 (imageByte image (a + 2)).toNat)

theorem readTalk_eq (p t : Byte) : readTalk p t = if p.toNat = 0 then none else some (BitVec.ofNat 8 t.toNat) := by
  rw [BitVec.ofNat_toNat, BitVec.setWidth_eq]
  exact if_congr BitVec.toNat_inj.symm rfl rfl

theorem readAt_readBlock (image : List Byte) (a : Nat) : (readBlock 1 image a).ReadAt image a := by
  have hl := readBlock_listen (by decide : 1 ≤ 4) image a
  refine ⟨by rw [hl, List.length_map, List.length_range], fun i x hx => ?_, readTalk_eq _ _⟩
  rw [hl] at hx
  rw [← eq_of_getElem?_map_range hx]
  exact ⟨rfl, rfl⟩

theorem DefaultBlock.ReadAt.bounds {image : List Byte} {a : Nat} {b : DefaultBlock} (h : b.ReadAt image a) :
    1 ≤ b.listen.length ∧ b.listen.length ≤ 4 ∧ ∀ i ∈ b.listen, i.shift ≤ 7 := by
  obtain ⟨hlen, hitems, -⟩ := h
  have hb := clampNat_bounds (by decide : 1 ≤ 4) (imageByte image a).toNat
  refine ⟨hlen ▸ hb.1, hlen ▸ hb.2, fun x hx => ?_⟩
  obtain ⟨i, hi⟩ := List.mem_iff_getElem?.mp hx
  rw [(hitems i x hi).2]
  exact Nat.min_le_left _ _

theorem blockChanged_eq_false_iff {lo : Nat} (h : lo ≤ 4) (image : List Byte) (a : Nat) :
    blockChanged lo image a = false ↔
      lo ≤ (imageByte image a).toNat ∧ (imageByte image a).toNat ≤ 4 ∧
        ∀ i < (imageByte image a).toNat, (imageByte image (a + 4 + 2 * i)).toNat ≤ 7 := by
  simp only [blockChanged, Bool.or_eq_false_iff, outside_eq_false_iff h, List.any_eq_false, List.mem_range,
    Bool.not_eq_true, outside_eq_false_iff (Nat.zero_le 7), Nat.zero_le, true_and]
  rw [and_assoc]
  refine and_congr_right fun hlo => and_congr_right fun h4 => ?_
  rw [clampNat_of_mem ⟨hlo, h4⟩]

/-! ## Neighbour items (R44, R178) -/

theorem loaded_neighbours (image : List Byte) :
    (loadedSettings image).neighbours =
      (List.range (min 16 (neighbourCount image))).map fun i => readNeighbour image (41 + 2 * i) := by
  simp only [loadedSettings, clampedImage, neighbourAddresses, ← List.map_take, List.take_range, List.map_map]
  rfl

theorem toNat_node_readNeighbour (image : List Byte) (a : Nat) :
    (readNeighbour image a).node.toNat = clampNat 1 254 (imageByte image a).toNat :=
  toNat_byteOf ((clampNat_bounds (by decide) _).2.trans (by decide))

theorem bounds_of_mem_neighbours {image : List Byte} {n : Neighbour} (hn : n ∈ (loadedSettings image).neighbours) :
    1 ≤ n.node.toNat ∧ n.node.toNat ≤ 254 ∧ -15 ≤ n.bias ∧ n.bias ≤ 15 := by
  rw [loaded_neighbours] at hn
  obtain ⟨i, -, rfl⟩ := List.mem_map.mp hn
  have hnode := clampNat_bounds (by decide : 1 ≤ 254) (imageByte image (41 + 2 * i)).toNat
  rw [toNat_node_readNeighbour]
  exact ⟨hnode.1, hnode.2, clampInt_bounds (by decide) _⟩

theorem neighbours_kept_iff (image : List Byte) :
    (decide (16 < neighbourCount image) = false ∧
        ((neighbourAddresses image).take 16).any (neighbourChanged image) = false) ↔
      neighbourCount image ≤ 16 ∧
        ∀ i < neighbourCount image, neighbourChanged image (41 + 2 * i) = false := by
  rw [decide_eq_false_iff_not, Nat.not_lt]
  refine and_congr_right fun h16 => ?_
  rw [List.take_of_length_le (by simpa [neighbourAddresses] using h16)]
  simp [neighbourAddresses]

theorem neighbourChanged_eq_false_iff (image : List Byte) (a : Nat) :
    neighbourChanged image a = false ↔
      1 ≤ (imageByte image a).toNat ∧ (imageByte image a).toNat ≤ 254 ∧
        -15 ≤ (imageByte image (a + 1)).toInt ∧ (imageByte image (a + 1)).toInt ≤ 15 := by
  rw [neighbourChanged, Bool.or_eq_false_iff, outside_eq_false_iff (by decide), clampInt_bne_eq_false_iff (by decide),
    and_assoc]

/-! ## Admission items (R43, R178) -/

/-- A filtered list cut to `n` is as long as the list exactly where the list is no longer and passes whole. -/
theorem length_le_length_take_filter {α : Type} {l : List α} {p : α → Bool} {n : Nat} :
    l.length ≤ ((l.filter p).take n).length ↔ l.length ≤ n ∧ ∀ a ∈ l, p a = true := by
  rw [List.length_take, Nat.le_min, ← List.length_filter_eq_length_iff]
  refine and_congr_right fun _ => ⟨fun h => le_antisymm (List.length_filter_le _ _) h, fun h => h.ge⟩

theorem admissions_kept_iff (image : List Byte) :
    (decide ((takenAdmissions image).length < admissionCount image) = false ∧
        (takenAdmissions image).any (admissionChanged image) = false) ↔
      admissionCount image ≤ 64 ∧ ∀ a ∈ admissionAddresses image,
        isIdentity (admissionHeadset image a) = true ∧ admissionChanged image a = false := by
  have hlen : (admissionAddresses image).length = admissionCount image := by simp [admissionAddresses]
  rw [decide_eq_false_iff_not, Nat.not_lt, ← hlen, takenAdmissions, length_le_length_take_filter, and_assoc]
  refine and_congr_right fun h64 => ⟨fun ⟨hid, hany⟩ a ha => ⟨hid a ha, ?_⟩, fun hall => ?_⟩
  · rw [List.filter_eq_self.mpr hid, List.take_of_length_le h64, List.any_eq_false] at hany
    simpa using hany a ha
  · have hid := fun a ha => (hall a ha).1
    rw [List.filter_eq_self.mpr hid, List.take_of_length_le h64, List.any_eq_false]
    exact ⟨hid, fun a ha => by simp [(hall a ha).2]⟩

theorem admissionChanged_eq_false_iff (image : List Byte) (a : Nat) :
    admissionChanged image a = false ↔
      (imageByte image (a + 4)).toNat ≤ 1 ∧ blockChanged 0 image (a + 5) = false := by
  rw [admissionChanged, Bool.or_eq_false_iff, outside_eq_false_iff (by decide)]
  exact and_congr_left' (and_iff_right (Nat.zero_le _))

theorem permit_readAdmission (image : List Byte) (a : Nat) :
    (readAdmission image a).permit = true ↔ (imageByte image (a + 4)).toNat = 1 := byte_eq_iff

theorem block_readAdmission (image : List Byte) (a : Nat) :
    (readAdmission image a).block =
      if (imageByte image (a + 5)).toNat = 0 then none else some (readBlock 1 image (a + 5)) :=
  if_congr BitVec.toNat_inj.symm rfl rfl

theorem block_readAdmission_eq_none_iff (image : List Byte) (a : Nat) :
    (readAdmission image a).block = none ↔ (imageByte image (a + 5)).toNat = 0 := by
  rw [block_readAdmission]
  split <;> simp [*]

theorem readAt_block_readAdmission {image : List Byte} {a : Nat} {b : DefaultBlock}
    (h : (readAdmission image a).block = some b) : b.ReadAt image (a + 5) := by
  rw [block_readAdmission] at h
  split at h
  · cases h
  · cases h
    exact readAt_readBlock image (a + 5)

theorem bounds_of_mem_admissions {image : List Byte} {x : Admission} (hx : x ∈ (loadedSettings image).admissions) :
    isIdentity x.headset = true ∧
      ∀ b : DefaultBlock, x.block = some b →
        1 ≤ b.listen.length ∧ b.listen.length ≤ 4 ∧ ∀ i ∈ b.listen, i.shift ≤ 7 := by
  obtain ⟨a, ha, rfl⟩ := List.mem_map.mp hx
  exact ⟨(List.mem_filter.mp (List.mem_of_mem_take ha)).2, fun b hb => (readAt_block_readAdmission hb).bounds⟩

/-! ## The two relations, and what is changed (R32, R68, R177) -/

theorem raisedMargin_eq (cfg : Settings) : raisedMargin cfg = max cfg.hysteresis cfg.margin := by
  unfold raisedMargin
  split <;> omega

theorem raisedHanding_eq (cfg : Settings) : raisedHanding cfg = max (cfg.arrivalTime + 5) cfg.handingTime := by
  unfold raisedHanding
  split <;> omega

theorem loaded_margin (image : List Byte) :
    (loadedSettings image).margin = max (parameter image 7 3 20) (parameter image 8 10 40) := raisedMargin_eq _

theorem loaded_handing (image : List Byte) :
    (loadedSettings image).handingTime = max (parameter image 13 2 16 + 5) (parameter image 14 8 64) :=
  raisedHanding_eq _

theorem loaded_margin_bounds (image : List Byte) :
    10 ≤ (loadedSettings image).margin ∧ (loadedSettings image).margin ≤ 40 := by
  have hH := parameter_bounds (by decide : 3 ≤ 20) image 7
  have hM := parameter_bounds (by decide : 10 ≤ 40) image 8
  rw [loaded_margin]
  omega

theorem loaded_handing_bounds (image : List Byte) :
    8 ≤ (loadedSettings image).handingTime ∧ (loadedSettings image).handingTime ≤ 64 := by
  have hTa := parameter_bounds (by decide : 2 ≤ 16) image 13
  have hTh := parameter_bounds (by decide : 8 ≤ 64) image 14
  rw [loaded_handing]
  omega

/-- The one-byte parameters whose range is not that of every byte. -/
def boundedParameters : List (Nat × Nat × Nat) := byteParameters.filter fun p => p.1 != 11

theorem parameters_kept_iff (image : List Byte) :
    byteParameters.any (fun p => outside p.2.1 p.2.2 (imageByte image p.1).toNat) = false ↔
      ∀ p ∈ boundedParameters, p.2.1 ≤ (imageByte image p.1).toNat ∧ (imageByte image p.1).toNat ≤ p.2.2 := by
  have hord : ∀ p ∈ byteParameters, p.2.1 ≤ p.2.2 := by decide
  have hall : ∀ p ∈ byteParameters, p.1 = 11 → p.2.1 = 0 ∧ p.2.2 = 255 := by decide
  rw [List.any_eq_false]
  refine ⟨fun h p hp => ?_, fun h p hp => ?_⟩
  · have hp := (List.mem_filter.mp hp).1
    exact (outside_eq_false_iff (hord p hp) _).mp (by simpa using h p hp)
  · rw [Bool.not_eq_true, outside_eq_false_iff (hord p hp)]
    by_cases h11 : p.1 = 11
    · obtain ⟨h0, h255⟩ := hall p hp h11
      have := (imageByte image p.1).isLt
      omega
    · exact h p (List.mem_filter.mpr ⟨hp, by simpa using h11⟩)

theorem imageChanged_eq_false_iff (image : List Byte) :
    imageChanged image = false ↔
      (∀ p ∈ boundedParameters, p.2.1 ≤ (imageByte image p.1).toNat ∧ (imageByte image p.1).toNat ≤ p.2.2) ∧
        (50 ≤ (imageWord image 17).toNat ∧ (imageWord image 17).toNat ≤ 500) ∧ blockChanged 1 image 28 = false ∧
        (neighbourCount image ≤ 16 ∧ ∀ i < neighbourCount image, neighbourChanged image (41 + 2 * i) = false) ∧
        (admissionCount image ≤ 64 ∧ ∀ a ∈ admissionAddresses image,
          isIdentity (admissionHeadset image a) = true ∧ admissionChanged image a = false) := by
  rw [← parameters_kept_iff, ← outside_eq_false_iff (by decide), ← neighbours_kept_iff, ← admissions_kept_iff]
  simp only [imageChanged, Bool.or_eq_false_iff, and_assoc]

/-- Loading changes nothing where every value and item stays as it is and the two relations hold of the image's own bytes. -/
theorem loadClamps_eq_false_iff (image : List Byte) :
    loadClamps image = false ↔
      imageChanged image = false ∧ (imageByte image 7).toNat ≤ (imageByte image 8).toNat ∧
        (imageByte image 13).toNat + 5 ≤ (imageByte image 14).toNat := by
  simp only [loadClamps, Bool.or_eq_false_iff, bne_eq_false_iff_eq, and_assoc]
  refine and_congr_right fun hkept => ?_
  have hp := ((imageChanged_eq_false_iff image).mp hkept).1
  have value (a lo hi : Nat) (hm : (a, lo, hi) ∈ boundedParameters) :
      parameter image a lo hi = (imageByte image a).toNat := clampNat_of_mem (hp _ hm)
  rw [raisedMargin_eq, raisedHanding_eq, max_eq_right_iff, max_eq_right_iff]
  show parameter image 7 3 20 ≤ parameter image 8 10 40 ∧ parameter image 13 2 16 + 5 ≤ parameter image 14 8 64 ↔ _
  rw [value 7 3 20 (by decide), value 8 10 40 (by decide), value 13 2 16 (by decide), value 14 8 64 (by decide)]

/-- Settles O6: each loaded value by the lemma about its field, its range by the clamp, and CONFIG_CLAMPED by
`loadClamps_eq_false_iff`. -/
theorem loadedValuesInRange : Obligations.LoadedValuesInRange := by
  unfold Obligations.LoadedValuesInRange
  intro image cfg byte word signed clamp identity named items taken isBlock blockKept
  have hword : ∀ a, (imageWord image a).toNat = word a := toNat_imageWord image
  have hsigned : ∀ a, (imageByte image a).toInt = signed a := fun a => toInt_byte _
  have hidentity : ∀ a, (admissionHeadset image a).toNat = identity a := fun a => by
    rw [toNat_admissionHeadset, hword, hword]
  have hnamed : ∀ a, isIdentity (admissionHeadset image a) = (identity a ≠ 0 && identity a ≠ 4294967295) := fun a => by
    rw [isIdentity_eq, hidentity]
  have htaken : takenAdmissions image = taken := by
    simp only [takenAdmissions, hnamed]
    rfl
  have hnode : cfg.node.toNat = clamp 1 254 (byte 4) :=
    toNat_byteOf ((parameter_bounds (by decide) image 4).2.trans (by decide))
  have hsettle : cfg.settleTime = byte 11 := clampNat_of_mem ⟨Nat.zero_le _, Nat.le_of_lt_succ (imageByte image 11).isLt⟩
  have hrescue : cfg.rescueWindow = clamp 50 500 (word 17) := congrArg (clampNat 50 500) (hword 17)
  have hneighbours := loaded_neighbours image
  have hcount : cfg.neighbours.length = min 16 (byte 39) := by
    rw [hneighbours, List.length_map, List.length_range]
    rfl
  have hblock : ∀ lo ≤ 4, ∀ a, blockChanged lo image a = false ↔ blockKept lo a := fun lo hlo a =>
    blockChanged_eq_false_iff hlo image a
  have hdefaults : cfg.defaults.ReadAt image 28 := readAt_readBlock image 28
  refine ⟨⟨hnode, rfl, rfl, rfl, loaded_margin image, rfl, rfl, hsettle, rfl, rfl, loaded_handing image, rfl, rfl,
      hrescue, rfl, rfl, rfl, rfl, rfl, byte_eq_iff, rfl, rfl, rfl, rfl, rfl, byte_eq_iff, hdefaults⟩,
    ⟨hcount, fun i n hn => ?_⟩, ⟨(List.length_map _).trans (congrArg List.length htaken), fun i x a hx ha => ?_⟩, ?_, ?_⟩
  · rw [hneighbours] at hn
    rw [← eq_of_getElem?_map_range hn]
    refine ⟨toNat_node_readNeighbour image _, ?_⟩
    rw [show 42 + 2 * i = 41 + 2 * i + 1 by omega, ← hsigned]
    rfl
  · rw [← htaken] at ha
    have hat : cfg.admissions[i]? = some (readAdmission image a) :=
      List.getElem?_map.trans (congrArg (Option.map (readAdmission image)) ha)
    obtain rfl : readAdmission image a = x := Option.some.inj (hat.symm.trans hx)
    exact ⟨hidentity a, permit_readAdmission image a, block_readAdmission_eq_none_iff image a,
      fun b hb => readAt_block_readAdmission hb⟩
  · have hrange {lo hi : Nat} (h : lo ≤ hi) (a : Nat) := parameter_bounds h image a
    obtain ⟨hlen1, hlen4, hshift⟩ := hdefaults.bounds
    exact ⟨hnode ▸ hrange (by decide) 4, (hrange (by decide) 5).2, hrange (by decide) 6, hrange (by decide) 7,
      loaded_margin_bounds image, (loaded_margin image).symm ▸ Nat.le_max_left _ _, hrange (by decide) 9,
      (hrange (by decide) 10).2, (hrange (by decide) 11).2, hrange (by decide) 12, hrange (by decide) 13,
      loaded_handing_bounds image, (loaded_handing image).symm ▸ Nat.le_max_left _ _, hrange (by decide) 15,
      hrange (by decide) 16, clampNat_bounds (by decide) _, hrange (by decide) 19, hrange (by decide) 20,
      hrange (by decide) 21, hrange (by decide) 22, hrange (by decide) 23,
      ⟨hlen1, hlen4⟩, hshift, hcount ▸ Nat.min_le_left _ _, fun n hn => bounds_of_mem_neighbours hn,
      (List.length_map _).trans_le (List.length_take_le _ _), fun x hx => bounds_of_mem_admissions hx⟩
  · have hnext : ∀ i, neighbourChanged image (41 + 2 * i) = false ↔
        1 ≤ byte (41 + 2 * i) ∧ byte (41 + 2 * i) ≤ 254 ∧ -15 ≤ signed (42 + 2 * i) ∧ signed (42 + 2 * i) ≤ 15 :=
        fun i => by
          rw [neighbourChanged_eq_false_iff, show 41 + 2 * i + 1 = 42 + 2 * i by omega, hsigned]
          rfl
    have hitem : ∀ a, (isIdentity (admissionHeadset image a) = true ∧ admissionChanged image a = false) ↔
        named a ∧ byte (a + 4) ≤ 1 ∧ blockKept 0 (a + 5) := fun a => by
      rw [admissionChanged_eq_false_iff, hblock 0 (by decide), hnamed, Bool.and_eq_true, decide_eq_true_eq,
        decide_eq_true_eq]
      rfl
    rw [loadClamps_eq_false_iff, imageChanged_eq_false_iff]
    simp only [hnext, hitem, hblock 1 (by decide), hword]
    constructor
    · rintro ⟨⟨hp, hw, hd, ⟨h16, hn⟩, h64, ha⟩, hH, hTh⟩
      exact ⟨hp, hw, hH, hTh, hd, h16, hn, h64, ha⟩
    · rintro ⟨hp, hw, hH, hTh, hd, h16, hn, h64, ha⟩
      exact ⟨⟨hp, hw, hd, ⟨h16, hn⟩, h64, ha⟩, hH, hTh⟩

end Sys2Proof.Machine
end

section
/-!
# The replacement rule of a full survey list (R41)
-/

namespace Sys2Proof.Machine

/-- One survey entry is a better victim than another, or they are equal in the order of R41: lower R, then greater last
heard, then lower identity. -/
def SurveyEntry.Precedes (a b : SurveyEntry) : Prop :=
  a.r < b.r ∨ (a.r = b.r ∧ (b.lastHeard < a.lastHeard ∨
    (a.lastHeard = b.lastHeard ∧ a.headset.toNat ≤ b.headset.toNat)))

theorem SurveyEntry.Precedes.refl (a : SurveyEntry) : a.Precedes a := .inr ⟨rfl, .inr ⟨rfl, le_refl _⟩⟩

theorem SurveyEntry.Precedes.trans {a b c : SurveyEntry} (h : a.Precedes b) (g : b.Precedes c) : a.Precedes c := by
  unfold SurveyEntry.Precedes at *
  omega

theorem SurveyEntry.precedes_of_weaker {a b : SurveyEntry} (h : a.weaker b = true) : a.Precedes b := by
  simp only [SurveyEntry.weaker, Bool.or_eq_true, Bool.and_eq_true, beq_iff_eq, decide_eq_true_eq] at h
  unfold SurveyEntry.Precedes
  omega

theorem SurveyEntry.precedes_of_not_weaker {a b : SurveyEntry} (h : a.weaker b = false) : b.Precedes a := by
  simp only [SurveyEntry.weaker, Bool.or_eq_false_iff, Bool.and_eq_false_iff, beq_eq_false_iff_ne, ne_eq,
    decide_eq_false_iff_not] at h
  unfold SurveyEntry.Precedes
  omega

theorem victim_cons_claimed {e : SurveyEntry} (h : e.claim ≠ none) (es : List SurveyEntry) :
    victim (e :: es) = victim es := if_pos (Option.isSome_iff_ne_none.mpr h)

/-- An entry without a claim is the victim, or gives way to that of the rest of the list. -/
theorem victim_cons_free {e : SurveyEntry} (h : e.claim = none) (es : List SurveyEntry) :
    victim (e :: es) = some ((victim es).elim e fun v => if e.weaker v then e else v) := by
  rw [victim, if_neg (by simp [h])]
  cases victim es <;> rfl

theorem victim_eq_none {l : List SurveyEntry} (h : ∀ e ∈ l, e.claim ≠ none) : victim l = none := by
  induction l with
  | nil => rfl
  | cons e es ih =>
    rw [victim_cons_claimed (h e List.mem_cons_self)]
    exact ih fun x hx => h x (List.mem_cons_of_mem _ hx)

/-- A list with an entry that holds no claim has a victim, which precedes every other such entry (R41). -/
theorem exists_victim {l : List SurveyEntry} (h : ∃ e ∈ l, e.claim = none) :
    ∃ v, victim l = some v ∧ v ∈ l ∧ v.claim = none ∧ ∀ e ∈ l, e.claim = none → v.Precedes e := by
  induction l with
  | nil =>
    obtain ⟨e, he, -⟩ := h
    cases he
  | cons x xs ih =>
    by_cases hx : x.claim = none
    · rw [victim_cons_free hx]
      by_cases hrest : ∃ e ∈ xs, e.claim = none
      · obtain ⟨v, hv, hmem, hfree, hbest⟩ := ih hrest
        rw [hv, Option.elim_some]
        cases hw : x.weaker v with
        | true =>
          refine ⟨x, rfl, List.mem_cons_self, hx, List.forall_mem_cons.mpr ⟨fun _ => .refl x, fun e he hc => ?_⟩⟩
          exact (SurveyEntry.precedes_of_weaker hw).trans (hbest e he hc)
        | false =>
          exact ⟨v, rfl, List.mem_cons_of_mem _ hmem, hfree,
            List.forall_mem_cons.mpr ⟨fun _ => SurveyEntry.precedes_of_not_weaker hw, hbest⟩⟩
      · have hclaimed : ∀ e ∈ xs, e.claim ≠ none := fun e he hc => hrest ⟨e, he, hc⟩
        rw [victim_eq_none hclaimed]
        exact ⟨x, rfl, List.mem_cons_self, hx,
          List.forall_mem_cons.mpr ⟨fun _ => .refl x, fun e he hc => absurd hc (hclaimed e he)⟩⟩
    · obtain ⟨e, he, hc⟩ := h
      have hrest : e ∈ xs := (List.mem_cons.mp he).resolve_left fun hex => hx (hex ▸ hc)
      obtain ⟨v, hv, hmem, hfree, hbest⟩ := ih ⟨e, hrest, hc⟩
      rw [victim_cons_claimed hx]
      exact ⟨v, hv, List.mem_cons_of_mem _ hmem, hfree, List.forall_mem_cons.mpr ⟨fun hc => absurd hc hx, hbest⟩⟩

theorem enterSurveyList_full {l : List SurveyEntry} (hl : l.length = 48) (new : SurveyEntry) :
    enterSurveyList new l =
      (victim l).elim l fun v => if v.r < new.r then (l.filter fun e => e.headset != v.headset) ++ [new] else l := by
  have hfull : ¬l.length < surveyCapacity := by
    rw [hl]
    decide
  unfold enterSurveyList
  rw [if_neg hfull]
  cases victim l <;> rfl

/-- Settles O26: the victim is the least unclaimed entry in the order of R41. -/
theorem surveyReplacement : Obligations.SurveyReplacement := by
  unfold Obligations.SurveyReplacement
  intro survey new hlen _
  refine ⟨fun s => rfl, fun hall => ?_, fun hsome => ?_⟩
  · rw [enterSurveyList_full hlen, victim_eq_none hall, Option.elim_none]
  · obtain ⟨v, hv, hmem, hfree, hbest⟩ := exists_victim hsome
    refine ⟨v, hmem, hfree, hbest, ?_⟩
    rw [enterSurveyList_full hlen, hv, Option.elim_some]

end Sys2Proof.Machine
end

section
/-!
# Commands that a node state turns away, and matrix records that are not sound (R58, R98, R163, R164)
-/

namespace Sys2Proof.Machine

/-- Every command that acts in RUN alone is a rule of RUN (R58, R95, R98, R162). -/
theorem exec_eq_whenRun {c : Instr} (h : runOnly c = true) :
    ∃ f : Settings → State → State, ∀ s : State, exec c s = .next (s.whenRun f) := by
  cases c with
  | powerOn | resetLineAsserted | resetLineReleased | configLoadComplete | cycleMark | trunkAttemptStart
  | arbitrationLost | bitFault | delivered | acknowledgeFailure | backoffEnd | frameReceived | frameEnd | framingFault
  | waitIdleExit | stuckEntry | stuckExit | groupFrame | statusQuery | clear | evict | restart | outboundRecordStart
  | anotherNodesStartBit | arbitrationWon => cases h
  | _ => exact ⟨_, fun _ => rfl⟩

/-! ## The check of R163 -/

/-- The bytes of a record with two bytes behind them, taken apart as the check does. -/
theorem split_crc (covered : List Byte) (hi lo : Byte) :
    (covered ++ [hi, lo]).take ((covered ++ [hi, lo]).length - 2) = covered ∧
      (covered ++ [hi, lo]).drop ((covered ++ [hi, lo]).length - 2) = [hi, lo] := by
  simp

theorem checkRecord_short {record : List Byte} (h : record.length < 2) (kind : Byte) (need : Nat) :
    checkRecord kind need record = .badCrc := by
  cases record with
  | nil => rfl
  | cons a as =>
    cases as with
    | nil => rfl
    | cons b bs => exact absurd h (by simp)

theorem checkRecord_badCrc {covered : List Byte} {hi lo : Byte} (h : crc16 covered ≠ hi ++ lo) (kind : Byte) (need : Nat) :
    checkRecord kind need (covered ++ [hi, lo]) = .badCrc := by
  obtain ⟨htake, hdrop⟩ := split_crc covered hi lo
  unfold checkRecord
  rw [htake, hdrop]
  exact if_neg h

/-- A length field whose word is `need` is the field of `need` (R183). -/
theorem word16Bytes_of_toNat {hi lo : Byte} {need : Nat} (h : (word16 hi lo).toNat = need) :
    word16Bytes (BitVec.ofNat 16 need) = [hi, lo] := by
  subst h
  rw [BitVec.ofNat_toNat, BitVec.setWidth_eq]
  unfold word16Bytes word16
  rw [BitVec.extractLsb'_append_eq_left, BitVec.extractLsb'_append_eq_right]

theorem checkRecord_discarded {covered : List Byte} {hi lo kind : Byte} {need : Nat} (h : crc16 covered = hi ++ lo)
    (hno : ¬∃ body : List Byte, covered = kind :: word16Bytes (BitVec.ofNat 16 need) ++ body ∧ body.length = need) :
    checkRecord kind need (covered ++ [hi, lo]) = .discarded := by
  obtain ⟨htake, hdrop⟩ := split_crc covered hi lo
  unfold checkRecord
  rw [htake, hdrop]
  refine (if_pos h).trans ?_
  split
  · next k lenHi lenLo body =>
    refine if_neg fun ⟨hk, hlen, hbody⟩ => hno ⟨body, ?_, hbody⟩
    rw [hk, word16Bytes_of_toNat hlen]
    rfl
  · rfl

/-- A record row's command is the taking of its record (R163, R164). -/
theorem exec_eq_takeRecord {record : List Byte} {c : Instr} {kind : Byte} {need : Nat}
    (h : (c, kind, need) ∈ [(Instr.groupFrame record, (1 : Byte), 162), (.statusQuery record, 2, 0), (.clear record, 3, 0),
      (.evict record, 4, 4), (.restart record, 5, 0)]) :
    ∃ act : List Byte → State → State, ∀ s : State, exec c s = .next (s.takeRecord kind need record act) := by
  simp only [List.mem_cons, List.not_mem_nil, or_false, Prod.mk.injEq] at h
  rcases h with ⟨rfl, rfl, rfl⟩ | ⟨rfl, rfl, rfl⟩ | ⟨rfl, rfl, rfl⟩ | ⟨rfl, rfl, rfl⟩ | ⟨rfl, rfl, rfl⟩ <;>
    exact ⟨_, fun _ => rfl⟩

section
variable {s : State} {kind : Byte} {need : Nat} {record : List Byte}

theorem State.takeRecord_badCrc (hs : s.cfl.node ≠ .standby) (h : checkRecord kind need record = .badCrc)
    (act : List Byte → State → State) :
    s.takeRecord kind need record act = { s with mlc := s.mlc.count .matrixCrcDiscards } := by
  unfold State.takeRecord
  rw [h]
  cases hn : s.cfl.node with
  | standby => exact absurd hn hs
  | _ => rfl

theorem State.takeRecord_discarded (h : checkRecord kind need record = .discarded) (act : List Byte → State → State) :
    s.takeRecord kind need record act = s := by
  unfold State.takeRecord
  rw [h]
  cases s.cfl.node <;> rfl

end

/-- Settles O11: a command of RUN is `State.whenRun`, a matrix record's the taking of what `checkRecord` finds. -/
theorem commandsTurnedAway : Obligations.CommandsTurnedAway := by
  unfold Obligations.CommandsTurnedAway
  refine ⟨fun c s hc hn => ?_, fun record s c kind need hrow => ?_⟩
  · obtain ⟨f, hf⟩ := exec_eq_whenRun hc
    rw [hf, State.whenRun_other hn]
  · obtain ⟨act, hact⟩ := exec_eq_takeRecord hrow
    rw [hact]
    refine ⟨fun hn => ?_, fun hn hlen => ?_, fun covered hi lo hn hrec => ⟨fun hcrc => ?_, fun hcrc hno => ?_⟩⟩
    · rw [State.takeRecord_standby hn]
    · rw [State.takeRecord_badCrc hn (checkRecord_short hlen kind need)]
    · rw [State.takeRecord_badCrc hn (hrec ▸ checkRecord_badCrc hcrc kind need)]
    · rw [State.takeRecord_discarded (hrec ▸ checkRecord_discarded hcrc hno)]

end Sys2Proof.Machine
end

section
/-!
# What a mark leaves beside the tables, and the group store after it

Each operation of a mark leaves the number of the last mark, the claim counter, the neighbour timers and MLC's answer slot as
they were, and brings no headset into the serve table; the current frames of the store are consumed.
-/

namespace Sys2Proof.Machine

/-! ## The group store (R121, R128) -/

/-- A stored group without a current frame (R128). -/
def StoredGroup.spent (e : StoredGroup) : StoredGroup := { e with current := none }

/-- A stored group with one reference less, or gone with its last (R121). -/
def StoredGroup.dropRef (e : StoredGroup) : Option StoredGroup :=
  if e.refs ≤ 1 then none else some { e with refs := e.refs - 1 }

theorem Vp.consume_eq (v : Vp) : v.consume = { v with store := v.store.map StoredGroup.spent } := rfl

theorem Vp.release_eq (v : Vp) (g : Group) :
    v.release g = v.withStore (v.store.filterMap fun e => if e.group = g then e.dropRef else some e) := rfl

theorem StoredGroup.dropRef_spent (e : StoredGroup) : e.spent.dropRef = e.dropRef.map StoredGroup.spent := by
  unfold StoredGroup.dropRef StoredGroup.spent
  split <;> rfl

theorem maskOf_map_spent (l : List StoredGroup) : maskOf (l.map StoredGroup.spent) = maskOf l := List.foldr_map

/-- A release and the consuming of the current frames are independent. -/
theorem Vp.consume_release (v : Vp) (g : Group) : (v.release g).consume = v.consume.release g := by
  have hstore : (v.store.map StoredGroup.spent).filterMap (fun e => if e.group = g then e.dropRef else some e) =
      (v.store.filterMap fun e => if e.group = g then e.dropRef else some e).map StoredGroup.spent := by
    rw [List.filterMap_map, List.map_filterMap]
    refine List.filterMap_congr fun e _ => ?_
    change (if e.group = g then e.spent.dropRef else some e.spent) = _
    rw [StoredGroup.dropRef_spent]
    split <;> rfl
  rw [Vp.release_eq, Vp.release_eq, Vp.consume_eq, Vp.consume_eq, hstore]
  unfold Vp.withStore
  rw [maskOf_map_spent]

theorem Vp.consume_releaseAll (v : Vp) (gs : List Group) : (v.releaseAll gs).consume = v.consume.releaseAll gs := by
  induction gs generalizing v with
  | nil => rfl
  | cons g gs ih => exact (ih (v.release g)).trans (congrArg (Vp.releaseAll gs) (Vp.consume_release v g))

theorem Vp.releaseAll_append (v : Vp) (gs hs : List Group) : v.releaseAll (gs ++ hs) = (v.releaseAll gs).releaseAll hs :=
  List.foldl_append

theorem Vp.consume_consume (v : Vp) : v.consume.consume = v.consume := by
  rw [Vp.consume_eq, Vp.consume_eq, List.map_map]
  rfl

theorem Vp.current_of_consumed {v : Vp} (h : v.consume = v) : ∀ e ∈ v.store, e.current = none := by
  intro e he
  rw [← h] at he
  obtain ⟨x, -, rfl⟩ := List.mem_map.mp he
  rfl

/-! ## The answer slot of MLC -/

/-- MLC with the same answer slot, and the same EVICT waiting (R167). -/
def Mlc.SameAnswer (m m' : Mlc) : Prop := m'.answer = m.answer ∧ m'.evict = m.evict

namespace Mlc

theorem SameAnswer.refl (m : Mlc) : m.SameAnswer m := ⟨rfl, rfl⟩

theorem SameAnswer.trans {a b c : Mlc} (h : a.SameAnswer b) (g : b.SameAnswer c) : a.SameAnswer c :=
  ⟨g.1.trans h.1, g.2.trans h.2⟩

theorem sameAnswer_count (c : Counter) (m : Mlc) : m.SameAnswer (m.count c) := by
  unfold Mlc.count
  dsimp only
  split <;> exact ⟨rfl, rfl⟩

theorem sameAnswer_notify (n : Notice) (m : Mlc) : m.SameAnswer (m.notify n) := by
  unfold Mlc.notify
  split <;> exact ⟨rfl, rfl⟩

theorem sameAnswer_takeUplink (u : Uplink) (m : Mlc) : m.SameAnswer (m.takeUplink u) := by
  unfold Mlc.takeUplink
  split <;> exact ⟨rfl, rfl⟩

theorem sameAnswer_sendPlay (cfg : Settings) (e : ServeEntry) (m : Mlc) : m.SameAnswer (e.sendPlay cfg m) := by
  have hlate : ∀ (late : Bool) (a : Mlc), a.SameAnswer (if late then a.count .lateFrames else a) := by
    rintro (_ | _) a
    · exact .refl a
    · exact sameAnswer_count _ a
  refine SameAnswer.trans ?_ (hlate _ _)
  cases (e.play cfg).2.1 with
  | none => exact .refl m
  | some f =>
    cases e.talk with
    | none => exact .refl m
    | some g => exact sameAnswer_takeUplink _ m

theorem sameAnswer_countMix (v : Vp) (e : ServeEntry) (m : Mlc) : m.SameAnswer (e.countMix v m) := by
  unfold ServeEntry.countMix
  split
  · exact sameAnswer_count _ m
  · exact .refl m

end Mlc

/-! ## What each operation of a mark leaves -/

/-- What every operation of a mark leaves beside what `State.Stays` says, once the counters have moved. -/
structure State.Spares (s t : State) : Prop where
  lastCycle : t.apc.lastCycle = s.apc.lastCycle
  listenIn : t.re.listenIn = s.re.listenIn
  claimCounter : t.re.claimCounter = s.re.claimCounter
  neighbourHolds : t.tqu.neighbourHolds = s.tqu.neighbourHolds
  mlc : s.mlc.SameAnswer t.mlc
  serve : ∀ e ∈ t.re.serve, ∃ x ∈ s.re.serve, e.headset = x.headset ∧ e.slot = x.slot

namespace State

theorem Spares.refl (s : State) : s.Spares s := ⟨rfl, rfl, rfl, rfl, .refl _, fun e he => ⟨e, he, rfl, rfl⟩⟩

theorem Spares.trans {a b c : State} (h : a.Spares b) (g : b.Spares c) : a.Spares c := by
  refine ⟨g.lastCycle.trans h.lastCycle, g.listenIn.trans h.listenIn, g.claimCounter.trans h.claimCounter,
    g.neighbourHolds.trans h.neighbourHolds, h.mlc.trans g.mlc, fun e he => ?_⟩
  obtain ⟨x, hx, hh, hs⟩ := g.serve e he
  obtain ⟨y, hy, hh', hs'⟩ := h.serve x hx
  exact ⟨y, hy, hh.trans hh', hs.trans hs'⟩

theorem Spares.foldl {α : Type} {F : State → α → State} (hF : ∀ (s : State) a, s.Spares (F s a)) (l : List α)
    (s : State) : s.Spares (l.foldl F s) := by
  induction l generalizing s with
  | nil => exact .refl s
  | cons a as ih => exact (hF s a).trans (ih _)

theorem Spares.ite {c : Prop} [Decidable c] {s a b : State} (ha : s.Spares a) (hb : s.Spares b) :
    s.Spares (if c then a else b) := by
  split
  · exact ha
  · exact hb

theorem spares_onApc {f : Apc → Apc} {s : State} (hf : (f s.apc).lastCycle = s.apc.lastCycle) : s.Spares (s.onApc f) :=
  { Spares.refl s with lastCycle := hf }

theorem spares_onVp (f : Vp → Vp) (s : State) : s.Spares (s.onVp f) := { Spares.refl s with }

theorem spares_onMlc {f : Mlc → Mlc} {s : State} (hf : s.mlc.SameAnswer (f s.mlc)) : s.Spares (s.onMlc f) :=
  { Spares.refl s with mlc := hf }

theorem spares_count (c : Counter) (s : State) : s.Spares (s.count c) := spares_onMlc (Mlc.sameAnswer_count c _)

theorem spares_notify (n : Notice) (s : State) : s.Spares (s.notify n) := spares_onMlc (Mlc.sameAnswer_notify n _)

theorem spares_survey (f : List SurveyEntry → List SurveyEntry) (s : State) :
    s.Spares (s.onRe fun r => { r with survey := f r.survey }) := { Spares.refl s with }

theorem spares_updateEntry (k : Nat) {f : ServeEntry → ServeEntry}
    (hf : ∀ e, (f e).headset = e.headset ∧ (f e).slot = e.slot) (s : State) : s.Spares (s.updateEntry k f) := by
  refine { Spares.refl s with serve := fun e he => ?_ }
  obtain ⟨x, hx, rfl⟩ := List.mem_map.mp he
  refine ⟨x, hx, ?_⟩
  split
  · exact hf x
  · exact ⟨rfl, rfl⟩

theorem lastCycle_close (a : Apc) (k : Nat) : (a.close k).lastCycle = a.lastCycle := by
  unfold Apc.close
  split <;> rfl

theorem lastCycle_release (a : Apc) (k : Nat) (tag : Tag) : (a.release k tag).lastCycle = a.lastCycle := by
  unfold Apc.release
  split <;> rfl

theorem lastCycle_order (a : Apc) (k : Nat) (kind : OrderKind) (o : AirOrder) :
    ((a.order k kind o).getD a).lastCycle = a.lastCycle := by
  unfold Apc.order
  split <;> rfl

theorem lastCycle_downlink (a : Apc) (k : Nat) (x : List Sample) : (a.downlink k x).lastCycle = a.lastCycle := by
  unfold Apc.downlink
  split <;> rfl

theorem spares_releaseEntry (k : Nat) (s : State) : s.Spares (s.releaseEntry k) := by
  cases he : s.entryAt k with
  | none => rw [releaseEntry_none he]; exact .refl s
  | some e =>
    rw [releaseEntry_eq he]
    refine { Spares.refl s with lastCycle := lastCycle_close s.apc k, neighbourHolds := ?_, serve := fun x hx => ?_ }
    · dsimp only
      split <;> rfl
    · exact ⟨x, (List.mem_filter.mp hx).1, rfl, rfl⟩

theorem spares_departEntry (k : Nat) (s : State) : s.Spares (s.departEntry k) := by
  cases he : s.entryAt k with
  | none =>
    unfold departEntry
    rw [he]
    exact .refl s
  | some e =>
    rw [departEntry_eq he]
    exact ((spares_releaseEntry k s).trans (spares_notify _ _)).trans (spares_count _ _)

theorem spares_failClaim (x : Headset) (s : State) : s.Spares (s.failClaim x) := by
  refine Spares.trans ?_ (spares_survey _ (s.endClaim x))
  cases hc : (s.surveyFor x).bind SurveyEntry.claim with
  | none => rw [endClaim_none hc]; exact .refl s
  | some c =>
    rw [endClaim_eq hc]
    exact { Spares.refl s with lastCycle := lastCycle_release _ _ _ }

theorem spares_enterLost (cfg : Settings) (k : Nat) (s : State) : s.Spares (s.enterLost cfg k) := by
  unfold enterLost
  split
  · exact .refl s
  · exact (spares_updateEntry k (f := ServeEntry.toLost cfg) (fun _ => ⟨rfl, rfl⟩) s).trans (spares_notify _ _)

theorem spares_revert (cfg : Settings) (k : Nat) (s : State) : s.Spares (s.revert cfg k) := by
  have hf : ∀ e : ServeEntry, (e.fromHanding cfg).headset = e.headset ∧ (e.fromHanding cfg).slot = e.slot := fun e =>
    ⟨(fromHanding_fields cfg e).1, (fromHanding_fields cfg e).2.1⟩
  unfold revert
  split
  · split
    · exact (spares_updateEntry k hf s).trans (spares_notify _ _)
    · exact .refl s
  · exact .refl s

theorem spares_expire (cfg : Settings) (k : Nat) (x : Expiry) (s : State) : s.Spares (s.expire cfg k x) := by
  cases x with
  | handing => exact spares_enterLost cfg k s
  | cutLink => exact spares_enterLost cfg k s
  | rescue => exact spares_departEntry k s
  | arrival =>
    change s.Spares (s.expireArrival k)
    unfold expireArrival
    split
    · exact .refl s
    · exact .ite (spares_departEntry k s) ((spares_releaseEntry k s).trans (spares_survey _ _))

theorem spares_takeResult (cfg : Settings) (k : Nat) (kind : OrderKind) (a : Bool) (s : State) :
    s.Spares (s.takeResult cfg k kind a) := by
  unfold takeResult
  split
  · exact .refl s
  · split
    · exact .refl s
    · split
      · exact .ite (spares_revert cfg k s) (.refl s)
      · exact spares_onApc (lastCycle_order _ _ _ _)
      · exact .refl s

theorem spares_expireOrder (cfg : Settings) (k : Nat) (s : State) : s.Spares (s.expireOrder cfg k) := by
  unfold expireOrder
  split
  · exact .ite ((spares_onApc (f := Apc.endOrder k) rfl).trans (spares_takeResult _ _ _ _ _)) (.refl s)
  · exact .refl s

theorem spares_markOrders (cfg : Settings) (s : State) : s.Spares (s.markOrders cfg) :=
  (spares_onApc (f := fun a => { a with slots := a.slots.map AirSlot.ageOrder }) rfl).trans
    (.foldl (fun s k => spares_expireOrder cfg k s) _ _)

theorem spares_buildStanding (cfg : Settings) (s : State) : s.Spares (s.buildStanding cfg) := by
  rw [buildStanding_eq]
  refine { Spares.refl s with serve := fun e he => ?_ }
  obtain ⟨x, hx, rfl⟩ := List.mem_map.mp he
  exact ⟨x, hx, (markNamed_fields _ x).1, (markNamed_fields _ x).2.1⟩

/-- RE's part of a mark after its counters have moved. -/
theorem spares_markRe (cfg : Settings) (s : State) : (s.onRe Re.tick).Spares (s.markRe cfg) :=
  ((((Spares.foldl (fun s _ => spares_survey _ s) _ _).trans (.foldl (fun s _ => spares_survey _ s) _ _)).trans
    (.foldl (fun s h => spares_failClaim h s) _ _)).trans
    (.foldl (fun s (d : Nat × Expiry) => spares_expire cfg d.1 d.2 s) _ _)).trans
    (spares_buildStanding cfg _)

theorem spares_playRing (cfg : Settings) (s : State) (e : ServeEntry) : s.Spares (s.playRing cfg e) := by
  rw [playRing_eq]
  exact (spares_updateEntry e.slot (f := fun x => { x with ring := (e.play cfg).1 }) (fun _ => ⟨rfl, rfl⟩) s).trans
    (spares_onMlc (Mlc.sameAnswer_sendPlay cfg e _))

theorem spares_mixEntry (s : State) (e : ServeEntry) : s.Spares (s.mixEntry e) := by
  rw [mixEntry_eq]
  exact (spares_onMlc (Mlc.sameAnswer_countMix _ e _)).trans (spares_onApc (lastCycle_downlink _ _ _))

theorem spares_markVp (cfg : Settings) (s : State) : s.Spares (s.markVp cfg) :=
  (((Spares.foldl (spares_playRing cfg) _ _).trans (.foldl spares_mixEntry _ _)).trans (spares_onVp Vp.consume _)).trans
    (.foldl (fun s k => spares_releaseEntry k s) _ _)

/-- A release of an entry leaves the frames consumed. -/
theorem consumed_releaseEntry (k : Nat) {s : State} (h : s.vp.consume = s.vp) :
    (s.releaseEntry k).vp.consume = (s.releaseEntry k).vp := by
  cases he : s.entryAt k with
  | none => rwa [releaseEntry_none he]
  | some e =>
    rw [releaseEntry_eq he]
    exact (Vp.consume_releaseAll _ _).trans (congrArg _ h)

/-- No frame is current after a mark (R128). -/
theorem consumed_mark (cfg : Settings) (s : State) : (s.mark cfg).vp.consume = (s.mark cfg).vp := by
  have hfold : ∀ (l : List Nat) {s : State}, s.vp.consume = s.vp →
      (l.foldl (fun s k => s.releaseEntry k) s).vp.consume = (l.foldl (fun s k => s.releaseEntry k) s).vp := by
    intro l
    induction l with
    | nil => exact id
    | cons k ks ih => exact fun h => ih (consumed_releaseEntry k h)
  exact hfold _ (Vp.consume_consume _)

end State

/-! ## The timers of TQU (R160, R161) -/

theorem Tqu.markOwn_eq (cfg : Settings) (t : Tqu) :
    t.markOwn cfg =
      { t with
        ownHold := if t.ownHold = 1 then (if t.freeCount ≤ cfg.holdThreshold then cfg.holdQuanta else 0) else t.ownHold - 1
        flow := if t.ownHold = 1 ∧ t.freeCount ≤ cfg.holdThreshold then (t.queueHold cfg.holdQuanta).flow else t.flow } := by
  unfold Tqu.markOwn
  by_cases hown : t.ownHold = 1
  · rw [if_pos hown, if_pos hown]
    by_cases hc : t.freeCount ≤ cfg.holdThreshold
    · rw [if_pos hc, if_pos ⟨hown, hc⟩, Tqu.holdOnset, if_pos ⟨hc, rfl⟩]
      obtain ⟨flow, _, _, _, _, _, _, _, _, _⟩ := t
      cases flow <;> rfl
    · rw [if_neg hc, if_neg fun h => hc h.2, Tqu.holdOnset, if_neg fun h => hc h.1]
  · rw [if_neg hown, if_neg hown, if_neg fun h => hown h.1]

end Sys2Proof.Machine
end

section
/-!
# The slot map after the orders of a mark (R88, R106)
-/

namespace Sys2Proof.Machine

/-- A step for each member of a list in turn: what holds of the members done is carried through the steps, where each step
leaves what a lookup finds for the members still to come. -/
theorem foldl_lookup {α κ γ : Type} {key : α → κ} {look : State → κ → γ} {found : α → γ} {op : State → α → State}
    {P : List α → State → Prop} {l : List α}
    (hop : ∀ (done : List α) (s : State), ∀ a ∈ l, P done s → look s (key a) = found a →
      P (done ++ [a]) (op s a) ∧ ∀ j, j ≠ key a → look (op s a) j = look s j)
    (hl : (l.map key).Nodup) {s : State} {done : List α} (hs : ∀ a ∈ l, look s (key a) = found a) (hP : P done s) :
    P (done ++ l) (l.foldl op s) := by
  induction l generalizing s done with
  | nil => rwa [List.append_nil]
  | cons a as ih =>
    obtain ⟨hne, has⟩ := List.nodup_cons.mp hl
    obtain ⟨hdone, hother⟩ := hop done s a List.mem_cons_self hP (hs a List.mem_cons_self)
    rw [List.foldl_cons, List.append_cons]
    refine ih (fun d t b hb => hop d t b (List.mem_cons_of_mem _ hb)) has (fun b hb => ?_) hdone
    rw [hother (key b) fun h => hne (h ▸ List.mem_map_of_mem hb)]
    exact hs b (List.mem_cons_of_mem _ hb)

namespace State

/-- The slot map with RE's serve table, the rest as it was: what the expiry of orders changes, MLC apart. -/
def OrdersOnly (s t : State) : Prop :=
  ∃ (a : Apc) (serve : List ServeEntry) (m : Mlc), t = { s with apc := a, re := { s.re with serve := serve }, mlc := m }

theorem OrdersOnly.refl (s : State) : s.OrdersOnly s := ⟨s.apc, s.re.serve, s.mlc, rfl⟩

theorem OrdersOnly.survey {s t : State} (h : s.OrdersOnly t) : t.re.survey = s.re.survey := by
  obtain ⟨_, _, _, rfl⟩ := h
  rfl

theorem OrdersOnly.vp {s t : State} (h : s.OrdersOnly t) : t.vp = s.vp := by
  obtain ⟨_, _, _, rfl⟩ := h
  rfl

theorem OrdersOnly.tqu {s t : State} (h : s.OrdersOnly t) : t.tqu = s.tqu := by
  obtain ⟨_, _, _, rfl⟩ := h
  rfl

theorem OrdersOnly.trans {a b c : State} (h : a.OrdersOnly b) (g : b.OrdersOnly c) : a.OrdersOnly c := by
  obtain ⟨_, _, _, rfl⟩ := h
  obtain ⟨x, serve, m, rfl⟩ := g
  exact ⟨x, serve, m, rfl⟩

/-- The entry at a slot, where it is ARRIVING. -/
def arrivingAt (s : State) (k : Nat) : Option ServeEntry := (s.entryAt k).filter fun e => e.state == .arriving

section
variable {cfg : Settings} {s : State} {k : Nat} {o : PendingOrder}

theorem arrivingAt_eq_some {e : ServeEntry} : s.arrivingAt k = some e ↔ s.entryAt k = some e ∧ e.state = .arriving := by
  rw [arrivingAt, Option.filter_eq_some_iff, beq_iff_eq]

theorem isSome_arrivingAt : (s.arrivingAt k).isSome = (s.entryAt k).any fun e => e.state == .arriving :=
  Option.isSome_filter ..

/-- An entry that is reverted was not ARRIVING and does not become so. -/
theorem arrivingAt_revert {e : ServeEntry} (he : s.entryAt k = some e) (hs : e.state ≠ .arriving) (j : Nat) :
    (s.updateEntry k (ServeEntry.fromHanding cfg)).arrivingAt j = s.arrivingAt j := by
  unfold arrivingAt
  rw [entryAt_updateEntry s k _ (slot_fromHanding cfg)]
  by_cases hj : j = k
  · have hback : (e.fromHanding cfg).state ≠ .arriving := by
      unfold ServeEntry.fromHanding
      split <;> simp
    rw [if_pos hj, hj, he, Option.map_some, Option.filter_some, Option.filter_some, if_neg (by simpa using hback),
      if_neg (by simpa using hs)]
  · rw [if_neg hj]

/-- At an entry that is not ARRIVING the end of an order is a revert, or nothing (R17). -/
theorem takeResult_not_arriving {e : ServeEntry} (he : s.entryAt k = some e) (ha : e.state ≠ .arriving) (kind : OrderKind) :
    s.takeResult cfg k kind false = s ∨
      ∃ n, s.takeResult cfg k kind false = (s.updateEntry k (ServeEntry.fromHanding cfg)).notify n := by
  by_cases hs : e.state = .handing
  · unfold takeResult
    rw [he]
    cases kind with
    | answer => exact .inl (by simp [hs])
    | move =>
      simp only [hs, Bool.false_eq_true, if_false]
      split
      · next hm =>
        obtain ⟨h, hh, -⟩ := (Option.any_eq_true _ _).mp hm
        exact .inr ⟨_, revert_eq he hh⟩
      · exact .inl rfl
  · exact .inl (takeResult_other he hs ha kind)

/-- The end of an order at RE: a revert, a SEEK ANSWER asked for, or nothing (R17, R88). -/
theorem takeResult_effect (kind : OrderKind) :
    s.OrdersOnly (s.takeResult cfg k kind false) ∧ (∀ j, (s.takeResult cfg k kind false).arrivingAt j = s.arrivingAt j) ∧
      (s.takeResult cfg k kind false).apc =
        if kind = .answer then
          ((s.arrivingAt k).bind fun e => s.apc.order k .answer (.seekAnswer e.headset cfg.channel k)).getD s.apc
        else s.apc := by
  cases he : s.entryAt k with
  | none =>
    have hstay : s.takeResult cfg k kind false = s := by
      unfold takeResult
      rw [he]
      rfl
    have hnone : s.arrivingAt k = none := by rw [arrivingAt, he]; rfl
    rw [hstay, hnone]
    exact ⟨.refl s, fun _ => rfl, (ite_self _).symm⟩
  | some e =>
    by_cases ha : e.state = .arriving
    · have harr : s.arrivingAt k = some e := arrivingAt_eq_some.mpr ⟨he, ha⟩
      rw [harr, Option.bind_some]
      cases kind with
      | answer =>
        rw [takeResult_answer he ha, if_pos rfl]
        exact ⟨⟨_, _, _, rfl⟩, fun _ => rfl, rfl⟩
      | move =>
        have hstay : s.takeResult cfg k .move false = s := by
          unfold takeResult
          rw [he]
          simp [ha]
        rw [hstay]
        exact ⟨.refl s, fun _ => rfl, rfl⟩
    · have hnone : s.arrivingAt k = none := by
        rw [arrivingAt, he, Option.filter_some, if_neg (by simpa using ha)]
      rw [hnone, Option.bind_none, Option.getD_none, ite_self]
      rcases takeResult_not_arriving (cfg := cfg) he ha kind with h | ⟨n, h⟩
      · rw [h]
        exact ⟨.refl s, fun _ => rfl, rfl⟩
      · rw [h]
        exact ⟨⟨_, _, _, rfl⟩, fun j => arrivingAt_revert he ha j, rfl⟩

/-- What the expiry of an order that is due leaves of its slot: no order, or a new ANSWER (R88, R106). -/
def endedSlot (s : State) (k : Nat) (o : PendingOrder) : AirSlot :=
  { state := (s.apc.slot k).state
    order := if o.kind = .answer ∧ (s.arrivingAt k).isSome = true then some { kind := .answer, age := 0 } else none }

/-- The expiry of an order that is due: its slot, the SEEK ANSWER sent again, and what stays (R17, R88, R106). -/
theorem expireOrder_slots (h : s.Lawful) (ho : (s.apc.slot k).order = some o) (hd : 4 ≤ o.age + 1)
    (hk : k < s.apc.slots.length) :
    s.OrdersOnly (s.expireOrder cfg k) ∧ (∀ j, (s.expireOrder cfg k).arrivingAt j = s.arrivingAt j) ∧
      (∀ j, (s.expireOrder cfg k).apc.slot j = if j = k then s.endedSlot k o else s.apc.slot j) ∧
      ∃ sent, (s.expireOrder cfg k).apc.out = s.apc.out ++ sent ∧
        ∀ e, s.arrivingAt k = some e → o.kind = .answer → (AirOrder.seekAnswer e.headset cfg.channel k).bytes ∈ sent := by
  rw [expireOrder_due ho hd]
  obtain ⟨honly, harr, hapc⟩ := takeResult_effect (cfg := cfg) (s := s.onApc (Apc.endOrder k)) (k := k) o.kind
  have hsame : ∀ j, (s.onApc (Apc.endOrder k)).arrivingAt j = s.arrivingAt j := fun j => rfl
  refine ⟨OrdersOnly.trans ⟨_, _, _, rfl⟩ honly, harr, ?_⟩
  rw [hapc, hsame]
  have hend : ∀ j, (s.apc.endOrder k).slot j = if j = k then { s.apc.slot k with order := none } else s.apc.slot j := by
    intro j
    unfold Apc.endOrder
    rw [Apc.slot_modify]
    by_cases hj : j = k
    · rw [if_pos ⟨hj, hk⟩, if_pos hj, hj]
    · rw [if_neg fun hc => hj hc.1, if_neg hj]
  by_cases hans : o.kind = .answer
  · rw [if_pos hans]
    cases he : s.arrivingAt k with
    | none =>
      refine ⟨fun j => ?_, [], (List.append_nil _).symm, fun e hx => by cases hx⟩
      simp [endedSlot, he, hend]
    | some e =>
      obtain ⟨hat, -⟩ := arrivingAt_eq_some.mp he
      obtain ⟨hmem, hslot⟩ := mem_of_entryAt hat
      have hassigned : (s.apc.slot k).state = .assigned e.headset := hslot ▸ h.entries e hmem
      have horder := Apc.order_after_end hassigned .answer (.seekAnswer e.headset cfg.channel k)
      rw [Option.bind_some, onApc_apc, horder, Option.getD_some]
      refine ⟨fun j => ?_, _, rfl, fun x hx _ => by cases hx; exact List.mem_singleton_self _⟩
      have hmod := Apc.slot_modify s.apc k j fun x => { x with order := some { kind := .answer, age := 0 } }
      refine Eq.trans hmod ?_
      by_cases hj : j = k
      · rw [if_pos ⟨hj, hk⟩, if_pos hj, hj]
        simp [endedSlot, he, hans]
      · rw [if_neg fun hc => hj hc.1, if_neg hj]
  · rw [if_neg hans]
    refine ⟨fun j => ?_, [], (List.append_nil _).symm, fun e _ hx => absurd hx hans⟩
    simp [endedSlot, hans, hend]

/-- The state `t` on the way through the orders of a mark from `s`, those of the slots `done` expired, the others aged. -/
structure OrdersDone (cfg : Settings) (s : State) (done : List Nat) (t : State) : Prop where
  lawful : t.Lawful
  sound : t.apc.Sound
  only : s.OrdersOnly t
  waiting : ∀ j, j ∉ done → t.apc.slot j = (s.apc.slot j).ageOrder
  ended : ∀ k ∈ done, ∀ o, (s.apc.slot k).order = some o → t.apc.slot k = s.endedSlot k o
  sent : ∃ sent, t.apc.out = s.apc.out ++ sent ∧ ∀ k ∈ done, ∀ e o, s.arrivingAt k = some e →
    (s.apc.slot k).order = some o → o.kind = .answer → (AirOrder.seekAnswer e.headset cfg.channel k).bytes ∈ sent

/-- One more order expires. -/
theorem OrdersDone.step {done : List Nat} {t : State} (h : OrdersDone cfg s done t) (ho : (s.apc.slot k).order = some o)
    (hd : 4 ≤ o.age + 1) (hk : k < 24) (hslot : t.apc.slot k = (s.apc.slot k).ageOrder)
    (harr : t.arrivingAt k = s.arrivingAt k) :
    OrdersDone cfg s (done ++ [k]) (t.expireOrder cfg k) ∧
      ∀ j, j ≠ k → (t.expireOrder cfg k).apc.slot j = t.apc.slot j ∧ (t.expireOrder cfg k).arrivingAt j = t.arrivingAt j := by
  have hto : (t.apc.slot k).order = some { o with age := o.age + 1 } := by
    rw [hslot, AirSlot.ageOrder, ho]
    rfl
  obtain ⟨honly, hstill, hslots, sent, hout, hsent⟩ :=
    expireOrder_slots (cfg := cfg) h.lawful hto (Nat.le_succ_of_le hd) (h.sound.slots.symm ▸ hk)
  have hended : t.endedSlot k { o with age := o.age + 1 } = s.endedSlot k o := by
    rw [endedSlot, endedSlot, hslot, harr]
    rfl
  obtain ⟨before, hbefore, hall⟩ := h.sent
  refine ⟨⟨lawful_expireOrder h.lawful cfg k, (stays_expireOrder cfg k t).apc h.sound, h.only.trans honly, fun j hj => ?_,
    fun j hj p hp => ?_, before ++ sent, ?_, fun j hj e p he hp hkind => ?_⟩, fun j hj => ⟨?_, hstill j⟩⟩
  · obtain ⟨hj, hjk⟩ := not_or.mp (mt List.mem_append.mpr hj)
    rw [hslots, if_neg (by simpa using hjk), h.waiting j hj]
  · rw [hslots]
    by_cases hjk : j = k
    · subst hjk
      obtain rfl : p = o := Option.some.inj (hp.symm.trans ho)
      rw [if_pos rfl, hended]
    · rw [if_neg hjk]
      exact h.ended j ((List.mem_append.mp hj).resolve_right (by simpa using hjk)) p hp
  · rw [hout, hbefore, List.append_assoc]
  · rcases List.mem_append.mp hj with hj | hj
    · exact List.mem_append_left _ (hall j hj e p he hp hkind)
    · obtain rfl := List.mem_singleton.mp hj
      obtain rfl : p = o := Option.some.inj (hp.symm.trans ho)
      exact List.mem_append_right _ (hsent e (harr.trans he) hkind)
  · rw [hslots, if_neg hj]

theorem mem_dueOrders {a : Apc} : k ∈ a.dueOrders ↔ k < 24 ∧ ∃ o, (a.slot k).order = some o ∧ 4 ≤ o.age + 1 := by
  rw [Apc.dueOrders, List.mem_filter, List.mem_range, Option.any_eq_true]
  exact and_congr_right' (exists_congr fun o => and_congr_right' decide_eq_true_iff)

theorem ordersDone_markOrders (cfg : Settings) (h : s.Lawful) (ha : s.apc.Sound) :
    OrdersDone cfg s s.apc.dueOrders (s.markOrders cfg) := by
  let aged := s.onApc fun a => { a with slots := a.slots.map AirSlot.ageOrder }
  have hbegin : OrdersDone cfg s [] aged :=
    ⟨lawful_onApc h _ (Apc.stateOf_age _), Apc.sound_age ha, ⟨_, _, _, rfl⟩, fun j _ => slot_ageOrders s.apc j,
      fun k hk => (List.not_mem_nil hk).elim, [], (List.append_nil _).symm, fun k hk => (List.not_mem_nil hk).elim⟩
  refine foldl_lookup (key := id) (look := fun t k => (t.apc.slot k, t.arrivingAt k))
    (found := fun k => ((s.apc.slot k).ageOrder, s.arrivingAt k)) (P := OrdersDone cfg s) (done := [])
    (fun done t k hk ht hlook => ?_) (List.map_id s.apc.dueOrders ▸ List.nodup_range.filter _) (fun k _ => ?_) hbegin
  · obtain ⟨hlt, o, ho, hd⟩ := mem_dueOrders.mp hk
    obtain ⟨hslot, harr⟩ := Prod.mk.inj hlook
    obtain ⟨hstep, hother⟩ := ht.step ho hd hlt hslot harr
    exact ⟨hstep, fun j hj => Prod.ext (hother j hj).1 (hother j hj).2⟩
  · exact Prod.ext (slot_ageOrders s.apc k) rfl

/-- The slot map after the orders of a mark: an order grows older, or ends at age 4 (R88, R106). -/
theorem slot_markOrders (cfg : Settings) (h : s.Lawful) (ha : s.apc.Sound) (k : Nat) :
    (s.markOrders cfg).apc.slot k =
      { state := (s.apc.slot k).state
        order := (s.apc.slot k).order.bind fun o =>
          if o.age + 1 < 4 then some { o with age := o.age + 1 }
          else if o.kind = .answer ∧ (s.arrivingAt k).isSome = true then some { kind := .answer, age := 0 }
          else none } := by
  have hdone := ordersDone_markOrders cfg h ha
  cases ho : (s.apc.slot k).order with
  | none =>
    rw [hdone.waiting k fun hk => ?_]
    · rw [AirSlot.ageOrder, ho]
      rfl
    · obtain ⟨-, o, hko, -⟩ := mem_dueOrders.mp hk
      rw [ho] at hko
      cases hko
  | some o =>
    rw [Option.bind_some]
    by_cases hd : 4 ≤ o.age + 1
    · have hlt : k < 24 := by
        by_contra hge
        rw [Apc.slot, List.getElem?_eq_none (by rw [ha.slots]; exact Nat.not_lt.mp hge)] at ho
        cases ho
      rw [hdone.ended k (mem_dueOrders.mpr ⟨hlt, o, ho, hd⟩) o ho, if_neg (Nat.not_lt.mpr hd)]
      rfl
    · rw [hdone.waiting k fun hk => ?_, if_pos (Nat.not_le.mp hd), AirSlot.ageOrder, ho]
      · rfl
      · obtain ⟨-, p, hp, hpd⟩ := mem_dueOrders.mp hk
        obtain rfl : o = p := Option.some.inj (ho.symm.trans hp)
        exact hd hpd

end

end State

end Sys2Proof.Machine
end

section
/-!
# What a mark brings to an end

A release and the failure of a claim both free a slot and give references back; what they do to the slot map, the group store
and TQU is one relation along a list of such losses, and the survey list is followed beside it.
-/

namespace Sys2Proof.Machine

/-- A serve entry released or a claim that fails: the slot it leaves, the references it gives back, and of a claim the
headset and tag of its CLAIM. -/
structure Loss where
  slot : Nat
  groups : List Group
  claim : Option (Headset × Tag)

/-- What the release of a serve entry gives up (R3). -/
def Loss.ofEntry (e : ServeEntry) : Loss := { slot := e.slot, groups := e.listen.map ListenItem.group, claim := none }

/-- What the end of a claim gives up (R49). -/
def Loss.ofClaim (x : Headset) (c : ClaimRecord) : Loss := { slot := c.slot, groups := c.groups, claim := some (x, c.tag) }

/-- Whether a queued message goes with a loss: the CLAIM of a claim (R49, R155). -/
def Loss.withdraws (l : Loss) (m : Queued) : Bool := l.claim.any fun p => m.body.isClaimOf p.1 p.2

/-- The survey entry of a headset that did not arrive (R9, R41; assumption 25). -/
def ServeEntry.returned (e : ServeEntry) : SurveyEntry := { SurveyEntry.fresh e.headset e.q with pacing := fullPacing }

/-- The headset of an entry goes back to the survey list by its expiry: it did not arrive, and was no reclaim (R9). -/
def ServeEntry.returnsBy (e : ServeEntry) (d : Option Expiry) : Bool :=
  Expiry.removes d && (e.state == .arriving && e.origin != some .reclaim)

/-- A slot that is not ASSIGNED has no pending order (R101, R105). -/
theorem Apc.order_of_unassigned {a : Apc} (h : a.Sound) {k : Nat} (hk : (a.slot k).state.isAssigned = false) :
    (a.slot k).order = none := by
  cases hx : a.slots[k]? with
  | none =>
    unfold Apc.slot
    rw [hx]
    rfl
  | some x =>
    rw [Apc.slot_of_getElem? hx] at hk ⊢
    cases ho : x.order with
    | none => rfl
    | some o =>
      have := h.orders x (List.mem_of_getElem? hx) (by rw [ho]; rfl)
      rw [hk] at this
      cases this

namespace State

/-- From `s` to `t` these losses, the frames of the group store and the REPORT queue apart. -/
structure Loses (ls : List Loss) (s t : State) : Prop where
  slot : ∀ k, t.apc.slot k = if k ∈ ls.map Loss.slot then AirSlot.cold else s.apc.slot k
  sent : ∃ sent, t.apc.out = s.apc.out ++ sent ∧
    ∀ l ∈ ls, l.claim = none → (AirOrder.slotClose l.slot).bytes ∈ sent
  vp : t.vp.consume = s.vp.consume.releaseAll (ls.flatMap Loss.groups)
  tqu : t.tqu = { s.tqu with
    urgent := s.tqu.urgent.filter fun m => !ls.any fun l => l.withdraws m
    handover := s.tqu.handover.filter fun m => !ls.any fun l => l.withdraws m
    report := t.tqu.report }

/-- Nothing lost where slot map, the consumed store and the queues but REPORT stay. -/
theorem Loses.of_same {s t : State} (hslot : t.apc.slots = s.apc.slots) (hout : ∃ sent, t.apc.out = s.apc.out ++ sent)
    (hvp : t.vp.consume = s.vp.consume) (htqu : t.tqu = { s.tqu with report := t.tqu.report }) : s.Loses [] t := by
  obtain ⟨sent, hout⟩ := hout
  refine ⟨fun k => ?_, ⟨sent, hout, fun l hl => (List.not_mem_nil hl).elim⟩, hvp, ?_⟩
  · unfold Apc.slot
    rw [hslot]
    rfl
  · simpa using htqu

theorem Loses.refl (s : State) : s.Loses [] s := .of_same rfl ⟨[], (List.append_nil _).symm⟩ rfl rfl

theorem Loses.trans {ls ls' : List Loss} {a b c : State} (h : a.Loses ls b) (g : b.Loses ls' c) : a.Loses (ls ++ ls') c := by
  obtain ⟨sent, hout, hsent⟩ := h.sent
  obtain ⟨sent', hout', hsent'⟩ := g.sent
  refine ⟨fun k => ?_, ⟨sent ++ sent', ?_, fun l hl hc => ?_⟩, ?_, ?_⟩
  · rw [g.slot, h.slot, List.map_append]
    by_cases h1 : k ∈ ls.map Loss.slot <;> by_cases h2 : k ∈ ls'.map Loss.slot <;>
      simp only [List.mem_append, h1, h2, if_true, if_false, or_true, or_false]
  · rw [hout', hout, List.append_assoc]
  · rcases List.mem_append.mp hl with hl | hl
    · exact List.mem_append_left _ (hsent l hl hc)
    · exact List.mem_append_right _ (hsent' l hl hc)
  · rw [g.vp, h.vp, List.flatMap_append, Vp.releaseAll_append]
  · rw [g.tqu, h.tqu]
    simp only [List.filter_filter, List.any_append, Bool.not_or, Bool.and_comm]

section
variable {cfg : Settings} {s : State} {k : Nat} {e : ServeEntry}

/-- The release of an entry without a reclaim outstanding (R3, R101). -/
theorem loses_releaseEntry (h : s.Lawful) (he : s.entryAt k = some e) (ht : e.state = .lost → e.tag = none) :
    s.Loses [Loss.ofEntry e] (s.releaseEntry k) := by
  obtain ⟨hmem, rfl⟩ := mem_of_entryAt he
  have hassigned : (s.apc.slot e.slot).state = .assigned e.headset := h.entries e hmem
  rw [releaseEntry_eq he, Apc.close_assigned hassigned]
  refine ⟨fun j => ?_, ⟨_, rfl, fun l hl _ => ?_⟩, ?_, ?_⟩
  · refine (Apc.slot_modify s.apc e.slot j fun _ => AirSlot.cold).trans (if_congr ?_ rfl rfl)
    rw [and_iff_left (Apc.lt_of_assigned hassigned)]
    exact List.mem_singleton.symm
  · rw [List.mem_singleton.mp hl]
    exact List.mem_singleton_self _
  · refine (Vp.consume_releaseAll _ _).trans ?_
    rw [List.flatMap_singleton]
    rfl
  · have hkeep : ∀ l : List Queued, (l.filter fun m => !([Loss.ofEntry e].any fun x => x.withdraws m)) = l := fun l =>
      List.filter_eq_self.mpr fun m _ => rfl
    rw [hkeep, hkeep]
    cases hs : e.state with
    | lost => rw [ht hs]
    | _ => rfl

/-- A claim that fails, its slot RESERVED with its tag (R49). -/
theorem loses_failClaim (h : s.Lawful) (ha : s.apc.Sound) {x : Headset} {c : ClaimRecord}
    (hc : (s.surveyFor x).bind SurveyEntry.claim = some c) : s.Loses [Loss.ofClaim x c] (s.failClaim x) := by
  obtain ⟨y, hy, hyc⟩ := Option.bind_eq_some_iff.mp hc
  have hreserved : (s.apc.slot c.slot).state = .reserved c.tag := h.claims _ (mem_claimKeys (mem_of_surveyFor hy).1 hyc)
  have hlt : c.slot < s.apc.slots.length := Apc.lt_of_not_free (by rw [Apc.stateOf, hreserved]; simp)
  have hfree : ({ state := .free, order := (s.apc.slot c.slot).order } : AirSlot) = AirSlot.cold := by
    rw [Apc.order_of_unassigned ha (by rw [hreserved]; rfl)]
    rfl
  rw [failClaim_eq hc, Apc.release_reserved hreserved]
  refine ⟨fun j => ?_, ⟨[], (List.append_nil _).symm, fun l hl hn => ?_⟩, ?_, ?_⟩
  · refine (Apc.slot_modify s.apc c.slot j fun x => { x with state := .free }).trans ?_
    by_cases hj : j = c.slot
    · rw [if_pos ⟨hj, hlt⟩, hj]
      exact hfree.trans (if_pos (List.mem_singleton_self _)).symm
    · rw [if_neg fun hc => hj hc.1]
      exact (if_neg fun hm => hj (List.mem_singleton.mp hm)).symm
  · rw [List.mem_singleton.mp hl] at hn
    cases hn
  · refine (Vp.consume_releaseAll _ _).trans ?_
    rw [List.flatMap_singleton]
    rfl
  · simp [Tqu.dropClaim, Loss.withdraws, Loss.ofClaim]

end

/-! ## Expiries of serve entries (R9, R12, R18, R20) -/

section
variable {cfg : Settings} {s u : State} {e : ServeEntry}

/-- The rescue timer of a LOST entry ends without a reclaim outstanding (R20). -/
theorem untagged_of_entryDue (hd : s.entryDue cfg e = some .rescue) : e.tag = none := by
  rw [entryDue_lost (lost_of_entryDue hd)] at hd
  cases ht : e.tag with
  | none => rfl
  | some tag =>
    rw [if_neg (by simp [rescueWaits, ht])] at hd
    cases hd

theorem loses_departEntry {x : ServeEntry} {k : Nat} (h : s.Lawful) (he : s.entryAt k = some x)
    (ht : x.state = .lost → x.tag = none) : s.Loses [Loss.ofEntry x] (s.departEntry k) := by
  obtain ⟨hslot, hsent, hvp, htqu⟩ := loses_releaseEntry h he ht
  rw [departEntry_eq he]
  exact ⟨hslot, hsent, hvp, htqu⟩

theorem survey_releaseEntry (s : State) (k : Nat) : (s.releaseEntry k).re.survey = s.re.survey := by
  cases he : s.entryAt k with
  | none => rw [releaseEntry_none he]
  | some e => rw [releaseEntry_eq he]

theorem entryAt_departEntry {j k : Nat} (hj : j ≠ k) : (s.departEntry k).entryAt j = s.entryAt j := by
  cases he : s.entryAt k with
  | none =>
    unfold departEntry
    rw [he]
  | some e =>
    rw [departEntry_eq he]
    exact entryAt_releaseEntry hj

theorem survey_departEntry (s : State) (k : Nat) : (s.departEntry k).re.survey = s.re.survey := by
  cases he : s.entryAt k with
  | none =>
    unfold departEntry
    rw [he]
  | some e =>
    rw [departEntry_eq he]
    exact survey_releaseEntry s k

/-- The expiry of an entry, once its counters have moved: what is lost, what the survey list gains, and no other entry
touched. -/
theorem expire_loses (h : s.Lawful) (he : s.entryAt e.slot = some e.tick) :
    let t := (u.entryDue cfg e).elim s fun x => s.expire cfg e.slot x
    s.Loses (if Expiry.removes (u.entryDue cfg e) then [Loss.ofEntry e] else []) t ∧
      t.re.survey =
        (if e.returnsBy (u.entryDue cfg e) then enterSurveyList e.returned s.re.survey else s.re.survey) ∧
      ∀ j, j ≠ e.slot → t.entryAt j = s.entryAt j := by
  intro t
  have hlost : s.Loses [] (s.enterLost cfg e.slot) ∧ (s.enterLost cfg e.slot).re.survey = s.re.survey ∧
      ∀ j, j ≠ e.slot → (s.enterLost cfg e.slot).entryAt j = s.entryAt j := by
    rw [enterLost_eq he]
    refine ⟨.of_same rfl ⟨[], (List.append_nil _).symm⟩ rfl rfl, rfl, fun j hj => ?_⟩
    exact (entryAt_updateEntry s e.slot (ServeEntry.toLost cfg) (fun _ => rfl) j).trans (if_neg hj)
  cases hd : u.entryDue cfg e with
  | none =>
    have ht : t = s := by simp only [t, hd, Option.elim_none]
    rw [ht]
    exact ⟨.refl s, rfl, fun _ _ => rfl⟩
  | some x =>
    have ht : t = s.expire cfg e.slot x := by simp only [t, hd, Option.elim_some]
    rw [ht]
    cases x with
    | handing => exact hlost
    | cutLink => exact hlost
    | rescue =>
      have hno : e.returnsBy (some .rescue) = false := by simp [ServeEntry.returnsBy, lost_of_entryDue hd]
      rw [hno]
      have htag : e.tick.tag = none := untagged_of_entryDue (e := e) hd
      exact ⟨loses_departEntry (x := e.tick) h he fun _ => htag, survey_departEntry s _, fun j => entryAt_departEntry⟩
    | arrival =>
      obtain ⟨hs, -⟩ := arriving_of_entryDue hd
      have hkeep : e.tick.state = .lost → e.tick.tag = none := fun hl => by
        rw [show e.tick.state = e.state from rfl, hs] at hl
        cases hl
      change s.Loses _ (s.expireArrival e.slot) ∧ (s.expireArrival e.slot).re.survey = _ ∧
        ∀ j, j ≠ e.slot → (s.expireArrival e.slot).entryAt j = s.entryAt j
      by_cases ho : e.origin = some .reclaim
      · have hno : e.returnsBy (some .arrival) = false := by simp [ServeEntry.returnsBy, ho]
        rw [show s.expireArrival e.slot = s.departEntry e.slot from expireArrival_reclaim (e := e.tick) he ho, hno]
        exact ⟨loses_departEntry (x := e.tick) h he hkeep, survey_departEntry s _, fun j => entryAt_departEntry⟩
      · have hyes : e.returnsBy (some .arrival) = true := by simp [ServeEntry.returnsBy, Expiry.removes, hs, ho]
        rw [show s.expireArrival e.slot = (s.releaseEntry e.slot).enterSurvey e.returned from
          expireArrival_other (e := e.tick) he ho, hyes]
        obtain ⟨hslot, hsent, hvp, htqu⟩ := loses_releaseEntry h he hkeep
        exact ⟨⟨hslot, hsent, hvp, htqu⟩, congrArg (enterSurveyList e.returned) (survey_releaseEntry s e.slot),
          fun j => entryAt_releaseEntry⟩

/-- The state `t` on the way through the expiries of a mark from `s`, those of the entries `done` taken, as due in `u`. -/
structure ExpiriesDone (cfg : Settings) (u s : State) (done : List ServeEntry) (t : State) : Prop where
  lawful : t.Lawful
  sound : t.apc.Sound
  loses : s.Loses ((done.filter fun e => Expiry.removes (u.entryDue cfg e)).map Loss.ofEntry) t
  survey : t.re.survey =
    (done.filter fun e => e.returnsBy (u.entryDue cfg e)).foldl (fun l e => enterSurveyList e.returned l) s.re.survey

/-- The expiries of a mark, in the order of the serve table. -/
theorem expiriesDone_foldl (h : s.Lawful) (ha : s.apc.Sound) {l : List ServeEntry} (hl : (l.map ServeEntry.slot).Nodup)
    (hs : ∀ e ∈ l, s.entryAt e.slot = some e.tick) :
    ExpiriesDone cfg u s l (l.foldl (fun s e => (u.entryDue cfg e).elim s fun x => s.expire cfg e.slot x) s) := by
  refine foldl_lookup (look := State.entryAt) (found := fun e => some e.tick) (P := ExpiriesDone cfg u s) (done := [])
    (fun done t e _ ht he => ?_) hl hs ⟨h, ha, .refl s, rfl⟩
  obtain ⟨hloses, hsurvey, hother⟩ := expire_loses (cfg := cfg) (u := u) ht.lawful he
  refine ⟨⟨?_, ?_, ?_, ?_⟩, hother⟩
  · cases u.entryDue cfg e with
    | none => exact ht.lawful
    | some x => exact lawful_expire ht.lawful cfg e.slot x
  · cases u.entryDue cfg e with
    | none => exact ht.sound
    | some x => exact (stays_expire cfg e.slot x t).apc ht.sound
  · have hmap : ([e].filter fun e => Expiry.removes (u.entryDue cfg e)).map Loss.ofEntry =
        if Expiry.removes (u.entryDue cfg e) then [Loss.ofEntry e] else [] := by
      rw [List.filter_singleton]
      cases Expiry.removes (u.entryDue cfg e) <;> rfl
    rw [List.filter_append, List.map_append, hmap]
    exact ht.loses.trans hloses
  · rw [hsurvey, ht.survey, List.filter_append, List.foldl_append, foldl_filter_single]

end

end State

end Sys2Proof.Machine
end

section
/-!
# The survey list through a mark (R42, R47, R61)
-/

namespace Sys2Proof.Machine

/-- A survey entry whose NORMAL claim fails (R34, R49). -/
def SurveyEntry.failed (e : SurveyEntry) : SurveyEntry := { e with claim := none, dwell := 0, pacing := fullPacing }

/-- What the failure of an entry's claim gives up (R49). -/
def SurveyEntry.loss (e : SurveyEntry) : Option Loss := e.claim.map (Loss.ofClaim e.headset)

/-- A survey entry after the counters of a mark and the end of its knowledge (R42, R47, R61, R84). -/
def SurveyEntry.aged (cfg : Settings) (e : SurveyEntry) : SurveyEntry := if e.knowledgeEnds cfg then e.tick.forget else e.tick

/-- A survey entry after a mark that does not remove it. -/
def SurveyEntry.marked (cfg : Settings) (e : SurveyEntry) : SurveyEntry :=
  if e.replyEnds then (e.aged cfg).failed else e.aged cfg

namespace SurveyEntry

theorem aged_same (cfg : Settings) (e : SurveyEntry) : (e.aged cfg).headset = e.headset ∧ (e.aged cfg).claim = e.tick.claim := by
  unfold aged
  split <;> exact ⟨rfl, rfl⟩

theorem loss_tick (e : SurveyEntry) : e.tick.loss = e.loss := by
  unfold loss tick
  cases e.claim <;> rfl

/-- A claim whose reply timer ends stands. -/
theorem claim_of_replyEnds {e : SurveyEntry} (h : e.replyEnds = true) : ∃ c, e.tick.claim = some c := by
  obtain ⟨c, hc, -⟩ := (Option.any_eq_true _ _).mp h
  exact ⟨_, by rw [tick, hc]; rfl⟩

theorem not_agesOut_of_replyEnds {e : SurveyEntry} (h : e.replyEnds = true) (cfg : Settings) : e.agesOut cfg = false := by
  obtain ⟨c, hc, -⟩ := (Option.any_eq_true _ _).mp h
  rw [agesOut, hc]
  rfl

end SurveyEntry

theorem mem_surveyed {r : Re} (hd : (r.survey.map SurveyEntry.headset).Nodup) {e : SurveyEntry} (he : e ∈ r.survey)
    (p : SurveyEntry → Bool) : e.headset ∈ r.surveyed p ↔ p e = true := by
  refine ⟨fun h => ?_, fun h => List.mem_map_of_mem (List.mem_filter.mpr ⟨he, h⟩)⟩
  obtain ⟨y, hy, hye⟩ := List.mem_map.mp h
  obtain ⟨hm, hp⟩ := List.mem_filter.mp hy
  rwa [eq_of_headset hd hm he hye] at hp

namespace State

/-! ## Removals and updates by headset -/

theorem foldl_removeSurvey (l : List Headset) (s : State) :
    l.foldl (fun s h => s.removeSurvey h) s =
      s.onRe fun r => { r with survey := r.survey.filter fun e => decide (e.headset ∉ l) } := by
  induction l generalizing s with
  | nil =>
    have hall : (s.re.survey.filter fun e => decide (e.headset ∉ ([] : List Headset))) = s.re.survey :=
      List.filter_eq_self.mpr fun e _ => by simp
    rw [onRe, hall]
    rfl
  | cons x xs ih =>
    rw [List.foldl_cons, ih]
    refine congrArg (fun l => { s with re := { s.re with survey := l } }) ?_
    refine (List.filter_filter ..).trans (List.filter_congr fun e _ => ?_)
    by_cases hx : e.headset = x <;> simp [hx]

theorem foldl_forget (l : List Headset) (s : State) :
    l.foldl (fun s h => s.updateSurvey h SurveyEntry.forget) s =
      s.onRe fun r => { r with survey := r.survey.map fun e => if e.headset ∈ l then e.forget else e } := by
  induction l generalizing s with
  | nil =>
    have hall : (s.re.survey.map fun e => if e.headset ∈ ([] : List Headset) then e.forget else e) = s.re.survey :=
      (List.map_congr_left fun e _ => if_neg List.not_mem_nil).trans (List.map_id _)
    rw [onRe, hall]
    rfl
  | cons x xs ih =>
    rw [List.foldl_cons, ih]
    refine congrArg (fun l => { s with re := { s.re with survey := l } }) ?_
    refine (List.map_map ..).trans (List.map_congr_left fun e _ => ?_)
    by_cases hx : e.headset = x
    · have hback : e.forget.forget = e.forget := rfl
      simp [hx, hback]
    · simp [hx]

theorem surveyFor_of_mem {s : State} (hd : (s.re.survey.map SurveyEntry.headset).Nodup) {e : SurveyEntry}
    (he : e ∈ s.re.survey) : s.surveyFor e.headset = some e := by
  cases hx : s.surveyFor e.headset with
  | none => exact absurd rfl (not_mem_of_surveyFor hx e he)
  | some x =>
    obtain ⟨hm, hxe⟩ := mem_of_surveyFor hx
    rw [eq_of_headset hd hm he hxe]

section
variable {cfg : Settings} {s : State}

/-- The counters of a mark, survey entries removed by age, and knowledge that grew stale. -/
theorem tick_survey (hd : (s.re.survey.map SurveyEntry.headset).Nodup) :
    (s.re.surveyed (SurveyEntry.knowledgeEnds cfg)).foldl (fun s h => s.updateSurvey h SurveyEntry.forget)
        ((s.re.surveyed (SurveyEntry.agesOut cfg)).foldl (fun s h => s.removeSurvey h) (s.onRe Re.tick)) =
      s.onRe fun r => { r.tick with survey := (r.survey.filter fun e => !e.agesOut cfg).map (SurveyEntry.aged cfg) } := by
  rw [foldl_removeSurvey, foldl_forget]
  refine congrArg (fun l => { s with re := { s.re.tick with survey := l } }) ?_
  change ((s.re.survey.map SurveyEntry.tick).filter _).map _ = _
  rw [List.filter_map, List.map_map]
  have hfilter : (s.re.survey.filter ((fun e => decide (e.headset ∉ s.re.surveyed (SurveyEntry.agesOut cfg))) ∘
      SurveyEntry.tick)) = s.re.survey.filter fun e => !e.agesOut cfg :=
    List.filter_congr fun e he => by
      have hin := mem_surveyed hd he (SurveyEntry.agesOut cfg)
      cases ha : e.agesOut cfg <;> simp [SurveyEntry.tick, hin, ha]
  rw [hfilter]
  refine List.map_congr_left fun e he => ?_
  exact if_congr (mem_surveyed hd (List.mem_filter.mp he).1 (SurveyEntry.knowledgeEnds cfg)) rfl rfl

/-! ## Claims that fail (R61) -/

/-- The state `t` on the way through the claims that fail at a mark, those of the entries `done` ended. -/
structure ClaimsDone (s : State) (done : List SurveyEntry) (t : State) : Prop where
  lawful : t.Lawful
  sound : t.apc.Sound
  loses : s.Loses (done.filterMap SurveyEntry.loss) t
  survey : t.re.survey = s.re.survey.map fun e => if e.headset ∈ done.map SurveyEntry.headset then e.failed else e

theorem failClaim_survey {x : Headset} {c : ClaimRecord} (hc : (s.surveyFor x).bind SurveyEntry.claim = some c) :
    (s.failClaim x).re = (s.updateSurvey x SurveyEntry.failed).re := by
  rw [failClaim_eq hc]
  rfl

/-- The claims of the entries `l` fail, one after another. -/
theorem claimsDone_foldl (h : s.Lawful) (ha : s.apc.Sound) {l : List SurveyEntry}
    (hl : (l.map SurveyEntry.headset).Nodup) (hends : ∀ e ∈ l, e.replyEnds = true)
    (hs : ∀ e ∈ l, (s.surveyFor e.headset).bind SurveyEntry.claim = e.tick.claim) :
    ClaimsDone s l (l.foldl (fun s e => s.failClaim e.headset) s) := by
  have hbegin : ClaimsDone s [] s :=
    ⟨h, ha, .refl s, ((List.map_congr_left fun e _ => if_neg List.not_mem_nil).trans (List.map_id _)).symm⟩
  refine foldl_lookup (key := SurveyEntry.headset) (look := fun t x => (t.surveyFor x).bind SurveyEntry.claim)
    (found := fun e => e.tick.claim) (P := ClaimsDone s) (done := []) (fun done t e he ht hlook => ?_) hl hs hbegin
  obtain ⟨c, hc⟩ := SurveyEntry.claim_of_replyEnds (hends e he)
  have hclaim := hlook.trans hc
  refine ⟨⟨lawful_failClaim ht.lawful _, (stays_failClaim e.headset t).apc ht.sound, ?_, ?_⟩, fun j hj => ?_⟩
  · have hloss : e.loss = some (Loss.ofClaim e.headset c) := by
      rw [← SurveyEntry.loss_tick, SurveyEntry.loss, hc]
      rfl
    rw [List.filterMap_append, List.filterMap_cons_some hloss]
    exact ht.loses.trans (loses_failClaim ht.lawful ht.sound hclaim)
  · rw [failClaim_survey hclaim]
    change t.re.survey.map _ = _
    rw [ht.survey, List.map_map]
    refine List.map_congr_left fun x _ => ?_
    have hback : x.failed.failed = x.failed := rfl
    have hsame : x.failed.headset = x.headset := rfl
    rw [List.map_append, List.map_singleton]
    by_cases hin : x.headset ∈ done.map SurveyEntry.headset
    · simp only [Function.comp, if_pos hin, hsame, hback, ite_self, if_pos (List.mem_append_left _ hin)]
    · simp [Function.comp, hin]
  · have hfor : (t.failClaim e.headset).surveyFor j = (t.updateSurvey e.headset SurveyEntry.failed).surveyFor j := by
      unfold surveyFor
      rw [failClaim_survey hclaim]
    rw [hfor, surveyFor_updateSurvey t e.headset SurveyEntry.failed (fun _ => rfl), if_neg hj]

/-! ## RE's part of a mark -/

/-- What RE's part of a mark loses, and the survey list it leaves. -/
theorem markRe_loses (cfg : Settings) (h : s.Lawful) (ha : s.apc.Sound) :
    s.Loses ((s.re.survey.filter SurveyEntry.replyEnds).filterMap SurveyEntry.loss ++
        (s.re.serve.filter fun e => Expiry.removes (s.entryDue cfg e)).map Loss.ofEntry) (s.markRe cfg) ∧
      (s.markRe cfg).re.survey =
        (s.re.serve.filter fun e => e.returnsBy (s.entryDue cfg e)).foldl (fun l e => enterSurveyList e.returned l)
          ((s.re.survey.filter fun e => !e.agesOut cfg).map (SurveyEntry.marked cfg)) := by
  have hd := h.surveyOnce
  let unanswered := s.re.survey.filter SurveyEntry.replyEnds
  let u := s.onRe fun r => { r.tick with survey := (r.survey.filter fun e => !e.agesOut cfg).map (SurveyEntry.aged cfg) }
  let v := unanswered.foldl (fun s e => s.failClaim e.headset) u
  let w := s.re.serve.foldl (fun t e => (s.entryDue cfg e).elim t fun x => t.expire cfg e.slot x) v
  have hu : u = (s.re.surveyed (SurveyEntry.knowledgeEnds cfg)).foldl (fun s h => s.updateSurvey h SurveyEntry.forget)
      ((s.re.surveyed (SurveyEntry.agesOut cfg)).foldl (fun s h => s.removeSurvey h) (s.onRe Re.tick)) :=
    (tick_survey hd).symm
  have hmark : s.markRe cfg = w.buildStanding cfg := by
    unfold markRe
    dsimp only
    rw [foldl_expiries, ← hu, Re.surveyed, List.foldl_map]
  have hlawful : u.Lawful := by
    rw [hu]
    exact lawful_foldl _ (fun _ x hs => lawful_forget hs x) _
      (lawful_foldl _ (fun _ x hs => lawful_removeSurvey hs x) _ (lawful_tick h))
  have hlook : ∀ e ∈ unanswered, (u.surveyFor e.headset).bind SurveyEntry.claim = e.tick.claim := fun e he => by
    obtain ⟨hmem, hends⟩ := List.mem_filter.mp he
    obtain ⟨hhead, hclaim⟩ := SurveyEntry.aged_same cfg e
    have hin : e.aged cfg ∈ u.re.survey := List.mem_map_of_mem
      (List.mem_filter.mpr ⟨hmem, by rw [SurveyEntry.not_agesOut_of_replyEnds hends]; rfl⟩)
    rw [← hhead, surveyFor_of_mem hlawful.surveyOnce hin, Option.bind_some, hclaim]
  have hclaims : ClaimsDone u unanswered v :=
    claimsDone_foldl hlawful ha (hd.sublist (List.filter_sublist.map _)) (fun e he => (List.mem_filter.mp he).2) hlook
  have hserve : v.re.serve = s.re.serve.map ServeEntry.tick :=
    serve_foldl (fun s e => s.failClaim e.headset) (fun s e => serve_failClaim e.headset s) unanswered u
  have hexpiries : ExpiriesDone cfg s v s.re.serve w :=
    expiriesDone_foldl hclaims.lawful hclaims.sound (nodup_slots h) fun e he =>
      entryAt_of_mem hclaims.lawful (e := e.tick) (hserve ▸ List.mem_map_of_mem he)
  have hbuilt : w.Loses [] (w.buildStanding cfg) ∧ (w.buildStanding cfg).re.survey = w.re.survey := by
    rw [buildStanding_eq]
    exact ⟨.of_same rfl ⟨[], (List.append_nil _).symm⟩ rfl rfl, rfl⟩
  rw [hmark]
  refine ⟨?_, ?_⟩
  · have hbegin : s.Loses [] u := .of_same rfl ⟨[], (List.append_nil _).symm⟩ rfl rfl
    have hall := ((hbegin.trans hclaims.loses).trans hexpiries.loses).trans hbuilt.1
    rwa [List.append_nil, List.nil_append] at hall
  · rw [hbuilt.2, hexpiries.survey, hclaims.survey]
    refine congrArg (List.foldl _ · _) ((List.map_map ..).trans (List.map_congr_left fun e he => ?_))
    have hin : (e.aged cfg).headset ∈ unanswered.map SurveyEntry.headset ↔ e.replyEnds = true := by
      rw [(SurveyEntry.aged_same cfg e).1]
      exact mem_surveyed hd (List.mem_filter.mp he).1 SurveyEntry.replyEnds
    exact if_congr hin rfl rfl

end

end State

end Sys2Proof.Machine
end

section
/-!
# What a whole mark loses (R97)
-/

namespace Sys2Proof.Machine

/-- What a DRAINING entry whose ring is empty gives up at a mark (R19, R119). -/
def ServeEntry.drainLoss (e : ServeEntry) : Option Loss := if e.drained then some (Loss.ofEntry e) else none

/-- A serve entry apart from its ring. -/
def ServeEntry.ringless (e : ServeEntry) : ServeEntry := { e with ring := Ring.start none }

/-- A part of a list seen through `g`, under a change of its members that neither the test nor `g` tells. -/
theorem map_filter_map {α β : Type} {f : α → α} {p : α → Bool} {g : α → β} (hp : ∀ e, p (f e) = p e)
    (hg : ∀ e, g (f e) = g e) (l : List α) : ((l.map f).filter p).map g = (l.filter p).map g := by
  rw [List.filter_map, List.map_map]
  exact (congrArg (fun q => (l.filter q).map (g ∘ f)) (funext hp)).trans (List.map_congr_left fun e _ => hg e)

theorem map_filter_drained (l : List ServeEntry) :
    (l.filter ServeEntry.drained).map Loss.ofEntry = l.filterMap ServeEntry.drainLoss := by
  rw [← List.filterMap_eq_map', List.filterMap_filter]
  rfl

namespace State

theorem foldl_preserves {α β : Type} {op : State → α → State} {F : State → β} (hF : ∀ s a, F (op s a) = F s) (l : List α)
    (s : State) : F (l.foldl op s) = F s := by
  induction l generalizing s with
  | nil => rfl
  | cons a as ih => exact (ih _).trans (hF s a)

theorem Loses.foldl_none {α : Type} {op : State → α → State} (hop : ∀ (s : State) a, s.Loses [] (op s a)) (l : List α) (s : State) :
    s.Loses [] (l.foldl op s) := by
  induction l generalizing s with
  | nil => exact .refl s
  | cons a as ih => exact (hop s a).trans (ih _)

/-! ## VP's part of a mark -/

theorem loses_playRing (cfg : Settings) (s : State) (e : ServeEntry) : s.Loses [] (s.playRing cfg e) := by
  rw [playRing_eq]
  exact .of_same rfl ⟨[], (List.append_nil _).symm⟩ rfl rfl

theorem loses_mixEntry (s : State) (e : ServeEntry) : s.Loses [] (s.mixEntry e) := by
  rw [mixEntry_eq]
  change s.Loses [] { s with mlc := _, apc := s.apc.downlink e.slot (e.mixedSamples s.vp) }
  unfold Apc.downlink
  split
  · exact .of_same rfl ⟨_, rfl⟩ rfl rfl
  · exact .of_same rfl ⟨[], (List.append_nil _).symm⟩ rfl rfl

theorem ringless_playRing (cfg : Settings) (s : State) (e : ServeEntry) (k : Nat) :
    ((s.playRing cfg e).entryAt k).map ServeEntry.ringless = (s.entryAt k).map ServeEntry.ringless := by
  rw [playRing_eq]
  change ((s.updateEntry e.slot fun x => { x with ring := (e.play cfg).1 }).entryAt k).map _ = _
  rw [entryAt_updateEntry s e.slot (fun x => { x with ring := (e.play cfg).1 }) fun _ => rfl]
  split
  · exact Option.map_map ..
  · rfl

/-- The release of an entry found drained before its ring was played. -/
theorem loses_releaseDrained {s : State} (h : s.Lawful) {e : ServeEntry} (hd : e.drained = true)
    (he : (s.entryAt e.slot).map ServeEntry.ringless = some e.ringless) : s.Loses [Loss.ofEntry e] (s.releaseEntry e.slot) := by
  obtain ⟨x, hx, hsame⟩ := Option.map_eq_some_iff.mp he
  have hloss : Loss.ofEntry x.ringless = Loss.ofEntry e.ringless := congrArg Loss.ofEntry hsame
  have hstate : x.ringless.state = e.ringless.state := congrArg ServeEntry.state hsame
  change Loss.ofEntry x = Loss.ofEntry e at hloss
  change x.state = e.state at hstate
  rw [← hloss]
  refine loses_releaseEntry h hx fun hl => ?_
  rw [hstate, ((ServeEntry.drained_iff e).mp hd).1] at hl
  cases hl

/-- VP's part of a mark loses the DRAINING entries whose rings were empty. -/
theorem markVp_loses (cfg : Settings) {s : State} (h : s.Lawful) :
    s.Loses (s.re.serve.filterMap ServeEntry.drainLoss) (s.markVp cfg) ∧ (s.markVp cfg).re.survey = s.re.survey := by
  let played := s.re.serve.foldl (State.playRing cfg) s
  let mixed := (played.re.serve.filter ServeEntry.mixed).foldl State.mixEntry played
  let spent := mixed.onVp Vp.consume
  let drained := s.re.serve.filter ServeEntry.drained
  have hmark : s.markVp cfg = drained.foldl (fun t e => t.releaseEntry e.slot) spent := by
    unfold markVp
    dsimp only
    rw [List.foldl_map]
  have hlawful : spent.Lawful :=
    lawful_onVp (lawful_foldl _ (fun _ e hs => lawful_mixEntry hs e) _
      (lawful_playRings cfg _ (fun e he => (h.served e he).ring) h)) _
  have hbefore : s.Loses [] spent := by
    have hplay := Loses.foldl_none (loses_playRing cfg) s.re.serve s
    have hmix := Loses.foldl_none loses_mixEntry (played.re.serve.filter ServeEntry.mixed) played
    have hspend : mixed.Loses [] spent := .of_same rfl ⟨[], (List.append_nil _).symm⟩ (Vp.consume_consume _) rfl
    exact (hplay.trans hmix).trans hspend
  have hlook : ∀ e ∈ drained, (spent.entryAt e.slot).map ServeEntry.ringless = some e.ringless := fun e he => by
    have hmix : mixed.entryAt e.slot = played.entryAt e.slot :=
      foldl_preserves (F := fun t => t.entryAt e.slot) (fun t x => by unfold entryAt; rw [serve_mixEntry]) _ played
    have hplay : (played.entryAt e.slot).map ServeEntry.ringless = (s.entryAt e.slot).map ServeEntry.ringless :=
      foldl_preserves (F := fun t => (t.entryAt e.slot).map ServeEntry.ringless)
        (fun t x => ringless_playRing cfg t x e.slot) s.re.serve s
    change (mixed.entryAt e.slot).map _ = _
    rw [hmix, hplay, entryAt_of_mem h (List.mem_filter.mp he).1, Option.map_some]
  have hrelease := foldl_lookup (key := ServeEntry.slot) (op := fun t e => t.releaseEntry e.slot)
    (look := fun t k => (t.entryAt k).map ServeEntry.ringless) (found := fun e => some e.ringless)
    (P := fun done t => t.Lawful ∧ spent.Loses (done.map Loss.ofEntry) t) (done := []) (l := drained)
    (fun done t e he ht hx => ⟨⟨lawful_releaseEntry ht.1 _, by
        rw [List.map_append]
        exact ht.2.trans (loses_releaseDrained ht.1 (List.mem_filter.mp he).2 hx)⟩,
      fun j hj => congrArg _ (entryAt_releaseEntry hj)⟩)
    ((nodup_slots h).sublist (List.filter_sublist.map _)) hlook ⟨hlawful, .refl spent⟩
  have hsurvey : spent.re.survey = s.re.survey :=
    (foldl_preserves (F := fun t => t.re.survey) (fun t x => by rw [mixEntry_eq]; rfl) _ played).trans
      (foldl_preserves (F := fun t => t.re.survey) (fun t x => by rw [playRing_eq]; rfl) s.re.serve s)
  rw [hmark, ← map_filter_drained]
  refine ⟨hbefore.trans hrelease.2, Eq.trans ?_ hsurvey⟩
  exact foldl_preserves (F := fun t => t.re.survey) (fun t x => survey_releaseEntry t x.slot) drained spent

/-! ## What the orders and RE's part of a mark leave of an entry -/

section
variable {cfg : Settings} {s : State} {e : ServeEntry}

theorem drainLoss_of_ne (h : e.state ≠ .draining) : e.drainLoss = none :=
  if_neg fun hd => h ((ServeEntry.drained_iff e).mp hd).1

/-- An expiry leaves a drained entry as it is, and makes none. -/
theorem drainLoss_expired (cfg : Settings) (s : State) (e : ServeEntry) :
    (e.expired cfg (s.entryDue cfg e)).bind ServeEntry.drainLoss = e.drainLoss := by
  by_cases hs : e.state = .draining
  · rw [entryDue_draining hs]
    rfl
  · rw [drainLoss_of_ne hs]
    cases s.entryDue cfg e with
    | none => exact drainLoss_of_ne (e := e.tick) hs
    | some x =>
      cases x with
      | arrival => rfl
      | rescue => rfl
      | handing => exact drainLoss_of_ne (e := e.tick.toLost cfg) (by simp [ServeEntry.toLost])
      | cutLink => exact drainLoss_of_ne (e := e.tick.toLost cfg) (by simp [ServeEntry.toLost])

theorem drainLoss_markNamed (named : List ServeEntry) (e : ServeEntry) : (e.markNamed named).drainLoss = e.drainLoss := by
  unfold ServeEntry.markNamed
  split <;> rfl

theorem drainLoss_markRe (cfg : Settings) (h : s.Lawful) :
    (s.markRe cfg).re.serve.filterMap ServeEntry.drainLoss = s.re.serve.filterMap ServeEntry.drainLoss := by
  obtain ⟨t, hmark, hserve, -⟩ := markRe_effect cfg (nodup_slots h)
  rw [hmark, buildStanding_eq]
  change (t.re.serve.map _).filterMap _ = _
  rw [List.filterMap_map, hserve, List.filterMap_filterMap]
  refine List.filterMap_congr fun e _ => ?_
  rw [← drainLoss_expired cfg s e]
  exact congrArg _ (funext fun x => drainLoss_markNamed _ x)

/-- An order that expires leaves an entry, or returns it from HANDING. -/
theorem reverted_cases (cfg : Settings) (a : Apc) (l : List Nat) (e : ServeEntry) :
    reverted cfg a l e = e ∨ (e.state = .handing ∧ reverted cfg a l e = e.fromHanding cfg) := by
  by_cases h : e.slot ∈ l ∧ e.moved a = true
  · exact .inr ⟨((ServeEntry.moved_iff a e).mp h.2).1, if_pos h⟩
  · exact .inl (if_neg h)

theorem state_fromHanding (cfg : Settings) (e : ServeEntry) :
    (e.fromHanding cfg).state = .served ∨ (e.fromHanding cfg).state = .offered := by
  unfold ServeEntry.fromHanding
  split
  · exact .inr rfl
  · exact .inl rfl

/-- A mark takes the same of two entries. -/
structure SameEnds (cfg : Settings) (u : State) (e x : ServeEntry) : Prop where
  loss : Loss.ofEntry x = Loss.ofEntry e
  returned : x.returned = e.returned
  drainLoss : x.drainLoss = e.drainLoss
  removes : Expiry.removes (u.entryDue cfg x) = Expiry.removes (u.entryDue cfg e)
  returnsBy : x.returnsBy (u.entryDue cfg x) = e.returnsBy (u.entryDue cfg e)

/-- What a mark takes of an entry is the same before and after its orders. -/
theorem sameEnds_reverted (u : State) (a : Apc) (l : List Nat) (e : ServeEntry) :
    SameEnds cfg u e (reverted cfg a l e) := by
  rcases reverted_cases cfg a l e with h | ⟨hs, h⟩
  · rw [h]
    exact ⟨rfl, rfl, rfl, rfl, rfl⟩
  · have hback := state_fromHanding cfg e
    have hlisten : (e.fromHanding cfg).listen = e.listen ∧ (e.fromHanding cfg).slot = e.slot := by
      unfold ServeEntry.fromHanding
      split <;> exact ⟨rfl, rfl⟩
    obtain ⟨hhead, -, hq, -, -⟩ := fromHanding_fields cfg e
    have hno : Expiry.removes (u.entryDue cfg e) = false := removes_other (by simp [hs]) (by simp [hs])
    have hno' : Expiry.removes (u.entryDue cfg (e.fromHanding cfg)) = false :=
      removes_other (by rcases hback with hb | hb <;> simp [hb]) (by rcases hback with hb | hb <;> simp [hb])
    rw [h]
    refine ⟨?_, ?_, ?_, hno'.trans hno.symm, ?_⟩
    · rw [Loss.ofEntry, Loss.ofEntry, hlisten.1, hlisten.2]
    · rw [ServeEntry.returned, ServeEntry.returned, hhead, hq]
    · rw [drainLoss_of_ne (by rcases hback with hb | hb <;> simp [hb]), drainLoss_of_ne (by simp [hs])]
    · rw [ServeEntry.returnsBy, ServeEntry.returnsBy, hno, hno', Bool.false_and, Bool.false_and]

/-- What a whole mark loses after its orders and hold timers, and the survey list it leaves. -/
theorem mark_loses (cfg : Settings) (h : s.Lawful) (ha : s.apc.Sound) :
    ((s.markOrders cfg).onTqu (Tqu.mark cfg)).Loses
        ((s.re.survey.filter SurveyEntry.replyEnds).filterMap SurveyEntry.loss ++
          (s.re.serve.filter fun e => Expiry.removes (s.entryDue cfg e)).map Loss.ofEntry ++
          (s.re.serve.filter ServeEntry.drained).map Loss.ofEntry) (s.mark cfg) ∧
      (s.mark cfg).re.survey =
        (s.re.serve.filter fun e => e.returnsBy (s.entryDue cfg e)).foldl (fun l e => enterSurveyList e.returned l)
          ((s.re.survey.filter fun e => !e.agesOut cfg).map (SurveyEntry.marked cfg)) := by
  let u := (s.markOrders cfg).onTqu (Tqu.mark cfg)
  have hlawful : u.Lawful := lawful_onTqu (lawful_markOrders h cfg) _
  have hsound : u.apc.Sound := (stays_markOrders cfg s).apc ha
  obtain ⟨hre, hsurvey⟩ := markRe_loses cfg hlawful hsound
  obtain ⟨hvp, hsurvey'⟩ := markVp_loses cfg (lawful_markRe hlawful cfg)
  obtain ⟨hserve, -, htqu⟩ := markOrders_effect cfg (nodup_slots h)
  have hkept : u.re.survey = s.re.survey := (ordersDone_markOrders cfg h ha).only.survey
  have hdue : u.entryDue cfg = s.entryDue cfg := by
    obtain ⟨-, hpool, hreached⟩ := Tqu.mark_beside cfg (s.markOrders cfg).tqu
    rw [htqu] at hpool hreached
    exact entryDue_congr (t := u) ((congrArg (fun t => (Tqu.mark cfg t).pool) htqu).trans hpool)
      ((congrArg (fun t => (Tqu.mark cfg t).reached) htqu).trans hreached) cfg
  have hsame := sameEnds_reverted (cfg := cfg) s s.apc s.apc.dueOrders
  have hordered : u.re.serve = s.re.serve.map (reverted cfg s.apc s.apc.dueOrders) := hserve
  have htaken : (u.re.serve.filter fun e => Expiry.removes (s.entryDue cfg e)).map Loss.ofEntry =
      (s.re.serve.filter fun e => Expiry.removes (s.entryDue cfg e)).map Loss.ofEntry := by
    rw [hordered]
    exact map_filter_map (fun e => (hsame e).removes) (fun e => (hsame e).loss) _
  have hback : (u.re.serve.filter fun e => e.returnsBy (s.entryDue cfg e)).map ServeEntry.returned =
      (s.re.serve.filter fun e => e.returnsBy (s.entryDue cfg e)).map ServeEntry.returned := by
    rw [hordered]
    exact map_filter_map (fun e => (hsame e).returnsBy) (fun e => (hsame e).returned) _
  have hdrained : u.re.serve.filterMap ServeEntry.drainLoss = s.re.serve.filterMap ServeEntry.drainLoss := by
    rw [hordered, List.filterMap_map]
    exact List.filterMap_congr fun e _ => (hsame e).drainLoss
  refine ⟨?_, ?_⟩
  · have hall := hre.trans hvp
    rw [drainLoss_markRe cfg hlawful, hdrained, hdue, hkept, htaken] at hall
    rw [map_filter_drained]
    exact hall
  · refine hsurvey'.trans (hsurvey.trans ?_)
    rw [hdue, hkept, ← List.foldl_map (f := ServeEntry.returned) (g := fun l y => enterSurveyList y l), hback,
      List.foldl_map]

end

end State

end Sys2Proof.Machine
end

section
/-!
# The cycle mark beside the serve table (O12)
-/

namespace Sys2Proof.Machine

/-! ## The losses of a mark, item by item -/

/-- The losses of claims of the entries `ys` and of the releases of two parts of a serve table. -/
def lossesOf (ys : List SurveyEntry) (l : List ServeEntry) (p q : ServeEntry → Bool) : List Loss :=
  ys.filterMap SurveyEntry.loss ++ (l.filter p).map Loss.ofEntry ++ (l.filter q).map Loss.ofEntry

section
variable (ys : List SurveyEntry) (l : List ServeEntry) (p q : ServeEntry → Bool)

theorem mem_slots_lossesOf {k : Nat} :
    k ∈ (lossesOf ys l p q).map Loss.slot ↔
      (∃ e ∈ l, e.slot = k ∧ (p e || q e) = true) ∨ ∃ c ∈ ys.filterMap SurveyEntry.claim, c.slot = k := by
  have hclaims : (ys.filterMap SurveyEntry.loss).map Loss.slot = (ys.filterMap SurveyEntry.claim).map ClaimRecord.slot := by
    rw [List.map_filterMap, List.map_filterMap]
    exact List.filterMap_congr fun y _ => Option.map_map ..
  have hentries : ∀ r : ServeEntry → Bool, k ∈ ((l.filter r).map Loss.ofEntry).map Loss.slot ↔
      ∃ e ∈ l, e.slot = k ∧ r e = true := fun r => by
    rw [List.map_map, List.mem_map]
    exact exists_congr fun e => by rw [List.mem_filter, and_assoc, and_comm (a := r e = true)]; rfl
  rw [lossesOf, List.map_append, List.map_append, List.mem_append, List.mem_append, hclaims, hentries, hentries, List.mem_map]
  simp only [Bool.or_eq_true, and_or_left, exists_or]
  rw [or_assoc, or_comm]

theorem groups_lossesOf :
    (lossesOf ys l p q).flatMap Loss.groups =
      (ys.filterMap SurveyEntry.claim).flatMap ClaimRecord.groups ++
        ((l.filter p).flatMap fun e => e.listen.map ListenItem.group) ++
        (l.filter q).flatMap fun e => e.listen.map ListenItem.group := by
  have hclaims : (ys.filterMap SurveyEntry.loss).flatMap Loss.groups =
      (ys.filterMap SurveyEntry.claim).flatMap ClaimRecord.groups := by
    rw [List.flatMap_def, List.flatMap_def, List.map_filterMap, List.map_filterMap]
    exact congrArg _ (List.filterMap_congr fun y _ => Option.map_map ..)
  rw [lossesOf, List.flatMap_append, List.flatMap_append, hclaims, List.flatMap_map, List.flatMap_map]
  rfl

/-- Claims alone take a message out of the queues, each its own CLAIM. -/
theorem withdraws_lossesOf (m : Queued) :
    ((lossesOf ys l p q).any fun x => x.withdraws m) =
      ys.any fun y => y.claim.any fun c => m.body.isClaimOf y.headset c.tag := by
  have hentries : ∀ es : List ServeEntry, ((es.map Loss.ofEntry).any fun x => x.withdraws m) = false := fun es => by
    rw [List.any_map]
    exact List.any_eq_false.mpr fun e _ => Bool.false_ne_true
  rw [lossesOf, List.any_append, List.any_append, hentries, hentries, Bool.or_false, Bool.or_false, List.any_filterMap]
  refine congrArg ys.any (funext fun y => ?_)
  unfold SurveyEntry.loss
  cases y.claim <;> rfl

end

theorem Tqu.mark_eq (cfg : Settings) (t : Tqu) :
    t.mark cfg =
      { t with
        neighbourHolds := t.neighbourHolds.map (· - 1)
        ownHold := if t.ownHold = 1 then (if t.freeCount ≤ cfg.holdThreshold then cfg.holdQuanta else 0) else t.ownHold - 1
        flow := if t.ownHold = 1 ∧ t.freeCount ≤ cfg.holdThreshold then (t.queueHold cfg.holdQuanta).flow else t.flow } := by
  unfold Tqu.mark
  rw [Tqu.markOwn_eq]
  obtain ⟨flow, _, _, _, _, _, _, _, _, _⟩ := t
  cases flow <;> rfl

namespace State

/-- A mark that cannot be read, is a repeat, or comes in STANDBY, LOADING or FAULT (R97, R104). -/
theorem next_cycleMark_idle {record : List Byte} {s : State}
    (h : readCycleMark record = none ∨ readCycleMark record = s.apc.lastCycle ∨ s.cfl.node = .standby ∨
      s.cfl.node = .loading ∨ s.cfl.node = .fault) : exec (.cycleMark record) s = .next s := by
  refine congrArg Host.Outcome.next ?_
  cases hr : readCycleMark record with
  | none => rfl
  | some n =>
    by_cases hn : s.apc.lastCycle = some n
    · exact if_pos hn
    · refine (if_neg hn).trans ?_
      rw [hr] at h
      rcases h with h | h | h | h | h
      · cases h
      · exact absurd h.symm hn
      · rw [h]
      · rw [h]
      · rw [h]

/-- The listen-in countdown and the neighbour timers moved by one mark (R161, R182). -/
def countdown (s : State) : State :=
  { s with
    re := { s.re with listenIn := s.re.listenIn.map (· - 1) }
    tqu := { s.tqu with neighbourHolds := s.tqu.neighbourHolds.map (· - 1) } }

/-- A mark moves the countdowns, and leaves the rest of what every operation of a mark leaves. -/
theorem spares_mark (cfg : Settings) (s : State) : s.countdown.Spares (s.mark cfg) := by
  have horders := spares_markOrders cfg s
  let u := (s.markOrders cfg).onTqu (Tqu.mark cfg)
  have hrest : (u.onRe Re.tick).Spares (s.mark cfg) := (spares_markRe cfg u).trans (spares_markVp cfg _)
  have hholds : u.tqu.neighbourHolds = s.tqu.neighbourHolds.map (· - 1) := by
    rw [← horders.neighbourHolds]
    exact congrArg Tqu.neighbourHolds (Tqu.mark_eq cfg _)
  have hticked : s.countdown.Spares (u.onRe Re.tick) := by
    refine ⟨horders.lastCycle, congrArg (Option.map (· - 1)) horders.listenIn, horders.claimCounter, hholds, horders.mlc,
      fun e he => ?_⟩
    obtain ⟨x, hx, rfl⟩ := List.mem_map.mp he
    exact horders.serve x hx
  exact hticked.trans hrest

section
variable {s : State}

/-- What a mark loses, from the entries and claims before it. -/
def markLosses (cfg : Settings) (s : State) : List Loss :=
  lossesOf (s.re.survey.filter SurveyEntry.replyEnds) s.re.serve (fun e => Expiry.removes (s.entryDue cfg e))
    ServeEntry.drained

/-- The slot map after a mark (R3, R49, R88, R106). -/
theorem slot_mark (cfg : Settings) (h : s.Lawful) (ha : s.apc.Sound) (k : Nat) :
    (s.mark cfg).apc.slot k =
      if k ∈ (s.markLosses cfg).map Loss.slot then { state := .free, order := none }
      else
        { state := (s.apc.slot k).state
          order := (s.apc.slot k).order.bind fun o =>
            if o.age + 1 < 4 then some { o with age := o.age + 1 }
            else if o.kind = .answer ∧ (s.entryAt k).any (fun e => e.state == .arriving) = true then
              some { kind := .answer, age := 0 }
            else none } := by
  have hslot := slot_markOrders cfg h ha k
  rw [isSome_arrivingAt] at hslot
  exact ((mark_loses cfg h ha).1.slot k).trans (if_congr Iff.rfl rfl hslot)

/-- What a mark sends to the front end: SLOT CLOSE for each entry released, and each ANSWER sent again (R88, R101). -/
theorem out_mark (cfg : Settings) (h : s.Lawful) (ha : s.apc.Sound) :
    ∃ sent, (s.mark cfg).apc.out = s.apc.out ++ sent ∧
      (∀ l ∈ s.markLosses cfg, l.claim = none → [0x12, 1, byteOf l.slot] ∈ sent) ∧
      ∀ e ∈ s.re.serve, e.state = .arriving → ∀ o, (s.apc.slot e.slot).order = some o → o.kind = .answer →
        4 ≤ o.age + 1 → (AirOrder.seekAnswer e.headset cfg.channel e.slot).bytes ∈ sent := by
  obtain ⟨ordered, hordered, hanswers⟩ := (ordersDone_markOrders cfg h ha).sent
  obtain ⟨closed, hclosed, hcloses⟩ := (mark_loses cfg h ha).1.sent
  refine ⟨ordered ++ closed, ?_, fun l hl hc => List.mem_append_right _ (hcloses l hl hc), fun e he hs o ho hk hd => ?_⟩
  · rw [hclosed, ← List.append_assoc]
    exact congrArg (· ++ closed) hordered
  · have hlt : e.slot < 24 := (Apc.lt_of_assigned (h.entries e he)).trans_eq ha.slots
    exact List.mem_append_left _ (hanswers e.slot (mem_dueOrders.mpr ⟨hlt, o, ho, hd⟩) e o
      (arrivingAt_eq_some.mpr ⟨entryAt_of_mem h he, hs⟩) ho hk)

/-- The group store after a mark: the references of what is lost given back, no frame current (R121, R128). -/
theorem vp_mark (cfg : Settings) (h : s.Lawful) (ha : s.apc.Sound) :
    (s.mark cfg).vp = (s.vp.releaseAll ((s.markLosses cfg).flatMap Loss.groups)).consume := by
  have hstart : ((s.markOrders cfg).onTqu (Tqu.mark cfg)).vp = s.vp := (ordersDone_markOrders cfg h ha).only.vp
  have hspent := (mark_loses cfg h ha).1.vp
  rw [consumed_mark, hstart, ← Vp.consume_releaseAll] at hspent
  exact hspent

/-- TQU after a mark: the hold timers moved, and the CLAIMs of claims that failed withdrawn (R49, R160, R161). -/
theorem tqu_mark (cfg : Settings) (h : s.Lawful) (ha : s.apc.Sound) :
    (s.mark cfg).tqu =
      { s.tqu.mark cfg with
        urgent := s.tqu.urgent.filter fun m => !(s.markLosses cfg).any fun l => l.withdraws m
        handover := s.tqu.handover.filter fun m => !(s.markLosses cfg).any fun l => l.withdraws m
        report := (s.mark cfg).tqu.report } := by
  have hstart : ((s.markOrders cfg).onTqu (Tqu.mark cfg)).tqu = s.tqu.mark cfg :=
    congrArg (Tqu.mark cfg) (ordersDone_markOrders cfg h ha).only.tqu
  have htqu := (mark_loses cfg h ha).1.tqu
  rw [hstart] at htqu
  refine htqu.trans ?_
  rw [Tqu.mark_eq]
  rfl

end

end State

/-- Settles O12: beside the tables by `State.spares_mark`, at the survey list, the slot map, the store and TQU by what a mark
loses, `State.mark_loses`. -/
theorem cycleMarks : Obligations.CycleMarks := by
  unfold Obligations.CycleMarks
  refine ⟨fun record s h => State.next_cycleMark_idle h, fun cfg record n s hrun hr hc => ?_,
    fun cfg record n s hrun hr hc hre hsl hapc => ?_⟩
  · have hspares := State.spares_mark cfg (s.noteCycle n)
    have hstays := State.stays_mark cfg (s.noteCycle n)
    exact ⟨_, State.next_cycleMark hrun hr hc, hspares.lastCycle, hspares.listenIn, hspares.neighbourHolds,
      Vp.current_of_consumed (State.consumed_mark cfg _), hspares.serve, hspares.claimCounter, hstays.tqu.pool,
      hstays.tqu.reservations, hstays.tqu.reply, hstays.mlc.enables, hspares.mlc.1, hspares.mlc.2, hstays.cfl, hstays.tlc,
      hstays.pending⟩
  · intro leaves drained groups unanswered failed withdrawn ages stale returning congested
    let s0 := s.noteCycle n
    have hlawful : s0.Lawful := (State.lawful_iff s).mpr ⟨hre, hsl⟩
    have hsound : s0.apc.Sound := ⟨hapc.slots, hapc.orders⟩
    have hsurvey := (State.mark_loses cfg hlawful hsound).2
    have hremoves : (fun e => Expiry.removes (s0.entryDue cfg e)) = leaves := by
      funext e
      change Expiry.removes (s.entryDue cfg e) = leaves e
      cases hs : e.state with
      | arriving => simp only [leaves, hs, removes_arriving hs]
      | lost =>
        simp only [leaves, hs, removes_lost hs, State.rescueWaits, Bool.not_or, Bool.and_assoc]
        rw [Option.not_isSome]
      | served | offered | handing | draining =>
        simp only [leaves, hs, removes_other (e := e) (by simp [hs]) (by simp [hs])]
    have hlosses : s0.markLosses cfg = lossesOf (s.re.survey.filter unanswered) s.re.serve leaves drained :=
      congrArg (fun p => lossesOf _ _ p _) hremoves
    have hmem : ∀ e ∈ s.re.serve, (leaves e || drained e) = true → Loss.ofEntry e ∈ s0.markLosses cfg := by
      intro e he hgone
      rw [hlosses]
      rcases Bool.or_eq_true_iff.mp hgone with hl | hd
      · exact List.mem_append_left _ (List.mem_append_right _ (List.mem_map_of_mem (List.mem_filter.mpr ⟨he, hl⟩)))
      · exact List.mem_append_right _ (List.mem_map_of_mem (List.mem_filter.mpr ⟨he, hd⟩))
    have hwithdrawn : ∀ m, ((s0.markLosses cfg).any fun l => l.withdraws m) = withdrawn m := fun m => by
      rw [hlosses, withdraws_lossesOf, List.any_filter]
    refine ⟨_, State.next_cycleMark hrun hr hc, ?_, fun k => ?_, ?_, ?_, ?_⟩
    · have hreturns : (fun e => e.returnsBy (s0.entryDue cfg e)) = returning := by
        funext e
        have hleaves : Expiry.removes (s0.entryDue cfg e) = leaves e := congrFun hremoves e
        rw [ServeEntry.returnsBy, hleaves, Bool.and_left_comm, ← Bool.and_assoc]
      rw [hreturns] at hsurvey
      refine hsurvey.trans (congrArg (List.foldl _ · _) (List.map_congr_left fun y _ => ?_))
      have hstale : stale y = y.knowledgeEnds cfg := rfl
      have hends : unanswered y = y.replyEnds := rfl
      rw [hstale, hends, SurveyEntry.marked, SurveyEntry.aged]
      cases y.knowledgeEnds cfg <;> cases y.replyEnds <;> rfl
    · have hslot := State.slot_mark cfg hlawful hsound k
      rw [hlosses] at hslot
      exact hslot.trans (if_congr (mem_slots_lossesOf ..) rfl rfl)
    · obtain ⟨sent, hout, hclosed, hanswers⟩ := State.out_mark cfg hlawful hsound
      refine ⟨sent, hout, fun e he => ⟨fun hgone => hclosed _ (hmem e he hgone) rfl, fun hs hdue => ?_⟩⟩
      obtain ⟨o, ho, hkind⟩ := (Option.any_eq_true _ _).mp hdue
      obtain ⟨hanswer, hage⟩ := Bool.and_eq_true_iff.mp hkind
      exact hanswers e he hs o ho (eq_of_beq hanswer) (of_decide_eq_true hage)
    · have hvp := State.vp_mark cfg hlawful hsound
      rw [hlosses, groups_lossesOf] at hvp
      exact hvp
    · have htqu := State.tqu_mark cfg hlawful hsound
      simp only [hwithdrawn] at htqu
      have hfull : s0.tqu.freeCount ≤ cfg.holdThreshold ↔ congested = true := decide_eq_true_iff.symm
      refine htqu.trans ?_
      rw [Tqu.mark_eq, Tqu.mk.injEq]
      refine ⟨if_congr (and_congr_right' hfull) ?_ rfl, rfl, rfl, rfl, rfl, rfl, rfl, rfl,
        if_congr Iff.rfl (if_congr hfull rfl rfl) rfl, rfl⟩
      change (s.tqu.queueHold cfg.holdQuanta).flow = _
      unfold Tqu.queueHold
      cases s.tqu.flow <;> rfl

end Sys2Proof.Machine
end

section
/-!
# The completion of a handling (O48)

A handling acts only where its row is the oldest message's and its point has not been reached. The completion frees the
buffer, queues the reply and ends a hold (`State.completed`), and decides the EVICT that waits for it last; nothing before
that decision reads the wait, so the completion is the same with and without it.
-/

namespace Sys2Proof.Machine

/-! ## Handlings that do not act (assumption 20) -/

theorem State.handle_idle {s : State} {q : Placed → Bool}
    (h : s.tqu.reached = true ∨ ∀ p, s.tqu.pool.head? = some p → q p = false) (f : Settings → Placed → State → State) :
    (Host.Outcome.next (s.handle q f) : Host.Outcome State Fault Refusal) = .next s := by
  refine State.next_whenRun_idle fun cfg => ?_
  cases hpool : s.tqu.pool with
  | nil => rfl
  | cons p ps =>
    have hother := h.imp_right fun h => h p (by rw [hpool]; rfl)
    refine if_neg ?_
    rcases hother with h | h <;> simp [h]

/-- A row that reads its message by `q` changes nothing where its point is reached or the oldest message is another row's. -/
theorem State.handle_alone {s : State} {q : Placed → Bool} {mine : Placed → Prop} (hq : ∀ p, q p = true → mine p)
    (h : s.tqu.reached = true ∨ ∀ p, s.tqu.pool.head? = some p → ¬mine p) (f : Settings → Placed → State → State) :
    (Host.Outcome.next (s.handle q f) : Host.Outcome State Fault Refusal) = .next s :=
  State.handle_idle (h.imp_right fun hother p hp => Bool.eq_false_iff.mpr fun hqp => hother p hp (hq p hqp)) f

theorem Placed.isSeek_spec {p : Placed} (h : p.isSeek = true) : p.kind = 3 ∧ p.payload[5]? = some 1 := by
  obtain ⟨hk, h1⟩ := Bool.and_eq_true_iff.mp h
  exact ⟨eq_of_beq hk, eq_of_beq h1⟩

theorem Placed.isNormal_spec {p : Placed} (h : (p.kind == 3 && !p.isSeek) = true) :
    p.kind = 3 ∧ p.payload[5]? ≠ some 1 := by
  rw [Bool.and_eq_true, beq_iff_eq, Bool.not_eq_true'] at h
  obtain ⟨hk, hseek⟩ := h
  exact ⟨hk, fun h1 => Bool.false_ne_true (hseek.symm.trans ((Placed.isSeek_iff hk).mpr h1))⟩

/-! ## The pool and the queues of TQU (R152, R158, R160) -/

namespace Tqu

section
variable {cfg : Settings} {t : Tqu}

theorem queueHold_nil (h : t.flow = []) (time : Nat) :
    t.queueHold time = { t with flow := [Queued.new .flow (.hold time) broadcast] } := by
  unfold queueHold
  rw [h]

theorem queueHold_cons {x : Queued} {xs : List Queued} (h : t.flow = x :: xs) (time : Nat) :
    t.queueHold time = { t with flow := { x with body := .hold time, failures := 0, replaced := x.inHand } :: xs } := by
  unfold queueHold
  rw [h]

theorem holdRelease_idle (h : t.ownHold = 0 ∨ t.freeCount ≤ cfg.holdThreshold) : t.holdRelease cfg = t :=
  if_neg fun ⟨hfree, hown⟩ => h.elim (fun h0 => hown.ne' h0) fun hle => hfree.not_ge hle

theorem holdRelease_due (hown : 0 < t.ownHold) (hfree : cfg.holdThreshold < t.freeCount) :
    t.holdRelease cfg = { t.queueHold 0 with ownHold := 0 } :=
  if_pos ⟨hfree, hown⟩

theorem holdRelease_queues (hown : 0 < t.ownHold) (hfree : cfg.holdThreshold < t.freeCount) (hflow : t.flow = []) :
    t.holdRelease cfg = { t with ownHold := 0, flow := [Queued.new .flow (.hold 0) broadcast] } := by
  rw [holdRelease_due hown hfree, queueHold_nil hflow]

theorem holdRelease_replaces (hown : 0 < t.ownHold) (hfree : cfg.holdThreshold < t.freeCount)
    {x : Queued} {xs : List Queued} (hflow : t.flow = x :: xs) :
    t.holdRelease cfg =
      { t with ownHold := 0, flow := { x with body := .hold 0, failures := 0, replaced := x.inHand } :: xs } := by
  rw [holdRelease_due hown hfree, queueHold_cons hflow]

end

/-- The reply that waits for the completion, as the messages that join HANDOVER (assumption 9). -/
def replies (t : Tqu) : List Queued :=
  match t.reply with
  | some m => [m]
  | none => []

/-- TQU once the handling of `p`, the oldest message before `ps`, is completed, with its reply in HANDOVER (R158, R159). -/
def freed (own : Node) (p : Placed) (ps : List Placed) (t : Tqu) : Tqu :=
  { t with
    pool := ps, reached := false, reply := none, handover := t.handover ++ t.replies
    reservations := if p.kind = 3 ∧ p.destination = own then t.reservations - 1 else t.reservations }

theorem freeBuffer_cons {t : Tqu} {p : Placed} {ps : List Placed} (h : t.pool = p :: ps) (own : Node) :
    t.freeBuffer own =
      { t with
        pool := ps, reached := false
        reservations := if p.kind = 3 ∧ p.destination = own then t.reservations - 1 else t.reservations } := by
  unfold freeBuffer
  simp [h]

end Tqu

/-- MLC with a reply queued: a DECLINE is counted as sent (R62). -/
def Mlc.countReply (reply : Option Queued) (m : Mlc) : Mlc :=
  match reply.map Queued.body with
  | some (.decline _ _ _) => m.count .declinesSent
  | _ => m

namespace State

/-- The reply of a handling is a YIELD or a DECLINE, and both are of class HANDOVER (R62). -/
theorem queueReply_eq {s : State} (hcls : ∀ m, s.tqu.reply = some m → m.cls = .handover) :
    s.queueReply =
      { s with
        tqu := { s.tqu with reply := none, handover := s.tqu.handover ++ s.tqu.replies }
        mlc := s.mlc.countReply s.tqu.reply } := by
  unfold queueReply
  cases hr : s.tqu.reply with
  | none =>
    have hsame : { s.tqu with reply := none, handover := s.tqu.handover ++ s.tqu.replies } = s.tqu := by
      rw [Tqu.replies, hr, List.append_nil, ← hr]
    exact congrArg (fun t => { s with tqu := t }) hsame.symm
  | some m =>
    have hpush (t : Tqu) : t.push m = { t with handover := t.handover ++ [m] } := by rw [Tqu.push, hcls m hr]; rfl
    simp only [onTqu, hpush, Mlc.countReply, Tqu.replies, hr, Option.map_some]
    cases m.body <;> rfl

/-- The completion of a handling up to the decision of the EVICT that waits for it (R158, R159, R160). -/
def completed (cfg : Settings) (s : State) : State :=
  ((s.onTqu (Tqu.freeBuffer cfg.node)).queueReply).onTqu (Tqu.holdRelease cfg)

theorem completed_eq {cfg : Settings} {s : State} {p : Placed} {ps : List Placed} (hpool : s.tqu.pool = p :: ps)
    (hcls : ∀ m, s.tqu.reply = some m → m.cls = .handover) :
    s.completed cfg =
      { s with
        tqu := (s.tqu.freed cfg.node p ps).holdRelease cfg
        mlc := s.mlc.countReply s.tqu.reply } := by
  have hreply : ∀ m, (s.onTqu (Tqu.freeBuffer cfg.node)).tqu.reply = some m → m.cls = .handover := hcls
  rw [completed, queueReply_eq hreply, onTqu_tqu, Tqu.freeBuffer_cons hpool]
  rfl

theorem next_handlingComplete {cfg : Settings} {s : State} (hrun : s.InRun cfg) (hpool : s.tqu.pool ≠ [])
    (hreached : s.tqu.reached = true) : exec .handlingComplete s = .next (s.completed cfg).decideEvict := by
  refine hrun.next_whenRun ?_
  obtain ⟨p, ps, hp⟩ := List.exists_cons_of_ne_nil hpool
  simp only [hp]
  exact if_pos hreached

end State

/-! ## The wait of an EVICT (R167, R168, assumption 23) -/

/-- MLC with another EVICT, or none, waiting for RE. -/
def Mlc.withEvict (o : Option Headset) (m : Mlc) : Mlc := { m with evict := o }

theorem Mlc.count_withEvict (o : Option Headset) (c : Counter) (m : Mlc) :
    (m.withEvict o).count c = (m.count c).withEvict o := by
  have hcounter : (m.withEvict o).counter c = m.counter c := rfl
  unfold Mlc.count
  simp only [hcounter]
  split <;> rfl

theorem Mlc.notify_withEvict (o : Option Headset) (n : Notice) (m : Mlc) :
    (m.withEvict o).notify n = (m.notify n).withEvict o := by
  have hnotices : (m.withEvict o).notices = m.notices := rfl
  unfold Mlc.notify
  simp only [hnotices]
  split <;> rfl

/-- The state with another EVICT, or none, waiting for RE. -/
def State.withEvict (o : Option Headset) (s : State) : State := s.onMlc (Mlc.withEvict o)

namespace State

theorem decideEvict_none {s : State} (h : s.mlc.evict = none) : s.decideEvict = s := by
  unfold decideEvict
  rw [h]

theorem decideEvict_some {s : State} {x : Headset} (h : s.mlc.evict = some x) : s.decideEvict = s.evict x := by
  unfold decideEvict
  rw [h]

section
variable (o : Option Headset) (s : State)

theorem count_withEvict (c : Counter) : (s.withEvict o).count c = (s.count c).withEvict o :=
  congrArg (fun m => { s with mlc := m }) (Mlc.count_withEvict o c s.mlc)

theorem notify_withEvict (n : Notice) : (s.withEvict o).notify n = (s.notify n).withEvict o :=
  congrArg (fun m => { s with mlc := m }) (Mlc.notify_withEvict o n s.mlc)

theorem releaseEntry_withEvict (k : Nat) : (s.withEvict o).releaseEntry k = (s.releaseEntry k).withEvict o := by
  cases he : s.entryAt k with
  | none => rw [releaseEntry_none he, releaseEntry_none (s := s.withEvict o) he]
  | some e =>
    rw [releaseEntry_eq he, releaseEntry_eq (s := s.withEvict o) he]
    rfl

/-- An answer ends the wait, so the decision is the same whatever waited. -/
theorem answer_withEvict (a : Answer) : (s.withEvict o).answer a = s.answer a := rfl

theorem evict_withEvict (x : Headset) : (s.withEvict o).evict x = s.evict x := by
  have hfor : (s.withEvict o).entryFor x = s.entryFor x := rfl
  unfold evict
  simp only [hfor, releaseEntry_withEvict, notify_withEvict, answer_withEvict]

theorem queueReply_withEvict : (s.withEvict o).queueReply = s.queueReply.withEvict o := by
  have htqu : (s.withEvict o).tqu = s.tqu := rfl
  unfold queueReply
  rw [htqu]
  cases s.tqu.reply with
  | none => rfl
  | some m =>
    dsimp only
    cases m.body with
    | decline => exact count_withEvict o (s.onTqu fun t => Tqu.push m { t with reply := none }) .declinesSent
    | _ => rfl

theorem completed_withEvict (cfg : Settings) : (s.withEvict o).completed cfg = (s.completed cfg).withEvict o :=
  congrArg (onTqu (Tqu.holdRelease cfg)) (queueReply_withEvict o (s.onTqu (Tqu.freeBuffer cfg.node)))

end

/-- A completion leaves the wait as it was until the decision. -/
theorem evict_completed (cfg : Settings) (s : State) : (s.completed cfg).mlc.evict = s.mlc.evict :=
  congrArg (fun t => t.mlc.evict) (completed_withEvict s.mlc.evict s cfg)

end State

/-! ## The obligation -/

/-- Settles O48: the rows that do not act by `State.handle_alone`, the completion by `State.completed_eq` and the cases of
`Tqu.holdRelease`, the waiting EVICT by the completion without it. -/
theorem handlingCompletes : Obligations.HandlingCompletes := by
  unfold Obligations.HandlingCompletes
  refine ⟨⟨fun s h => ?_, fun s h => ?_, fun s h => ?_, fun s h => ?_, fun s h => ?_, fun s h => ?_⟩,
    fun cfg s p ps hrun hevict hpool hreached hcls => ?_, fun s t x hevict hnode hconfig hpool hreached hnext => ?_,
    fun s h => ?_⟩
  · exact State.handle_alone (fun _ => eq_of_beq) h _
  · exact State.handle_alone (fun _ => eq_of_beq) h _
  · exact State.handle_alone (fun _ => Placed.isNormal_spec) h _
  · exact State.handle_alone (fun _ => Placed.isSeek_spec) h _
  · exact State.handle_alone (fun _ => eq_of_beq) h _
  · exact State.handle_alone (fun _ => eq_of_beq) h _
  · have hnext {t : Tqu} (ht : (s.tqu.freed cfg.node p ps).holdRelease cfg = t) :
        exec .handlingComplete s = .next { s with tqu := t, mlc := s.mlc.countReply s.tqu.reply } := by
      rw [State.next_handlingComplete hrun (by simp [hpool]) hreached,
        State.decideEvict_none ((State.evict_completed cfg s).trans hevict), State.completed_eq hpool hcls, ht]
    exact ⟨fun hidle => hnext (Tqu.holdRelease_idle hidle), fun hown hfree =>
      ⟨fun hflow => hnext (Tqu.holdRelease_queues (t := s.tqu.freed cfg.node p ps) hown hfree hflow),
        fun y ys hflow => hnext (Tqu.holdRelease_replaces (t := s.tqu.freed cfg.node p ps) hown hfree hflow)⟩⟩
  · obtain ⟨cfg, hcfg⟩ := Option.ne_none_iff_exists'.mp hconfig
    have hplain := State.next_handlingComplete (s := s.withEvict none) ⟨hnode, hcfg⟩ hpool hreached
    rw [State.decideEvict_none (State.evict_completed cfg _)] at hplain
    have ht : (s.withEvict none).completed cfg = t := Host.Outcome.next.inj (hplain.symm.trans hnext)
    rw [State.next_handlingComplete ⟨hnode, hcfg⟩ hpool hreached,
      State.decideEvict_some ((State.evict_completed cfg s).trans hevict), ← ht, State.completed_withEvict,
      State.evict_withEvict]
  · refine State.next_whenRun_idle fun cfg => ?_
    cases hpool : s.tqu.pool with
    | nil => rfl
    | cons p ps => exact if_neg (by rw [h.resolve_left (by simp [hpool])]; exact Bool.false_ne_true)

end Sys2Proof.Machine
end

section
/-!
# What is sent reads back (O53)

A payload of section 12.1 and a report of section 12.3 are fields laid one behind another, so each reads back by what its
fields read back as: a headset from its four bytes, a number that fits one byte, a listen list item by item (R183, R184,
R185).
-/

namespace Sys2Proof.Machine

/-! ## Fields -/

/-- A 16-bit field reads back from its two bytes (R183). -/
theorem word16_extract (w : BitVec 16) : word16 (w.extractLsb' 8 8) (w.extractLsb' 0 8) = w := by
  rw [word16, BitVec.extractLsb'_append_extractLsb'_eq_extractLsb' (by rfl)]
  exact BitVec.extractLsb'_eq_self

/-- A 32-bit field reads back from its four bytes (R183). -/
theorem word32_extract (h : BitVec 32) :
    word32 (h.extractLsb' 24 8) (h.extractLsb' 16 8) (h.extractLsb' 8 8) (h.extractLsb' 0 8) = h := by
  rw [word32, BitVec.extractLsb'_append_extractLsb'_eq_extractLsb' (by rfl),
    BitVec.extractLsb'_append_extractLsb'_eq_extractLsb' (by rfl),
    BitVec.extractLsb'_append_extractLsb'_eq_extractLsb' (by rfl)]
  exact BitVec.extractLsb'_eq_self

/-- A talk group reads back from its presence byte and its own. -/
theorem readTalk_getD {present : Byte} {talk : Option Group} (h : present = 0 ↔ talk = none) :
    readTalk present (talk.getD 0) = talk := by
  cases talk with
  | none => exact if_pos (h.mpr rfl)
  | some g => exact if_neg fun h0 => absurd (h.mp h0) (Option.some_ne_none g)

theorem readReason_code (r : Reason) : readReason r.code = r := by cases r <;> rfl

/-! ## Lists of items -/

theorem length_flatMap_bytes (l : List ListenItem) : (l.flatMap ListenItem.bytes).length = 2 * l.length := by
  induction l with
  | nil => rfl
  | cons i is ih =>
    rw [List.flatMap_cons, List.length_append, ih, List.length_cons]
    exact (Nat.add_comm 2 _).trans (Nat.mul_succ 2 _).symm

theorem readListen_flatMap_bytes {l : List ListenItem} (h : ∀ i ∈ l, i.shift ≤ 7) :
    readListen l.length (l.flatMap ListenItem.bytes) = l := by
  induction l with
  | nil => rfl
  | cons i is ih =>
    obtain ⟨hi, his⟩ := List.forall_mem_cons.mp h
    have hshift : min 7 (byteOf i.shift).toNat = i.shift := by
      rw [toNat_byteOf (hi.trans (by decide)), Nat.min_eq_right hi]
    have hitem : ({ group := i.group, shift := min 7 (byteOf i.shift).toNat } : ListenItem) = i := by rw [hshift]
    exact congrArg₂ List.cons hitem (ih his)

theorem firstPerGroup_of_nodup {l : List ListenItem} (h : (l.map ListenItem.group).Nodup) : firstPerGroup l = l := by
  induction l with
  | nil => rfl
  | cons i is ih =>
    obtain ⟨hi, his⟩ := List.nodup_cons.mp h
    rw [firstPerGroup, ih his, List.filter_eq_self.mpr fun j hj =>
      bne_iff_ne.mpr (ne_of_mem_of_not_mem (List.mem_map_of_mem hj) hi)]

/-- The four group bytes of a naming hold its groups first (section 12.1). -/
theorem exists_group_bytes {gs : List Group} (h : gs.length ≤ 4) :
    ∃ g0 g1 g2 g3, (gs ++ List.replicate 4 0).take 4 = [g0, g1, g2, g3] ∧ [g0, g1, g2, g3].take gs.length = gs := by
  have hlen : ((gs ++ List.replicate 4 0).take 4).length = 4 := by simp
  obtain ⟨g0, g1, g2, g3, hg⟩ := List.length_eq_four.mp hlen
  refine ⟨g0, g1, g2, g3, hg, ?_⟩
  rw [← hg, List.take_take, Nat.min_eq_left h, List.take_left]

/-- The flag byte of a naming: bit 7 says whether it is offered, the low bits count its groups (section 12.1). -/
theorem naming_flags (offered : Bool) {n : Nat} (h : n ≤ 4) :
    let flags : Byte := (if offered then 0x80 else 0) ||| byteOf n
    flags.getLsbD 7 = offered ∧ min 4 (flags.toNat % 8) = n := by
  interval_cases n <;> cases offered <;> decide

/-- What R52 and section 12.1 let a naming hold. -/
def Naming.Sendable (n : Naming) : Prop :=
  isIdentity n.headset = true ∧ n.score ≤ 90 ∧ n.count ≤ 255 ∧ n.groups.length ≤ 4

theorem length_naming_bytes (n : Naming) : n.bytes.length = 11 := by simp [Naming.bytes, word32Bytes]

theorem readNamings_cons {n : Naming} (h : n.Sendable) (k : Nat) (rest : List Byte) :
    readNamings (k + 1) (n.bytes ++ rest) = n :: readNamings k rest := by
  obtain ⟨-, hscore, hcount, hgroups⟩ := h
  obtain ⟨g0, g1, g2, g3, hpad, htake⟩ := exists_group_bytes hgroups
  obtain ⟨hoffered, hlen⟩ := naming_flags n.offered hgroups
  simp only [Naming.bytes, hpad, word32Bytes, List.cons_append, List.nil_append, readNamings, word32_extract,
    toNat_byteOf (hscore.trans (by decide)), Nat.min_eq_right hscore, hoffered, hlen, toNat_byteOf hcount, htake]

theorem readNamings_flatMap_bytes {ns : List Naming} (h : ∀ n ∈ ns, n.Sendable) :
    readNamings ns.length (ns.flatMap Naming.bytes) = ns := by
  induction ns with
  | nil => rfl
  | cons n ns ih =>
    obtain ⟨hn, hns⟩ := List.forall_mem_cons.mp h
    rw [List.flatMap_cons, List.length_cons, readNamings_cons hn, ih hns]

theorem length_flatMap_naming_bytes (ns : List Naming) : (ns.flatMap Naming.bytes).length = 11 * ns.length := by
  simp [List.length_flatMap, length_naming_bytes, Nat.mul_comm]

/-! ## The six payloads (section 12.1, R184) -/

theorem readHold_payload {time : Nat} (h : time ≤ 64) : readHold (Body.hold time).payload = some time := by
  refine congrArg some ?_
  rw [toNat_byteOf (h.trans (by decide)), Nat.min_eq_right h]

theorem readTaken_payload {h : Headset} {n : Nat} {previous : Option Node} (hid : isIdentity h = true) (hn : n ≤ 255)
    (hp : ∀ p, previous = some p → p ≠ 0 ∧ p ≠ 255) :
    readTaken (Body.taken h n previous).payload = some (h, n, previous) := by
  have hprevious : (if previous.getD 0 = 0 ∨ previous.getD 0 = 255 then none else some (previous.getD 0)) = previous := by
    cases previous with
    | none => rfl
    | some p => exact if_neg (not_or.mpr (hp p rfl))
  simp only [Body.payload, word32Bytes, List.cons_append, List.nil_append, readTaken, word32_extract, if_pos hid,
    toNat_byteOf hn, hprevious]

theorem readYield_payload {c : Context} (hid : isIdentity c.headset = true) (hcount : c.count ≤ 255)
    (hlen : c.listen.length ≤ 4) (hshift : ∀ i ∈ c.listen, i.shift ≤ 7) :
    readYield (Body.yield c).payload = some c := by
  have hn : (byteOf c.listen.length).toNat = c.listen.length := toNat_byteOf (hlen.trans (by decide))
  have htalk : readTalk (flagByte c.talk.isSome) (c.talk.getD 0) = c.talk :=
    readTalk_getD (by cases c.talk <;> simp [flagByte])
  have hseq : (c.expected.zeroExtend 8).setWidth 6 = c.expected := by
    rw [BitVec.setWidth_setWidth_of_le _ (by decide), BitVec.setWidth_eq]
  simp only [Body.payload, word32Bytes, List.cons_append, List.nil_append, readYield, word32_extract, hn, toNat_byteOf hcount,
    htalk, hseq, readListen_flatMap_bytes hshift, length_flatMap_bytes, hlen, hid, and_self, if_true]

theorem readClaim_payload {c : ClaimBody} (hid : isIdentity c.headset = true) (hscore : c.score ≤ 90)
    (hchannel : c.channel ≤ 31) (hslot : c.slot ≤ 23) : readClaim (Body.claim c).payload = some c := by
  have hkind : (c.kind.code = 0 ∨ c.kind.code = 1) ∧ (if c.kind.code = 1 then ClaimKind.seek else .normal) = c.kind := by
    cases c.kind <;> decide
  simp only [Body.payload, word32Bytes, List.cons_append, List.nil_append, readClaim, word32_extract,
    if_pos (And.intro hkind.1 hid), hkind.2, toNat_byteOf (hscore.trans (by decide)), Nat.min_eq_right hscore,
    toNat_byteOf (hchannel.trans (by decide)), toNat_byteOf (hslot.trans (by decide))]

theorem readDecline_payload {h : Headset} (hid : isIdentity h = true) (tag : Tag) (r : Reason) :
    readDecline (Body.decline h tag r).payload = some (h, tag, r) := by
  simp only [Body.payload, word32Bytes, List.cons_append, List.nil_append, readDecline, word32_extract, if_pos hid,
    readReason_code]

theorem readStanding_payload {ns : List Naming} (h1 : 1 ≤ ns.length) (h4 : ns.length ≤ 4) (h : ∀ n ∈ ns, n.Sendable) :
    readStanding (Body.standing ns).payload = some ns := by
  have he : (byteOf ns.length).toNat = ns.length := toNat_byteOf (h4.trans (by decide))
  have hids : ns.filter (fun n => isIdentity n.headset) = ns := List.filter_eq_self.mpr fun n hn => (h n hn).1
  simp only [Body.payload, readStanding, he, h1, h4, length_flatMap_naming_bytes, and_self, if_true,
    readNamings_flatMap_bytes h, hids]

/-! ## The arbitration field (R132) -/

theorem TxClass.code_le (c : TxClass) : c.code ≤ 3 := by cases c <;> decide

theorem Body.code_le (b : Body) : b.code ≤ 5 := by cases b <;> simp [Body.code]

theorem toNat_arbitrationField {cls kind : Nat} (hc : cls ≤ 3) (hk : kind ≤ 5) (sender : Node) :
    (arbitrationField cls kind sender).toNat = cls * 2048 + kind * 256 + sender.toNat := by
  have hs : sender.toNat < 256 := sender.isLt
  rw [arbitrationField, BitVec.toNat_ofNat]
  omega

/-- The arbitration field of a message reads back as its class, its kind and its sender. -/
theorem arbitrationField_reads {cls kind : Nat} (hc : cls ≤ 3) (hk : kind ≤ 5) (sender : Node) :
    arbitrationClass (arbitrationField cls kind sender) = cls ∧
      arbitrationKind (arbitrationField cls kind sender) = kind ∧
      arbitrationSender (arbitrationField cls kind sender) = sender := by
  have hs : sender.toNat < 256 := sender.isLt
  unfold arbitrationClass arbitrationKind arbitrationSender
  rw [toNat_arbitrationField hc hk]
  refine ⟨by omega, by omega, BitVec.eq_of_toNat_eq ?_⟩
  rw [BitVec.toNat_ofNat]
  omega

/-! ## Reports of the front end (section 12.3, R103, R104, R185) -/

/-- A record whose length byte states the bytes behind it gives them as its body. -/
theorem airBody_whole {kind length : Byte} {body : List Byte} (h : length.toNat = body.length) :
    airBody kind (kind :: length :: body) = some body := by
  rw [airBody, if_pos ⟨rfl, h.le⟩, h, List.take_length]

theorem airBody_of_head?_ne {kind : Byte} {record : List Byte} (h : record.head? ≠ some kind) :
    airBody kind record = none := by
  unfold airBody
  split
  · next k length rest => exact if_neg fun hk => h (congrArg some hk.1)
  · rfl

theorem airBody_of_short {kind length : Byte} {body : List Byte} (h : body.length < length.toNat) :
    airBody kind (kind :: length :: body) = none :=
  if_neg fun hk => absurd hk.2 (Nat.not_le.mpr h)

/-- A record without a body of the kind is no report of that kind. -/
theorem unread_of_airBody {kind : Byte} {record : List Byte} (h : airBody kind record = none) :
    (kind = 1 → readCycleMark record = none) ∧ (kind = 2 → readSlotReport record = none) ∧
      (kind = 3 → readSurveyReport record = none) ∧ (kind = 4 → readSeekCall record = none) ∧
      (kind = 5 → readOrderResult record = none) := by
  refine ⟨fun hk => ?_, fun hk => ?_, fun hk => ?_, fun hk => ?_, fun hk => ?_⟩ <;> subst hk
  · exact congrArg (Option.bind · cycleMarkBody) h
  · exact congrArg (Option.bind · slotReportBody) h
  · exact congrArg (Option.bind · surveyReportBody) h
  · exact congrArg (Option.bind · seekCallBody) h
  · exact congrArg (Option.bind · orderResultBody) h

theorem readCycleMark_record (n : BitVec 16) : readCycleMark ([0x01, 2] ++ word16Bytes n) = some n := by
  simp only [word16Bytes, List.cons_append, List.nil_append]
  rw [readCycleMark, airBody_whole (by rfl)]
  exact congrArg some (word16_extract n)

section
variable {k : Nat} (hk : k ≤ 23)
include hk

theorem slot_of_byte : (byteOf k).toNat = k := toNat_byteOf (hk.trans (by decide))

theorem slot_lt_slotCount : k < slotCount := Nat.lt_succ_of_le hk

theorem readSlotReport_frame (level : Byte) (h : Headset) (seq : Byte) {payload : List Byte} (hp : payload.length = 40) :
    readSlotReport ([0x02, 48, byteOf k, 0, level] ++ word32Bytes h ++ [seq] ++ payload) =
      some { slot := k, level := level.toInt, kind := .frame h (seq.setWidth 6) payload } := by
  have hall : payload.take 40 = payload := List.take_of_length_le hp.le
  simp only [word32Bytes, List.cons_append, List.nil_append]
  rw [readSlotReport, airBody_whole (by simp [hp])]
  simp only [Option.bind_some, slotReportBody, slot_of_byte hk, if_pos (slot_lt_slotCount hk), if_true, if_pos hp.ge,
    word32_extract, hall]

theorem readSlotReport_errored (level : Byte) :
    readSlotReport [0x02, 3, byteOf k, 1, level] = some { slot := k, level := level.toInt, kind := .errored } := by
  rw [readSlotReport, airBody_whole (by rfl)]
  simp only [Option.bind_some, slotReportBody, slot_of_byte hk, if_pos (slot_lt_slotCount hk)]
  rfl

theorem readSlotReport_silent (level : Byte) :
    readSlotReport [0x02, 3, byteOf k, 2, level] = some { slot := k, level := level.toInt, kind := .silent } := by
  rw [readSlotReport, airBody_whole (by rfl)]
  simp only [Option.bind_some, slotReportBody, slot_of_byte hk, if_pos (slot_lt_slotCount hk)]
  rfl

theorem readOrderResult_record (acknowledged : Bool) :
    readOrderResult [0x05, 2, byteOf k, if acknowledged then 0 else 1] =
      some { slot := k, acknowledged := acknowledged } := by
  rw [readOrderResult, airBody_whole (by rfl)]
  cases acknowledged <;> simp [orderResultBody, slot_of_byte hk, slot_lt_slotCount hk]

end

theorem readSurveyReport_record {h : Headset} (hid : isIdentity h = true) (level : Byte) (good : Bool) :
    readSurveyReport ([0x03, 6] ++ word32Bytes h ++ [level, if good then 0 else 1]) =
      some { headset := h, level := level.toInt, good := good } := by
  simp only [word32Bytes, List.cons_append, List.nil_append]
  rw [readSurveyReport, airBody_whole (by rfl)]
  cases good <;> simp [surveyReportBody, word32_extract, hid]

theorem readSeekCall_record {h : Headset} (hid : isIdentity h = true) (level : Byte) {listen : List ListenItem}
    (talk : Option Group) (hlen : listen.length ≤ 4) (hshift : ∀ i ∈ listen, i.shift ≤ 7)
    (hgroups : (listen.map ListenItem.group).Nodup) :
    readSeekCall ([0x04, byteOf (8 + 2 * listen.length)] ++ word32Bytes h ++
        [level, byteOf listen.length, if talk = none then 0 else 1, talk.getD 0] ++ listen.flatMap ListenItem.bytes) =
      some { headset := h, level := level.toInt, listen := if listen = [] then none else some listen, talk := talk } := by
  have hitems := length_flatMap_bytes listen
  have hlength : (byteOf (8 + 2 * listen.length)).toNat = 8 + 2 * listen.length := toNat_byteOf (by omega)
  have hn : (byteOf listen.length).toNat = listen.length := toNat_byteOf (hlen.trans (by decide))
  have hempty : byteOf listen.length = 0 ↔ listen = [] := by
    rw [← BitVec.toNat_inj, hn]
    exact List.length_eq_zero_iff
  have htalk : readTalk (if talk = none then 0 else 1) (talk.getD 0) = talk := readTalk_getD (by simp)
  simp only [word32Bytes, List.cons_append, List.nil_append]
  rw [readSeekCall, airBody_whole (by simp only [hlength, List.length_cons, hitems]; omega)]
  simp only [Option.bind_some, seekCallBody, hn, word32_extract, hempty, htalk, hitems, hlen, hid, le_refl, and_self, if_true,
    readListen_flatMap_bytes hshift, firstPerGroup_of_nodup hgroups]

/-- Settles O53: each of the six payloads and of the five reports by its own reading, the records that are not read by
`airBody`. -/
theorem payloadsReadBack : Obligations.PayloadsReadBack := by
  unfold Obligations.PayloadsReadBack
  refine ⟨fun _ => readHold_payload, fun _ _ _ => readTaken_payload, fun _ => readYield_payload, fun _ => readClaim_payload,
    fun _ tag r hid => readDecline_payload hid tag r, fun _ => readStanding_payload, fun own m => ?_, readCycleMark_record,
    fun k level hk => ⟨fun h seq _ _ hp => readSlotReport_frame hk level h seq hp, readSlotReport_errored hk level,
      readSlotReport_silent hk level⟩,
    fun _ level good hid => readSurveyReport_record hid level good,
    fun _ level _ talk hid => readSeekCall_record hid level talk, fun _ acknowledged hk => readOrderResult_record hk acknowledged,
    fun record => ⟨fun kind hkind => unread_of_airBody (airBody_of_head?_ne hkind), fun kind length body hrec hshort => ?_⟩⟩
  · obtain ⟨hcls, hkind, hsender⟩ := arbitrationField_reads m.cls.code_le m.body.code_le own
    exact ⟨hcls, hkind, hsender, by dsimp only [buildFrame]⟩
  · subst hrec
    exact unread_of_airBody (airBody_of_short hshort)

end Sys2Proof.Machine
end

section
/-!
# The end of JOINING (O7)

However long a run of IDLE from WAIT_IDLE on is, it is one change of TLC and at most one report to CFL
(`State.hearAll_idle`), that of its entry to IDLE. A start bit behind it leads to RECEIVING with one report
(`State.hearAll_startBit`), made by itself or by the IDLE before it, so both ways end in `State.reportTrunk`.
-/

namespace Sys2Proof.Machine

/-! ## A run of IDLE and a start bit at TLC (R131, R134, R143) -/

namespace Tlc

/-- The runs and the wait after `n` IDLE. -/
def quiet (n : Nat) (t : Tlc) : Tlc :=
  { t with idleRun := min idleLimit (t.idleRun + n), heldRun := 0, wait := t.wait - n }

/-- TLC after `n` IDLE heard from WAIT_IDLE on: from the idle run of 11 on it is between frames. -/
def settle (n : Nat) (t : Tlc) : Tlc := if t.idleRun + n < idleLimit then t.quiet n else (t.quiet n).rest

/-- TLC as it begins to read another node's frame (R135). -/
def startBit (t : Tlc) : Tlc := ((t.elapse 1).read .dominant).startReading false

theorem quiet_quiet (m n : Nat) (t : Tlc) : (t.quiet m).quiet n = t.quiet (m + n) := by
  have hrun : min idleLimit (min idleLimit (t.idleRun + m) + n) = min idleLimit (t.idleRun + (m + n)) := by omega
  simp only [quiet, hrun, Nat.sub_sub]

theorem rest_quiet_rest (m n : Nat) (t : Tlc) : ((t.quiet m).rest.quiet n).rest = (t.quiet (m + n)).rest := by
  rw [← quiet_quiet]
  rfl

theorem rest_of_wait {t : Tlc} (h : t.wait = 0) : t.rest = { t with state := .idle, reading := none } := by
  rw [rest, restState, if_pos h]

theorem rest_of_waiting {t : Tlc} (h : t.wait ≠ 0) : t.rest = { t with state := .backoff, reading := none } := by
  rw [rest, restState, if_neg h]

/-- Where no wait runs, IDLE changes nothing of the state between frames but the runs. -/
theorem quiet_rest {m : Nat} {t : Tlc} (h : t.wait ≤ m) (n : Nat) : (t.quiet m).rest.quiet n = (t.quiet (m + n)).rest := by
  have hm : (t.quiet m).wait = 0 := Nat.sub_eq_zero_of_le h
  have hmn : (t.quiet (m + n)).wait = 0 := Nat.sub_eq_zero_of_le (h.trans (Nat.le_add_right m n))
  rw [rest_of_wait hm, rest_of_wait hmn, ← quiet_quiet]
  rfl

theorem settle_short {n : Nat} {t : Tlc} (h : t.idleRun + n < idleLimit) : t.settle n = t.quiet n := if_pos h

theorem settle_long {n : Nat} {t : Tlc} (h : idleLimit ≤ t.idleRun + n) : t.settle n = (t.quiet n).rest :=
  if_neg (Nat.not_lt.mpr h)

theorem settle_quiet {n : Nat} {t : Tlc} (h : t.idleRun + n < idleLimit) : (t.quiet n).settle 1 = t.settle (n + 1) := by
  have hrun : (t.quiet n).idleRun = t.idleRun + n := Nat.min_eq_right h.le
  rw [settle, settle, hrun, quiet_quiet, Nat.add_assoc]

/-- Where TLC stands after a run of IDLE from WAIT_IDLE on (R134, R143). -/
theorem settle_cases {t : Tlc} (h : t.state = .waitIdle) (n : Nat) :
    (t.idleRun + n < idleLimit ∧ (t.settle n).state = .waitIdle) ∨
    (idleLimit ≤ t.idleRun + n ∧ t.wait ≤ n ∧ (t.settle n).state = .idle) ∨
    (idleLimit ≤ t.idleRun + n ∧ (t.settle n).state = .backoff) := by
  rcases Nat.lt_or_ge (t.idleRun + n) idleLimit with hrun | hrun
  · exact .inl ⟨hrun, (congrArg Tlc.state (settle_short hrun)).trans h⟩
  · rw [settle_long hrun]
    rcases Nat.lt_or_ge n t.wait with hwait | hwait
    · exact .inr (.inr ⟨hrun, congrArg Tlc.state (rest_of_waiting (Nat.sub_ne_zero_of_lt hwait))⟩)
    · exact .inr (.inl ⟨hrun, hwait, congrArg Tlc.state (rest_of_wait (Nat.sub_eq_zero_of_le hwait))⟩)

/-- A start bit leaves nothing of what the IDLE before it did but the bit times that a wait counted. -/
theorem startBit_settle (n : Nat) (t : Tlc) :
    (t.settle n).startBit =
      { t with
        state := .receiving, wait := t.wait - n - 1, idleRun := 0, heldRun := 0, attempt := none
        reading := some { follows := false, crcRead := false, acknowledges := false } } := by
  unfold settle
  split <;> rfl

end Tlc

namespace State

section
variable {cfg : Settings} {s : State} {n : Nat}

theorem onTlc_congr {f g : Tlc → Tlc} (h : f s.tlc = g s.tlc) : s.onTlc f = s.onTlc g :=
  congrArg (fun t => { s with tlc := t }) h

/-! ## The reports to CFL (R134, R180) -/

theorem reportTrunk_onTlc (f : Tlc → Tlc) (s : State) : (s.onTlc f).reportTrunk = s.reportTrunk.onTlc f := by
  unfold reportTrunk runIfJoined
  dsimp only [onCfl_cfl, onTlc_cfl]
  cases s.cfl.node with
  | joining =>
    cases s.cfl.airJoined with
    | false => rfl
    | true => cases s.cfl.config <;> rfl
  | _ => rfl

/-- The trunk reported in JOINING: the second condition to hold takes the node to RUN with the countdown at S (R180, R182). -/
theorem reportTrunk_joining (hnode : s.cfl.node = .joining) (hcfg : s.cfl.config = some cfg) :
    s.reportTrunk =
      { s with
        cfl := { s.cfl with trunkJoined := true, node := if s.cfl.airJoined then .run else .joining }
        re := { s.re with listenIn := if s.cfl.airJoined then some cfg.standing else s.re.listenIn } } := by
  unfold reportTrunk runIfJoined
  cases hair : s.cfl.airJoined <;> simp [hnode, hcfg, hair, onCfl, onRe]

theorem reportAir_joining (hnode : s.cfl.node = .joining) (hcfg : s.cfl.config = some cfg) :
    s.reportAir =
      { s with
        cfl := { s.cfl with airJoined := true, node := if s.cfl.trunkJoined then .run else .joining }
        re := { s.re with listenIn := if s.cfl.trunkJoined then some cfg.standing else s.re.listenIn } } := by
  unfold reportAir runIfJoined
  cases htrunk : s.cfl.trunkJoined <;> simp [hnode, hcfg, htrunk, onCfl, onRe]

theorem reportEntry_entered (h : s.tlc.state = .idle ∨ s.tlc.state = .receiving) : s.reportEntry = s.reportTrunk := by
  unfold reportEntry
  rcases h with h | h <;> simp only [h]

theorem reportEntry_waiting (h : s.tlc.state = .waitIdle ∨ s.tlc.state = .backoff) : s.reportEntry = s := by
  unfold reportEntry
  rcases h with h | h <;> simp only [h]

/-! ## One symbol (R131, R134, R135) -/

theorem stickIfHeld_of_heldRun (h : s.tlc.heldRun = 0) : s.stickIfHeld = s := by
  rw [stickIfHeld, h]
  exact if_neg (by decide)

theorem tlc_reportEntry (s : State) : s.reportEntry.tlc = s.tlc := by
  unfold reportEntry
  split
  · exact s.tlc_reportTrunk
  · exact s.tlc_reportTrunk
  all_goals rfl

theorem hear_idle_waitIdle (h : s.tlc.state = .waitIdle) : s.hear .idle = (s.onTlc (Tlc.settle 1)).reportEntry := by
  unfold hear
  simp only [h, reduceCtorEq, false_and, if_false]
  rcases Nat.lt_or_ge (s.tlc.idleRun + 1) idleLimit with hrun | hrun
  · have hshort : s.onTlc (Tlc.settle 1) = s.onTlc (Tlc.quiet 1) := onTlc_congr (Tlc.settle_short hrun)
    rw [hshort, reportEntry_waiting (s := s.onTlc (Tlc.quiet 1)) (.inl h)]
    exact (if_neg (min_eq_left_iff.not.mpr (Nat.not_le.mpr hrun))).trans (stickIfHeld_of_heldRun rfl)
  · have hlong : s.onTlc (Tlc.settle 1) = (s.onTlc (Tlc.quiet 1)).onTlc Tlc.rest :=
      onTlc_congr (g := fun t => (t.quiet 1).rest) (Tlc.settle_long hrun)
    rw [hlong]
    exact if_pos (min_eq_left hrun)

theorem hear_idle_backoff (h : s.tlc.state = .backoff) :
    s.hear .idle = (s.onTlc fun t => (t.quiet 1).rest).reportEntry := by
  unfold hear
  simp only [h, reduceCtorEq, if_false]
  exact stickIfHeld_of_heldRun (congrArg Tlc.heldRun (tlc_reportEntry _))

theorem hear_idle_idle (h : s.tlc.state = .idle) : s.hear .idle = s.onTlc (Tlc.quiet 1) := by
  unfold hear
  simp only [h, reduceCtorEq, if_false]
  exact stickIfHeld_of_heldRun (s := s.onTlc (Tlc.quiet 1)) rfl

theorem hear_dominant_waiting (h : (s.tlc.state = .waitIdle ∧ gapLength ≤ s.tlc.idleRun) ∨ s.tlc.state = .backoff) :
    s.hear .dominant = (s.onTlc Tlc.startBit).reportTrunk := by
  unfold hear
  rcases h with ⟨hstate, hgap⟩ | hstate
  · simp only [hstate, hgap]
    rfl
  · simp only [hstate]
    rfl

theorem hear_dominant_idle (h : s.tlc.state = .idle) : s.hear .dominant = s.onTlc Tlc.startBit := by
  unfold hear
  simp only [h]
  rfl

/-! ## A run of symbols in WAIT_IDLE (R134) -/

/-- A run of IDLE heard in WAIT_IDLE: TLC settles, and reports to CFL where that led it to IDLE. -/
theorem hearAll_idle (h : s.tlc.state = .waitIdle) (hn : 1 ≤ n) :
    s.hearAll (List.replicate n .idle) = (s.onTlc (Tlc.settle n)).reportEntry := by
  induction n, hn using Nat.le_induction with
  | base => exact hear_idle_waitIdle h
  | succ n hn ih =>
    have hlast : s.hearAll (List.replicate (n + 1) .idle) = ((s.onTlc (Tlc.settle n)).reportEntry).hear .idle := by
      rw [List.replicate_succ', hearAll, List.foldl_append, ← ih]
      rfl
    have hnext {f : Tlc → Tlc} (hf : f (s.tlc.settle n) = s.tlc.settle (n + 1)) :
        (s.onTlc (Tlc.settle n)).onTlc f = s.onTlc (Tlc.settle (n + 1)) :=
      onTlc_congr (f := fun t => f (t.settle n)) hf
    rw [hlast]
    rcases Tlc.settle_cases h n with ⟨hrun, hstate⟩ | ⟨hrun, hwait, hstate⟩ | ⟨hrun, hstate⟩
    · rw [reportEntry_waiting (.inl hstate), hear_idle_waitIdle hstate,
        hnext ((congrArg _ (Tlc.settle_short hrun)).trans (Tlc.settle_quiet hrun))]
    · have hgoes : (s.tlc.settle n).quiet 1 = s.tlc.settle (n + 1) := by
        rw [Tlc.settle_long hrun, Tlc.quiet_rest hwait, Tlc.settle_long (Nat.le_succ_of_le hrun)]
      have hidle : (s.onTlc (Tlc.settle (n + 1))).tlc.state = .idle := (congrArg Tlc.state hgoes).symm.trans hstate
      have hstays : (s.onTlc (Tlc.settle n)).reportTrunk.tlc.state = .idle :=
        (congrArg Tlc.state (tlc_reportTrunk _)).trans hstate
      rw [reportEntry_entered (.inl hstate), hear_idle_idle hstays, ← reportTrunk_onTlc, hnext hgoes,
        reportEntry_entered (.inl hidle)]
    · have hgoes : ((s.tlc.settle n).quiet 1).rest = s.tlc.settle (n + 1) := by
        rw [Tlc.settle_long hrun, Tlc.rest_quiet_rest, Tlc.settle_long (Nat.le_succ_of_le hrun)]
      rw [reportEntry_waiting (.inr hstate), hear_idle_backoff hstate, hnext (f := fun t => (t.quiet 1).rest) hgoes]

/-- A start bit behind a run of IDLE in WAIT_IDLE: TLC begins to read the frame, and CFL has its report, from that start bit
or from an idle run of 11 before it. -/
theorem hearAll_startBit (h : s.tlc.state = .waitIdle) (hgap : gapLength ≤ s.tlc.idleRun + n) :
    s.hearAll (List.replicate n .idle ++ [.dominant]) = (s.onTlc fun t => (t.settle n).startBit).reportTrunk := by
  rcases Nat.eq_zero_or_pos n with rfl | hn
  · have hbit : s.tlc.startBit = (s.tlc.settle 0).startBit := (Tlc.startBit_settle 0 s.tlc).symm
    exact (hear_dominant_waiting (.inl ⟨h, hgap⟩)).trans
      (congrArg State.reportTrunk (onTlc_congr (g := fun t => (t.settle 0).startBit) hbit))
  · have hlast : s.hearAll (List.replicate n .idle ++ [.dominant]) =
        ((s.onTlc (Tlc.settle n)).reportEntry).hear .dominant := by
      rw [hearAll, List.foldl_append, ← hearAll_idle h hn]
      rfl
    rw [hlast]
    rcases Tlc.settle_cases h n with ⟨hrun, hstate⟩ | ⟨-, -, hstate⟩ | ⟨-, hstate⟩
    · have hfree : gapLength ≤ (s.tlc.settle n).idleRun := by
        rw [Tlc.settle_short hrun]
        exact le_min (by decide) hgap
      rw [reportEntry_waiting (.inl hstate)]
      exact hear_dominant_waiting (.inl ⟨hstate, hfree⟩)
    · have hstays : (s.onTlc (Tlc.settle n)).reportTrunk.tlc.state = .idle :=
        (congrArg Tlc.state (tlc_reportTrunk _)).trans hstate
      rw [reportEntry_entered (.inl hstate), hear_dominant_idle hstays, ← reportTrunk_onTlc]
      rfl
    · rw [reportEntry_waiting (.inr hstate)]
      exact hear_dominant_waiting (.inr hstate)

/-- The first mark taken in JOINING goes to CFL alone (R97). -/
theorem next_cycleMark_joining (h : s.cfl.node = .joining) {record : List Byte} {m : BitVec 16}
    (hr : readCycleMark record = some m) (hm : s.apc.lastCycle ≠ some m) :
    exec (.cycleMark record) s = .next (s.noteCycle m).reportAir := by
  refine congrArg Host.Outcome.next ?_
  simp only [hr, if_neg hm, h]

theorem next_waitIdleExit (h : s.tlc.state = .waitIdle) (line : List LineSymbol) :
    exec (.waitIdleExit line) s = .next (s.hearAll line) := by
  refine congrArg Host.Outcome.next ?_
  simp only [h]

end

end State

/-- Settles O7: the mark by the report of the air, a run of IDLE and a start bit by the one report of the trunk they make. -/
theorem joiningEnds : Obligations.JoiningEnds := by
  unfold Obligations.JoiningEnds
  refine fun cfg s hnode hcfg => ⟨fun record m hr hm => ?_, fun n hstate hn hrun hwait => ?_, fun n hstate hgap => ?_⟩
  · rw [State.next_cycleMark_joining hnode hr hm, State.reportAir_joining (s := s.noteCycle m) hnode hcfg]
    rfl
  · have htlc : s.tlc.settle n = { s.tlc with state := .idle, idleRun := 11, heldRun := 0, wait := 0, reading := none } := by
      rw [Tlc.settle_long hrun, Tlc.rest_of_wait (Nat.sub_eq_zero_of_le hwait)]
      simp only [Tlc.quiet, Nat.sub_eq_zero_of_le hwait, idleLimit, min_eq_left hrun]
    have hidle : (s.onTlc (Tlc.settle n)).tlc.state = .idle := congrArg Tlc.state htlc
    rw [State.next_waitIdleExit hstate, State.hearAll_idle hstate hn, State.reportEntry_entered (.inl hidle),
      State.reportTrunk_joining (s := s.onTlc (Tlc.settle n)) hnode hcfg, ← htlc]
    rfl
  · rw [State.next_waitIdleExit hstate, State.hearAll_startBit hstate hgap,
      State.reportTrunk_joining (s := s.onTlc fun t => (t.settle n).startBit) hnode hcfg, ← Tlc.startBit_settle]
    rfl

end Sys2Proof.Machine
end

section
/-!
# Rings and the mix

What a placement appends to a ring and counts (R114 to R117), and what each item of a listen list adds to the totals of the
mix (R127).
-/

namespace Sys2Proof.Machine

/-! ## Counted events of one counter (R172) -/

theorem Counter.index_lt (c : Counter) : c.index < counterCount := by
  cases c <;> decide

namespace Mlc

theorem counter_count_self {m : Mlc} (h : m.counters.length = counterCount) (c : Counter) :
    (m.count c).counter c = m.counter c + 1 := by
  rw [counter, counters_count, List.getElem?_set_self (h ▸ c.index_lt)]
  rfl

theorem counter_count_of_ne (m : Mlc) {c d : Counter} (hd : c.index ≠ d.index) : (m.count c).counter d = m.counter d := by
  rw [counter, counters_count, List.getElem?_set_ne hd, counter]

theorem counters_length_countMany {m : Mlc} (h : m.counters.length = counterCount) (c : Counter) (n : Nat) :
    (m.countMany c n).counters.length = counterCount := by
  induction n generalizing m with
  | zero => exact h
  | succ n ih => exact ih (by rw [counters_count, List.length_set, h])

theorem counter_countMany_self {m : Mlc} (h : m.counters.length = counterCount) (c : Counter) (n : Nat) :
    (m.countMany c n).counter c = m.counter c + BitVec.ofNat 16 n := by
  induction n generalizing m with
  | zero => exact (BitVec.add_zero _).symm
  | succ n ih =>
    rw [countMany, ih (by rw [counters_count, List.length_set, h]), counter_count_self h, Nat.add_comm n 1,
      BitVec.ofNat_add, BitVec.add_assoc]
    rfl

theorem counter_countMany_of_ne (m : Mlc) {c d : Counter} (hd : c.index ≠ d.index) (n : Nat) :
    (m.countMany c n).counter d = m.counter d := by
  induction n generalizing m with
  | zero => rfl
  | succ n ih => rw [countMany, ih, counter_count_of_ne m hd]

/-- A placement raises each of its three counters by what it finds, and each by itself. -/
theorem counter_countPlacement {m : Mlc} (h : m.counters.length = counterCount) (p : Placement) :
    (m.countPlacement p).counter .silenceInserted = m.counter .silenceInserted + BitVec.ofNat 16 p.silence ∧
      (m.countPlacement p).counter .ringOverruns = m.counter .ringOverruns + BitVec.ofNat 16 p.overruns ∧
      (m.countPlacement p).counter .misinserted = m.counter .misinserted + BitVec.ofNat 16 p.misinserted := by
  have h1 := counters_length_countMany h .silenceInserted p.silence
  have h2 := counters_length_countMany h1 .ringOverruns p.overruns
  refine ⟨?_, ?_, ?_⟩
  · rw [countPlacement, counter_countMany_of_ne _ (by decide), counter_countMany_of_ne _ (by decide),
      counter_countMany_self h]
  · rw [countPlacement, counter_countMany_of_ne _ (by decide), counter_countMany_self h1,
      counter_countMany_of_ne _ (by decide)]
  · rw [countPlacement, counter_countMany_self h2, counter_countMany_of_ne _ (by decide),
      counter_countMany_of_ne _ (by decide)]

end Mlc

/-! ## A placement by how far ahead the frame is -/

namespace Ring

/-- The frames that a placement appends: silence up to the fill limit, then the frame (R115). -/
def placed (cfg : Settings) (n : Nat) (payload : List Byte) : List VoiceFrame :=
  List.replicate (min n cfg.fillLimit) (silenceFrame cfg) ++ [{ payload := payload, silence := false }]

section
variable {r : Ring} {expected q : Seq} (he : r.expected = some expected) (cfg : Settings) (payload : List Byte)
include he

theorem place_ahead (hn : (q - expected).toNat ≤ 31) :
    r.place cfg q payload =
      { ring := { r.append (placed cfg (q - expected).toNat payload) with expected := some (q + 1) }
        silence := min (q - expected).toNat cfg.fillLimit
        overruns := r.frames.length + (placed cfg (q - expected).toNat payload).length - ringCapacity
        misinserted := 0 } := by
  unfold place
  rw [he]
  exact if_pos hn

theorem place_behind (hn : 32 ≤ (q - expected).toNat) :
    r.place cfg q payload = { ring := r, silence := 0, overruns := 0, misinserted := 1 } := by
  unfold place
  rw [he]
  exact if_neg (Nat.not_le.mpr hn)

end
end Ring

/-- Settles O27: a frame ahead puts the placed frames behind the ring's and the oldest are lost; one further ahead puts none. -/
theorem ringPlacement : Obligations.RingPlacement := by
  unfold Obligations.RingPlacement
  intro cfg ring expected q payload he hlen n fill appended p
  refine ⟨fun hn => ?_, fun hn => ?_, fun m hm => Mlc.counter_countPlacement hm.counters p⟩
  · have hp : p = _ := Ring.place_ahead he cfg payload hn
    have happ : appended = ring.frames ++ Ring.placed cfg n payload := List.append_assoc ..
    have hlost : appended.length - 8 = ring.frames.length + (Ring.placed cfg n payload).length - 8 := by
      rw [happ, List.length_append]
    have hring : p.ring =
        { frames := appended.drop (appended.length - 8), expected := some (q + 1), playing := ring.playing } := by
      rw [hp, hlost, happ]
      rfl
    have hover : p.overruns = appended.length - 8 := by
      rw [hp, hlost]
      rfl
    refine ⟨hring, Ring.place_length cfg q payload hlen, congrArg Placement.silence hp, ?_,
      congrArg Placement.misinserted hp⟩
    rw [hover, hring, List.length_drop]
    omega
  · have hp : p = _ := Ring.place_behind he cfg payload hn
    rw [hp]
    exact ⟨rfl, rfl, rfl, rfl⟩

/-! ## One total of the mix (R127) -/

/-- What a listed item adds to the total of a sample position. -/
def Vp.share (v : Vp) (n : Nat) (item : ListenItem) : Int :=
  match (v.find item.group).bind StoredGroup.current with
  | some samples => ((samples[n]?).getD 0).toInt / 2 ^ item.shift
  | none => 0

/-- The totals with one listed item added. -/
def Vp.addItem (v : Vp) (totals : List Int) (item : ListenItem) : List Int :=
  match (v.find item.group).bind StoredGroup.current with
  | some samples => List.zipWith (fun t x => t + x.toInt / 2 ^ item.shift) totals samples
  | none => totals

theorem mixTotals_eq (v : Vp) (listen : List ListenItem) :
    mixTotals v listen = listen.foldl v.addItem (List.replicate 80 0) := rfl

/-- Every current frame of the store has 80 samples. -/
def Vp.FullFrames (v : Vp) : Prop := ∀ e ∈ v.store, ∀ samples, e.current = some samples → samples.length = 80

section
variable {v : Vp} (hv : v.FullFrames)
include hv

theorem Vp.FullFrames.length_eq {g : Group} {samples : List Sample}
    (h : (v.find g).bind StoredGroup.current = some samples) : samples.length = 80 := by
  obtain ⟨e, he, hs⟩ := Option.bind_eq_some_iff.mp h
  exact hv e (List.mem_of_find?_eq_some he) samples hs

/-- An item adds its share to each of the 80 totals. -/
theorem Vp.addItem_spec {totals : List Int} (ht : totals.length = 80) (item : ListenItem) :
    (v.addItem totals item).length = 80 ∧
      ∀ n < 80, (v.addItem totals item)[n]? = totals[n]?.map (· + v.share n item) := by
  unfold addItem share
  cases hs : (v.find item.group).bind StoredGroup.current with
  | none => exact ⟨ht, fun n _ => by simp⟩
  | some samples =>
    have hl := hv.length_eq hs
    refine ⟨by simp [ht, hl], fun n hn => ?_⟩
    dsimp only
    rw [List.getElem?_zipWith, List.getElem?_eq_getElem (ht ▸ hn), List.getElem?_eq_getElem (hl ▸ hn)]
    rfl

theorem Vp.foldl_addItem_spec (listen : List ListenItem) {totals : List Int} (ht : totals.length = 80) :
    (listen.foldl v.addItem totals).length = 80 ∧
      ∀ n < 80, (listen.foldl v.addItem totals)[n]? = totals[n]?.map (· + (listen.map (v.share n)).sum) := by
  induction listen generalizing totals with
  | nil => exact ⟨ht, fun n _ => by simp⟩
  | cons item items ih =>
    obtain ⟨hl, hadd⟩ := Vp.addItem_spec hv ht item
    obtain ⟨hlen, hsum⟩ := ih hl
    refine ⟨hlen, fun n hn => ?_⟩
    rw [List.foldl_cons, hsum n hn, hadd n hn, Option.map_map, List.map_cons, List.sum_cons]
    refine congrArg (fun f => Option.map f _) (funext fun t => ?_)
    exact Int.add_assoc ..

end

/-- Settles O28, by induction on the listen list: each item adds its share to every total. -/
theorem mixedSamples : Obligations.MixedSamples := by
  unfold Obligations.MixedSamples
  intro v listen hv
  obtain ⟨hlen, hsum⟩ := Vp.foldl_addItem_spec hv listen (List.length_replicate (n := 80) (a := (0 : Int)))
  refine ⟨hlen, fun n hn => ?_⟩
  rw [mixTotals_eq, hsum n hn, List.getElem?_replicate_of_lt hn]
  exact congrArg some (Int.zero_add _)

end Sys2Proof.Machine
end

section
/-!
# The group store and the listen mask

What a lookup in the group store finds after an acquire and after a release (R121), the bins of the mask (R124), and where the
walk of R123 stops.
-/

namespace Sys2Proof.Machine

/-! ## Lookups in the store -/

theorem StoredGroup.group_of_dropRef {e x : StoredGroup} (h : e.dropRef = some x) : x.group = e.group := by
  unfold StoredGroup.dropRef at h
  split at h
  · cases h
  · cases h
    rfl

namespace Vp

section
variable {v w : Vp} {g h : Group} {e x : StoredGroup}

theorem find_eq_none_iff : v.find g = none ↔ ∀ e ∈ v.store, e.group ≠ g := by
  simp [find]

/-- A sound store holds no group twice, so a lookup finds the one entry of its group. -/
theorem find_eq_some_iff (hv : v.Sound) : v.find g = some e ↔ e ∈ v.store ∧ e.group = g := by
  constructor
  · intro hf
    exact ⟨List.mem_of_find?_eq_some hf, by simpa using List.find?_some hf⟩
  · rintro ⟨he, rfl⟩
    cases hf : v.find e.group with
    | none => exact absurd rfl (find_eq_none_iff.mp hf e he)
    | some y =>
      have hy : y.group = e.group := by simpa using List.find?_some hf
      exact congrArg some (List.inj_on_of_nodup_map hv.distinct (List.mem_of_find?_eq_some hf) he hy)

/-- Two sound stores with the same entries of a group have the same lookup of it. -/
theorem find_congr (hv : v.Sound) (hw : w.Sound) (hm : ∀ x : StoredGroup, x.group = h → (x ∈ w.store ↔ x ∈ v.store)) :
    w.find h = v.find h := by
  refine Option.ext fun x => ?_
  rw [find_eq_some_iff hw, find_eq_some_iff hv]
  exact and_congr_left (hm x)

theorem stored_of_find (hf : v.find g = some e) : v.stored g = true := by
  simp [stored, hf]

theorem not_stored_of_find (hf : v.find g = none) : ¬v.stored g = true := by
  simp [stored, hf]

theorem one_le_refs (hv : v.Sound) (hf : v.find g ≠ none) : 1 ≤ v.refs g := by
  obtain ⟨e, he⟩ := Option.ne_none_iff_exists'.mp hf
  rw [refs, he]
  exact hv.referenced e ((find_eq_some_iff hv).mp he).1

/-! ## An acquire, by whether the group is stored (R121) -/

theorem acquire_of_stored (hs : v.stored g = true) :
    v.acquire g = some (v.withStore (v.store.map fun e => if e.group = g then { e with refs := e.refs + 1 } else e)) :=
  if_pos hs

theorem acquire_of_room (hf : v.find g = none) (hl : v.store.length < 12) :
    v.acquire g = some (v.withStore (v.store ++ [{ group := g, refs := 1, current := none, lastSeq := none }])) :=
  (if_neg (not_stored_of_find hf)).trans (if_pos hl)

theorem acquire_of_full (hf : v.find g = none) (hl : v.store.length = 12) : v.acquire g = none :=
  (if_neg (not_stored_of_find hf)).trans (if_neg hl.not_lt)

/-- An acquire leaves the entries of other groups. -/
theorem mem_acquire_of_ne (hw : v.acquire g = some w) (hx : x.group ≠ g) : x ∈ w.store ↔ x ∈ v.store := by
  unfold acquire at hw
  split at hw
  · cases hw
    refine List.mem_map.trans ⟨?_, fun hm => ⟨x, hm, if_neg hx⟩⟩
    rintro ⟨y, hy, rfl⟩
    by_cases hg : y.group = g
    · simp [hg] at hx
    · simpa [hg] using hy
  · split at hw
    · cases hw
      refine List.mem_append.trans (or_iff_left fun hm => hx ?_)
      rw [List.mem_singleton.mp hm]
    · cases hw

theorem find_acquire_of_ne (hv : v.Sound) (hw : v.acquire g = some w) (hh : h ≠ g) : w.find h = v.find h :=
  find_congr hv (sound_acquire hv hw) fun _ hx => mem_acquire_of_ne hw (hx ▸ hh)

/-- An acquire of a stored group raises its count. -/
theorem find_acquire_of_some (hv : v.Sound) (hf : v.find g = some e) (hw : v.acquire g = some w) :
    w.find g = some { e with refs := e.refs + 1 } := by
  obtain ⟨he, hg⟩ := (find_eq_some_iff hv).mp hf
  refine (find_eq_some_iff (sound_acquire hv hw)).mpr ⟨?_, hg⟩
  rw [acquire_of_stored (stored_of_find hf)] at hw
  cases hw
  exact List.mem_map.mpr ⟨e, he, if_pos hg⟩

/-- An acquire of a group not stored creates its entry. -/
theorem find_acquire_of_none (hv : v.Sound) (hf : v.find g = none) (hl : v.store.length < 12) (hw : v.acquire g = some w) :
    w.find g = some { group := g, refs := 1, current := none, lastSeq := none } := by
  refine (find_eq_some_iff (sound_acquire hv hw)).mpr ⟨?_, rfl⟩
  rw [acquire_of_room hf hl] at hw
  cases hw
  exact List.mem_append_right _ (List.mem_singleton.mpr rfl)

/-! ## A release (R121) -/

theorem mem_release : x ∈ (v.release g).store ↔
    ∃ e ∈ v.store, (if e.group = g then e.dropRef else some e) = some x := by
  rw [release_eq]
  exact List.mem_filterMap

/-- A release leaves the entries of other groups. -/
theorem mem_release_of_ne (hx : x.group ≠ g) : x ∈ (v.release g).store ↔ x ∈ v.store := by
  rw [mem_release]
  constructor
  · rintro ⟨e, he, hex⟩
    split at hex
    · next hg => exact absurd ((StoredGroup.group_of_dropRef hex).trans hg) hx
    · cases hex
      exact he
  · exact fun hm => ⟨x, hm, if_neg hx⟩

theorem find_release_of_ne (hv : v.Sound) (hh : h ≠ g) : (v.release g).find h = v.find h :=
  find_congr hv (sound_release hv g) fun _ hx => mem_release_of_ne (hx ▸ hh)

/-- A release of a stored group leaves its entry with one reference less, or none. -/
theorem find_release_of_some (hv : v.Sound) (hf : v.find g = some e) : (v.release g).find g = e.dropRef := by
  obtain ⟨he, hg⟩ := (find_eq_some_iff hv).mp hf
  refine Option.ext fun x => ?_
  rw [find_eq_some_iff (sound_release hv g), mem_release]
  constructor
  · rintro ⟨⟨y, hy, hyx⟩, hxg⟩
    split at hyx
    · next hyg =>
      have hye : some y = some e := ((find_eq_some_iff hv).mpr ⟨hy, hyg⟩).symm.trans hf
      cases hye
      exact hyx
    · next hyg =>
      cases hyx
      exact absurd hxg hyg
  · exact fun hx => ⟨⟨e, he, (if_pos hg).trans hx⟩, (StoredGroup.group_of_dropRef hx).trans hg⟩

end
end Vp

/-! ## The listen mask (R124) -/

/-- The mask of a store is that of its groups. -/
theorem maskOf_congr {l m : List StoredGroup} (h : l.map StoredGroup.group = m.map StoredGroup.group) :
    maskOf l = maskOf m := by
  have key (l : List StoredGroup) :
      maskOf l = (l.map StoredGroup.group).foldr (fun g m => m ||| (1#64 <<< binOf g)) 0 := by
    rw [List.foldr_map, maskOf]
  rw [key, key, h]

theorem binOf_lt (g : Group) : binOf g < 64 := Nat.mod_lt _ (by decide)

theorem getLsbD_maskOf (l : List StoredGroup) (b : Nat) :
    (maskOf l).getLsbD b = true ↔ ∃ e ∈ l, binOf e.group = b := by
  induction l with
  | nil => simp [maskOf]
  | cons e es ih =>
    have hbit : (1#64 <<< binOf e.group).getLsbD b = true ↔ binOf e.group = b := by
      rw [← BitVec.twoPow_eq, BitVec.getLsbD_twoPow]
      simp [binOf_lt]
    rw [maskOf, List.foldr_cons, ← maskOf, BitVec.getLsbD_or, Bool.or_eq_true, ih, hbit, List.exists_mem_cons_iff, or_comm]

/-- The folding of R124 takes four of the 256 group numbers to each of the 64 bins. -/
theorem length_filter_binOf : ∀ b < 64, ((List.range 256).filter fun g => binOf (BitVec.ofNat 8 g) = b).length = 4 := by
  decide +kernel

namespace Vp

section
variable {v w : Vp} {g : Group}

theorem groups_acquire_of_stored (hs : v.stored g = true) (hw : v.acquire g = some w) :
    w.store.map StoredGroup.group = v.store.map StoredGroup.group := by
  rw [acquire_of_stored hs] at hw
  cases hw
  refine List.map_map.trans (List.map_congr_left fun e _ => ?_)
  by_cases hg : e.group = g <;> simp [hg]

theorem groups_release_of_refs (hr : ∀ e ∈ v.store, e.group = g → 2 ≤ e.refs) :
    (v.release g).store.map StoredGroup.group = v.store.map StoredGroup.group := by
  have hone : ∀ e ∈ v.store, (if e.group = g then e.dropRef else some e).map StoredGroup.group = some e.group := by
    intro e he
    by_cases hg : e.group = g
    · have := hr e he hg
      rw [if_pos hg, StoredGroup.dropRef, if_neg (by omega)]
      rfl
    · rw [if_neg hg]
      rfl
  exact List.map_filterMap.trans ((List.filterMap_congr hone).trans (congrFun List.filterMap_eq_map' _))

end
end Vp

/-- Settles O29: the mask depends on the groups of the store alone, and each has its bin set. -/
theorem listenMask : Obligations.ListenMask := by
  unfold Obligations.ListenMask
  refine fun v hv => ⟨fun b hb => ⟨?_, length_filter_binOf b hb⟩, fun g w hw => ?_, fun g => ⟨rfl, fun hr => ?_⟩⟩
  · rw [hv.mask, getLsbD_maskOf]
    rfl
  · have hmask : w.mask = maskOf w.store := (Vp.sound_acquire hv hw).mask
    exact ⟨hmask, fun hs => by rw [hmask, hv.mask, maskOf_congr (Vp.groups_acquire_of_stored hs hw)]⟩
  · exact (maskOf_congr (Vp.groups_release_of_refs hr)).trans hv.mask.symm

/-! ## Places for a claim (R122) -/

theorem Vp.fits_iff {v : Vp} (hv : v.Sound) {gs : List Group} (hgs : gs.Nodup) :
    v.fits gs = true ↔ v.store.length + (gs.filter fun g => v.find g = none).length ≤ 12 := by
  have hcap : v.store.length ≤ 12 := hv.capacity
  have hnew : (gs.filter fun g => !v.stored g) = gs.filter fun g => v.find g = none :=
    List.filter_congr fun g _ => by cases hf : v.find g <;> simp [Vp.stored, hf]
  rw [Vp.fits, distinctGroups_of_nodup hgs, hnew, decide_eq_true_iff, storeCapacity]
  omega

/-! ## The exchange of R123 -/

theorem mem_filter_not_contains (l m : List Group) (g : Group) :
    (g ∈ l.filter fun x => !m.contains x) ↔ g ∈ l ∧ g ∉ m := by
  simp

theorem find?_firstPerGroup (l : List ListenItem) (g : Group) :
    ((firstPerGroup l).find? fun i => i.group = g) = l.find? fun i => i.group = g := by
  induction l with
  | nil => rfl
  | cons i is ih =>
    by_cases hi : i.group = g
    · simp [firstPerGroup, hi]
    · rw [firstPerGroup, List.find?_cons_of_neg (by simpa using hi), List.find?_cons_of_neg (by simpa using hi), ← ih,
        List.find?_filter]
      refine List.find?_congr fun j _ => ?_
      by_cases hj : j.group = g
      · simpa [hj] using Ne.symm hi
      · simp [hj]

/-- A walk stops at an item without a held reference whose acquire is refused. -/
theorem fitWalk_stops {held : List Group} {l : List ListenItem} {v : Vp} {i : ListenItem} {rest : List ListenItem}
    (h : (fitWalk held l v).2.2 = i :: rest) : i.group ∉ held ∧ (fitWalk held l v).1.acquire i.group = none := by
  induction l generalizing v with
  | nil => cases h
  | cons j js ih =>
    by_cases hj : j.group ∈ held
    · simp only [fitWalk, if_pos hj] at h ⊢
      exact ih h
    · simp only [fitWalk, if_neg hj] at h ⊢
      cases hw : v.acquire j.group with
      | none =>
        simp only [hw] at h ⊢
        cases h
        exact ⟨hj, hw⟩
      | some w =>
        simp only [hw] at h ⊢
        exact ih h

namespace Vp

section
variable {v : Vp} {held : List Group} {list : List ListenItem}

/-- The store before the walk of R123: the held references that the new list does not name are released. -/
def handBack (held : List Group) (items : List ListenItem) (v : Vp) : Vp :=
  v.releaseAll (held.filter fun g => !(items.map ListenItem.group).contains g)

theorem fit_dropped : (v.fit held list).dropped =
    !(fitWalk held (firstPerGroup list) (v.handBack held (firstPerGroup list))).2.2.isEmpty := rfl

theorem sound_handBack (hv : v.Sound) (items : List ListenItem) : (v.handBack held items).Sound := sound_releaseAll hv _

theorem refs_handBack (hv : v.Sound) (hn : held.Nodup) (hr : ∀ g ∈ held, 1 ≤ v.refs g) (items : List ListenItem)
    (g : Group) :
    (v.handBack held items).refs g + (if g ∈ held ∧ g ∉ items.map ListenItem.group then 1 else 0) = v.refs g := by
  rw [handBack, refs_releaseAll hv, (hn.filter _).count, if_congr (mem_filter_not_contains held _ g) rfl rfl]
  split
  · next h => exact Nat.sub_add_cancel (hr g h.1)
  · rfl

/-- Where the walk of R123 ends, the references given back are gone and the groups kept that were not held have one more. -/
theorem refs_walk (hv : v.Sound) (hn : held.Nodup) (hr : ∀ g ∈ held, 1 ≤ v.refs g) {items : List ListenItem}
    (hi : (items.map ListenItem.group).Nodup) (g : Group) :
    let w := fitWalk held items (v.handBack held items)
    w.1.refs g + (if g ∈ held ∧ g ∉ items.map ListenItem.group then 1 else 0) =
      v.refs g + if g ∈ w.2.1.map ListenItem.group ∧ g ∉ held then 1 else 0 := by
  intro w
  obtain ⟨hsplit, hrefs⟩ := fitWalk_spec held items (v.handBack held items)
  have hkept : (w.2.1.map ListenItem.group).Nodup :=
    hi.sublist ((hsplit ▸ List.sublist_append_left w.2.1 w.2.2).map _)
  have hback := refs_handBack hv hn hr items g
  rw [hrefs g, (hkept.filter _).count, if_congr (mem_filter_not_contains _ held g) rfl rfl]
  omega

end
end Vp

/-- Settles O30: lookups after an acquire and a release, the places a claim needs, and where the walk of R123 stops. -/
theorem groupReferences : Obligations.GroupReferences := by
  unfold Obligations.GroupReferences
  refine fun v hv => ⟨fun g => ⟨fun e he => ⟨?_, ?_, fun h hh => Vp.find_release_of_ne hv hh⟩, fun hf hl => ?_,
      Vp.acquire_of_full⟩,
    fun gs hgs => ⟨?_, fun hfit g => ?_⟩, fun held list hn hheld => ?_⟩
  · obtain ⟨w, hw⟩ := Vp.exists_acquire (.inl (Vp.stored_of_find he))
    exact ⟨w, hw, Vp.find_acquire_of_some hv he hw, fun h hh => Vp.find_acquire_of_ne hv hw hh⟩
  · have := hv.referenced e ((Vp.find_eq_some_iff hv).mp he).1
    rw [Vp.find_release_of_some hv he, StoredGroup.dropRef]
    exact if_congr (by omega) rfl rfl
  · obtain ⟨w, hw⟩ := Vp.exists_acquire (.inr hl)
    exact ⟨w, hw, Vp.find_acquire_of_none hv hf hl hw, fun h hh => Vp.find_acquire_of_ne hv hw hh⟩
  · exact Vp.fits_iff hv hgs
  · rw [Vp.refs_acquireAll hgs hfit, hgs.count]
  · have hr : ∀ g ∈ held, 1 ≤ v.refs g := fun g hg => Vp.one_le_refs hv (hheld g hg)
    have hitems := nodup_firstPerGroup list
    refine ⟨⟨hitems, find?_firstPerGroup list⟩, fun g => ?_, _, (fitWalk_spec held _ _).1.symm, ?_,
      fun i rest hcut => ?_⟩
    · have hrefs := Vp.refs_fit hv hn hr list g
      rw [hn.count, (Vp.nodup_fit held list v).count] at hrefs
      by_cases hg : g ∈ held
      · have := hr g hg
        rw [if_pos hg] at hrefs ⊢
        omega
      · rw [if_neg hg] at hrefs ⊢
        exact hrefs
    · rw [Vp.fit_dropped, Bool.not_eq_true', List.isEmpty_eq_false_iff]
      rfl
    · obtain ⟨hi, hfull⟩ := fitWalk_stops hcut
      exact ⟨hi, _, Vp.sound_fitWalk (Vp.sound_handBack hv _) _ _, hfull, Vp.refs_walk hv hn hr hitems⟩

end Sys2Proof.Machine
end

section
/-!
# GROUP FRAMEs

What VP makes of a GROUP FRAME, by its bin, its group and its sequence (R125, R126), and where the command reaches VP (R164).
-/

namespace Sys2Proof.Machine

namespace State

section
variable {s : State} {g : Group} {e : StoredGroup} {seq : Byte} {samples : List Sample} {record body : List Byte}

theorem groupFrame_of_clear (h : s.vp.mask.getLsbD (binOf g) = false) (seq : Byte) (samples : List Sample) :
    s.groupFrame g seq samples = s := by
  unfold groupFrame Vp.binSet
  rw [h]
  rfl

theorem groupFrame_of_none (h : s.vp.mask.getLsbD (binOf g) = true) (hf : s.vp.find g = none) (seq : Byte)
    (samples : List Sample) : s.groupFrame g seq samples = s.count .maskMisses := by
  unfold groupFrame Vp.binSet
  simp only [h, hf]
  rfl

theorem groupFrame_of_repeat (h : s.vp.mask.getLsbD (binOf g) = true) (hf : s.vp.find g = some e)
    (hl : e.lastSeq = some seq) (samples : List Sample) : s.groupFrame g seq samples = s := by
  unfold groupFrame Vp.binSet
  simp only [h, hf, hl]
  rfl

theorem groupFrame_of_new (h : s.vp.mask.getLsbD (binOf g) = true) (hf : s.vp.find g = some e)
    (hl : e.lastSeq ≠ some seq) (samples : List Sample) :
    s.groupFrame g seq samples =
      { s with
        vp := { s.vp with store := s.vp.store.map fun x => if x.group = g then x.take seq samples else x }
        mlc := if e.current = none then s.mlc else s.mlc.count .groupOverwrites } := by
  unfold groupFrame Vp.binSet
  simp only [h, hf, if_neg hl]
  cases e.current <;> rfl

/-- A sound GROUP FRAME goes to VP in JOINING and RUN alone (R164). -/
theorem next_groupFrame (hr : checkRecord 0x01 162 record = .sound (g :: seq :: body)) :
    exec (.groupFrame record) s = .next
      (if s.cfl.node = .joining ∨ s.cfl.node = .run then s.groupFrame g seq (readSamples body) else s) := by
  refine congrArg Host.Outcome.next ?_
  by_cases hn : s.cfl.node = .standby
  · rw [takeRecord_standby hn, if_neg (by simp [hn])]
  · rw [takeRecord_sound hn hr]
    cases hs : s.cfl.node with
    | standby => exact absurd hs hn
    | loading | fault | joining | run => rfl

end
end State

/-- Settles O31: in JOINING and RUN the command is `State.groupFrame`, and each of its branches is an equation. -/
theorem groupFrames : Obligations.GroupFrames := by
  unfold Obligations.GroupFrames
  intro s record g seq samples hr
  rw [State.next_groupFrame hr]
  refine ⟨fun hj hn => by rw [if_neg (not_or.mpr ⟨hj, hn⟩)], fun hn => ?_⟩
  rw [if_pos hn]
  refine ⟨fun hb => ?_, fun hb hf => ?_, fun e hb hf hl => ?_, fun e hb hf hl => ?_⟩
  · rw [State.groupFrame_of_clear hb]
  · rw [State.groupFrame_of_none hb hf]
    rfl
  · rw [State.groupFrame_of_repeat hb hf hl]
  · rw [State.groupFrame_of_new hb hf hl]
    rfl

end Sys2Proof.Machine
end

section
/-!
# The law of TLC along every command (O56)

A command of another block leaves TLC as it was, a reset or a warm restart begins it anew, and each row of the trunk is made
of the operations of `Laws/Trunk.lean`, each of which keeps the law.
-/

namespace Sys2Proof.Machine

/-! ## TLC's state and what it holds in it -/

theorem Tlc.reading_none {t : Tlc} (h : t.Sound) (hs : t.state ≠ .receiving) : t.reading = none := by
  cases hr : t.reading with
  | none => rfl
  | some r => exact absurd (h.reading.mp (by rw [hr]; rfl)) hs

theorem Tlc.attempt_none_of_receiving {t : Tlc} (h : t.Sound) (hs : t.state = .receiving) : t.attempt = none :=
  Tlc.attempt_none h (by rw [hs]; decide) (by rw [hs]; decide)

/-- TLC sends: from a state in which nothing is read it goes to ARBITRATING with a message in hand, or to SENDING with or
without one (R134). -/
theorem Tlc.sound_send {t : Tlc} (h : t.Sound) (hs : t.state ≠ .receiving) {x : TlcState} {a : Option Attempt}
    (hx : (x = .arbitrating ∧ a.isSome = true) ∨ x = .sending) : Tlc.Sound { t with state := x, attempt := a } := by
  have hread : x ≠ .receiving := by rcases hx with ⟨rfl, -⟩ | rfl <;> decide
  exact
    { generator := h.generator, wait := h.wait, idleRun := h.idleRun, heldRun := h.heldRun, trap := h.trap
      attempt := fun _ => hx.imp_left And.left
      arbitrating := fun hxa => hx.elim And.right fun hxs => by rw [hxs] at hxa; cases hxa
      reading := by simp [Tlc.reading_none h hs, hread] }

/-- What is noted of the frame being read changes with that frame alone (R134). -/
theorem Tlc.sound_reads {t : Tlc} (h : t.Sound) (hs : t.state = .receiving) (r : Reading) :
    Tlc.Sound { t with reading := some r } :=
  { h with reading := ⟨fun _ => hs, fun _ => rfl⟩ }

/-- The outcome of the frame being sent is known: its message is out of TLC's hand (R142). -/
theorem Tlc.sound_outcome {t : Tlc} (h : t.Sound) (hs : t.state = .sending) : Tlc.Sound { t with attempt := none } := by
  have hsent := Tlc.sound_send h (by rw [hs]; decide) (x := .sending) (a := none) (.inr rfl)
  rwa [← hs] at hsent

theorem Tlc.state_read (x : LineSymbol) (t : Tlc) : (t.read x).state = t.state := by cases x <;> rfl

theorem Tlc.attempt_read (x : LineSymbol) (t : Tlc) : (t.read x).attempt = t.attempt := by cases x <;> rfl

theorem Tlc.readFault_attempt (bits : Nat) (held : Bool) (x : LineSymbol) (t : Tlc) :
    (t.readFault bits held x).attempt = t.attempt := by
  unfold readFault
  split <;> exact attempt_read x _

namespace State

variable {s t : State}

/-! ## Commands of the other blocks -/

theorem tlc_whenRun {f : Settings → State → State} (hf : ∀ cfg, (f cfg s).tlc = s.tlc) : (s.whenRun f).tlc = s.tlc := by
  unfold whenRun
  split
  · exact hf _
  · rfl

theorem tlc_sound_whenRun {f : Settings → State → State} (h : s.tlc.Sound) (hf : ∀ cfg, (f cfg s).tlc.Sound) :
    (s.whenRun f).tlc.Sound := by
  unfold whenRun
  split
  · exact hf _
  · exact h

theorem tlc_ite {c : Prop} [Decidable c] {a b : State} (ha : a.tlc = s.tlc) (hb : b.tlc = s.tlc) :
    (if c then a else b).tlc = s.tlc := by
  split
  · exact ha
  · exact hb

theorem tlc_handle {p : Placed → Bool} {f : Settings → Placed → State → State} (hf : ∀ cfg m u, (f cfg m u).tlc = u.tlc) :
    (s.handle p f).tlc = s.tlc :=
  tlc_whenRun fun cfg => by
    split
    · exact tlc_ite (hf cfg _ _) rfl
    · rfl

theorem tlc_handleClaim (cfg : Settings) (n : Node) (c : ClaimBody) (s : State) : (s.handleClaim cfg n c).tlc = s.tlc := by
  unfold handleClaim
  split <;> rfl

theorem tlc_queueReply (s : State) : s.queueReply.tlc = s.tlc := by
  unfold queueReply
  split
  · dsimp only
    split <;> rfl
  · rfl

theorem tlc_reportAir (s : State) : s.reportAir.tlc = s.tlc := by
  unfold reportAir runIfJoined
  split <;> rfl

/-- The rows of RE, APC and TQU leave TLC as it was. -/
theorem tlc_of_runOnly {c : Instr} (hc : runOnly c = true) (h : exec c s = .next t) : t.tlc = s.tlc := by
  cases c with
  | arrivalTimeout k | handingTimeout k | cutLink k => cases h; exact (stays_expireIfDue k _ s).tlc
  | rescueTimeout k =>
    cases h
    refine tlc_whenRun fun cfg => ?_
    split
    · exact tlc_ite (stays_expire cfg k _ s).tlc (tlc_ite rfl rfl)
    · rfl
  | replyTimeout x => cases h; exact tlc_whenRun fun _ => tlc_ite (stays_failClaim x s).tlc rfl
  | surveyAging x => cases h; exact tlc_whenRun fun _ => tlc_ite rfl rfl
  | settleEnd | knowledgeExpiry | listenInEnd | seekHoldOffEnd | ownHoldExpiry | neighbourHoldExpiry =>
    cases h
    exact tlc_whenRun fun _ => rfl
  | orderExpiry k => cases h; exact tlc_whenRun fun cfg => (stays_expireOrder cfg k s).tlc
  | drainEmpty k => cases h; exact tlc_whenRun fun _ => tlc_ite (stays_releaseEntry k s).tlc rfl
  | slotReport => cases h; exact tlc_whenRun fun cfg => by split <;> [exact (stays_slotReport cfg _ s).tlc; rfl]
  | surveyReport => cases h; exact tlc_whenRun fun cfg => by split <;> [exact (stays_surveyReport cfg _ s).tlc; rfl]
  | seekCall => cases h; exact tlc_whenRun fun cfg => by split <;> [exact (stays_seekCall cfg _ s).tlc; rfl]
  | orderResult => cases h; exact tlc_whenRun fun cfg => by split <;> [exact (stays_orderResult cfg _ s).tlc; rfl]
  | takenHandling => cases h; exact tlc_handle fun cfg _ u => by split <;> [exact (stays_handleTaken cfg _ _ _ u).tlc; rfl]
  | claimHandling =>
    cases h
    exact tlc_handle fun cfg _ u => by split <;> [exact tlc_ite (tlc_handleClaim cfg _ _ u) rfl; rfl]
  | seekClaimHandling =>
    cases h
    exact tlc_handle fun cfg _ u => by split <;> [exact tlc_ite (stays_handleSeekClaim cfg _ _ u).tlc rfl; rfl]
  | yieldHandling => cases h; exact tlc_handle fun cfg _ u => by split <;> [exact (stays_handleYield cfg _ _ u).tlc; rfl]
  | declineHandling => cases h; exact tlc_handle fun _ _ u => by split <;> [exact (stays_handleDecline _ _ _ u).tlc; rfl]
  | standingHandling =>
    cases h
    exact tlc_handle fun cfg m u => by
      split <;> [exact (stays_foldl _ (fun s x => stays_handleNaming cfg m.sender s x) _ u).tlc; rfl]
  | handlingComplete =>
    cases h
    refine tlc_whenRun fun cfg => ?_
    split
    · exact tlc_ite ((stays_decideEvict _).tlc.trans (tlc_queueReply _)) rfl
    · rfl
  | _ => cases hc

/-! ## Resets, marks and matrix records -/

theorem tlc_sound_coldReset (s : State) : s.coldReset.tlc.Sound := Tlc.sound_cold _

theorem tlc_sound_enterJoining (h : s.tlc.Sound) : s.enterJoining.tlc.Sound := Tlc.sound_rejoin h

theorem tlc_cycleMark {record : List Byte} (h : exec (.cycleMark record) s = .next t) : t.tlc = s.tlc := by
  cases h
  split
  · rfl
  · refine tlc_ite rfl ?_
    split
    · exact tlc_reportAir _
    · exact tlc_whenRun fun cfg => (stays_mark cfg _).tlc
    all_goals rfl

/-- A matrix record keeps the law of TLC as its act does; one that is not sound leaves TLC as it was (R163). -/
theorem tlc_sound_takeRecord {kind : Byte} {need : Nat} {record : List Byte} {act : List Byte → State → State}
    (h : s.tlc.Sound) (ha : ∀ body, (act body s).tlc.Sound) : (s.takeRecord kind need record act).tlc.Sound := by
  unfold takeRecord
  split
  · exact h
  all_goals
    split
    · exact h
    · exact h
    · exact ha _

theorem tlc_takeEvict (body : List Byte) (s : State) : (s.takeEvict body).tlc = s.tlc := by
  rcases takeEvict_cases body s with hs | ⟨-, -, -, he⟩
  · exact hs.tlc
  · rw [he]
    rfl

/-! ## Rows of the trunk -/

theorem tlc_sound_trunkAttemptStart {line : List LineSymbol} (h : s.tlc.Sound)
    (hx : exec (.trunkAttemptStart line) s = .next t) : t.tlc.Sound := by
  have heard := tlc_sound_hearAll h line
  cases hx
  split
  · dsimp only
    split
    · next hfree =>
      split
      · exact Tlc.sound_send heard (by rw [hfree.1]; decide) (.inl ⟨rfl, rfl⟩)
      · exact heard
    · exact heard
  · exact h

theorem tlc_sound_arbitrationWon (h : s.tlc.Sound) (hx : exec .arbitrationWon s = .next t) : t.tlc.Sound := by
  cases hx
  split
  · next hs => exact Tlc.sound_send (Tlc.sound_noRun h) (hs ▸ by decide) (.inr rfl)
  · exact h

theorem tlc_sound_arbitrationLost (h : s.tlc.Sound) (hx : exec .arbitrationLost s = .next t) : t.tlc.Sound := by
  cases hx
  split
  · exact Tlc.sound_startReading (Tlc.sound_read h .dominant) false
  · exact h

theorem tlc_sound_bitFault {cause : BitFaultCause} (h : s.tlc.Sound) (hx : exec (.bitFault cause) s = .next t) :
    t.tlc.Sound := by
  cases hx
  split
  · split
    · exact tlc_sound_failAttempt (Tlc.sound_startReading (Tlc.sound_readBitFault h cause) true) _
    · exact h
  · exact h

theorem tlc_sound_delivered (h : s.tlc.Sound) (hx : exec .delivered s = .next t) : t.tlc.Sound := by
  cases hx
  split
  · next hs _ =>
    have ended := Tlc.sound_outcome (Tlc.sound_noRun h) hs
    dsimp only
    split
    · split
      · exact ended
      · exact tlc_sound_whenRun ended fun cfg => (congrArg Tlc.Sound (stays_tellOwner cfg true _ _).tlc).mpr ended
    · exact ended
  · exact h

theorem tlc_sound_acknowledgeFailure {x : LineSymbol} (h : s.tlc.Sound)
    (hx : exec (.acknowledgeFailure x) s = .next t) : t.tlc.Sound := by
  cases hx
  split
  · next hs _ =>
    split
    · exact h
    · have read := Tlc.sound_read (Tlc.sound_noRun h) x
      exact tlc_sound_failAttempt (Tlc.sound_outcome read ((Tlc.state_read x _).trans hs)) _
  · exact h

theorem tlc_sound_offerFrame (h : s.tlc.Sound) (cfg : Settings) (p : Placed) : (s.offerFrame cfg p).tlc.Sound := by
  unfold offerFrame
  split
  · split
    · split
      · exact Tlc.sound_acknowledge h
      · exact h
    · exact h
  · split
    · exact h
    · split
      · exact Tlc.sound_acknowledge h
      · exact h

theorem tlc_sound_frameReceived {bits : Nat} {a : BitVec 13} {d : Node} {payload : List Byte} {crc : Byte} (h : s.tlc.Sound)
    (hx : exec (.frameReceived bits a d payload crc) s = .next t) : t.tlc.Sound := by
  cases hx
  split
  · next r hs hr =>
    have read := Tlc.sound_reads (Tlc.sound_noRun (Tlc.sound_elapse h bits)) hs { r with crcRead := true }
    have idle := Tlc.attempt_none_of_receiving h hs
    split
    · exact h
    · dsimp only
      split
      · exact Tlc.sound_loseTiming read idle
      · split
        · exact Tlc.sound_trapAfter read a
        · split
          · exact read
          · refine tlc_sound_whenRun read fun cfg => ?_
            split
            · exact tlc_sound_offerFrame read _ _
            · exact read
  · exact h

theorem tlc_sound_frameEnd {bits : Nat} (h : s.tlc.Sound) (hx : exec (.frameEnd bits) s = .next t) : t.tlc.Sound := by
  have passed := Tlc.sound_noRun (Tlc.sound_elapse h bits)
  cases hx
  split
  · next hs => exact Tlc.sound_rest passed (Tlc.attempt_none_of_receiving passed hs)
  · next ha => exact Tlc.sound_rest passed ha
  · exact h

theorem tlc_sound_framingFault {bits : Nat} {cause : FramingCause} (h : s.tlc.Sound)
    (hx : exec (.framingFault bits cause) s = .next t) : t.tlc.Sound := by
  have lost (ha : s.tlc.attempt = none) :=
    Tlc.sound_loseTiming (Tlc.sound_readFault h bits (framingAfterHeld cause) (faultSymbol cause))
      ((Tlc.readFault_attempt bits _ _ _).trans ha)
  cases hx
  dsimp only
  split
  · next hs =>
    have idle := Tlc.attempt_none_of_receiving h hs
    split
    · exact lost idle
    · split
      · exact lost idle
      · exact h
  · next ha =>
    split
    · exact lost ha
    · exact h
  · exact h

/-! ## Every command -/

/-- Every command keeps the law of TLC. -/
theorem tlc_sound_exec {c : Instr} (h : s.tlc.Sound) (hx : exec c s = .next t) : t.tlc.Sound := by
  cases c with
  | powerOn | resetLineAsserted => cases hx; exact tlc_sound_coldReset s
  | resetLineReleased => cases hx; split <;> exact h
  | configLoadComplete image =>
    cases hx
    split
    · split
      · exact tlc_sound_enterJoining (s := s.takeSettings _ _) h
      · exact h
    all_goals exact h
  | cycleMark record => exact tlc_cycleMark hx ▸ h
  | groupFrame record =>
    cases hx
    exact tlc_sound_takeRecord h fun body => by split <;> first | exact (stays_groupFrame _ _ _ s).tlc ▸ h | exact h
  | statusQuery record => cases hx; exact tlc_sound_takeRecord h fun body => by split <;> exact h
  | clear record =>
    cases hx
    have cleared : Tlc.Sound { s.tlc with trap := none } := { h with trap := fun r hr => by cases hr }
    exact tlc_sound_takeRecord h fun body => by split <;> first | exact cleared | exact h
  | evict record => cases hx; exact tlc_sound_takeRecord h fun body => tlc_takeEvict body s ▸ h
  | restart record =>
    cases hx
    exact tlc_sound_takeRecord h fun body => by
      split <;> first | exact tlc_sound_enterJoining (s := (s.onMlc Mlc.answerEvict).warmClear) h | exact h
  | outboundRecordStart => cases hx; split <;> exact h
  | trunkAttemptStart line => exact tlc_sound_trunkAttemptStart h hx
  | arbitrationWon => exact tlc_sound_arbitrationWon h hx
  | arbitrationLost => exact tlc_sound_arbitrationLost h hx
  | bitFault cause => exact tlc_sound_bitFault h hx
  | delivered => exact tlc_sound_delivered h hx
  | acknowledgeFailure x => exact tlc_sound_acknowledgeFailure h hx
  | frameReceived bits a d payload crc => exact tlc_sound_frameReceived h hx
  | frameEnd bits => exact tlc_sound_frameEnd h hx
  | framingFault bits cause => exact tlc_sound_framingFault h hx
  | backoffEnd line | waitIdleExit line | stuckExit line =>
    cases hx
    split <;> first | exact tlc_sound_hearAll h line | exact h
  | stuckEntry line => cases hx; exact tlc_sound_hearAll h line
  | anotherNodesStartBit line =>
    cases hx
    split <;> first | exact tlc_sound_hearAll h (line ++ [.dominant]) | exact h
  | _ => exact tlc_of_runOnly rfl hx ▸ h

end State

/-- Settles O56: the step takes a command or idles, and every command keeps the law of TLC. -/
theorem trunkLinkLaws : Obligations.TrunkLinkLaws := by
  unfold Obligations.TrunkLinkLaws
  intro s t h hx
  unfold step at hx
  split at hx
  · cases hx; exact h
  · next rest _ => exact State.tlc_sound_exec (s := { s with pending := rest }) h hx

end Sys2Proof.Machine
end

section
/-!
# The message in hand and the outcome of its attempt (O33, O34)

The change and the removal of the message in hand (R149, R151), and the three ways of a failed attempt as equations (R143,
R145). The row of a fault is then `State.failAttempt` behind the symbol at which the fault is found.
-/

namespace Sys2Proof.Machine

/-- What one symbol makes of the two runs (R131). -/
theorem Tlc.read_eq (x : LineSymbol) (t : Tlc) :
    t.read x =
      { t with
        idleRun := if x = .idle then min idleLimit (t.idleRun + 1) else 0
        heldRun := if x = .held then min heldLimit (t.heldRun + 1) else 0 } := by
  cases x <;> rfl

/-! ## The message in hand (R149, R151) -/

section
variable {s : State} {m : Queued}

theorem Tqu.changeInHand_some {t : Tqu} (h : t.inHand = some m) (f : Queued → Queued) :
    t.changeInHand f = t.onQueue m.cls (changeFirst Queued.inHand f) := by
  unfold changeInHand
  rw [h]
  rfl

theorem Tqu.removeInHand_some {t : Tqu} (h : t.inHand = some m) :
    t.removeInHand = t.onQueue m.cls (removeFirst Queued.inHand) := by
  unfold removeInHand
  rw [h]
  rfl

namespace State

theorem onTqu_changeInHand (h : s.tqu.inHand = some m) (f : Queued → Queued) :
    s.onTqu (Tqu.changeInHand f) = { s with tqu := s.tqu.onQueue m.cls (changeFirst Queued.inHand f) } :=
  congrArg (fun t => { s with tqu := t }) (Tqu.changeInHand_some h f)

theorem onTqu_removeInHand (h : s.tqu.inHand = some m) :
    s.onTqu Tqu.removeInHand = { s with tqu := s.tqu.onQueue m.cls (removeFirst Queued.inHand) } :=
  congrArg (fun t => { s with tqu := t }) (Tqu.removeInHand_some h)

/-! ## A failed attempt (R143, R145, R151) -/

theorem failAttempt_kept (h : s.tqu.inHand = some m) (hf : m.failures < 7) (a : Attempt) :
    s.failAttempt a =
      { s with
        tqu := s.tqu.onQueue m.cls (changeFirst Queued.inHand fun x =>
          { x with inHand := false, replaced := false, failures := x.failures + 1 })
        tlc := s.tlc.startBackoff (m.failures + 1) } := by
  unfold failAttempt
  rw [h]
  exact (if_pos (Nat.succ_lt_succ hf)).trans (congrArg (State.onTlc _) (onTqu_changeInHand h _))

theorem failAttempt_dropped (h : s.tqu.inHand = some m) (hf : 7 ≤ m.failures) (a : Attempt) :
    s.failAttempt a =
      State.whenRun
        { s with tqu := s.tqu.onQueue m.cls (removeFirst Queued.inHand), mlc := s.mlc.count .droppedAtLimit }
        fun cfg s => s.tellOwner cfg false m := by
  unfold failAttempt
  rw [h]
  refine (if_neg (Nat.not_lt.mpr (Nat.succ_le_succ hf))).trans ?_
  rw [onTqu_removeInHand h]
  rfl

theorem failAttempt_removed (h : s.tqu.inHand = none) (a : Attempt) :
    s.failAttempt a =
      { s with tlc := if a.message.failures < 7 then s.tlc.startBackoff (a.message.failures + 1) else s.tlc } := by
  unfold failAttempt
  rw [h]
  by_cases hf : a.message.failures < 7
  · rw [if_pos hf]
    exact if_pos (Nat.succ_lt_succ hf)
  · rw [if_neg hf]
    exact if_neg fun h8 => hf (Nat.lt_of_succ_lt_succ h8)

end State

/-! ## The rows that end an attempt (R141, R142) -/

/-- The end of an attempt: counted, with what it leaves of TLC. -/
def State.endAttempt (counter : Counter) (tlc : Tlc) (s : State) : State :=
  { s with tlc := tlc, mlc := s.mlc.count counter }

namespace State

variable {a : Attempt} {x : LineSymbol}

theorem next_bitFault {cause : BitFaultCause} (ha : s.tlc.attempt = some a) (hc : bitFaultIn s.tlc.state cause = true) :
    exec (.bitFault cause) s =
      .next ((s.endAttempt .bitFaults ((s.tlc.readBitFault cause).startReading true)).failAttempt a) := by
  refine congrArg Host.Outcome.next ?_
  simp only [ha, hc, if_true]
  rfl

theorem next_acknowledgeFailure (ha : s.tlc.attempt = some a) (hs : s.tlc.state = .sending) (hd : x ≠ .dominant)
    (hh : x ≠ .held) :
    exec (.acknowledgeFailure x) s =
      .next ((s.endAttempt .acknowledgeFailures { s.tlc.noRun.read x with attempt := none }).failAttempt a) := by
  refine congrArg Host.Outcome.next ?_
  simp only [ha, hs, hd, hh, or_self, if_false]
  rfl

/-- TLC as a message is delivered: the bits of the frame have ended both runs, and the attempt is over (R131, R142). -/
theorem next_delivered_gone (hs : s.tlc.state = .sending) (ha : s.tlc.attempt = some a) (hm : s.tqu.inHand = none) :
    exec .delivered s = .next (s.endAttempt .sent { s.tlc.noRun with attempt := none }) := by
  refine congrArg Host.Outcome.next ?_
  simp only [hs, ha, onTlc_tqu, count_tqu, hm]
  rfl

theorem next_delivered_replaced (hs : s.tlc.state = .sending) (ha : s.tlc.attempt = some a) (hm : s.tqu.inHand = some m)
    (hr : m.replaced = true) :
    exec .delivered s =
      .next ((s.endAttempt .sent { s.tlc.noRun with attempt := none }).onTqu
        (Tqu.changeInHand fun m => { m.letGo with failures := 0 })) := by
  refine congrArg Host.Outcome.next ?_
  simp only [hs, ha, onTlc_tqu, count_tqu, hm, hr, if_true]
  rfl

theorem next_delivered (hs : s.tlc.state = .sending) (ha : s.tlc.attempt = some a) (hm : s.tqu.inHand = some m)
    (hr : m.replaced = false) :
    exec .delivered s =
      .next (((s.endAttempt .sent { s.tlc.noRun with attempt := none }).onTqu Tqu.removeInHand).whenRun
        fun cfg s => s.tellOwner cfg true m) := by
  refine congrArg Host.Outcome.next ?_
  simp only [hs, ha, onTlc_tqu, count_tqu, hm, hr]
  rfl

end State

/-- TLC at a bit fault: the runs as its symbol leaves them, and the rest of the frame followed (R131, R141). -/
theorem Tlc.startReading_readBitFault {t : Tlc} {x : LineSymbol} (hx : x ≠ .held) {cause : BitFaultCause}
    (hc : cause = .startBit x ∨ cause = .differs x ∨ cause = .heldRun x) :
    (t.readBitFault cause).startReading true =
      { t with
        state := .receiving, attempt := none, heldRun := 0
        idleRun := if x = .idle then (if cause = .startBit x then min 11 (t.idleRun + 1) else 1) else 0
        reading := some { follows := true, crcRead := false, acknowledges := false } } := by
  rcases hc with rfl | rfl | rfl <;>
    simp [readBitFault, startReading, read_eq, noRun, hx, idleLimit]

/-- The obligation's list of bit faults is `bitFaultIn` (R136, R141, R144). -/
theorem bitFaultIn_of_cause {state : TlcState} {x : LineSymbol} (hx : x ≠ .held) {cause : BitFaultCause}
    (hc : (cause = .startBit x ∧ state = .arbitrating ∧ x ≠ .dominant) ∨
      (cause = .differs x ∧ (state = .sending ∨ (state = .arbitrating ∧ x ≠ .dominant))) ∨
      (cause = .heldRun x ∧ (state = .sending ∨ state = .arbitrating))) :
    bitFaultIn state cause = true := by
  rcases hc with ⟨rfl, hs, hd⟩ | ⟨rfl, hs⟩ | ⟨rfl, hs⟩
  · simp [bitFaultIn, hx, hs, hd]
  · rcases hs with hs | ⟨hs, hd⟩
    · simp [bitFaultIn, hx, hs]
    · simp [bitFaultIn, hx, hs, hd]
  · simp [bitFaultIn, hx, hs]

end

/-! ## The obligations -/

/-- Settles O34: either row is a failed attempt behind the symbol of its fault, which is one of three
cases. -/
theorem failedAttempts : Obligations.FailedAttempts := by
  unfold Obligations.FailedAttempts
  intro s a c x counter tlc ha hx hc waits
  have hfails : tlc.generator = s.tlc.generator ∧ exec c s = .next ((s.endAttempt counter tlc).failAttempt a) := by
    rcases hc with ⟨cause, rfl, rfl, hcause, rfl⟩ | ⟨rfl, rfl, hs, hd, rfl⟩
    · refine ⟨rfl, ?_⟩
      rw [State.next_bitFault ha (bitFaultIn_of_cause hx hcause),
        Tlc.startReading_readBitFault hx (hcause.imp And.left (Or.imp And.left And.left))]
    · refine ⟨rfl, ?_⟩
      rw [State.next_acknowledgeFailure ha hs hd hx, Tlc.read_eq]
      simp [Tlc.noRun, hx, idleLimit]
  obtain ⟨hgen, hexec⟩ := hfails
  have hwaits (n : Nat) : (s.endAttempt counter tlc).tlc.startBackoff n = waits n :=
    congrArg (fun g => { tlc with generator := advanceGenerator g, wait := drawBackoff g n * 32 }) hgen
  refine ⟨fun m hm => ⟨fun hf => ?_, fun hf => ⟨fun hn => ?_, fun cfg hrun => ?_⟩⟩, fun hnone => ?_⟩
  · rw [hexec, State.failAttempt_kept (s := s.endAttempt counter tlc) hm hf, hwaits]
    rfl
  · rw [hexec, State.failAttempt_dropped (s := s.endAttempt counter tlc) hm hf]
    exact congrArg Host.Outcome.next (State.whenRun_other (by exact hn) _)
  · rw [hexec, State.failAttempt_dropped (s := s.endAttempt counter tlc) hm hf]
    exact congrArg Host.Outcome.next (State.whenRun_inRun (by exact ⟨hrun.node, hrun.config⟩) _)
  · rw [hexec, State.failAttempt_removed (s := s.endAttempt counter tlc) hnone, hwaits]
    rfl

/-- Settles O33: by the message in hand, which is gone, or replaced, or leaves its queue with its owner told. -/
theorem deliveredMessages : Obligations.DeliveredMessages := by
  unfold Obligations.DeliveredMessages
  intro s a hs ha ended
  refine ⟨fun hnone => ?_, fun m hm hr => ?_, fun m hm hr => ⟨fun hn => ?_, fun cfg hrun => ?_⟩⟩
  · rw [State.next_delivered_gone hs ha hnone]
    rfl
  · rw [State.next_delivered_replaced hs ha hm hr, State.onTqu_changeInHand (s := s.endAttempt .sent _) hm]
    rfl
  · rw [State.next_delivered hs ha hm hr, State.onTqu_removeInHand (s := s.endAttempt .sent _) hm]
    exact congrArg Host.Outcome.next (State.whenRun_other (by exact hn) _)
  · rw [State.next_delivered hs ha hm hr, State.onTqu_removeInHand (s := s.endAttempt .sent _) hm]
    exact congrArg Host.Outcome.next (State.whenRun_inRun (by exact ⟨hrun.node, hrun.config⟩) _)

end Sys2Proof.Machine
end

section
/-!
# A frame read (O38)

The row is the end of the CRC field (`State.crcRead`) and then what the check finds: a length out of range, a CRC fault, or a
sound frame, which goes to TQU in RUN where it concerns the node (`concernsNode_iff`). TQU's decision of R157 is one equation
for each line of its table.
-/

namespace Sys2Proof.Machine

/-! ## A frame that concerns this node (R139) -/

theorem concernsNode_iff {own : Node} {arbitration : BitVec 13} {destination : Node} :
    concernsNode own arbitration destination = true ↔
      (destination = own ∨ destination = 255) ∧ arbitrationSender arbitration ≠ own ∧ arbitrationSender arbitration ≠ 0 ∧
        arbitrationSender arbitration ≠ 255 ∧ arbitrationKind arbitration ≤ 5 := by
  simp [concernsNode, broadcast, and_assoc]

/-! ## Placement at TQU (R157, R158, R160, R161) -/

theorem Placed.isAddressedClaim_iff {own : Node} {p : Placed} :
    p.isAddressedClaim own = true ↔ p.kind = 3 ∧ p.destination = own := by
  simp [isAddressedClaim]

namespace Tqu

section
variable {cfg : Settings} {t : Tqu}

theorem handoverRoom_iff : t.handoverRoom = true ↔ t.handover.length + t.reservations < 6 := decide_eq_true_iff

theorem canPlace_iff {own : Node} {p : Placed} :
    t.canPlace own p = true ↔
      t.pool.length < 16 ∧ (p.kind = 3 → p.destination = own → t.handover.length + t.reservations < 6) := by
  have hroom : (!p.isAddressedClaim own || t.handoverRoom) = true ↔
      (p.kind = 3 → p.destination = own → t.handover.length + t.reservations < 6) := by
    rw [← and_imp, ← Placed.isAddressedClaim_iff]
    cases p.isAddressedClaim own <;> simp [handoverRoom_iff]
  rw [canPlace, Bool.and_eq_true, hroom, decide_eq_true_iff, freeCount, Nat.sub_pos_iff_lt]
  rfl

theorem setHold_at {n : Node} {i : Nat} (h : cfg.neighbours.findIdx? (fun x => x.node = n) = some i) (time : Nat) :
    t.setHold cfg n time = { t with neighbourHolds := t.neighbourHolds.set i time } := by
  unfold setHold
  rw [h]

theorem holdOnset_idle (h : cfg.holdThreshold < t.freeCount ∨ t.ownHold ≠ 0) : t.holdOnset cfg = t :=
  if_neg fun ⟨hfree, hown⟩ => h.elim hfree.not_gt (absurd hown)

theorem holdOnset_due (hfree : t.freeCount ≤ cfg.holdThreshold) (hown : t.ownHold = 0) :
    t.holdOnset cfg = { t.queueHold cfg.holdQuanta with ownHold := cfg.holdQuanta } :=
  if_pos ⟨hfree, hown⟩

/-- A message in the pool, with the reply place of an addressed CLAIM (R156, R158). -/
def taken (own : Node) (p : Placed) (t : Tqu) : Tqu :=
  { t with
    pool := t.pool ++ [p]
    reservations := if p.kind = 3 ∧ p.destination = own then t.reservations + 1 else t.reservations }

theorem place_eq (cfg : Settings) (p : Placed) (t : Tqu) : t.place cfg p = (t.taken cfg.node p).holdOnset cfg := by
  simp only [place, taken, Placed.isAddressedClaim_iff]

theorem freeCount_taken (own : Node) (p : Placed) (t : Tqu) : (t.taken own p).freeCount = 16 - (t.pool.length + 1) := by
  rw [freeCount, taken, List.length_append]
  rfl

theorem place_quiet {p : Placed} (h : cfg.holdThreshold < 16 - (t.pool.length + 1) ∨ t.ownHold ≠ 0) :
    t.place cfg p = t.taken cfg.node p := by
  rw [place_eq, holdOnset_idle (by rwa [freeCount_taken])]

theorem place_congested {p : Placed} (h : 16 - (t.pool.length + 1) ≤ cfg.holdThreshold) (hown : t.ownHold = 0) :
    t.place cfg p = { (t.taken cfg.node p).queueHold cfg.holdQuanta with ownHold := cfg.holdQuanta } := by
  rw [place_eq, holdOnset_due (t := t.taken cfg.node p) (by rwa [freeCount_taken]) hown]

end
end Tqu

theorem Settings.isNeighbour_of_findIdx? {cfg : Settings} {n : Node} {i : Nat}
    (h : cfg.neighbours.findIdx? (fun x => x.node = n) = some i) : cfg.isNeighbour n = true := by
  obtain ⟨hi, hnode, -⟩ := List.findIdx?_eq_some_iff_getElem.mp h
  exact State.isNeighbour_iff.mpr ⟨_, List.getElem_mem hi, of_decide_eq_true hnode⟩

theorem Settings.not_isNeighbour {cfg : Settings} {n : Node} (h : ∀ i ∈ cfg.neighbours, i.node ≠ n) :
    ¬cfg.isNeighbour n = true := fun hn =>
  let ⟨i, hi, hnode⟩ := State.isNeighbour_iff.mp hn
  h i hi hnode

theorem readHold_of_length {payload : List Byte} (h : payload.length ≠ 1) : readHold payload = none := by
  cases payload with
  | nil => rfl
  | cons a as =>
    cases as with
    | nil => exact absurd rfl h
    | cons b bs => rfl

namespace State

section
variable {cfg : Settings} {s : State} {p : Placed}

theorem offerFrame_hold {time : Byte} {i : Nat} (hk : p.kind = 0) (hp : p.payload = [time])
    (hi : cfg.neighbours.findIdx? (fun x => x.node = p.sender) = some i) :
    s.offerFrame cfg p =
      { s with
        tqu := { s.tqu with neighbourHolds := s.tqu.neighbourHolds.set i (min 64 time.toNat) }
        tlc := s.tlc.acknowledge } := by
  unfold offerFrame
  rw [if_pos hk, hp]
  exact (if_pos (Settings.isNeighbour_of_findIdx? hi)).trans
    (congrArg (fun t => { s with tqu := t, tlc := s.tlc.acknowledge }) (Tqu.setHold_at hi _))

theorem offerFrame_hold_length (hk : p.kind = 0) (hp : p.payload.length ≠ 1) : s.offerFrame cfg p = s := by
  unfold offerFrame
  rw [if_pos hk, readHold_of_length hp]

/-- A HOLD or STANDING from no neighbour is not accepted (R157). -/
theorem offerFrame_stranger (hk : p.kind = 0 ∨ p.kind = 5) (hn : ∀ i ∈ cfg.neighbours, i.node ≠ p.sender) :
    s.offerFrame cfg p = s := by
  have hno := Settings.not_isNeighbour hn
  unfold offerFrame
  rcases hk with hk | hk
  · rw [if_pos hk]
    split
    · exact if_neg hno
    · rfl
  · rw [if_neg (by rw [hk]; decide)]
    exact if_pos ⟨hk, by simpa using hno⟩

/-- Every other message is placed and acknowledged where there is room for it, and an inbound overrun otherwise (R157). -/
theorem offerFrame_message (h1 : 1 ≤ p.kind) (hn : p.kind = 5 → ∃ i ∈ cfg.neighbours, i.node = p.sender) :
    s.offerFrame cfg p =
      if s.tqu.canPlace cfg.node p then { s with tqu := s.tqu.place cfg p, tlc := s.tlc.acknowledge }
      else { s with mlc := s.mlc.count .inboundOverruns } := by
  have hknown : ¬(p.kind = 5 ∧ (!cfg.isNeighbour p.sender) = true) := fun ⟨h5, hno⟩ => by
    rw [isNeighbour_iff.mpr (hn h5)] at hno
    cases hno
  unfold offerFrame
  rw [if_neg (Nat.ne_of_gt h1), if_neg hknown]
  rfl

theorem offerFrame_placed (h1 : 1 ≤ p.kind) (hn : p.kind = 5 → ∃ i ∈ cfg.neighbours, i.node = p.sender)
    (hpool : s.tqu.pool.length < 16)
    (hclaim : p.kind = 3 → p.destination = cfg.node → s.tqu.handover.length + s.tqu.reservations < 6) :
    s.offerFrame cfg p = { s with tqu := s.tqu.place cfg p, tlc := s.tlc.acknowledge } := by
  rw [offerFrame_message h1 hn, if_pos (Tqu.canPlace_iff.mpr ⟨hpool, hclaim⟩)]

theorem offerFrame_overrun (h1 : 1 ≤ p.kind) (hn : p.kind = 5 → ∃ i ∈ cfg.neighbours, i.node = p.sender)
    (hfull : 16 ≤ s.tqu.pool.length ∨
      (p.kind = 3 ∧ p.destination = cfg.node ∧ 6 ≤ s.tqu.handover.length + s.tqu.reservations)) :
    s.offerFrame cfg p = { s with mlc := s.mlc.count .inboundOverruns } := by
  have hno : ¬s.tqu.canPlace cfg.node p = true := fun hroom => by
    obtain ⟨hpool, hclaim⟩ := Tqu.canPlace_iff.mp hroom
    rcases hfull with hp | ⟨hk, hd, hh⟩
    · exact hp.not_gt hpool
    · exact hh.not_gt (hclaim hk hd)
  rw [offerFrame_message h1 hn, if_neg hno]

/-! ## The end of the CRC field (R137, R138) -/

/-- The frame read as far as the end of its CRC field, `bits` bit times on. -/
def crcRead (bits : Nat) (r : Reading) (s : State) : State :=
  s.onTlc fun t => { (t.elapse bits).noRun with reading := some { r with crcRead := true } }

/-- In a frame being read no idle run stands, so its timing is lost to WAIT_IDLE (R134, R137). -/
theorem loseTiming_crcRead (bits : Nat) (r : Reading) (s : State) :
    (s.crcRead bits r).tlc.loseTiming = { (s.crcRead bits r).tlc with state := .waitIdle, reading := none } :=
  if_neg (show (0 : Nat) ≠ idleLimit by decide)

section
variable {bits : Nat} {arbitration : BitVec 13} {destination : Node} {payload : List Byte} {crc : Byte} {r : Reading}

/-- FRAME_RECEIVED by what the checks find (R137, R138, R139). -/
theorem next_frameReceived (hs : s.tlc.state = .receiving) (hr : s.tlc.reading = some r) (hc : r.crcRead = false) :
    exec (.frameReceived bits arbitration destination payload crc) s =
      .next (if 48 < payload.length then (s.crcRead bits r).framingFault
        else if crc ≠ frameCrc arbitration destination payload then (s.crcRead bits r).crcFault arbitration
        else if r.follows then s.crcRead bits r
        else (s.crcRead bits r).whenRun fun cfg s =>
          if concernsNode cfg.node arbitration destination then
            s.offerFrame cfg (placedMessage arbitration destination payload)
          else s) := by
  refine congrArg Host.Outcome.next ?_
  simp only [hs, hr, hc]
  rfl

/-- A sound frame in RUN that is not followed after an own bit fault goes to TQU where it concerns the node (R139, R157). -/
theorem next_frameReceived_run (hs : s.tlc.state = .receiving) (hr : s.tlc.reading = some r) (hc : r.crcRead = false)
    (hlen : payload.length ≤ 48) (hcrc : crc = frameCrc arbitration destination payload) (hf : r.follows = false)
    (hrun : s.InRun cfg) :
    exec (.frameReceived bits arbitration destination payload crc) s =
      .next (if concernsNode cfg.node arbitration destination then
          (s.crcRead bits r).offerFrame cfg (placedMessage arbitration destination payload)
        else s.crcRead bits r) := by
  rw [next_frameReceived hs hr hc, if_neg hlen.not_gt, if_neg (not_not.mpr hcrc), hf]
  exact congrArg Host.Outcome.next (whenRun_inRun (by exact ⟨hrun.node, hrun.config⟩) _)

end
end

end State

theorem State.crcFault_of_trap {s : State} {o : Option Trap} (h : s.tlc.trap = o) (arbitration : BitVec 13) :
    s.crcFault arbitration =
      { s with tlc := { s.tlc with trap := trapAfter arbitration o }, mlc := s.mlc.count .crcFaults } := by
  subst h
  rfl

/-- Settles O38: the checks in order, and behind them TQU's decision line by line. -/
theorem framesReceived : Obligations.FramesReceived := by
  unfold Obligations.FramesReceived
  intro s bits arbitration destination payload crc r hs hr hc run tlc driven sound kind sender placed
  refine ⟨fun hlong => ?_, fun hlen hcrc => ⟨fun htrap => ?_, fun x htrap => ?_⟩, fun ⟨hlen, hcrc⟩ hnot => ?_,
    fun cfg ⟨hlen, hcrc⟩ hrun hf => ⟨fun hno => ?_, fun hdest hown h0 h255 => ?_⟩⟩
  · show exec _ _ = _
    rw [State.next_frameReceived hs hr hc, if_pos hlong, State.framingFault]
    exact congrArg (fun t => Host.Outcome.next { s with tlc := t, mlc := s.mlc.count .framingFaults })
      (State.loseTiming_crcRead bits r s)
  · show exec _ _ = _
    rw [State.next_frameReceived hs hr hc, if_neg hlen.not_gt, if_pos hcrc,
      State.crcFault_of_trap (s := s.crcRead bits r) htrap]
    rfl
  · show exec _ _ = _
    rw [State.next_frameReceived hs hr hc, if_neg hlen.not_gt, if_pos hcrc,
      State.crcFault_of_trap (s := s.crcRead bits r) htrap]
    rfl
  · show exec _ _ = _
    rw [State.next_frameReceived hs hr hc, if_neg hlen.not_gt, if_neg (not_not.mpr hcrc)]
    cases hf : r.follows with
    | true => rfl
    | false =>
      have hn := hnot.resolve_right (by simp [hf])
      exact congrArg Host.Outcome.next (State.whenRun_other (s := s.crcRead bits r) hn _)
  · have hignored : ¬concernsNode cfg.node arbitration destination = true := fun hyes => by
      obtain ⟨hdest, hown, h0, h255, hkind⟩ := concernsNode_iff.mp hyes
      rcases hno with ⟨hd, hb⟩ | ho | ho | ho | ho
      · exact hdest.elim hd hb
      · exact hown ho
      · exact h0 ho
      · exact h255 ho
      · exact hkind.not_gt ho
    show exec _ _ = _
    rw [State.next_frameReceived_run hs hr hc hlen hcrc hf hrun, if_neg hignored]
    rfl
  · have hoffered (hkind : kind ≤ 5) : exec (.frameReceived bits arbitration destination payload crc) s =
        .next ((s.crcRead bits r).offerFrame cfg placed) := by
      rw [State.next_frameReceived_run hs hr hc hlen hcrc hf hrun,
        if_pos (concernsNode_iff.mpr ⟨hdest, hown, h0, h255, hkind⟩)]
      rfl
    refine ⟨fun hk hn => ?_, fun hk hp => ?_, fun time i hk hp hi => ?_,
      fun h1 hkind hn => ⟨fun hpool hclaim => ?_, fun hfull => ?_⟩⟩
    · have hkind : kind ≤ 5 := by omega
      exact (hoffered hkind).trans (congrArg Host.Outcome.next (State.offerFrame_stranger hk hn))
    · exact (hoffered (by omega)).trans (congrArg Host.Outcome.next (State.offerFrame_hold_length hk hp))
    · exact (hoffered (by omega)).trans (congrArg Host.Outcome.next (State.offerFrame_hold hk hp hi))
    · have hplaced := (hoffered hkind).trans (congrArg Host.Outcome.next (State.offerFrame_placed h1 hn hpool hclaim))
      refine ⟨fun hquiet => ?_, fun hfree hhold => ⟨fun hflow => ?_, fun x xs hflow => ?_⟩⟩
      · show exec _ _ = _
        rw [hplaced, Tqu.place_quiet (t := (s.crcRead bits r).tqu) hquiet]
        rfl
      · show exec _ _ = _
        rw [hplaced, Tqu.place_congested (t := (s.crcRead bits r).tqu) hfree hhold,
          Tqu.queueHold_nil (t := Tqu.taken cfg.node placed (s.crcRead bits r).tqu) hflow]
        rfl
      · show exec _ _ = _
        rw [hplaced, Tqu.place_congested (t := (s.crcRead bits r).tqu) hfree hhold,
          Tqu.queueHold_cons (t := Tqu.taken cfg.node placed (s.crcRead bits r).tqu) hflow]
        rfl
    · exact (hoffered hkind).trans (congrArg Host.Outcome.next (State.offerFrame_overrun h1 hn hfull))

end Sys2Proof.Machine
end

section
/-!
# The check sequences and the backoff generator (O52, O40)

A check sequence fed its own register reads, bit by bit, the bit that it shifts out, so it ends at 0 (`foldl_bitsMsb`). The
backoff generator is a shift of its register with a combination of it in the lowest place, from which every bit of the
register can be read back.
-/

namespace Sys2Proof.Machine

/-! ## A register fed its own bits (R133, R163) -/

/-- A register that only shifts where it is fed its highest bit is empty after all of its own bits. -/
theorem foldl_bitsMsb {w : Nat} {step : BitVec w → Bool → BitVec w} (hstep : ∀ r, step r r.msb = r <<< 1) (r : BitVec w) :
    (bitsMsb r).foldl step r = 0 := by
  have hshift : ∀ n ≤ w, ((List.range n).map fun i => r.getLsbD (w - 1 - i)).foldl step r = r <<< n := by
    intro n hn
    induction n with
    | zero => simp
    | succ n ih =>
      have hmsb : r.getLsbD (w - 1 - n) = (r <<< n).msb := by
        rw [BitVec.msb_eq_getLsbD_last, BitVec.getLsbD_shiftLeft]
        simp [show ¬w - 1 < n by omega, show w - 1 < w by omega]
      rw [List.range_succ, List.map_append, List.foldl_append, ih (Nat.le_of_succ_le hn)]
      rw [List.map_singleton, List.foldl_cons, List.foldl_nil, hmsb, hstep, ← BitVec.shiftLeft_add]
  exact (hshift w le_rfl).trans (BitVec.shiftLeft_eq_zero le_rfl)

theorem crc8Bit_msb (r : Byte) : crc8Bit r r.msb = r <<< 1 := by simp [crc8Bit]

theorem crc16Bit_msb (r : BitVec 16) : crc16Bit r r.msb = r <<< 1 := by simp [crc16Bit]

theorem crc8_append_crc8 (bits : List Bool) : crc8 (bits ++ bitsMsb (crc8 bits)) = 0 := by
  rw [crc8, List.foldl_append]
  exact foldl_bitsMsb crc8Bit_msb _

/-- The bits of a word are those of its two bytes, the high one first (R183). -/
theorem bytesBits_word16Bytes (w : BitVec 16) : bytesBits (word16Bytes w) = bitsMsb w := by
  simp [bytesBits, word16Bytes, bitsMsb, List.range_succ, BitVec.getLsbD_extractLsb']

theorem crc16_append_crc16 (bytes : List Byte) : crc16 (bytes ++ word16Bytes (crc16 bytes)) = 0 := by
  rw [crc16, bytesBits, List.flatMap_append, List.foldl_append, ← bytesBits, ← bytesBits, bytesBits_word16Bytes]
  exact foldl_bitsMsb crc16Bit_msb _

/-! ## A record built and checked (R163) -/

theorem checkRecord_sound {kind lenHi lenLo hi lo : Byte} {body : List Byte}
    (h : crc16 (kind :: lenHi :: lenLo :: body) = hi ++ lo) (hlen : (word16 lenHi lenLo).toNat = body.length) :
    checkRecord kind body.length (kind :: lenHi :: lenLo :: body ++ [hi, lo]) = .sound body := by
  obtain ⟨htake, hdrop⟩ := split_crc (kind :: lenHi :: lenLo :: body) hi lo
  unfold checkRecord
  rw [htake, hdrop]
  exact (if_pos h).trans (if_pos ⟨rfl, hlen, rfl⟩)

theorem checkRecord_matrixRecord {kind : Byte} {body : List Byte} (h : body.length ≤ 65535) :
    checkRecord kind body.length (matrixRecord kind body) = .sound body := by
  refine checkRecord_sound (word16_extract _).symm ?_
  rw [word16_extract, BitVec.toNat_ofNat]
  exact Nat.mod_eq_of_lt (Nat.lt_succ_of_le h)

theorem checkRecord_other_kind {kind other : Byte} (h : other ≠ kind) (need : Nat) (body : List Byte) :
    checkRecord other need (matrixRecord kind body) = .discarded := by
  refine checkRecord_discarded (word16_extract _).symm ?_
  rintro ⟨_, hcovered, -⟩
  exact h (List.cons.inj hcovered).1.symm

/-- Settles O52: a register fed its own bits is empty, and a record built is the one that the check takes apart. -/
theorem checksAcceptWhatIsSent : Obligations.ChecksAcceptWhatIsSent := by
  unfold Obligations.ChecksAcceptWhatIsSent
  exact ⟨crc8_append_crc8, crc16_append_crc16, fun kind body h =>
    ⟨checkRecord_matrixRecord h, fun other need hne => checkRecord_other_kind hne need body⟩⟩

/-! ## The backoff generator (R143) -/

theorem getLsbD_advanceGenerator_succ (g : BitVec 16) {i : Nat} (h : i < 15) :
    (advanceGenerator g).getLsbD (i + 1) = g.getLsbD i := by
  simp [advanceGenerator, BitVec.getLsbD_setWidth]
  omega

theorem getLsbD_advanceGenerator_zero (g : BitVec 16) :
    (advanceGenerator g).getLsbD 0 = (g.getLsbD 15 ^^ g.getLsbD 13 ^^ g.getLsbD 12 ^^ g.getLsbD 10) := by
  simp [advanceGenerator, BitVec.getLsbD_setWidth, -BitVec.getLsbD_eq_getElem]

/-- Every bit but the highest is read one place higher after the advance, and the highest from the combination. -/
theorem advanceGenerator_injective : Function.Injective advanceGenerator := by
  intro g h heq
  have low : ∀ i, i < 15 → g.getLsbD i = h.getLsbD i := fun i hi => by
    rw [← getLsbD_advanceGenerator_succ g hi, heq, getLsbD_advanceGenerator_succ h hi]
  have high : g.getLsbD 15 = h.getLsbD 15 := by
    have hzero := getLsbD_advanceGenerator_zero g
    rw [heq, getLsbD_advanceGenerator_zero, low 13 (by decide), low 12 (by decide), low 10 (by decide)] at hzero
    simpa only [Bool.xor_left_inj] using hzero.symm
  refine BitVec.eq_of_getLsbD_eq fun i hi => ?_
  rcases Nat.lt_succ_iff_lt_or_eq.mp hi with hi | rfl
  · exact low i hi
  · exact high

/-- Settles O40: the bits of an advance, and the draw as a remainder by a power of 2 of at most 32. -/
theorem backoffGenerator : Obligations.BackoffGenerator := by
  unfold Obligations.BackoffGenerator
  refine fun g => ⟨fun i hi => getLsbD_advanceGenerator_succ g hi, getLsbD_advanceGenerator_zero g, advanceGenerator_ne,
    fun h heq => advanceGenerator_injective heq, Tlc.seed_ne, fun n t ht => ⟨congrArg advanceGenerator ht, ?_⟩⟩
  refine ⟨drawBackoff t.generator n, Nat.mod_lt _ (Nat.two_pow_pos _), rfl, ?_⟩
  have hdraw := drawBackoff_lt t.generator n
  show drawBackoff t.generator n * 32 ≤ 992
  omega

end Sys2Proof.Machine
end

section
/-!
# A cold reset (O4)
-/

namespace Sys2Proof.Machine

/-- Settles O4: the two rows are one reset, whose blocks are written out, and the third acts in STANDBY alone. -/
theorem coldReset : Obligations.ColdReset := by
  unfold Obligations.ColdReset
  refine ⟨fun c s hc => ?_, fun s hn => ?_, fun s hn => ?_⟩
  · rcases hc with rfl | rfl <;> rfl
  · refine congrArg Host.Outcome.next ?_
    simp only [hn]
    rfl
  · refine congrArg Host.Outcome.next ?_
    cases hs : s.cfl.node with
    | standby => exact absurd hs hn
    | _ => rfl

end Sys2Proof.Machine
end

section
/-!
# Symbols outside and inside a frame, and the frames they begin (O37, O32)

`State.hear` by the state of TLC: a symbol that only moves the runs (`Tlc.Moves`), one that ends or shortens a wait in BACKOFF,
one that leads on. Outside JOINING no report to CFL has an effect, so a run of IDLE is one change of TLC.
-/

namespace Sys2Proof.Machine

/-! ## TLC between frames (R134, R143) -/

namespace Tlc

/-- The states and symbols in which a symbol does no more than move the runs and count a wait down (R131, R134, R135). -/
def Moves (x : LineSymbol) (t : Tlc) : Prop :=
  t.state = .arbitrating ∨ t.state = .sending ∨ t.state = .receiving ∨ (t.state = .idle ∧ x ≠ .dominant) ∨
    (t.state = .waitIdle ∧ (x = .dominant → t.idleRun < 3) ∧ (x = .idle → t.idleRun < 10))

/-- The runs and the wait after `n` IDLE in a state that they do not lead from; none changes nothing. -/
def waited (n : Nat) (t : Tlc) : Tlc :=
  { t with
    wait := t.wait - n, idleRun := if n = 0 then t.idleRun else min 11 (t.idleRun + n)
    heldRun := if n = 0 then t.heldRun else 0 }

theorem waited_of_pos {n : Nat} (h : 1 ≤ n) (t : Tlc) : t.waited n = t.quiet n := by
  simp only [waited, if_neg (Nat.ne_of_gt h)]
  rfl

theorem waited_quiet (n : Nat) (t : Tlc) : (t.waited n).quiet 1 = t.waited (n + 1) := by
  rw [waited_of_pos (Nat.succ_pos n)]
  rcases Nat.eq_zero_or_pos n with rfl | hn
  · rfl
  · rw [waited_of_pos hn, quiet_quiet]

theorem rest_of_elapsed {t : Tlc} {w n : Nat} (h : t.wait = w - n) :
    t.rest = { t with reading := none, state := if w ≤ n then .idle else .backoff } := by
  simp only [rest, restState, h, Nat.sub_eq_zero_iff_le]

/-- TLC as its own or another node's frame is over, both runs 0 (R131, R140, R142). -/
theorem rest_noRun_elapse (n : Nat) (t : Tlc) :
    (t.elapse n).noRun.rest =
      { t with
        wait := t.wait - n, idleRun := 0, heldRun := 0, reading := none
        state := if t.wait ≤ n then .idle else .backoff } :=
  rest_of_elapsed rfl

theorem rest_quiet (n : Nat) (t : Tlc) :
    (t.quiet n).rest =
      { t with
        wait := t.wait - n, idleRun := min 11 (t.idleRun + n), heldRun := 0, reading := none
        state := if t.wait ≤ n then .idle else .backoff } :=
  rest_of_elapsed rfl

end Tlc

namespace State

section
variable {s : State} {x : LineSymbol} {n : Nat}

/-! ## One symbol (R131, R134, R135, R143) -/

theorem reportEntry_of_node (h : s.cfl.node ≠ .joining) : s.reportEntry = s := by
  have htrunk : s.reportTrunk = s := by
    unfold reportTrunk
    cases hn : s.cfl.node with
    | joining => exact absurd hn h
    | _ => rfl
  unfold reportEntry
  split
  · exact htrunk
  · exact htrunk
  all_goals rfl

theorem stickIfHeld_of_lt (h : s.tlc.heldRun < 64) : s.stickIfHeld = s := if_neg h.ne

/-- The held run after a symbol is short of 64 where only a HELD at 63 could have made it so. -/
theorem heldRun_read_lt (h : x = .held → s.tlc.heldRun < 63) : ((s.tlc.elapse 1).read x).heldRun < 64 := by
  rw [Tlc.read_eq]
  dsimp only
  split
  · next hx => exact lt_of_le_of_lt (min_le_right _ _) (Nat.succ_lt_succ (h hx))
  · decide

theorem hear_off (h : s.tlc.state = .off) : s.hear x = s := by
  unfold hear
  simp only [h]

/-- A symbol that only moves the runs has the effect of a held run that it ends at 64, and no other (R131, R144). -/
theorem hear_moves (h : s.tlc.Moves x) : s.hear x = (s.onTlc fun t => (t.elapse 1).read x).stickIfHeld := by
  unfold hear
  rcases h with h | h | h | ⟨h, hx⟩ | ⟨h, hd, hi⟩
  · simp only [h]
  · simp only [h]
  · simp only [h]
  · simp only [h, hx, if_false]
  · have hstart : ¬(x = .dominant ∧ gapLength ≤ s.tlc.idleRun) := fun ⟨hx, hgap⟩ => (hd hx).not_ge hgap
    have hrun : ((s.tlc.elapse 1).read x).idleRun ≠ idleLimit := by
      rw [Tlc.read_eq]
      dsimp only
      split
      · next hx => exact fun heq => absurd (min_eq_left_iff.mp heq) (Nat.not_le.mpr (Nat.succ_lt_succ (hi hx)))
      · decide
    simp only [h, hstart, if_false]
    exact if_neg hrun

theorem hear_backoff (h : s.tlc.state = .backoff) (hx : x ≠ .dominant) :
    s.hear x = ((s.onTlc fun t => ((t.elapse 1).read x).rest).reportEntry).stickIfHeld := by
  unfold hear
  simp only [h, hx, if_false]
  rfl

theorem hear_dominant_outside (h : s.tlc.state = .idle ∨ (s.cfl.node ≠ .joining ∧
      (s.tlc.state = .backoff ∨ (s.tlc.state = .waitIdle ∧ 3 ≤ s.tlc.idleRun)))) :
    s.hear .dominant = s.onTlc Tlc.startBit := by
  rcases h with h | ⟨hn, h⟩
  · exact hear_dominant_idle h
  · rw [hear_dominant_waiting h.symm]
    exact (reportEntry_entered (s := s.onTlc Tlc.startBit) (.inr rfl)).symm.trans (reportEntry_of_node hn)

/-! ## Runs of IDLE (R131, R134, R143) -/

theorem hearAll_replicate_succ (n : Nat) (x : LineSymbol) (s : State) :
    s.hearAll (List.replicate (n + 1) x) = (s.hearAll (List.replicate n x)).hear x := by
  rw [List.replicate_succ', hearAll_append]
  rfl

theorem hearAll_idle_idle (h : s.tlc.state = .idle) (n : Nat) :
    s.hearAll (List.replicate n .idle) = s.onTlc (Tlc.waited n) := by
  induction n with
  | zero => rfl
  | succ n ih =>
    rw [hearAll_replicate_succ, ih, hear_idle_idle (s := s.onTlc (Tlc.waited n)) h]
    exact onTlc_congr (f := fun t => (t.waited n).quiet 1) (Tlc.waited_quiet n s.tlc)

/-- A run of IDLE in BACKOFF: the wait passes, and with its end TLC is in IDLE (R143). -/
theorem hearAll_idle_backoff (h : s.tlc.state = .backoff) (hnode : s.cfl.node ≠ .joining) (hn : 1 ≤ n) :
    s.hearAll (List.replicate n .idle) = s.onTlc fun t => (t.quiet n).rest := by
  induction n, hn using Nat.le_induction with
  | base => exact (hear_idle_backoff h).trans (reportEntry_of_node hnode)
  | succ n hn ih =>
    rw [hearAll_replicate_succ, ih]
    rcases Nat.lt_or_ge n s.tlc.wait with hwait | hwait
    · have hstate : (s.tlc.quiet n).rest.state = .backoff :=
        congrArg Tlc.state (Tlc.rest_of_waiting (Nat.sub_ne_zero_of_lt hwait))
      rw [hear_idle_backoff (s := s.onTlc fun t => (t.quiet n).rest) hstate, reportEntry_of_node (by exact hnode)]
      exact onTlc_congr (s := s) (f := fun t => ((t.quiet n).rest.quiet 1).rest) (g := fun t => (t.quiet (n + 1)).rest)
        (Tlc.rest_quiet_rest n 1 s.tlc)
    · have hstate : (s.tlc.quiet n).rest.state = .idle :=
        congrArg Tlc.state (Tlc.rest_of_wait (Nat.sub_eq_zero_of_le hwait))
      rw [hear_idle_idle (s := s.onTlc fun t => (t.quiet n).rest) hstate]
      exact onTlc_congr (s := s) (f := fun t => (t.quiet n).rest.quiet 1) (g := fun t => (t.quiet (n + 1)).rest)
        (Tlc.quiet_rest hwait 1)

theorem hearAll_idle_waitIdle (h : s.tlc.state = .waitIdle) (hnode : s.cfl.node ≠ .joining) (hn : 1 ≤ n)
    (hrun : 11 ≤ s.tlc.idleRun + n) : s.hearAll (List.replicate n .idle) = s.onTlc fun t => (t.quiet n).rest := by
  rw [hearAll_idle h hn, reportEntry_of_node (by exact hnode)]
  exact onTlc_congr (g := fun t => (t.quiet n).rest) (Tlc.settle_long hrun)

/-- A start bit behind a run of IDLE in IDLE or BACKOFF leaves of that run the bit times of the wait alone (R135). -/
theorem hearAll_idle_dominant (h : s.tlc.state = .idle ∨ (s.tlc.state = .backoff ∧ s.cfl.node ≠ .joining)) (n : Nat) :
    s.hearAll (List.replicate n .idle ++ [.dominant]) =
      s.onTlc fun t => Tlc.startBit { t with wait := t.wait - n } := by
  rw [hearAll_append]
  change (s.hearAll (List.replicate n .idle)).hear .dominant = _
  rcases h with h | ⟨h, hnode⟩
  · rw [hearAll_idle_idle h, hear_dominant_outside (s := s.onTlc (Tlc.waited n)) (.inl h)]
    rfl
  · rcases Nat.eq_zero_or_pos n with rfl | hn
    · exact hear_dominant_outside (.inr ⟨hnode, .inl h⟩)
    · have hrest : (s.tlc.quiet n).rest.state = .idle ∨ (s.tlc.quiet n).rest.state = .backoff := by
        rw [Tlc.rest_quiet]
        dsimp only
        split
        · exact .inl rfl
        · exact .inr rfl
      rw [hearAll_idle_backoff h hnode hn, hear_dominant_outside (s := s.onTlc fun t => (t.quiet n).rest)
        (hrest.imp_right fun hb => ⟨hnode, .inl hb⟩)]
      rfl

/-! ## The rows that bring a line of symbols (assumption 5) -/

theorem next_backoffEnd (hoff : s.tlc.state ≠ .off) (hidle : s.tlc.state ≠ .idle) (hstuck : s.tlc.state ≠ .stuck)
    (line : List LineSymbol) : exec (.backoffEnd line) s = .next (s.hearAll line) := by
  refine congrArg Host.Outcome.next ?_
  cases hs : s.tlc.state with
  | off => exact absurd hs hoff
  | idle => exact absurd hs hidle
  | stuck => exact absurd hs hstuck
  | _ => rfl

theorem next_anotherNodesStartBit
    (h : s.tlc.state = .idle ∨ s.tlc.state = .backoff ∨ s.tlc.state = .waitIdle ∨ s.tlc.state = .stuck)
    (line : List LineSymbol) : exec (.anotherNodesStartBit line) s = .next (s.hearAll (line ++ [.dominant])) := by
  refine congrArg Host.Outcome.next ?_
  rcases h with h | h | h | h <;> simp only [h]

theorem next_stuckExit (h : s.tlc.state = .stuck) (line : List LineSymbol) :
    exec (.stuckExit line) s = .next (s.hearAll line) := by
  refine congrArg Host.Outcome.next ?_
  simp only [h]

theorem next_frameEnd (h : s.tlc.state = .receiving ∨ (s.tlc.state = .sending ∧ s.tlc.attempt = none)) (n : Nat) :
    exec (.frameEnd n) s = .next (s.onTlc fun t => (t.elapse n).noRun.rest) := by
  refine congrArg Host.Outcome.next ?_
  rcases h with h | ⟨h, ha⟩
  · simp only [h]
  · simp only [h, ha]

/-! ## The beginning of an attempt (R135, R149) -/

section
variable {cfg : Settings} {line : List LineSymbol}

theorem next_trunkAttemptStart {m : Queued} (hs : s.tlc.state = .idle) (hc : s.cfl.config = some cfg)
    (hfree : (s.hearAll line).tlc.state = .idle ∧ 3 ≤ (s.hearAll line).tlc.idleRun)
    (hm : (s.hearAll line).tqu.select cfg = some m) :
    exec (.trunkAttemptStart line) s = .next
      (((s.hearAll line).onTqu (Tqu.takeInHand cfg m)).onTlc fun t =>
        { t with state := .arbitrating, attempt := some { message := m, frame := buildFrame cfg.node m } }) := by
  refine congrArg Host.Outcome.next ?_
  simp only [hs, hc]
  refine (if_pos hfree).trans ?_
  rw [hm]

theorem next_trunkAttemptStart_heard (hs : s.tlc.state = .idle) (hc : s.cfl.config = some cfg)
    (h : (s.hearAll line).tlc.idleRun < 3 ∨ (s.hearAll line).tqu.select cfg = none) :
    exec (.trunkAttemptStart line) s = .next (s.hearAll line) := by
  refine congrArg Host.Outcome.next ?_
  simp only [hs, hc]
  rcases h with hrun | hm
  · exact if_neg fun ⟨_, hgap⟩ => hrun.not_ge hgap
  · rw [hm]
    exact ite_self _

end
end

end State

theorem Tlc.idleRun_waited {n : Nat} {t : Tlc} : 3 ≤ (t.waited n).idleRun ↔ 3 ≤ t.idleRun + n := by
  rcases Nat.eq_zero_or_pos n with rfl | hn
  · rfl
  · rw [waited_of_pos hn]
    exact le_min_iff.trans (and_iff_right (by decide))

/-! ## The obligations -/

/-- Settles O37: one symbol, the rows of a line, runs of IDLE and the end of a frame, each by its own lemma. -/
theorem framesBeginAndEnd : Obligations.FramesBeginAndEnd := by
  unfold Obligations.FramesBeginAndEnd
  intro s moved rested begun heard
  have hmoved (x : LineSymbol) : (s.tlc.elapse 1).read x = moved x := Tlc.read_eq x _
  have hmoves (x : LineSymbol) (h : s.tlc.Moves x) (hx : x = .held → s.tlc.heldRun < 63) :
      s.hear x = { s with tlc := moved x } := by
    rw [State.hear_moves h, State.stickIfHeld_of_lt (State.heldRun_read_lt hx), ← hmoved]
    rfl
  refine ⟨fun x => ⟨State.hear_off, hmoves x, fun hs hn hd hx => ?_⟩, fun hs hn hrun => ?_, fun hs => ?_, fun line => ?_,
    fun n hs hn h1 => ?_, fun n hs => ?_, fun n hs hn h1 hrun => ?_, fun n => ⟨fun hs => ?_, fun hs ha => ?_⟩⟩
  · rw [State.hear_backoff hs hd, State.reportEntry_of_node (by exact hn),
      State.stickIfHeld_of_lt (by exact State.heldRun_read_lt hx), ← hmoved]
    rfl
  · rw [State.hear_idle_waitIdle hs, State.reportEntry_of_node (by exact hn)]
    exact congrArg (fun t => { s with tlc := t }) (Tlc.settle_long (t := s.tlc) (n := 1) (Nat.succ_le_succ hrun))
  · exact State.hear_dominant_outside hs
  · refine ⟨rfl, fun hs => State.next_waitIdleExit hs line, fun hs => ?_, fun hs => State.next_stuckExit hs line, fun hs => ?_,
      fun hs => ?_, fun h1 h2 h3 => State.next_backoffEnd h1 h2 h3 line,
      fun hs => State.next_anotherNodesStartBit hs line, fun hs => ?_⟩
    · refine congrArg Host.Outcome.next ?_
      split
      · next h => exact absurd h hs
      all_goals rfl
    · refine congrArg Host.Outcome.next ?_
      split
      · next h => exact absurd h hs
      all_goals rfl
    · refine congrArg Host.Outcome.next ?_
      rcases hs with h | h | h <;> simp only [h]
    · refine congrArg Host.Outcome.next ?_
      rcases hs with h | h | h | h <;> simp only [h]
  · rw [State.next_backoffEnd (by simp [hs]) (by simp [hs]) (by simp [hs]), State.hearAll_idle_backoff hs hn h1,
      ← Tlc.rest_quiet]
    rfl
  · rw [State.next_anotherNodesStartBit (hs.imp_right fun h => .inl h.1), State.hearAll_idle_dominant hs]
    rfl
  · have heleven : min 11 (s.tlc.idleRun + n) = 11 := min_eq_left hrun
    rw [State.next_waitIdleExit hs, State.hearAll_idle_waitIdle hs hn h1 hrun, ← heleven, ← Tlc.rest_quiet]
    rfl
  · rw [State.next_frameEnd hs, ← Tlc.rest_noRun_elapse]
    rfl
  · refine congrArg Host.Outcome.next ?_
    split
    · next h => exact absurd h hs
    · next h hnone => exact absurd hnone (ha.resolve_left (not_not.mpr h))
    · rfl

/-- Settles O32: the symbols of the line are one change of TLC, behind which the attempt begins where the line is free. -/
theorem attemptsBegin : Obligations.AttemptsBegin := by
  unfold Obligations.AttemptsBegin
  refine ⟨fun cfg s idle hc => ?_, fun s line hs => ?_, fun s => ⟨fun hs => ⟨?_, fun m hm => ?_⟩, fun hs => ?_⟩⟩
  · intro line waited
    have hheard (hs : s.tlc.state = .idle) : s.hearAll line = s.onTlc (Tlc.waited idle) := State.hearAll_idle_idle hs idle
    refine ⟨fun m hs hfree hm => ?_, fun hs hnot => ?_, fun x hs hx => ?_⟩
    · have hgap := Tlc.idleRun_waited.mpr hfree
      rw [State.next_trunkAttemptStart hs hc (by rw [hheard hs]; exact ⟨hs, hgap⟩)
        (by rw [hheard hs]; exact hm), hheard hs]
      rfl
    · have hnone : (s.hearAll line).tlc.idleRun < 3 ∨ (s.hearAll line).tqu.select cfg = none := by
        rw [hheard hs]
        exact hnot.imp_left fun hrun => Nat.not_le.mp (Tlc.idleRun_waited.not.mpr (Nat.not_le.mpr hrun))
      rw [State.next_trunkAttemptStart_heard hs hc hnone, hheard hs]
      rfl
    · have hother : x ≠ .idle ∧ x ≠ .dominant ∧ x ≠ .held := by rcases hx with rfl | rfl <;> decide
      obtain ⟨hi, hd, hh⟩ := hother
      have hline : s.hearAll (line ++ [x]) =
          { s with tlc := { s.tlc with wait := s.tlc.wait - idle - 1, idleRun := 0, heldRun := 0 } } := by
        rw [State.hearAll_append, hheard hs]
        change (s.onTlc (Tlc.waited idle)).hear x = _
        rw [State.hear_moves (s := s.onTlc (Tlc.waited idle)) (.inr (.inr (.inr (.inl ⟨hs, hd⟩)))),
          State.stickIfHeld_of_lt (by exact State.heldRun_read_lt fun h => absurd h hh)]
        simp only [State.onTlc, Tlc.read_eq, hi, hh, if_false]
        rfl
      rw [State.next_trunkAttemptStart_heard hs hc (.inl (by rw [hline]; exact Nat.zero_lt_succ 2)), hline]
  · refine congrArg Host.Outcome.next ?_
    split
    · next h _ => exact absurd h hs
    · rfl
  · refine congrArg Host.Outcome.next ?_
    simp only [hs]
    rfl
  · refine congrArg Host.Outcome.next ?_
    simp only [hs]
    rw [State.onTqu_changeInHand (s := s.count .arbitrationLosses) hm]
    rfl
  · constructor
    · refine congrArg Host.Outcome.next ?_
      split
      · next h => exact absurd h hs
      · rfl
    · refine congrArg Host.Outcome.next ?_
      split
      · next h => exact absurd h hs
      · rfl

end Sys2Proof.Machine
end

section
/-!
# Faults of the line (O39)

A framing fault is the symbol at which it is found and the loss of the frame's timing, one change of TLC
(`Tlc.loseTiming_readFault`). A run of HELD ends in the same state wherever it reaches 64 (`State.hearAll_held_stuck`), and a
run of IDLE in STUCK is one change of TLC with at most one report to CFL (`State.hearAll_idle_stuck`).
-/

namespace Sys2Proof.Machine

/-! ## A framing fault (R131, R134, R137) -/

/-- The idle run after the symbol at which a framing fault is found: an IDLE that follows the last trunk event's own symbol
goes on with its run, one behind bits of the frame or a run of HELD begins one (R131). -/
def Tlc.faultRun (bits : Nat) (cause : FramingCause) (t : Tlc) : Nat :=
  if cause = .stoppedShort ∨ cause = .frameEndNotSeen true ∨ cause = .heldRun .idle then
    if bits ≤ 1 ∧ cause ≠ .heldRun .idle then min 11 (t.idleRun + 1) else 1
  else 0

namespace Tlc

/-- The symbol of a fault that is not HELD: only an IDLE leaves a run, one begun by it or one that it goes on with (R131). -/
theorem readFault_eq {x : LineSymbol} (hx : x ≠ .held) (bits : Nat) (held : Bool) (t : Tlc) :
    t.readFault bits held x =
      { t with
        wait := t.wait - bits, heldRun := 0
        idleRun := if x = .idle then (if bits ≤ 1 ∧ held = false then min 11 (t.idleRun + 1) else 1) else 0 } := by
  unfold readFault
  by_cases hfresh : bits ≤ 1 ∧ held = false
  · have hbehind : ¬(held || decide (1 < bits)) = true := by simp [hfresh]
    rw [if_neg hbehind, read_eq]
    simp [hx, hfresh, elapse, idleLimit]
  · have hbehind : (held || decide (1 < bits)) = true := by
      rw [Bool.or_eq_true, decide_eq_true_iff]
      by_contra hnot
      obtain ⟨hheld, hbits⟩ := not_or.mp hnot
      exact hfresh ⟨Nat.not_lt.mp hbits, eq_false_of_ne_true hheld⟩
    rw [if_pos hbehind, read_eq]
    simp [hx, hfresh, elapse, noRun, idleLimit]

theorem faultSymbol_ne_held {cause : FramingCause} (h : cause ≠ .heldRun .held) : faultSymbol cause ≠ .held := by
  cases cause with
  | heldRun ended => exact fun he => h (congrArg _ he)
  | frameEndNotSeen idle => cases idle <;> decide
  | _ => decide

theorem faultSymbol_eq_idle {cause : FramingCause} :
    faultSymbol cause = .idle ↔ cause = .stoppedShort ∨ cause = .frameEndNotSeen true ∨ cause = .heldRun .idle := by
  cases cause with
  | frameEndNotSeen idle => cases idle <;> simp [faultSymbol]
  | _ => simp [faultSymbol]

theorem readFault_runs {cause : FramingCause} (h : cause ≠ .heldRun .held) (bits : Nat) (t : Tlc) :
    t.readFault bits (framingAfterHeld cause) (faultSymbol cause) =
      { t with wait := t.wait - bits, idleRun := t.faultRun bits cause, heldRun := 0 } := by
  have hrun : (if faultSymbol cause = .idle then
      (if bits ≤ 1 ∧ framingAfterHeld cause = false then min 11 (t.idleRun + 1) else 1) else 0) = t.faultRun bits cause := by
    unfold faultRun
    refine ite_congr (propext faultSymbol_eq_idle) (fun hidle => ?_) fun _ => rfl
    rcases hidle with rfl | rfl | rfl <;> simp [framingAfterHeld]
  rw [readFault_eq (faultSymbol_ne_held h), hrun]

/-- A fault takes TLC to WAIT_IDLE, or between frames where the idle run stands at 11 by then (R134, R137; assumption 31). -/
theorem loseTiming_readFault {cause : FramingCause} (h : cause ≠ .heldRun .held) (bits : Nat) (t : Tlc) :
    (t.readFault bits (framingAfterHeld cause) (faultSymbol cause)).loseTiming =
      { t with
        state := if t.faultRun bits cause = 11 then (if t.wait ≤ bits then .idle else .backoff) else .waitIdle
        reading := none, heldRun := 0, wait := t.wait - bits, idleRun := t.faultRun bits cause } := by
  rw [readFault_runs h]
  unfold loseTiming
  by_cases hrun : t.faultRun bits cause = 11
  · rw [if_pos hrun]
    refine (if_pos hrun).trans ?_
    exact rest_of_elapsed rfl
  · rw [if_neg hrun]
    exact if_neg hrun

end Tlc

theorem framingStands_of_ne {cause : FramingCause} (h : cause ≠ .heldRun .held) : framingStands cause = true := by
  cases cause with
  | heldRun ended => exact bne_iff_ne.mpr fun he => h (congrArg _ he)
  | _ => rfl

theorem faultAfterOutcome_iff {cause : FramingCause} :
    faultAfterOutcome cause = true ↔ cause ≠ .stoppedShort ∧ cause ≠ .lengthOutOfRange := by
  cases cause <;> simp [faultAfterOutcome]

namespace State

section
variable {s : State} {bits : Nat} {cause : FramingCause}

/-- TLC after a framing fault, whether or not it is counted. -/
def faulted (bits : Nat) (cause : FramingCause) (s : State) : State :=
  s.onTlc fun t => (t.readFault bits (framingAfterHeld cause) (faultSymbol cause)).loseTiming

theorem next_framingFault_receiving (hs : s.tlc.state = .receiving) :
    exec (.framingFault bits cause) s = .next
      (if cause = .stoppedShort ∧ s.tlc.reading.any Reading.follows then s.faulted bits cause
        else if framingStands cause then (s.faulted bits cause).count .framingFaults else s) := by
  refine congrArg Host.Outcome.next ?_
  simp only [hs]
  rfl

theorem next_framingFault_sent (hs : s.tlc.state = .sending) (ha : s.tlc.attempt = none) :
    exec (.framingFault bits cause) s = .next
      (if framingStands cause && faultAfterOutcome cause then (s.faulted bits cause).count .framingFaults else s) := by
  refine congrArg Host.Outcome.next ?_
  simp only [hs, ha]
  rfl

theorem next_framingFault_elsewhere (hr : s.tlc.state ≠ .receiving) (hs : s.tlc.state ≠ .sending ∨ s.tlc.attempt ≠ none) :
    exec (.framingFault bits cause) s = .next s := by
  refine congrArg Host.Outcome.next ?_
  dsimp only
  split
  · next h => exact absurd h hr
  · next h hnone => exact absurd hnone (hs.resolve_left (not_not.mpr h))
  · rfl

end

/-! ## A run of HELD (R131, R144) -/

section
variable {s : State} {n : Nat}

/-- TLC stuck, its message back in its queue, with the bit and the notice of the fault (R144). -/
def stuck (s : State) : State :=
  { s with
    tqu := s.tqu.changeInHand Queued.letGo
    tlc := { s.tlc with state := .stuck, idleRun := 0, heldRun := 64, attempt := none, reading := none, wait := 0 }
    mlc := Mlc.notify .faultTrunkStuck (s.mlc.withStatus { s.mlc.status with trunkStuck := true }) }

/-- TLC can be taken into STUCK by a held run without a report to CFL. -/
structure Sticks (s : State) : Prop where
  off : s.tlc.state ≠ .off
  stuck : s.tlc.state ≠ .stuck
  quiet : s.tlc.state ≠ .backoff ∨ s.cfl.node ≠ .joining

theorem moves_held_of_ne (h : s.Sticks) (hb : s.tlc.state ≠ .backoff) : s.tlc.Moves .held := by
  unfold Tlc.Moves
  cases hs : s.tlc.state with
  | off => exact absurd hs h.off
  | stuck => exact absurd hs h.stuck
  | backoff => exact absurd hs hb
  | _ => simp

/-- A HELD leads from BACKOFF to IDLE at most, and from no other of these states (R131, R143). -/
theorem hear_held (h : s.Sticks) :
    ∃ (x : TlcState) (r : Option Reading), x ≠ .off ∧ x ≠ .stuck ∧ (x = .backoff → s.tlc.state = .backoff) ∧
      s.hear .held = State.stickIfHeld
        { s with tlc := { s.tlc with
            state := x, reading := r, wait := s.tlc.wait - 1, idleRun := 0, heldRun := min 64 (s.tlc.heldRun + 1) } } := by
  by_cases hb : s.tlc.state = .backoff
  · have hrest : ((s.tlc.elapse 1).read .held).restState = .idle ∨ ((s.tlc.elapse 1).read .held).restState = .backoff :=
      (ite_eq_or_eq _ _ _)
    refine ⟨((s.tlc.elapse 1).read .held).restState, none, ?_, ?_, fun _ => hb, ?_⟩
    · rcases hrest with h | h <;> rw [h] <;> decide
    · rcases hrest with h | h <;> rw [h] <;> decide
    · rw [hear_backoff hb (by decide), reportEntry_of_node (by exact h.quiet.resolve_left (not_not.mpr hb))]
      rfl
  · refine ⟨s.tlc.state, s.tlc.reading, h.off, h.stuck, id, ?_⟩
    rw [hear_moves (moves_held_of_ne h hb)]
    rfl

theorem hear_held_last (h : s.Sticks) (hrun : 64 ≤ s.tlc.heldRun + 1) : s.hear .held = s.stuck := by
  obtain ⟨x, r, -, -, -, hheard⟩ := hear_held h
  rw [hheard, min_eq_left hrun]
  rfl

/-- A HELD short of the 64th changes nothing of what the 64th makes of the part. -/
theorem hear_held_short (h : s.Sticks) (hrun : s.tlc.heldRun + 1 < 64) :
    (s.hear .held).Sticks ∧ (s.hear .held).tlc.heldRun = s.tlc.heldRun + 1 ∧ (s.hear .held).stuck = s.stuck := by
  obtain ⟨x, r, hoff, hstuck, hback, hheard⟩ := hear_held h
  rw [min_eq_right hrun.le, stickIfHeld_of_lt (by exact hrun)] at hheard
  rw [hheard]
  refine ⟨⟨hoff, hstuck, ?_⟩, rfl, rfl⟩
  by_cases hx : x = .backoff
  · exact .inr (h.quiet.resolve_left (not_not.mpr (hback hx)))
  · exact .inl hx

theorem hear_held_stuck (s : State) : s.stuck.hear .held = s.stuck := rfl

theorem hearAll_held_of_stuck (n : Nat) (s : State) : s.stuck.hearAll (List.replicate n .held) = s.stuck := by
  induction n with
  | zero => rfl
  | succ n ih =>
    rw [List.replicate_succ, hearAll_cons, hear_held_stuck]
    exact ih

/-- A run of HELD that reaches 64 takes TLC into STUCK, and the rest of it leaves TLC there (R144). -/
theorem hearAll_held_stuck (h : s.Sticks) (hrun : 64 ≤ s.tlc.heldRun + n) (hn : 1 ≤ n) :
    s.hearAll (List.replicate n .held) = s.stuck := by
  induction n generalizing s with
  | zero => cases hn
  | succ n ih =>
    rw [List.replicate_succ, hearAll_cons]
    rcases Nat.lt_or_ge (s.tlc.heldRun + 1) 64 with hshort | hlast
    · obtain ⟨hsticks, hheld, hsame⟩ := hear_held_short h hshort
      rw [ih hsticks (by omega) (by omega), hsame]
    · rw [hear_held_last h hlast, hearAll_held_of_stuck]

theorem hear_held_counts (h : s.Sticks) (hb : s.tlc.state ≠ .backoff) (hrun : s.tlc.heldRun + 1 < 64) :
    s.hear .held =
      { s with tlc := { s.tlc with idleRun := 0, heldRun := s.tlc.heldRun + 1, wait := s.tlc.wait - 1 } } := by
  rw [hear_moves (moves_held_of_ne h hb),
    stickIfHeld_of_lt (by exact heldRun_read_lt fun _ => Nat.lt_of_succ_lt_succ hrun)]
  simp only [onTlc, Tlc.read_eq, Tlc.elapse, heldLimit, min_eq_right hrun.le]
  rfl

/-- A shorter run of HELD only counts (R131, R144). -/
theorem hearAll_held_short (h : s.Sticks) (hb : s.tlc.state ≠ .backoff) (hrun : s.tlc.heldRun + n < 64) (hn : 1 ≤ n) :
    s.hearAll (List.replicate n .held) =
      { s with tlc := { s.tlc with idleRun := 0, heldRun := s.tlc.heldRun + n, wait := s.tlc.wait - n } } := by
  induction n, hn using Nat.le_induction with
  | base => exact hear_held_counts h hb hrun
  | succ n hn ih =>
    rw [hearAll_replicate_succ, ih (by omega),
      hear_held_counts (by exact ⟨h.off, h.stuck, h.quiet⟩) (by exact hb) (by exact hrun), Nat.sub_sub]
    rfl

/-! ## STUCK (R134, R146) -/

theorem hear_stuck {x : LineSymbol} (h : s.tlc.state = .stuck) (hx : x ≠ .idle) :
    s.hear x = s.onTlc fun t => (t.elapse 1).read x := by
  have hrun : ((s.tlc.elapse 1).read x).idleRun ≠ idleLimit := by
    rw [Tlc.read_eq]
    dsimp only
    rw [if_neg hx]
    decide
  unfold hear
  simp only [h]
  exact if_neg hrun

end

end State

/-- TLC after `n` IDLE heard in STUCK: from the idle run of 11 on it is in IDLE (R146). -/
def Tlc.freed (n : Nat) (t : Tlc) : Tlc :=
  if t.idleRun + n < idleLimit then t.quiet n else { t.quiet n with state := .idle }

namespace Tlc

section
variable {t : Tlc} {n : Nat}

theorem freed_short (h : t.idleRun + n < idleLimit) : t.freed n = t.quiet n := if_pos h

theorem freed_long (h : idleLimit ≤ t.idleRun + n) : t.freed n = { t.quiet n with state := .idle } :=
  if_neg (Nat.not_lt.mpr h)

theorem freed_quiet (h : t.idleRun + n < idleLimit) : (t.quiet n).freed 1 = t.freed (n + 1) := by
  have hrun : (t.quiet n).idleRun = t.idleRun + n := Nat.min_eq_right h.le
  rw [freed, freed, hrun, quiet_quiet, Nat.add_assoc]

theorem quiet_freed (h : idleLimit ≤ t.idleRun + n) : (t.freed n).quiet 1 = t.freed (n + 1) := by
  rw [freed_long h, freed_long (Nat.le_succ_of_le h), ← quiet_quiet]
  rfl

end
end Tlc

namespace State

section
variable {s : State} {n : Nat}

theorem reportEntry_stuck (h : s.tlc.state = .stuck) : s.reportEntry = s := by
  unfold reportEntry
  simp only [h]

theorem hear_idle_stuck (h : s.tlc.state = .stuck) : s.hear .idle = (s.onTlc (Tlc.freed 1)).reportEntry := by
  unfold hear
  simp only [h]
  rcases Nat.lt_or_ge (s.tlc.idleRun + 1) idleLimit with hrun | hrun
  · have hshort : s.onTlc (Tlc.freed 1) = s.onTlc (Tlc.quiet 1) := onTlc_congr (Tlc.freed_short hrun)
    rw [hshort, reportEntry_stuck (s := s.onTlc (Tlc.quiet 1)) h]
    exact if_neg (min_eq_left_iff.not.mpr (Nat.not_le.mpr hrun))
  · have hlong : s.onTlc (Tlc.freed 1) = s.onTlc fun t => { t.quiet 1 with state := .idle } :=
      onTlc_congr (Tlc.freed_long hrun)
    rw [hlong]
    exact if_pos (min_eq_left hrun)

/-- A run of IDLE heard in STUCK: TLC is freed at 11, and reports to CFL once (R134, R146). -/
theorem hearAll_idle_stuck (h : s.tlc.state = .stuck) (hn : 1 ≤ n) :
    s.hearAll (List.replicate n .idle) = (s.onTlc (Tlc.freed n)).reportEntry := by
  induction n, hn using Nat.le_induction with
  | base => exact hear_idle_stuck h
  | succ n hn ih =>
    rw [hearAll_replicate_succ, ih]
    rcases Nat.lt_or_ge (s.tlc.idleRun + n) idleLimit with hrun | hrun
    · have hstate : (s.tlc.freed n).state = .stuck := (congrArg Tlc.state (Tlc.freed_short hrun)).trans h
      have hnext : (s.tlc.freed n).freed 1 = s.tlc.freed (n + 1) := by rw [Tlc.freed_short hrun, Tlc.freed_quiet hrun]
      rw [reportEntry_stuck (s := s.onTlc (Tlc.freed n)) hstate, hear_idle_stuck (s := s.onTlc (Tlc.freed n)) hstate]
      exact congrArg reportEntry (onTlc_congr (s := s) (f := fun t => (t.freed n).freed 1) hnext)
    · have hstate : (s.tlc.freed n).state = .idle := congrArg Tlc.state (Tlc.freed_long hrun)
      have hnext : (s.tlc.freed n).quiet 1 = s.tlc.freed (n + 1) := Tlc.quiet_freed hrun
      have hidle : (s.tlc.freed (n + 1)).state = .idle := congrArg Tlc.state (Tlc.freed_long (Nat.le_succ_of_le hrun))
      rw [reportEntry_entered (s := s.onTlc (Tlc.freed n)) (.inl hstate),
        hear_idle_idle ((congrArg Tlc.state (tlc_reportTrunk _)).trans hstate), ← reportTrunk_onTlc,
        reportEntry_entered (s := s.onTlc (Tlc.freed (n + 1))) (.inl hidle)]
      exact congrArg reportTrunk (onTlc_congr (s := s) (f := fun t => (t.freed n).quiet 1) hnext)

end
end State

/-- Settles O39: a framing fault by where the frame stands, a run of HELD by whether it reaches 64, and STUCK by its
symbols. -/
theorem lineFaults : Obligations.LineFaults := by
  unfold Obligations.LineFaults
  refine ⟨fun s bits cause => ?_, fun s n hn => ?_, fun s x hs hx => ⟨?_, ?_⟩⟩
  · intro idle line lost counted
    have hlost (h : cause ≠ .heldRun .held) : s.faulted bits cause = { s with tlc := lost } :=
      congrArg (fun t => { s with tlc := t }) (Tlc.loseTiming_readFault h bits s.tlc)
    have hcounted (h : cause ≠ .heldRun .held) : (s.faulted bits cause).count .framingFaults = counted := by
      rw [hlost h]
      rfl
    refine ⟨fun r hs hr => ⟨fun hc hf => ?_, fun hc hh => ?_⟩, fun hs ha h1 h2 hh => ?_, fun hs hno => ?_, fun hh => ?_⟩
    · rw [State.next_framingFault_receiving hs, if_pos ⟨hc, by rw [hr]; exact hf⟩, hlost (by rw [hc]; decide)]
    · have huncounted : ¬(cause = .stoppedShort ∧ s.tlc.reading.any Reading.follows = true) := fun ⟨h1, h2⟩ => by
        rw [hr] at h2
        exact hc.elim (absurd h1) fun hf => Bool.false_ne_true (hf.symm.trans h2)
      rw [State.next_framingFault_receiving hs, if_neg huncounted, if_pos (framingStands_of_ne hh), hcounted hh]
    · have hstands : (framingStands cause && faultAfterOutcome cause) = true := by
        rw [framingStands_of_ne hh, faultAfterOutcome_iff.mpr ⟨h1, h2⟩]
        rfl
      rw [State.next_framingFault_sent hs ha, if_pos hstands, hcounted hh]
    · by_cases hsent : s.tlc.state = .sending ∧ s.tlc.attempt = none
      · obtain ⟨hstate, ha⟩ := hsent
        have hearly : ¬(framingStands cause && faultAfterOutcome cause) = true := fun hboth => by
          obtain ⟨h1, h2⟩ := faultAfterOutcome_iff.mp (Bool.and_eq_true_iff.mp hboth).2
          rcases hno with h | h | h | h
          · exact h hstate
          · exact h ha
          · exact h1 h
          · exact h2 h
        rw [State.next_framingFault_sent hstate ha, if_neg hearly]
      · exact State.next_framingFault_elsewhere hs (not_and_or.mp hsent)
    · subst hh
      by_cases hs : s.tlc.state = .receiving
      · rw [State.next_framingFault_receiving hs, if_neg (fun h => by cases h.1)]
        rfl
      · by_cases hsent : s.tlc.state = .sending ∧ s.tlc.attempt = none
        · exact State.next_framingFault_sent hsent.1 hsent.2
        · exact State.next_framingFault_elsewhere hs (not_and_or.mp hsent)
  · intro bits
    refine ⟨fun hoff hstuck hquiet hrun => ?_, fun hoff hstuck hb hrun => ?_, fun hs hrun => ?_, fun hs hrun => ?_⟩
    · exact congrArg Host.Outcome.next (State.hearAll_held_stuck ⟨hoff, hstuck, hquiet⟩ hrun hn)
    · exact congrArg Host.Outcome.next (State.hearAll_held_short ⟨hoff, hstuck, .inl hb⟩ hb hrun hn)
    · intro left
      have hfreed : s.onTlc (Tlc.freed n) = left := by
        refine congrArg (fun t => { s with tlc := t }) ((Tlc.freed_long hrun).trans ?_)
        simp only [Tlc.quiet, idleLimit, min_eq_left hrun]
      have hidle : left.tlc.state = .idle := rfl
      rw [State.next_stuckExit hs, State.hearAll_idle_stuck hs hn, hfreed]
      refine ⟨fun hnode => ?_, fun cfg hnode hcfg => ?_⟩
      · rw [State.reportEntry_of_node (by exact hnode)]
      · rw [State.reportEntry_entered (.inl hidle), State.reportTrunk_joining (s := left) hnode hcfg]
    · have hfreed : s.tlc.freed n =
          { s.tlc with idleRun := s.tlc.idleRun + n, heldRun := 0, wait := s.tlc.wait - n } := by
        rw [Tlc.freed_short hrun, Tlc.quiet, idleLimit, min_eq_right hrun.le]
      have hstuck : (s.onTlc (Tlc.freed n)).tlc.state = .stuck := (congrArg Tlc.state hfreed).trans hs
      rw [State.next_stuckExit hs, State.hearAll_idle_stuck hs hn, State.reportEntry_stuck hstuck, ← hfreed]
      rfl
  · rw [State.next_stuckExit hs]
    refine congrArg Host.Outcome.next ((State.hear_stuck hs hx).trans ?_)
    rw [State.onTlc, Tlc.read_eq, if_neg hx]
    rfl
  · rw [State.next_anotherNodesStartBit (.inr (.inr (.inr hs)))]
    exact congrArg Host.Outcome.next (State.hear_stuck hs (by decide))

end Sys2Proof.Machine
end

section
/-!
# The laws of the transmit queues and of the inbound pool (O58)

All commands but a few only send: they leave the inbound side of TQU and CFL's configuration as they were, and do not leave
RUN (`State.Carries`). The others are the resets, the load, a placement, the point of a handling and its completion, with one
lemma each about TQU.
-/

namespace Sys2Proof.Machine

/-! ## The pool and its reservations (R156, R158, R159) -/

namespace Tqu

variable {t : Tqu} {own : Node} {p : Placed} {ps : List Placed} {m : Queued}

/-- A TQU without messages of the pool, reservations or a kept reply meets the law of R158 for every node. -/
theorem reserved_of_quiet (hpool : t.pool = []) (hreached : t.reached = false) (hcount : t.reservations = 0)
    (hreply : t.reply = none) (own : Node) : t.Reserved own where
  point h := by rw [hreached] at h; cases h
  count := by rw [hcount, hpool]; rfl
  reply m hm := by rw [hreply] at hm; cases hm

theorem Reserved.reply_cls (h : t.Reserved own) : ∀ m, t.reply = some m → m.cls = .handover := fun m hm =>
  (h.reply m hm).1

theorem reserved_reach (h : t.Reserved own) (hpool : t.pool ≠ []) : Tqu.Reserved own { t with reached := true } where
  point _ := hpool
  count := h.count
  reply m hm := by
    obtain ⟨hcls, -, hhead⟩ := h.reply m hm
    exact ⟨hcls, rfl, hhead⟩

theorem reserved_keepReply (h : t.Reserved own) (hcls : m.cls = .handover) (hreached : t.reached = true)
    (hpool : t.pool = p :: ps) (hp : p.isAddressedClaim own = true) : Tqu.Reserved own { t with reply := some m } where
  point := h.point
  count := h.count
  reply x hx := by
    cases hx
    exact ⟨hcls, hreached, by simpa [hpool] using hp⟩

theorem taken_reservations (own : Node) (p : Placed) (t : Tqu) :
    (t.taken own p).reservations = if p.isAddressedClaim own then t.reservations + 1 else t.reservations := by
  simp only [taken, Placed.isAddressedClaim_iff]

theorem sound_taken (h : t.Sound) (hp : t.canPlace own p = true) : (t.taken own p).Sound := by
  obtain ⟨hpool, hclaim⟩ := canPlace_iff.mp hp
  refine ⟨h.flow, h.urgent, ?_, h.report, ?_⟩
  · have hroom := h.handover
    show t.handover.length + (if p.kind = 3 ∧ p.destination = own then t.reservations + 1 else t.reservations) ≤ 6
    split
    · next hc => exact hclaim hc.1 hc.2
    · exact hroom
  · show (t.pool ++ [p]).length ≤ 16
    rw [List.length_append]
    exact hpool

theorem reserved_taken (h : t.Reserved own) (p : Placed) : (t.taken own p).Reserved own where
  point _ := List.append_ne_nil_of_right_ne_nil _ (List.cons_ne_nil p [])
  count := by
    rw [taken_reservations, h.count]
    show _ = ((t.pool ++ [p]).filter _).length
    rw [List.filter_append, List.length_append]
    cases hp : p.isAddressedClaim own <;> simp [hp]
  reply m hm := by
    obtain ⟨hcls, hreached, hhead⟩ := h.reply m hm
    obtain ⟨q, qs, hpool⟩ := List.exists_cons_of_ne_nil (h.point hreached)
    refine ⟨hcls, hreached, ?_⟩
    show (t.pool ++ [p]).head?.any _ = true
    rw [hpool] at hhead ⊢
    exact hhead

/-- A kept reply belongs to an addressed CLAIM, whose reservation it gives up. -/
theorem replies_le (h : t.Reserved own) (hpool : t.pool = p :: ps) :
    t.replies.length ≤ if p.kind = 3 ∧ p.destination = own then 1 else 0 := by
  unfold replies
  cases hr : t.reply with
  | none => exact Nat.zero_le _
  | some m =>
    obtain ⟨-, -, hhead⟩ := h.reply m hr
    rw [hpool] at hhead
    exact (if_pos (Placed.isAddressedClaim_iff.mp hhead)).ge

theorem reservations_cons (h : t.Reserved own) (hpool : t.pool = p :: ps) :
    t.reservations =
      (ps.filter (Placed.isAddressedClaim own)).length + if p.kind = 3 ∧ p.destination = own then 1 else 0 := by
  rw [h.count, hpool, List.filter_cons]
  simp only [Placed.isAddressedClaim_iff]
  split <;> rfl

theorem freed_reservations (h : t.Reserved own) (hpool : t.pool = p :: ps) :
    (t.freed own p ps).reservations = (ps.filter (Placed.isAddressedClaim own)).length := by
  have hcons := reservations_cons h hpool
  show (if p.kind = 3 ∧ p.destination = own then t.reservations - 1 else t.reservations) = _
  split
  · next hc => rw [hcons, if_pos hc, Nat.add_sub_cancel]
  · next hc => rw [hcons, if_neg hc, Nat.add_zero]

theorem sound_freed (h : t.Sound) (hr : t.Reserved own) (hpool : t.pool = p :: ps) : (t.freed own p ps).Sound := by
  refine ⟨h.flow, h.urgent, ?_, h.report, ?_⟩
  · have hroom := h.handover
    have hreplies := replies_le hr hpool
    have hcons := reservations_cons hr hpool
    rw [freed_reservations hr hpool]
    show (t.handover ++ t.replies).length + _ ≤ handoverDepth
    rw [List.length_append]
    omega
  · have hlen := h.pool
    rw [hpool] at hlen
    exact Nat.le_of_succ_le hlen

theorem reserved_freed (h : t.Reserved own) (hpool : t.pool = p :: ps) : (t.freed own p ps).Reserved own where
  point hreached := by cases hreached
  count := freed_reservations h hpool
  reply m hm := by cases hm

end Tqu

/-! ## What most commands leave -/

/-- The inbound side of TQU and the configuration as they were, the queues within their depths, and RUN not left. -/
structure State.Carries (s t : State) : Prop where
  tqu : s.tqu.Sends t.tqu
  config : t.cfl.config = s.cfl.config
  node : s.cfl.node = .run → t.cfl.node = .run

namespace State

variable {s t u : State} {cfg : Settings}

theorem Carries.refl (s : State) : s.Carries s := ⟨.refl _, rfl, id⟩

theorem Carries.trans (h : s.Carries t) (g : t.Carries u) : s.Carries u :=
  ⟨h.tqu.trans g.tqu, g.config.trans h.config, g.node ∘ h.node⟩

theorem Carries.ite {c : Prop} [Decidable c] (ht : s.Carries t) (hu : s.Carries u) : s.Carries (if c then t else u) := by
  split
  · exact ht
  · exact hu

theorem Stays.carries (h : s.Stays t) : s.Carries t := ⟨h.tqu, h.cfl ▸ rfl, h.cfl ▸ id⟩

/-- TQU and CFL as they were. -/
theorem carries_of_eq (htqu : t.tqu = s.tqu) (hcfl : t.cfl = s.cfl) : s.Carries t :=
  ⟨htqu ▸ .refl _, hcfl ▸ rfl, hcfl ▸ id⟩

/-- Outside RUN the pool is empty before and after; in RUN the reservations are those of the same node. -/
theorem QueueLaw.carried (h : s.QueueLaw) (g : s.Carries t) : t.QueueLaw where
  sound := g.tqu.sound h.sound
  reserved cfg hcfg := g.tqu.reserved (h.reserved cfg (g.config ▸ hcfg))
  quiet hn := by
    rw [g.tqu.pool, g.tqu.reached, g.tqu.reservations, g.tqu.reply]
    exact h.quiet (mt g.node hn)

/-- In RUN the law is that of TQU for the loaded configuration. -/
theorem InRun.queueLaw (hrun : s.InRun cfg) (hs : s.tqu.Sound) (hr : s.tqu.Reserved cfg.node) : s.QueueLaw where
  sound := hs
  reserved c hc := by
    rw [hrun.config] at hc
    cases hc
    exact hr
  quiet hn := absurd hrun.node hn

/-- Nothing in the pool and nothing kept: the law stands in every node state and for every configuration. -/
theorem queueLaw_of_quiet (hs : s.tqu.Sound)
    (hq : s.tqu.pool = [] ∧ s.tqu.reached = false ∧ s.tqu.reservations = 0 ∧ s.tqu.reply = none) : s.QueueLaw := by
  obtain ⟨hpool, hreached, hcount, hreply⟩ := hq
  exact ⟨hs, fun cfg _ => Tqu.reserved_of_quiet hpool hreached hcount hreply cfg.node,
    fun _ => ⟨hpool, hreached, hcount, hreply⟩⟩

end State

/-! ## Timers and reports -/

/-- The rows by which RE handles the messages of the inbound pool (R159). -/
def handlesPool : Instr → Bool
  | .takenHandling | .claimHandling | .seekClaimHandling | .yieldHandling | .declineHandling | .standingHandling
  | .handlingComplete => true
  | _ => false

namespace State

variable {s t : State} {cfg : Settings}

/-- A timer of RE, APC or TQU taken alone, or a report of the front end, stays (assumption 3, R98). -/
theorem stays_of_runOnly {c : Instr} (hc : runOnly c = true) (hp : handlesPool c = false) (h : exec c s = .next t) :
    s.Stays t := by
  cases c with
  | arrivalTimeout k | handingTimeout k | cutLink k => cases h; exact stays_expireIfDue k _ s
  | rescueTimeout k =>
    cases h
    refine stays_whenRun _ _ fun cfg => ?_
    split
    · exact .ite (stays_expire cfg k _ s) (.ite (stays_updateEntry _ _ s) (.refl s))
    · exact .refl s
  | replyTimeout x => cases h; exact stays_whenRun _ _ fun _ => .ite (stays_failClaim x s) (.refl s)
  | surveyAging x => cases h; exact stays_whenRun _ _ fun _ => .ite (stays_removeSurvey x s) (.refl s)
  | settleEnd | knowledgeExpiry | listenInEnd | seekHoldOffEnd =>
    cases h
    exact stays_whenRun _ _ fun _ => stays_onRe _ s
  | ownHoldExpiry =>
    cases h
    refine stays_whenRun _ _ fun cfg => stays_onTqu _ s ?_
    split
    · exact Tqu.sends_markOwn cfg _
    · exact .refl _
  | neighbourHoldExpiry n =>
    cases h
    refine stays_whenRun _ _ fun cfg => stays_onTqu _ s ?_
    split
    · exact Tqu.sends_setHold cfg n 0 _
    · exact .refl _
  | orderExpiry k => cases h; exact stays_whenRun _ _ fun cfg => stays_expireOrder cfg k s
  | drainEmpty k => cases h; exact stays_whenRun _ _ fun _ => .ite (stays_releaseEntry k s) (.refl s)
  | slotReport => cases h; exact stays_whenRun _ _ fun cfg => by split <;> [exact stays_slotReport cfg _ s; exact .refl s]
  | surveyReport =>
    cases h
    exact stays_whenRun _ _ fun cfg => by split <;> [exact stays_surveyReport cfg _ s; exact .refl s]
  | seekCall => cases h; exact stays_whenRun _ _ fun cfg => by split <;> [exact stays_seekCall cfg _ s; exact .refl s]
  | orderResult =>
    cases h
    exact stays_whenRun _ _ fun cfg => by split <;> [exact stays_orderResult cfg _ s; exact .refl s]
  | takenHandling | claimHandling | seekClaimHandling | yieldHandling | declineHandling | standingHandling
  | handlingComplete => cases hp
  | _ => cases hc

/-! ## Joining and marks -/

theorem carries_runIfJoined (s : State) : s.Carries s.runIfJoined := by
  unfold runIfJoined
  split
  · exact ⟨.refl _, rfl, fun _ => rfl⟩
  · exact .refl s

theorem carries_reportAir (s : State) : s.Carries s.reportAir :=
  .trans (t := s.onCfl fun c => { c with airJoined := true }) ⟨.refl _, rfl, id⟩ (carries_runIfJoined _)

theorem carries_reportTrunk (s : State) : s.Carries s.reportTrunk := by
  unfold reportTrunk
  split
  · exact .trans (t := s.onCfl fun c => { c with trunkJoined := true }) ⟨.refl _, rfl, id⟩ (carries_runIfJoined _)
  · exact .refl s

theorem carries_cycleMark {record : List Byte} (h : exec (.cycleMark record) s = .next t) : s.Carries t := by
  cases h
  split
  · exact .refl s
  · refine .ite (.refl s) ?_
    split
    · exact (stays_noteCycle _ s).carries.trans (carries_reportAir _)
    · exact ((stays_noteCycle _ s).trans (stays_whenRun _ _ fun cfg => stays_mark cfg _)).carries
    all_goals exact .refl s

/-! ## The line -/

theorem config_reportEntry (s : State) : s.reportEntry.cfl.config = s.cfl.config := by
  unfold reportEntry
  split
  · exact (carries_reportTrunk s).config
  · exact (carries_reportTrunk s).config
  all_goals rfl

/-- Of CFL a symbol moves the join conditions and the node state at most, by the report of R134. -/
theorem config_hear (x : LineSymbol) (s : State) : (s.hear x).cfl.config = s.cfl.config := by
  unfold hear
  dsimp only
  repeat' split
  all_goals simp [config_reportEntry]

theorem carries_hear (x : LineSymbol) (s : State) : s.Carries (s.hear x) :=
  ⟨(offLine_hear x s).tqu, config_hear x s, (offTables_hear x s).node⟩

theorem carries_hearAll (line : List LineSymbol) (s : State) : s.Carries (s.hearAll line) := by
  induction line generalizing s with
  | nil => exact .refl s
  | cons x xs ih => exact (carries_hear x s).trans (ih _)

/-! ## Attempts -/

theorem carries_changeInHand (f : Queued → Queued) (htqu : t.tqu = s.tqu.changeInHand f) (hcfl : t.cfl = s.cfl) :
    s.Carries t :=
  ⟨htqu ▸ Tqu.sends_changeInHand f _, hcfl ▸ rfl, hcfl ▸ id⟩

/-- The message in hand has left its queue, and its owner is told (R151). -/
theorem carries_outcome (delivered : Bool) (m : Queued) (htqu : t.tqu = s.tqu.removeInHand) (hcfl : t.cfl = s.cfl) :
    s.Carries (t.whenRun fun cfg s => s.tellOwner cfg delivered m) :=
  .trans ⟨htqu ▸ Tqu.sends_removeInHand _, hcfl ▸ rfl, hcfl ▸ id⟩
    (stays_whenRun _ _ fun cfg => stays_tellOwner cfg delivered m _).carries

theorem carries_failAttempt (a : Attempt) (htqu : t.tqu = s.tqu) (hcfl : t.cfl = s.cfl) :
    s.Carries (t.failAttempt a) := by
  refine (carries_of_eq htqu hcfl).trans ?_
  unfold failAttempt
  split
  · exact .ite (carries_changeInHand _ rfl rfl) (carries_outcome false _ rfl rfl)
  · exact .ite (carries_of_eq rfl rfl) (.refl t)

theorem carries_trunkAttemptStart {line : List LineSymbol} (h : exec (.trunkAttemptStart line) s = .next t) :
    s.Carries t := by
  cases h
  split
  · have heard := carries_hearAll line s
    refine .ite ?_ heard
    split
    · exact heard.trans ⟨Tqu.sends_takeInHand _ _ _, rfl, id⟩
    · exact heard
  · exact .refl s

theorem carries_bitFault {cause : BitFaultCause} (h : exec (.bitFault cause) s = .next t) : s.Carries t := by
  cases h
  split
  · exact .ite (carries_failAttempt _ rfl rfl) (.refl s)
  · exact .refl s

theorem carries_acknowledgeFailure {x : LineSymbol} (h : exec (.acknowledgeFailure x) s = .next t) : s.Carries t := by
  cases h
  split
  · exact .ite (.refl s) (carries_failAttempt _ rfl rfl)
  · exact .refl s

theorem carries_delivered (h : exec .delivered s = .next t) : s.Carries t := by
  cases h
  split
  · dsimp only
    split
    · exact .ite (carries_changeInHand _ rfl rfl) (carries_outcome true _ rfl rfl)
    · exact carries_of_eq rfl rfl
  · exact .refl s

theorem carries_framingFault {bits : Nat} {cause : FramingCause} (h : exec (.framingFault bits cause) s = .next t) :
    s.Carries t := by
  cases h
  dsimp only
  split
  · exact .ite (carries_of_eq rfl rfl) (.ite (carries_of_eq rfl rfl) (.refl s))
  · exact .ite (carries_of_eq rfl rfl) (.refl s)
  · exact .refl s

/-! ## Placement (R157) -/

theorem queueLaw_whenRun {f : Settings → State → State} (h : s.QueueLaw)
    (hf : ∀ cfg, s.InRun cfg → (f cfg s).QueueLaw) : (s.whenRun f).QueueLaw := by
  unfold whenRun
  split
  · next hn hc => exact hf _ ⟨hn, hc⟩
  · exact h

theorem queueLaw_offerFrame (h : s.QueueLaw) (hrun : s.InRun cfg) (p : Placed) : (s.offerFrame cfg p).QueueLaw := by
  unfold offerFrame
  split
  · split
    · split
      · exact h.carried ⟨Tqu.sends_setHold cfg _ _ _, rfl, id⟩
      · exact h
    · exact h
  · split
    · exact h
    · split
      · next hp =>
        have hsends := Tqu.place_eq cfg p s.tqu ▸ Tqu.sends_holdOnset cfg (s.tqu.taken cfg.node p)
        have hres := Tqu.reserved_taken (h.reserved cfg hrun.config) p
        exact InRun.queueLaw (cfg := cfg) ⟨hrun.node, hrun.config⟩ (hsends.sound (Tqu.sound_taken h.sound hp))
          (hsends.reserved hres)
      · exact h.carried (carries_of_eq rfl rfl)

theorem queueLaw_frameReceived {bits : Nat} {a : BitVec 13} {d : Node} {payload : List Byte} {crc : Byte}
    (h : s.QueueLaw) (hx : exec (.frameReceived bits a d payload crc) s = .next t) : t.QueueLaw := by
  cases hx
  split
  · next r _ _ =>
    split
    · exact h
    · dsimp only
      split
      · exact h.carried (carries_of_eq rfl rfl)
      · split
        · exact h.carried (carries_of_eq rfl rfl)
        · split
          · exact h.carried (carries_of_eq rfl rfl)
          · have hread := h.carried (t := s.crcRead bits r) (carries_of_eq rfl rfl)
            refine queueLaw_whenRun hread fun cfg hrun => ?_
            split
            · exact queueLaw_offerFrame hread hrun _
            · exact hread
  · exact h

/-! ## Handlings (R158, R159) -/

/-- A handling reaches its point, and its effect takes place there. -/
theorem queueLaw_handle {q : Placed → Bool} {f : Settings → Placed → State → State} (h : s.QueueLaw)
    (hf : ∀ cfg p ps u, u.InRun cfg → u.tqu.pool = p :: ps → u.tqu.reached = true → q p = true → u.QueueLaw →
      (f cfg p u).QueueLaw) : (s.handle q f).QueueLaw := by
  refine queueLaw_whenRun h fun cfg hrun => ?_
  split
  · next p ps hpool =>
    split
    · next hq =>
      have hrun' : (s.onTqu fun t => { t with reached := true }).InRun cfg := ⟨hrun.node, hrun.config⟩
      have hres := Tqu.reserved_reach (h.reserved cfg hrun.config) (hpool ▸ List.cons_ne_nil p ps)
      have hs := h.sound
      exact hf cfg p ps _ hrun' hpool rfl (Bool.and_eq_true_iff.mp hq).2
        (hrun'.queueLaw ⟨hs.flow, hs.urgent, hs.handover, hs.report, hs.pool⟩ hres)
    · exact h
  · exact h

theorem queueLaw_keepReply {m : Queued} {p : Placed} {ps : List Placed} (h : s.QueueLaw) (hrun : s.InRun cfg)
    (hreached : s.tqu.reached = true) (hpool : s.tqu.pool = p :: ps) (hp : p.isAddressedClaim cfg.node = true)
    (hcls : m.cls = .handover) : (s.keepReply m).QueueLaw := by
  have hs := h.sound
  exact InRun.queueLaw (cfg := cfg) ⟨hrun.node, hrun.config⟩ ⟨hs.flow, hs.urgent, hs.handover, hs.report, hs.pool⟩
    (Tqu.reserved_keepReply (h.reserved cfg hrun.config) hcls hreached hpool hp)

/-- Either answer to an addressed CLAIM is a reply kept for its completion (R62, R63). -/
theorem queueLaw_handleClaim {p : Placed} {ps : List Placed} (h : s.QueueLaw) (hrun : s.InRun cfg)
    (hreached : s.tqu.reached = true) (hpool : s.tqu.pool = p :: ps) (hp : p.isAddressedClaim cfg.node = true)
    (sender : Node) (c : ClaimBody) : (s.handleClaim cfg sender c).QueueLaw := by
  unfold handleClaim
  split
  · exact queueLaw_keepReply h hrun hreached hpool hp rfl
  · exact queueLaw_keepReply (h.carried (stays_updateEntry _ _ s).carries) ⟨hrun.node, hrun.config⟩ hreached hpool hp rfl

theorem queueLaw_handlingComplete (h : s.QueueLaw) (hx : exec .handlingComplete s = .next t) : t.QueueLaw := by
  cases hx
  refine queueLaw_whenRun h fun cfg hrun => ?_
  split
  · next p ps hpool =>
    split
    · have hr := h.reserved cfg hrun.config
      have hsends := Tqu.sends_holdRelease cfg (s.tqu.freed cfg.node p ps)
      have hdone : (s.completed cfg).QueueLaw := by
        rw [completed_eq hpool hr.reply_cls]
        exact InRun.queueLaw (cfg := cfg) ⟨hrun.node, hrun.config⟩ (hsends.sound (Tqu.sound_freed h.sound hr hpool))
          (hsends.reserved (Tqu.reserved_freed hr hpool))
      exact hdone.carried (stays_decideEvict _).carries
    · exact h
  · exact h

theorem queueLaw_of_handlesPool {c : Instr} (hc : handlesPool c = true) (h : s.QueueLaw) (hx : exec c s = .next t) :
    t.QueueLaw := by
  cases c with
  | takenHandling =>
    cases hx
    exact queueLaw_handle h fun cfg p _ u _ _ _ _ hu => by
      split <;> [exact hu.carried (stays_handleTaken cfg _ _ _ u).carries; exact hu]
  | claimHandling =>
    cases hx
    refine queueLaw_handle h fun cfg p ps u hrun hpool hreached hq hu => ?_
    split
    · split
      · next hd =>
        have hclaim := Placed.isAddressedClaim_iff.mpr ⟨(Placed.isNormal_spec hq).1, hd⟩
        exact queueLaw_handleClaim hu hrun hreached hpool hclaim _ _
      · exact hu
    · exact hu
  | seekClaimHandling =>
    cases hx
    refine queueLaw_handle h fun cfg p _ u _ _ _ _ hu => ?_
    split
    · exact hu.carried (.ite (stays_handleSeekClaim cfg _ _ u).carries (.refl u))
    · exact hu
  | yieldHandling =>
    cases hx
    exact queueLaw_handle h fun cfg p _ u _ _ _ _ hu => by
      split <;> [exact hu.carried (stays_handleYield cfg _ _ u).carries; exact hu]
  | declineHandling =>
    cases hx
    exact queueLaw_handle h fun cfg p _ u _ _ _ _ hu => by
      split <;> [exact hu.carried (stays_handleDecline _ _ _ u).carries; exact hu]
  | standingHandling =>
    cases hx
    exact queueLaw_handle h fun cfg p _ u _ _ _ _ hu => by
      split <;>
        [exact hu.carried (stays_foldl _ (fun s x => stays_handleNaming cfg p.sender s x) _ u).carries; exact hu]
  | handlingComplete => exact queueLaw_handlingComplete h hx
  | _ => cases hc

/-! ## Resets, the load and matrix records -/

theorem queueLaw_coldReset (s : State) : s.coldReset.QueueLaw := queueLaw_of_quiet Tqu.sound_cold ⟨rfl, rfl, rfl, rfl⟩

theorem queueLaw_warmRestart (s : State) : s.warmRestart.QueueLaw :=
  queueLaw_of_quiet ((Tqu.sends_holds Tqu.cold _).sound Tqu.sound_cold) ⟨rfl, rfl, rfl, rfl⟩

/-- A load finds the pool empty, so the law stands whatever node number it brings (R177, R179). -/
theorem queueLaw_configLoad {image : List Byte} (h : s.QueueLaw) (hx : exec (.configLoadComplete image) s = .next t) :
    t.QueueLaw := by
  cases hx
  split
  · next hn =>
    have hq := h.quiet (by rw [hn]; decide)
    split
    · exact queueLaw_of_quiet ((Tqu.sends_holds s.tqu _).sound h.sound) hq
    · exact queueLaw_of_quiet h.sound hq
  all_goals exact h

theorem queueLaw_takeRecord {kind : Byte} {need : Nat} {record : List Byte} {act : List Byte → State → State}
    (h : s.QueueLaw) (ha : ∀ body, (act body s).QueueLaw) : (s.takeRecord kind need record act).QueueLaw := by
  unfold takeRecord
  split
  · exact h
  all_goals
    split
    · exact h.carried (carries_of_eq rfl rfl)
    · exact h
    · exact ha _

theorem carries_takeEvict (body : List Byte) (s : State) : s.Carries (s.takeEvict body) := by
  rcases takeEvict_cases body s with hs | ⟨-, -, -, he⟩
  · exact hs.carries
  · exact he ▸ carries_of_eq rfl rfl

/-! ## Every command -/

/-- Every command keeps the laws of the transmit queues and of the inbound pool. -/
theorem queueLaw_exec {c : Instr} (h : s.QueueLaw) (hx : exec c s = .next t) : t.QueueLaw := by
  cases c with
  | powerOn | resetLineAsserted => cases hx; exact queueLaw_coldReset s
  | resetLineReleased =>
    cases hx
    split
    · next hn => exact h.carried ⟨.refl _, rfl, fun hr => by rw [hn] at hr; cases hr⟩
    all_goals exact h
  | configLoadComplete image => exact queueLaw_configLoad h hx
  | cycleMark record => exact h.carried (carries_cycleMark hx)
  | groupFrame record =>
    cases hx
    exact queueLaw_takeRecord h fun body => by
      split <;> first | exact h.carried (stays_groupFrame _ _ _ s).carries | exact h
  | statusQuery record =>
    cases hx
    exact queueLaw_takeRecord h fun body => h.carried (.ite (stays_answer _ s).carries (.refl s))
  | clear record =>
    cases hx
    exact queueLaw_takeRecord h fun body => by split <;> exact h.carried (carries_of_eq rfl rfl)
  | evict record => cases hx; exact queueLaw_takeRecord h fun body => h.carried (carries_takeEvict body s)
  | restart record =>
    cases hx
    exact queueLaw_takeRecord h fun body => by split <;> first | exact queueLaw_warmRestart s | exact h
  | trunkAttemptStart line => exact h.carried (carries_trunkAttemptStart hx)
  | bitFault cause => exact h.carried (carries_bitFault hx)
  | delivered => exact h.carried (carries_delivered hx)
  | acknowledgeFailure x => exact h.carried (carries_acknowledgeFailure hx)
  | frameReceived bits a d payload crc => exact queueLaw_frameReceived h hx
  | framingFault bits cause => exact h.carried (carries_framingFault hx)
  | arbitrationLost =>
    cases hx
    split <;> [exact h.carried (carries_changeInHand _ rfl rfl); exact h]
  | arbitrationWon | frameEnd | outboundRecordStart =>
    cases hx
    split <;> exact h.carried (carries_of_eq rfl rfl)
  | backoffEnd line | waitIdleExit line | stuckExit line | anotherNodesStartBit line =>
    cases hx
    split <;> first | exact h.carried (carries_hearAll _ s) | exact h
  | stuckEntry line => cases hx; exact h.carried (carries_hearAll line s)
  | takenHandling | claimHandling | seekClaimHandling | yieldHandling | declineHandling | standingHandling
  | handlingComplete => exact queueLaw_of_handlesPool rfl h hx
  | _ => exact h.carried (stays_of_runOnly rfl rfl hx).carries

end State

/-- Settles O58: the step takes a command or idles, and every command keeps the law. -/
theorem queueLaws : Obligations.QueueLaws := by
  unfold Obligations.QueueLaws
  intro s t h hx
  unfold step at hx
  split at hx
  · cases hx; exact h
  · next rest _ =>
    exact State.queueLaw_exec (s := { s with pending := rest }) (h.carried (State.carries_of_eq rfl rfl)) hx

end Sys2Proof.Machine
end

section
/-!
# The message that TQU offers (O41)

The search of R149 goes through the four queues in the order of their class codes, so it is a search for the first class
whose queue holds an eligible message.
-/

namespace Sys2Proof.Machine

/-- The four classes, lowest code first (R132). -/
def TxClass.ordered : List TxClass := [.flow, .urgent, .handover, .report]

theorem TxClass.mem_ordered (c : TxClass) : c ∈ TxClass.ordered := by cases c <;> decide

theorem TxClass.ordered_increasing : TxClass.ordered.Pairwise fun a b => a.code < b.code := by decide

/-- A class of a lower code stands before another in the order. -/
theorem TxClass.mem_before_of_code_lt {before after : List TxClass} {c lower : TxClass}
    (h : TxClass.ordered = before ++ c :: after) (hlt : lower.code < c.code) : lower ∈ before := by
  have hinc := TxClass.ordered_increasing
  rw [h, List.pairwise_append] at hinc
  obtain ⟨-, htail, -⟩ := hinc
  have hmem := TxClass.mem_ordered lower
  rw [h, List.mem_append, List.mem_cons] at hmem
  rcases hmem with hb | rfl | ha
  · exact hb
  · exact absurd hlt (Nat.lt_irrefl _)
  · exact absurd hlt (List.rel_of_pairwise_cons htail ha).asymm

namespace Tqu

variable {cfg : Settings} {t : Tqu} {m : Queued}

theorem select_eq_findSome (cfg : Settings) (t : Tqu) :
    t.select cfg = TxClass.ordered.findSome? fun c => (t.queue c).find? (t.eligible cfg) := by
  rw [← List.find?_flatMap]
  simp [select, TxClass.ordered, queue]

theorem eligible_of_find?_none {l : List Queued} (h : l.find? (t.eligible cfg) = none) :
    ∀ x ∈ l, t.eligible cfg x = false := fun x hx => Bool.eq_false_iff.mpr (List.find?_eq_none.mp h x hx)

theorem select_none (h : t.select cfg = none) (c : TxClass) : ∀ x ∈ t.queue c, t.eligible cfg x = false := by
  rw [select_eq_findSome, List.findSome?_eq_none_iff] at h
  exact eligible_of_find?_none (h c c.mem_ordered)

/-- The offered message is the oldest eligible one of its queue, and no queue of a lower class holds one. -/
theorem select_some (h : t.select cfg = some m) :
    t.eligible cfg m = true ∧
      ∃ (c : TxClass) (older younger : List Queued), t.queue c = older ++ m :: younger ∧
        (∀ x ∈ older, t.eligible cfg x = false) ∧
        ∀ lower : TxClass, lower.code < c.code → ∀ x ∈ t.queue lower, t.eligible cfg x = false := by
  rw [select_eq_findSome, List.findSome?_eq_some_iff] at h
  obtain ⟨before, c, after, horder, hfind, hbefore⟩ := h
  obtain ⟨hm, older, younger, hqueue, holder⟩ := List.find?_eq_some_iff_append.mp hfind
  refine ⟨hm, c, older, younger, hqueue, fun x hx => by simpa using holder x hx, fun lower hlt => ?_⟩
  exact eligible_of_find?_none (hbefore lower (TxClass.mem_before_of_code_lt horder hlt))

theorem eligible_flow_urgent (cfg : Settings) (t : Tqu) (h : m.cls = .flow ∨ m.cls = .urgent) :
    t.eligible cfg m = true := by
  unfold eligible
  rcases h with h | h <;> rw [h]

theorem eligible_handover (cfg : Settings) (t : Tqu) (h : m.cls = .handover) :
    t.eligible cfg m = true ↔ t.holdOf cfg m.destination = 0 := by
  unfold eligible
  rw [h]
  exact beq_iff_eq

theorem eligible_report (cfg : Settings) (t : Tqu) (h : m.cls = .report) :
    t.eligible cfg m = true ↔ ∀ x ∈ t.neighbourHolds, x = 0 := by
  unfold eligible
  rw [h]
  simp

end Tqu

/-- Settles O41: the search through the classes in their order, and the eligibility of R150 class by class. -/
theorem selectedMessage : Obligations.SelectedMessage := by
  unfold Obligations.SelectedMessage
  exact fun cfg t => ⟨fun m hm => Tqu.select_some hm, Tqu.select_none, fun m =>
    ⟨Tqu.eligible_flow_urgent cfg t, Tqu.eligible_handover cfg t, Tqu.eligible_report cfg t⟩⟩

end Sys2Proof.Machine
end

section
/-!
# The hold timers taken alone (O18)

The own timer ends as a mark ends it (`Tqu.markOwn_eq`); a neighbour's timer stands at the place of the earliest
item that names it (R161).
-/

namespace Sys2Proof.Machine

/-- The own timer ends with the pool no longer congested. -/
theorem Tqu.markOwn_ends {cfg : Settings} {t : Tqu} (h : t.ownHold = 1) (hfree : cfg.holdThreshold < t.freeCount) :
    t.markOwn cfg = { t with ownHold := 0 } := by
  rw [Tqu.markOwn_eq, if_pos h, if_neg hfree.not_ge, if_neg fun hc => hfree.not_ge hc.2]

/-- The own timer is renewed, with HOLD(T) queued. -/
theorem Tqu.markOwn_renews {cfg : Settings} {t : Tqu} (h : t.ownHold = 1) (hfree : t.freeCount ≤ cfg.holdThreshold) :
    t.markOwn cfg = { t with ownHold := cfg.holdQuanta, flow := (t.queueHold cfg.holdQuanta).flow } := by
  rw [Tqu.markOwn_eq, if_pos h, if_pos hfree, if_pos ⟨h, hfree⟩]

theorem Tqu.holdOf_at {cfg : Settings} {n : Node} {i : Nat} (h : cfg.neighbours.findIdx? (fun x => x.node = n) = some i)
    (t : Tqu) : t.holdOf cfg n = (t.neighbourHolds[i]?).getD 0 := by
  unfold Tqu.holdOf
  rw [h]

/-- OWN_HOLD_EXPIRY in RUN, by what it makes of TQU (R160). -/
theorem State.next_ownHoldExpiry {cfg : Settings} {s : State} {t : Tqu} (hrun : s.InRun cfg)
    (ht : (if s.tqu.ownHold = 1 then s.tqu.markOwn cfg else s.tqu) = t) :
    exec .ownHoldExpiry s = .next { s with tqu := t } :=
  hrun.next_whenRun (congrArg (fun t => { s with tqu := t }) ht)

/-- Settles O18: the own timer by whether the pool is still congested and whether a HOLD waits; and the timer of the
item that names the neighbour. -/
theorem holdTimersEnd : Obligations.HoldTimersEnd := by
  unfold Obligations.HoldTimersEnd
  intro cfg s hrun
  have expires {t : Tqu} (hown : s.tqu.ownHold = 1) (ht : s.tqu.markOwn cfg = t) :
      exec .ownHoldExpiry s = .next { s with tqu := t } := State.next_ownHoldExpiry hrun ((if_pos hown).trans ht)
  refine ⟨fun hown hfree => ?_, fun hown hfree hflow => ?_, fun m ms hown hfree hflow => ?_, fun hown => ?_,
    fun n i hi => ?_⟩
  · exact expires hown (Tqu.markOwn_ends hown hfree)
  · refine expires hown ?_
    rw [Tqu.markOwn_renews hown hfree, Tqu.queueHold_nil hflow]
    rfl
  · refine expires hown ?_
    rw [Tqu.markOwn_renews hown hfree, Tqu.queueHold_cons hflow]
  · exact State.next_ownHoldExpiry hrun (if_neg hown)
  · refine hrun.next_whenRun (congrArg (fun t => { s with tqu := t }) ?_)
    dsimp only
    rw [Tqu.holdOf_at hi, Tqu.setHold_at hi]
    split <;> rfl

end Sys2Proof.Machine
end

section
/-!
# What each command does to MLC, and what it leaves (O2, O54, O55)

An inversion of `exec`, proved once: a command reports to MLC at most (`State.Reports`), or is a cold reset, the load of a
configuration, a CLEAR, or an EVICT that begins to wait. None touches the queue of commands or the factory identity.
-/

namespace Sys2Proof.Machine

/-! ## One block -/

theorem Mlc.grows_configFault (m : Mlc) : m.Grows (m.withStatus { m.status with configFault := true }) :=
  ⟨fun h => ⟨h.counters, h.notices, h.uplinks, rfl, h.evict⟩, rfl, ⟨id, id, id, id, id, fun _ => rfl, id⟩, id⟩

theorem Mlc.sound_clear {m : Mlc} (h : m.Sound) : m.clear.Sound :=
  ⟨List.length_replicate, h.notices, h.uplinks, rfl, h.evict⟩

theorem Tqu.reached_push (m : Queued) (t : Tqu) : (t.push m).reached = t.reached := by
  unfold Tqu.push Tqu.onQueue
  cases m.cls <;> rfl

namespace State

/-- What all commands but a few do: MLC is told what is counted, noticed, answered or sent, and an EVICT that still waits
does so in RUN and past the point of a handling. -/
structure Reports (s t : State) : Prop where
  pending : t.pending = s.pending
  identity : t.cfl.identity = s.cfl.identity
  mlc : s.mlc.Grows t.mlc
  evict : s.EvictLaw → t.EvictLaw

variable {s t u : State}

theorem Reports.refl (s : State) : s.Reports s := ⟨rfl, rfl, .refl _, id⟩

theorem Reports.trans (h : s.Reports t) (g : t.Reports u) : s.Reports u :=
  ⟨g.pending.trans h.pending, g.identity.trans h.identity, h.mlc.trans g.mlc, g.evict ∘ h.evict⟩

theorem Reports.ite {c : Prop} [Decidable c] (ht : s.Reports t) (hu : s.Reports u) : s.Reports (if c then t else u) := by
  split
  · exact ht
  · exact hu

/-- Nothing begins to wait at MLC, RUN is not left, and the handling under way stays past its point. -/
theorem reports_of_point_kept (hpending : t.pending = s.pending) (hidentity : t.cfl.identity = s.cfl.identity)
    (hmlc : s.mlc.Grows t.mlc) (hnode : s.cfl.node = .run → t.cfl.node = .run)
    (hreached : s.tqu.reached = true → t.tqu.reached = true) : s.Reports t where
  pending := hpending
  identity := hidentity
  mlc := hmlc
  evict h he := by
    obtain ⟨hn, hr⟩ := h (hmlc.evict he)
    exact ⟨hnode hn, hreached hr⟩

theorem Stays.reports (h : s.Stays t) : s.Reports t :=
  reports_of_point_kept h.pending (h.cfl ▸ rfl) h.mlc (h.cfl ▸ id) (h.tqu.reached ▸ id)

theorem reports_onTlc (f : Tlc → Tlc) (s : State) : s.Reports (s.onTlc f) := ⟨rfl, rfl, .refl _, id⟩

theorem reports_onTqu {f : Tqu → Tqu} (h : s.tqu.reached = true → (f s.tqu).reached = true) : s.Reports (s.onTqu f) :=
  reports_of_point_kept rfl rfl (.refl _) id h

theorem reports_sends {f : Tqu → Tqu} (h : s.tqu.Sends (f s.tqu)) : s.Reports (s.onTqu f) := (stays_onTqu f s h).reports

theorem reports_count (c : Counter) (s : State) : s.Reports (s.count c) := (stays_count c s).reports

theorem reports_whenRun {f : Settings → State → State} (h : ∀ cfg, s.Reports (f cfg s)) : s.Reports (s.whenRun f) := by
  unfold whenRun
  split
  · exact h _
  · exact .refl s

/-! ## Joining and marks -/

theorem reports_runIfJoined (s : State) : s.Reports s.runIfJoined := by
  unfold runIfJoined
  split
  · exact reports_of_point_kept rfl rfl (.refl _) (fun _ => rfl) id
  · exact .refl s

theorem reports_reportAir (s : State) : s.Reports s.reportAir :=
  .trans (t := s.onCfl fun c => { c with airJoined := true }) (reports_of_point_kept rfl rfl (.refl _) id id)
    (reports_runIfJoined _)

theorem reports_reportTrunk (s : State) : s.Reports s.reportTrunk := by
  unfold reportTrunk
  split
  · exact .trans (t := s.onCfl fun c => { c with trunkJoined := true }) (reports_of_point_kept rfl rfl (.refl _) id id)
      (reports_runIfJoined _)
  · exact .refl s

theorem reports_cycleMark {record : List Byte} (h : exec (.cycleMark record) s = .next t) : s.Reports t := by
  cases h
  split
  · exact .refl s
  · refine .ite (.refl s) ?_
    split
    · exact (stays_noteCycle _ s).reports.trans (reports_reportAir _)
    · exact ((stays_noteCycle _ s).trans (stays_whenRun _ _ fun cfg => stays_mark cfg _)).reports
    all_goals exact .refl s

/-! ## The line -/

theorem reports_reportEntry (s : State) : s.Reports s.reportEntry := by
  unfold reportEntry
  split
  · exact reports_reportTrunk s
  · exact reports_reportTrunk s
  all_goals exact .refl s

theorem identity_hear (x : LineSymbol) (s : State) : (s.hear x).cfl.identity = s.cfl.identity := by
  unfold hear
  dsimp only
  repeat' split
  all_goals simp [(reports_reportEntry _).identity]

/-- A symbol tells MLC of the entry to STUCK at most (R144). -/
theorem reports_hear (x : LineSymbol) (s : State) : s.Reports (s.hear x) :=
  have off := offLine_hear x s
  reports_of_point_kept off.pending (identity_hear x s) off.mlc (offTables_hear x s).node (off.tqu.reached ▸ id)

theorem reports_hearAll (line : List LineSymbol) (s : State) : s.Reports (s.hearAll line) := by
  induction line generalizing s with
  | nil => exact .refl s
  | cons x xs ih => exact (reports_hear x s).trans (ih _)

/-! ## Attempts -/

theorem reports_outcome (delivered : Bool) (m : Queued) (s : State) :
    s.Reports (s.whenRun fun cfg s => s.tellOwner cfg delivered m) :=
  (stays_whenRun _ _ fun cfg => stays_tellOwner cfg delivered m s).reports

theorem reports_failAttempt (a : Attempt) (s : State) : s.Reports (s.failAttempt a) := by
  unfold failAttempt
  split
  · refine .ite ?_ ?_
    · exact (reports_sends (Tqu.sends_changeInHand _ _)).trans (reports_onTlc _ _)
    · exact ((reports_sends (Tqu.sends_removeInHand _)).trans (reports_count _ _)).trans (reports_outcome false _ _)
  · exact .ite (reports_onTlc _ s) (.refl s)

theorem reports_trunkAttemptStart {line : List LineSymbol} (h : exec (.trunkAttemptStart line) s = .next t) :
    s.Reports t := by
  cases h
  split
  · have heard := reports_hearAll line s
    refine .ite ?_ heard
    split
    · exact (heard.trans (reports_sends (Tqu.sends_takeInHand _ _ _))).trans (reports_onTlc _ _)
    · exact heard
  · exact .refl s

theorem reports_arbitrationLost (h : exec .arbitrationLost s = .next t) : s.Reports t := by
  cases h
  split
  · exact ((reports_count _ s).trans (reports_sends (Tqu.sends_changeInHand _ _))).trans (reports_onTlc _ _)
  · exact .refl s

theorem reports_bitFault {cause : BitFaultCause} (h : exec (.bitFault cause) s = .next t) : s.Reports t := by
  cases h
  split
  · exact .ite (((reports_count _ s).trans (reports_onTlc _ _)).trans (reports_failAttempt _ _)) (.refl s)
  · exact .refl s

theorem reports_acknowledgeFailure {x : LineSymbol} (h : exec (.acknowledgeFailure x) s = .next t) : s.Reports t := by
  cases h
  split
  · exact .ite (.refl s) (((reports_count _ s).trans (reports_onTlc _ _)).trans (reports_failAttempt _ _))
  · exact .refl s

theorem reports_delivered (h : exec .delivered s = .next t) : s.Reports t := by
  cases h
  split
  · have ended := (reports_count .sent s).trans (reports_onTlc (fun t => { t.noRun with attempt := none }) _)
    dsimp only
    split
    · exact .ite (ended.trans (reports_sends (Tqu.sends_changeInHand _ _)))
        ((ended.trans (reports_sends (Tqu.sends_removeInHand _))).trans (reports_outcome true _ _))
    · exact ended
  · exact .refl s

/-! ## Frames read -/

theorem reports_framingFault (s : State) : s.Reports s.framingFault := (reports_count _ s).trans (reports_onTlc _ _)

theorem reports_offerFrame (cfg : Settings) (p : Placed) (s : State) : s.Reports (s.offerFrame cfg p) := by
  have placed : s.tqu.reached = true → (s.tqu.place cfg p).reached = true :=
    fun h => (Tqu.sends_holdOnset cfg _).reached.trans h
  unfold offerFrame
  refine .ite ?_ (.ite (.refl s) (.ite ((reports_onTqu placed).trans (reports_onTlc _ _)) (reports_count _ s)))
  split
  · exact .ite ((reports_sends (Tqu.sends_setHold cfg _ _ _)).trans (reports_onTlc _ _)) (.refl s)
  · exact .refl s

theorem reports_frameReceived {bits : Nat} {a : BitVec 13} {d : Node} {payload : List Byte} {crc : Byte}
    (h : exec (.frameReceived bits a d payload crc) s = .next t) : s.Reports t := by
  cases h
  split
  · next r _ _ =>
    have read : s.Reports (s.crcRead bits r) := reports_onTlc _ s
    refine .ite (.refl s) (.ite (read.trans (reports_framingFault _)) (.ite ?_ (.ite read ?_)))
    · exact (read.trans (reports_count .crcFaults _)).trans (reports_onTlc _ _)
    · exact read.trans (reports_whenRun fun cfg => .ite (reports_offerFrame cfg _ _) (.refl _))
  · exact .refl s

theorem reports_execFramingFault {bits : Nat} {cause : FramingCause}
    (h : exec (.framingFault bits cause) s = .next t) : s.Reports t := by
  have read := reports_onTlc (Tlc.readFault bits (framingAfterHeld cause) (faultSymbol cause)) s
  have lost := read.trans (reports_framingFault _)
  cases h
  dsimp only
  split
  · exact .ite (read.trans (reports_onTlc _ _)) (.ite lost (.refl s))
  · exact .ite lost (.refl s)
  · exact .refl s

/-! ## Handlings (R158, R159) -/

/-- A handling reaches its point, and its effect takes place there. -/
theorem reports_handle {p : Placed → Bool} {f : Settings → Placed → State → State}
    (hf : ∀ cfg m u, Reports u (f cfg m u)) : s.Reports (s.handle p f) :=
  reports_whenRun fun cfg => by
    split
    · exact .ite ((reports_onTqu (f := fun t => { t with reached := true }) fun _ => rfl).trans (hf cfg _ _)) (.refl s)
    · exact .refl s

theorem reports_handleClaim (cfg : Settings) (n : Node) (c : ClaimBody) (s : State) :
    s.Reports (s.handleClaim cfg n c) := by
  unfold handleClaim
  split
  · exact reports_onTqu id
  · exact (stays_updateEntry _ _ s).reports.trans (reports_onTqu id)

theorem reports_queueReply (s : State) : s.Reports s.queueReply := by
  have pushed (m : Queued) : s.Reports (s.onTqu fun t => Tqu.push m { t with reply := none }) :=
    reports_onTqu fun h => (Tqu.reached_push m { s.tqu with reply := none }).trans h
  unfold queueReply
  split
  · dsimp only
    split
    · exact (pushed _).trans (reports_count _ _)
    · exact pushed _
  · exact .refl s

/-- The decision of RE ends the wait whatever it finds (R168). -/
theorem mlc_evict_evict (x : Headset) (s : State) : (s.evict x).mlc.evict = none := by
  unfold evict
  split
  · rfl
  · split <;> rfl

theorem mlc_evict_decideEvict (s : State) : s.decideEvict.mlc.evict = none := by
  unfold decideEvict
  split
  · exact mlc_evict_evict _ s
  · assumption

theorem evictLaw_of_none (h : s.mlc.evict = none) : s.EvictLaw := fun he => by rw [h] at he; cases he

/-- The completion leaves the point of its handling, and no EVICT waits after it (R159, R168). -/
theorem reports_handlingComplete (h : exec .handlingComplete s = .next t) : s.Reports t := by
  cases h
  refine reports_whenRun fun cfg => ?_
  split
  · refine .ite ?_ (.refl s)
    have replied := reports_queueReply (s.onTqu (Tqu.freeBuffer cfg.node))
    have decided := (stays_decideEvict (s.completed cfg)).reports
    exact
      { pending := decided.pending.trans replied.pending
        identity := decided.identity.trans replied.identity
        mlc := replied.mlc.trans decided.mlc
        evict := fun _ => evictLaw_of_none (mlc_evict_decideEvict _) }
  · exact .refl s

theorem reports_of_handlesPool {c : Instr} (hc : handlesPool c = true) (h : exec c s = .next t) : s.Reports t := by
  cases c with
  | takenHandling =>
    cases h
    exact reports_handle fun cfg m u => by split <;> [exact (stays_handleTaken cfg _ _ _ u).reports; exact .refl u]
  | claimHandling =>
    cases h
    exact reports_handle fun cfg m u => by
      split <;> [exact .ite (reports_handleClaim cfg _ _ u) (.refl u); exact .refl u]
  | seekClaimHandling =>
    cases h
    exact reports_handle fun cfg m u => by
      split <;> [exact .ite (stays_handleSeekClaim cfg _ _ u).reports (.refl u); exact .refl u]
  | yieldHandling =>
    cases h
    exact reports_handle fun cfg m u => by split <;> [exact (stays_handleYield cfg _ _ u).reports; exact .refl u]
  | declineHandling =>
    cases h
    exact reports_handle fun cfg m u => by split <;> [exact (stays_handleDecline _ _ _ u).reports; exact .refl u]
  | standingHandling =>
    cases h
    exact reports_handle fun cfg m u => by
      split <;>
        [exact (stays_foldl _ (fun s x => stays_handleNaming cfg m.sender s x) _ u).reports; exact .refl u]
  | handlingComplete => exact reports_handlingComplete h
  | _ => cases hc

/-! ## What a command can do -/

/-- All that a command `c` can do to MLC, the queue of commands and the factory identity. -/
inductive Tells (c : Instr) (s t : State) : Prop
  | reports (h : s.Reports t)
  | reset (hc : c = .powerOn ∨ c = .resetLineAsserted) (ht : t = s.coldReset)
  | load {image : List Byte} {cfg : Settings} {clamped : Bool} (hc : c = .configLoadComplete image)
      (hn : s.cfl.node = .loading) (ht : t = (s.takeSettings cfg clamped).enterJoining)
  | clear {record : List Byte} (hc : c = .clear record)
      (ht : t = (s.onMlc Mlc.clear).onTlc fun t => { t with trap := none })
  | waits {x : Headset} (hf : s.mlc.slotFree = true) (hn : s.cfl.node = .run) (hr : s.tqu.reached = true)
      (ht : t = s.onMlc fun m => { m with evict := some x })

/-- No EVICT waits outside RUN, so a change of node state from outside RUN keeps the law of the wait. -/
theorem EvictLaw.none_of_node (h : s.EvictLaw) (hn : s.cfl.node ≠ .run) : s.mlc.evict = none := by
  cases he : s.mlc.evict with
  | none => rfl
  | some x => exact absurd (h (by rw [he]; rfl)).1 hn

/-- A failed load sets CONFIG_FAULT (R179). -/
theorem reports_failLoad (hn : s.cfl.node ≠ .run) : s.Reports s.failLoad :=
  reports_of_point_kept rfl rfl (Mlc.grows_configFault _) (fun h => absurd h hn) id

/-- A warm restart answers the EVICT that waits (R167, R181). -/
theorem reports_warmRestart (s : State) : s.Reports s.warmRestart :=
  ⟨rfl, rfl, Mlc.grows_answerEvict _, fun _ => evictLaw_of_none (Mlc.evict_answerEvict _)⟩

theorem tells_configLoadComplete {image : List Byte} (h : exec (.configLoadComplete image) s = .next t) :
    Tells (.configLoadComplete image) s t := by
  cases h
  split
  · next hn =>
    split
    · exact .load rfl hn rfl
    · exact .reports (reports_failLoad (by rw [hn]; decide))
  all_goals exact .reports (.refl s)

/-- A matrix record does what its act does; one that is not sound is counted at most (R163). -/
theorem tells_takeRecord {c : Instr} {kind : Byte} {need : Nat} {record : List Byte} {act : List Byte → State → State}
    (ha : ∀ body, Tells c s (act body s)) : Tells c s (s.takeRecord kind need record act) := by
  unfold takeRecord
  split
  · exact .reports (.refl s)
  all_goals
    split
    · exact .reports (reports_count _ s)
    · exact .reports (.refl s)
    · exact ha _

theorem tells_takeEvict (c : Instr) (body : List Byte) (s : State) : Tells c s (s.takeEvict body) := by
  rcases takeEvict_cases body s with hs | ⟨hf, hn, hr, he⟩
  · exact .reports hs.reports
  · exact .waits hf hn hr he

/-- The inversion of `exec` by what it does to MLC. -/
theorem exec_tells {c : Instr} (h : exec c s = .next t) : Tells c s t := by
  cases c with
  | powerOn => cases h; exact .reset (.inl rfl) rfl
  | resetLineAsserted => cases h; exact .reset (.inr rfl) rfl
  | resetLineReleased =>
    cases h
    split
    · next hn => exact .reports (reports_of_point_kept rfl rfl (.refl _) (fun hr => by rw [hn] at hr; cases hr) id)
    all_goals exact .reports (.refl s)
  | configLoadComplete image => exact tells_configLoadComplete h
  | groupFrame record =>
    cases h
    exact tells_takeRecord fun body => by
      split <;> first | exact .reports (stays_groupFrame _ _ _ s).reports | exact .reports (.refl s)
  | statusQuery record =>
    cases h
    exact tells_takeRecord fun body => .reports (.ite (stays_answer _ s).reports (.refl s))
  | clear record =>
    cases h
    exact tells_takeRecord fun body => by split <;> first | exact .clear rfl rfl | exact .reports (.refl s)
  | evict record => cases h; exact tells_takeRecord fun body => tells_takeEvict _ body s
  | restart record =>
    cases h
    exact tells_takeRecord fun body => by
      split <;> first | exact .reports (reports_warmRestart s) | exact .reports (.refl s)
  | outboundRecordStart =>
    cases h
    split
    · exact .reports (.refl s)
    all_goals exact .reports (stays_onMlc _ s (Mlc.grows_startRecord _)).reports
  | cycleMark record => exact .reports (reports_cycleMark h)
  | trunkAttemptStart line => exact .reports (reports_trunkAttemptStart h)
  | arbitrationLost => exact .reports (reports_arbitrationLost h)
  | bitFault cause => exact .reports (reports_bitFault h)
  | delivered => exact .reports (reports_delivered h)
  | acknowledgeFailure x => exact .reports (reports_acknowledgeFailure h)
  | frameReceived bits a d payload crc => exact .reports (reports_frameReceived h)
  | framingFault bits cause => exact .reports (reports_execFramingFault h)
  | frameEnd | arbitrationWon =>
    cases h
    split <;> first | exact .reports (reports_onTlc _ s) | exact .reports (.refl s)
  | backoffEnd line | waitIdleExit line | stuckExit line | anotherNodesStartBit line =>
    cases h
    split <;> first | exact .reports (reports_hearAll _ s) | exact .reports (.refl s)
  | stuckEntry line => cases h; exact .reports (reports_hearAll line s)
  | takenHandling | claimHandling | seekClaimHandling | yieldHandling | declineHandling | standingHandling
  | handlingComplete => exact .reports (reports_of_handlesPool rfl h)
  | _ => exact .reports (stays_of_runOnly rfl rfl h).reports

/-! ## What is read off it -/

theorem Tells.pending {c : Instr} (h : Tells c s t) : t.pending = s.pending := by
  cases h with
  | reports h => exact h.pending
  | reset _ ht | load _ _ ht | clear _ ht | waits _ _ _ ht => rw [ht]; rfl

theorem Tells.identity {c : Instr} (h : Tells c s t) : t.cfl.identity = s.cfl.identity := by
  cases h with
  | reports h => exact h.identity
  | reset _ ht | load _ _ ht | clear _ ht | waits _ _ _ ht => rw [ht]; rfl

theorem mlc_sound_coldReset (s : State) : s.coldReset.mlc.Sound :=
  ⟨rfl, Nat.zero_le _, Nat.zero_le _, rfl, fun _ => rfl⟩

theorem mlc_sound_load (h : s.mlc.Sound) (cfg : Settings) (clamped : Bool) :
    (s.takeSettings cfg clamped).enterJoining.mlc.Sound :=
  ⟨h.counters, h.notices, h.uplinks, rfl, h.evict⟩

theorem Tells.mlc_sound {c : Instr} (h : Tells c s t) (hs : s.mlc.Sound) : t.mlc.Sound := by
  cases h with
  | reports h => exact h.mlc.sound hs
  | reset _ ht => exact ht ▸ mlc_sound_coldReset s
  | load _ _ ht => exact ht ▸ mlc_sound_load hs _ _
  | clear _ ht => exact ht ▸ Mlc.sound_clear hs
  | waits hf _ _ ht => exact ht ▸ Mlc.sound_wait hs hf _

theorem Tells.evictLaw {c : Instr} (h : Tells c s t) (hs : s.EvictLaw) : t.EvictLaw := by
  cases h with
  | reports h => exact h.evict hs
  | reset _ ht => exact ht ▸ evictLaw_of_none rfl
  | load _ hn ht => exact ht ▸ evictLaw_of_none (hs.none_of_node (by rw [hn]; decide))
  | clear _ ht => exact ht ▸ hs
  | waits _ hn hr ht => exact ht ▸ fun _ => ⟨hn, hr⟩

/-- A load adds CONFIG_CLAMPED at most to the status bits (R177). -/
theorem within_load (s : State) (cfg : Settings) (clamped : Bool) :
    s.mlc.status.Within (s.takeSettings cfg clamped).enterJoining.mlc.status :=
  ⟨id, id, id, id, fun h => Bool.or_eq_true_iff.mpr (.inl h), id, id⟩

theorem Tells.bits {c : Instr} (h : Tells c s t) :
    (c = .powerOn ∨ c = .resetLineAsserted ∨ ∃ record, c = .clear record) ∨ s.mlc.status.Within t.mlc.status := by
  cases h with
  | reports h => exact .inr h.mlc.bits
  | reset hc _ => exact .inl (hc.imp_right .inl)
  | load _ _ ht => exact .inr (ht ▸ within_load s _ _)
  | clear hc _ => exact .inl (.inr (.inr ⟨_, hc⟩))
  | waits _ _ _ ht => exact .inr (ht ▸ .refl _)

theorem Tells.enables {c : Instr} (h : Tells c s t) :
    (c = .powerOn ∨ c = .resetLineAsserted ∨ ∃ image, c = .configLoadComplete image) ∨
      t.mlc.enables = s.mlc.enables := by
  cases h with
  | reports h => exact .inr h.mlc.enables
  | reset hc _ => exact .inl (hc.imp_right .inl)
  | load hc _ _ => exact .inl (.inr (.inr ⟨_, hc⟩))
  | clear _ ht | waits _ _ _ ht => exact .inr (ht ▸ rfl)

/-- The model answers a next state to every command. -/
theorem exec_completes (c : Instr) (s : State) : ∃ t, exec c s = .next t := by
  cases c <;> exact ⟨_, rfl⟩

end State

/-- Settles O54: the step takes a command or idles, and whatever a command does to MLC keeps both laws. -/
theorem matrixLinkLaws : Obligations.MatrixLinkLaws := by
  unfold Obligations.MatrixLinkLaws
  intro s t hs he hx
  unfold step at hx
  split at hx
  · cases hx; exact ⟨hs, he⟩
  · next rest _ =>
    have tells := State.exec_tells (s := { s with pending := rest }) hx
    exact ⟨tells.mlc_sound hs, tells.evictLaw he⟩

/-- Settles O55: of all that a command can do, a cold reset and a CLEAR alone clear bits, a cold reset and a load alone
change the enables. -/
theorem statusBitsStay : Obligations.StatusBitsStay := by
  unfold Obligations.StatusBitsStay
  intro c s t h
  have tells := State.exec_tells h
  exact ⟨tells.bits, tells.enables⟩

/-- Settles O2: every meaning is a next state, and none of the ways to it touches the queue or the identity. -/
theorem everyCommandCompletes : Obligations.EveryCommandCompletes := by
  unfold Obligations.EveryCommandCompletes
  refine ⟨fun c s => ?_, fun s hs => by unfold step; rw [hs]⟩
  obtain ⟨t, ht⟩ := State.exec_completes c s
  have tells := State.exec_tells ht
  exact ⟨t, ht, tells.pending, tells.identity⟩

end Sys2Proof.Machine
end

section
/-!
# Counters and their rollover (O51)
-/

namespace Sys2Proof.Machine

/-- Each counter has a place of its own in the table of section 10.5. -/
theorem Counter.index_injective : Function.Injective Counter.index := by
  have index_eq (c : Counter) : c.index = c.ctorIdx := by cases c <;> rfl
  intro c d h
  rw [index_eq, index_eq] at h
  rw [← Counter.ofNat_ctorIdx c, h, Counter.ofNat_ctorIdx d]

namespace Mlc

theorem counter_count_of_counter_ne (m : Mlc) {c d : Counter} (h : d ≠ c) : (m.count c).counter d = m.counter d :=
  counter_count_of_ne m (Counter.index_injective.ne h.symm)

/-- Two counted events leave the same counters in either order. -/
theorem counters_count_comm (m : Mlc) (c d : Counter) :
    ((m.count c).count d).counters = ((m.count d).count c).counters := by
  by_cases h : c = d
  · rw [h]
  · rw [counters_count, counters_count, counters_count, counters_count, counter_count_of_counter_ne m (Ne.symm h),
      counter_count_of_counter_ne m h, List.set_comm _ _ (Counter.index_injective.ne h)]

theorem status_count_of_ne {m : Mlc} {c : Counter} (h : m.counter c ≠ 0xFFFF) : (m.count c).status = m.status := by
  unfold count
  rw [if_neg h]

/-- A counter that wraps sets the rollover bit of its category, and the attention line follows (R172, R173). -/
theorem count_of_wrap {m : Mlc} {c : Counter} (h : m.counter c = 0xFFFF) :
    m.count c =
      { m with counters := m.counters.set c.index (m.counter c + 1) }.withStatus (m.status.rollover c.category) := by
  unfold count
  exact if_pos h

end Mlc

/-- Settles O51: the counter by its place in the list, the bit by whether the counter wraps. -/
theorem counterRollover : Obligations.CounterRollover := by
  unfold Obligations.CounterRollover
  intro m c hm
  refine ⟨Mlc.counter_count_self hm.counters c, fun d hd => Mlc.counter_count_of_counter_ne m hd,
    Mlc.counters_count_comm m c, (Mlc.grows_count c m).bits, Mlc.status_count_of_ne, fun hwrap => ?_⟩
  rw [Mlc.count_of_wrap hwrap]
  refine ⟨?_, rfl⟩
  cases c.category <;> rfl

end Sys2Proof.Machine
end

section
/-!
# STATUS QUERY, CLEAR and the start of an outbound record (O49)

The snapshot is 29 bytes of single items, the counters of two bytes each, and the hold items of two bytes each (section 12.2).
-/

namespace Sys2Proof.Machine

/-! ## Lists of two bytes for each item -/

section
variable {α β : Type} (f g : α → β)

theorem getElem?_flatMap_pair (l : List α) (n : Nat) :
    (l.flatMap fun x => [f x, g x])[2 * n]? = l[n]?.map f ∧
      (l.flatMap fun x => [f x, g x])[2 * n + 1]? = l[n]?.map g := by
  induction l generalizing n with
  | nil => exact ⟨rfl, rfl⟩
  | cons x xs ih =>
    cases n with
    | zero => exact ⟨rfl, rfl⟩
    | succ n => exact ih n

theorem length_flatMap_pair (l : List α) : (l.flatMap fun x => [f x, g x]).length = 2 * l.length := by
  induction l with
  | nil => rfl
  | cons x xs ih =>
    rw [List.flatMap_cons, List.length_append, ih, List.length_cons]
    exact Nat.add_comm 2 _

end

/-! ## Bytes of a field, and an item that may be absent -/

/-- A 32-bit field is that of its two halves. -/
theorem word32Bytes_eq (w : BitVec 32) :
    word32Bytes w = word16Bytes (w.extractLsb' 16 16) ++ word16Bytes (w.extractLsb' 0 16) := by
  have byte (a b : Nat) (h : b + 8 ≤ 16) : (w.extractLsb' a 16).extractLsb' b 8 = w.extractLsb' (a + b) 8 := by
    ext i hi
    simp only [BitVec.getElem_extractLsb', BitVec.getLsbD_extractLsb', Nat.add_assoc]
    rw [decide_eq_true (by omega : b + i < 16), Bool.true_and]
  unfold word32Bytes word16Bytes
  rw [byte 16 8 (by decide), byte 16 0 (by decide), byte 0 8 (by decide), byte 0 0 (by decide)]
  rfl

theorem flagByte_isSome {α : Type} (o : Option α) [Decidable (o = none)] :
    flagByte o.isSome = if o = none then 0 else 1 := by
  cases o <;> simp [flagByte]

/-! ## The status bytes (R173) -/

/-- The bits of the status word that have no name are 0, and the others stand in the order of R173. -/
theorem StatusBits.word_bits (b : StatusBits) :
    b.word.extractLsb' 8 8 = 0 ∧ (b.word.extractLsb' 0 8).getLsbD 7 = false ∧
      (List.range 7).map (b.word.extractLsb' 0 8).getLsbD =
        [b.trunkRollover, b.trunkStuck, b.roamRollover, b.voiceRollover, b.configClamped, b.configFault,
          b.noticeLoss] := by
  obtain ⟨b0, b1, b2, b3, b4, b5, b6⟩ := b
  revert b0 b1 b2 b3 b4 b5 b6
  decide

/-! ## CLEAR at MLC (R169, R173) -/

/-- With every status bit clear the attention line is deasserted, whatever is enabled (R173). -/
theorem attentionOf_clear (e : Enables) : attentionOf e StatusBits.clear = false := by
  simp [attentionOf, StatusBits.clear]

theorem Mlc.clear_eq (m : Mlc) :
    m.clear = { m with counters := List.replicate 29 0, attention := false, status := StatusBits.clear } := by
  unfold Mlc.clear Mlc.withStatus
  rw [attentionOf_clear]
  rfl

/-! ## The parts of the snapshot (section 12.2) -/

namespace State

/-- The neighbour items of the configuration, none where it is absent (R166). -/
def neighbours (s : State) : List Neighbour := (s.cfl.config.map Settings.neighbours).getD []

/-- The items of one or two bytes before the counters, the identity as two of two. -/
def snapshotHead (s : State) : List Byte :=
  [s.cfl.node.code, s.tlc.state.code] ++
    (word16Bytes (s.cfl.identity.extractLsb' 16 16) ++ word16Bytes (s.cfl.identity.extractLsb' 0 16)) ++
    [(s.cfl.config.map Settings.node).getD 0] ++ s.re.census ++
    [byteOf s.re.survey.length, byteOf s.re.claimsOutstanding, byteOf s.tqu.freeCount,
     byteOf s.tqu.flow.length, byteOf s.tqu.urgent.length, byteOf s.tqu.handover.length, byteOf s.tqu.report.length,
     byteOf s.tqu.ownHold] ++
    word16Bytes s.mlc.status.word ++
    [flagByte s.tlc.trap.isSome] ++
    word16Bytes ((s.tlc.trap.map fun t => t.arbitration.setWidth 16).getD 0) ++
    word16Bytes ((s.tlc.trap.map fun t => BitVec.ofNat 16 t.faults).getD 0)

theorem snapshot_eq (s : State) : s.snapshot = s.snapshotHead ++ (s.mlc.counters.flatMap word16Bytes ++ s.holdItems) := by
  unfold snapshot
  rw [word32Bytes_eq]
  exact List.append_assoc _ _ _

theorem snapshotHead_length (s : State) : s.snapshotHead.length = 29 := rfl

variable {s : State}

theorem snapshot_before_counters {n : Nat} (h : n < 29) : s.snapshot[n]? = s.snapshotHead[n]? := by
  rw [snapshot_eq, List.getElem?_append_left (snapshotHead_length s ▸ h)]

/-- A counter stands at two bytes behind those of the counters before it. -/
theorem snapshot_counter {n : Nat} {w : BitVec 16} (h : s.mlc.counters[n]? = some w) :
    s.snapshot[29 + 2 * n]? = some (w.extractLsb' 8 8) ∧ s.snapshot[29 + 2 * n + 1]? = some (w.extractLsb' 0 8) := by
  have hlen : (s.mlc.counters.flatMap word16Bytes).length = 2 * s.mlc.counters.length := length_flatMap_pair _ _ _
  obtain ⟨hn, -⟩ := List.getElem?_eq_some_iff.mp h
  obtain ⟨hhi, hlo⟩ := getElem?_flatMap_pair (fun w : BitVec 16 => w.extractLsb' 8 8) (fun w => w.extractLsb' 0 8)
    s.mlc.counters n
  rw [h] at hhi hlo
  have behind (k : Nat) : s.snapshot[29 + k]? = (s.mlc.counters.flatMap word16Bytes ++ s.holdItems)[k]? := by
    rw [snapshot_eq, List.getElem?_append_right (by rw [snapshotHead_length]; omega), snapshotHead_length,
      Nat.add_sub_cancel_left]
  constructor
  · rw [behind, List.getElem?_append_left (by omega)]
    exact hhi
  · rw [Nat.add_assoc, behind, List.getElem?_append_left (by omega)]
    exact hlo

/-- The hold items begin behind 29 counters. -/
theorem snapshot_holdItems (h : s.mlc.counters.length = 29) (k : Nat) : s.snapshot[87 + k]? = s.holdItems[k]? := by
  have hlen : (s.snapshotHead ++ s.mlc.counters.flatMap word16Bytes).length = 87 := by
    rw [List.length_append, snapshotHead_length]
    exact congrArg (29 + ·) ((length_flatMap_pair _ _ _).trans (congrArg (2 * ·) h))
  rw [snapshot_eq, ← List.append_assoc, List.getElem?_append_right (by omega), hlen, Nat.add_sub_cancel_left]

/-- The hold items: their number, then a node and its timer for each neighbour item that has one (R166). -/
theorem holdItems_eq (s : State) :
    s.holdItems = byteOf s.neighbours.length ::
      (s.neighbours.zip s.tqu.neighbourHolds).flatMap fun p => [p.1.node, byteOf p.2] := by
  unfold holdItems neighbours
  cases s.cfl.config with
  | none => rfl
  | some cfg =>
    refine congrArg (_ :: ·) ?_
    rw [List.flatMap_def, List.map_zip_eq_zipWith]
    rfl

theorem snapshot_neighbour (h : s.mlc.counters.length = 29) {n : Nat} {x : Neighbour} {time : Nat}
    (hx : s.neighbours[n]? = some x) (ht : s.tqu.neighbourHolds[n]? = some time) :
    s.snapshot[88 + 2 * n]? = some x.node ∧ s.snapshot[89 + 2 * n]? = some (byteOf time) := by
  have hzip : (s.neighbours.zip s.tqu.neighbourHolds)[n]? = some (x, time) :=
    List.getElem?_zip_eq_some.mpr ⟨hx, ht⟩
  obtain ⟨hnode, htime⟩ := getElem?_flatMap_pair (fun p : Neighbour × Nat => p.1.node) (fun p => byteOf p.2)
    (s.neighbours.zip s.tqu.neighbourHolds) n
  rw [hzip] at hnode htime
  constructor
  · rw [show 88 + 2 * n = 87 + (2 * n + 1) by omega, snapshot_holdItems h, holdItems_eq]
    exact hnode
  · rw [show 89 + 2 * n = 87 + (2 * n + 1 + 1) by omega, snapshot_holdItems h, holdItems_eq]
    exact htime

theorem snapshot_length (h : s.mlc.counters.length = 29) (hholds : s.neighbours.length = s.tqu.neighbourHolds.length) :
    s.snapshot.length = 88 + 2 * s.neighbours.length := by
  have hcounters : (s.mlc.counters.flatMap word16Bytes).length = 2 * 29 := (length_flatMap_pair _ _ _).trans (h ▸ rfl)
  rw [snapshot_eq, List.length_append, List.length_append, snapshotHead_length, hcounters, holdItems_eq, List.length_cons,
    length_flatMap_pair, List.length_zip, ← hholds, Nat.min_self]
  omega

/-! ## STATUS QUERY and CLEAR (R164, R166, R167, R169) -/

theorem answer_of_no_evict (h : s.mlc.evict = none) (a : Answer) :
    s.answer a = { s with mlc := { s.mlc with answer := some a } } := by
  unfold answer Mlc.place onMlc
  rw [← h]

/-- A sound STATUS QUERY takes the answer slot where it is free (R167). -/
theorem next_statusQuery {record : List Byte} (hn : s.cfl.node ≠ .standby)
    (hr : checkRecord 0x02 0 record = .sound []) :
    exec (.statusQuery record) s = .next (if s.mlc.slotFree then s.answer (.snapshot s.snapshot) else s) :=
  congrArg Host.Outcome.next (takeRecord_sound hn hr _)

/-- A sound CLEAR acts in JOINING and RUN alone (R164, R169). -/
theorem next_clear {record : List Byte} (hn : s.cfl.node ≠ .standby) (hr : checkRecord 0x03 0 record = .sound []) :
    exec (.clear record) s = .next
      (if s.cfl.node = .joining ∨ s.cfl.node = .run then
        (s.onMlc Mlc.clear).onTlc fun t => { t with trap := none }
      else s) := by
  refine congrArg Host.Outcome.next ((takeRecord_sound hn hr _).trans ?_)
  cases s.cfl.node <;> rfl

/-! ## The outbound direction (R165) -/

theorem next_outboundRecordStart (hn : s.cfl.node ≠ .standby) :
    exec .outboundRecordStart s = .next (s.onMlc Mlc.startRecord) := by
  refine congrArg Host.Outcome.next ?_
  cases h : s.cfl.node with
  | standby => exact absurd h hn
  | loading | fault | joining | run => rfl

end State

/-- Settles O49: the answer slot and the node state for the records, the parts of the snapshot item by item, and
`Mlc.startRecord` by what waits. -/
theorem statusClearAndOutbound : Obligations.StatusClearAndOutbound := by
  unfold Obligations.StatusClearAndOutbound
  refine ⟨fun s record hn => ⟨fun hr => ?_, fun hr => ?_⟩, fun s hcounters => ?_, fun s => ⟨fun hn => ?_, fun hn => ?_⟩⟩
  · rw [State.next_statusQuery hn hr]
    refine ⟨fun ha he => ?_, fun htaken => ?_⟩
    · rw [if_pos ((Mlc.slotFree_iff _).mpr ⟨ha, he⟩), State.answer_of_no_evict he]
    · exact congrArg Host.Outcome.next
        (if_neg fun hfree => (not_and_or.mpr htaken) ((Mlc.slotFree_iff _).mp hfree))
  · rw [State.next_clear hn hr]
    refine ⟨fun hacts => ?_, fun hidle => ?_⟩
    · rw [if_pos hacts, State.onMlc, Mlc.clear_eq]
      rfl
    · rw [if_neg (by rcases hidle with h | h <;> rw [h] <;> decide)]
  · intro at1 at2 holders neighbours
    have item {n : Nat} {b : Byte} (h : s.snapshotHead[n]? = some b) (hn : n < 29 := by decide) : at1 n b :=
      (State.snapshot_before_counters hn).trans h
    have field {n : Nat} {w v : BitVec 16} (hw : w = v) (hn : n + 1 < 29 := by decide)
        (hhi : s.snapshotHead[n]? = some (w.extractLsb' 8 8) := by rfl)
        (hlo : s.snapshotHead[n + 1]? = some (w.extractLsb' 0 8) := by rfl) : at2 n v :=
      hw ▸ ⟨item hhi (Nat.lt_of_succ_lt hn), item hlo hn⟩
    obtain ⟨hunused, hunnamed, hnamed⟩ := StatusBits.word_bits s.mlc.status
    refine ⟨item rfl, item rfl, field rfl, field rfl, item (congrArg some ?_),
      item rfl, item rfl, item rfl, item rfl, item rfl, item rfl, item rfl, item rfl, item rfl, item rfl, item rfl,
      item rfl, item rfl, item rfl, item rfl, item (congrArg some hunused), ⟨_, item rfl, hunnamed, hnamed⟩,
      item (congrArg some (flagByte_isSome _)), field ?_, field ?_, fun n w => State.snapshot_counter, ?_,
      fun n x time => State.snapshot_neighbour hcounters, State.snapshot_length hcounters⟩
    · show (s.cfl.config.map Settings.node).getD 0 = _
      cases s.cfl.config <;> rfl
    · show (s.tlc.trap.map fun t => t.arbitration.setWidth 16).getD 0 = _
      cases s.tlc.trap <;> rfl
    · show (s.tlc.trap.map fun t => BitVec.ofNat 16 t.faults).getD 0 = _
      cases s.tlc.trap <;> rfl
    · exact (State.snapshot_holdItems hcounters 0).trans (by rw [State.holdItems_eq]; rfl)
  · refine congrArg Host.Outcome.next ?_
    rw [hn]
  · rw [State.next_outboundRecordStart hn]
    unfold State.onMlc Mlc.startRecord
    refine ⟨fun u us hu => ?_, fun a hu ha => ?_, fun n ns hu ha hns => ?_, fun hu ha hns => ?_⟩
    · simp only [hu]
    · simp only [hu, ha]
    · simp only [hu, ha, hns]
    · simp only [hu, ha, hns]

end Sys2Proof.Machine
end

section
/-!
# The end of LOADING (O5)

The checks of R176 as propositions on the bytes of the image, and the row of the load by node state.
-/

namespace Sys2Proof.Machine

/-- The checks of R176, read as numbers; a length of 43 at least has two bytes for its CRC. -/
theorem imagePasses_iff (image : List Byte) :
    imagePasses image = true ↔
      (imageWord image 0).toNat = 0x7C31 ∧ 43 ≤ statedLength image ∧ statedLength image ≤ 2048 ∧
        43 + 2 * neighbourCount image + 16 * admissionCount image ≤ statedLength image ∧
        crc16 (coveredImage image) =
          imageByte image (statedLength image - 2) ++ imageByte image (statedLength image - 1) := by
  have hmark : imageWord image 0 = formatMark ↔ (imageWord image 0).toNat = 0x7C31 := BitVec.toNat_inj.symm
  have hcrc (h : 43 ≤ statedLength image) :
      imageWord image (statedLength image - 2) =
        imageByte image (statedLength image - 2) ++ imageByte image (statedLength image - 1) := by
    rw [imageWord, word16, show statedLength image - 2 + 1 = statedLength image - 1 by omega]
  simp only [imagePasses, Bool.and_eq_true, decide_eq_true_eq, beq_iff_eq, hmark]
  constructor
  · rintro ⟨⟨⟨hword, hhi, hlo⟩, hitems⟩, hsum⟩
    exact ⟨hword, hlo, hhi, hitems, hsum.trans (hcrc hlo)⟩
  · rintro ⟨hword, hlo, hhi, hitems, hsum⟩
    exact ⟨⟨⟨hword, hhi, hlo⟩, hitems⟩, hsum.trans (hcrc hlo).symm⟩

/-- The load ends LOADING by what the checks find (R176 to R180). -/
theorem State.next_configLoadComplete {s : State} (hn : s.cfl.node = .loading) (image : List Byte) :
    exec (.configLoadComplete image) s = .next
      (if imagePasses image then (s.takeSettings (loadedSettings image) (loadClamps image)).enterJoining
      else s.failLoad) := by
  refine congrArg Host.Outcome.next ?_
  rw [hn]

/-- In another node state no load is under way (assumption 2). -/
theorem State.next_configLoadComplete_other {s : State} (hn : s.cfl.node ≠ .loading) (image : List Byte) :
    exec (.configLoadComplete image) s = .next s := by
  refine congrArg Host.Outcome.next ?_
  cases h : s.cfl.node with
  | loading => exact absurd h hn
  | standby | fault | joining | run => rfl

/-- Settles O5: the checks as `imagePasses_iff` gives them, then the two ends of LOADING block by block. -/
theorem imageLoadEnds : Obligations.ImageLoadEnds := by
  unfold Obligations.ImageLoadEnds
  intro image s byte word passes cfg bits run
  have hpasses : imagePasses image = true ↔ passes := by
    rw [imagePasses_iff, coveredImage, statedLength, toNat_imageWord, toNat_imageWord]
    rfl
  refine ⟨fun hn hp => ?_, fun hn hp => ?_, fun hn => State.next_configLoadComplete_other hn image⟩
  · show exec (.configLoadComplete image) s = _
    rw [State.next_configLoadComplete hn, if_pos (hpasses.mpr hp)]
    rfl
  · show exec (.configLoadComplete image) s = _
    rw [State.next_configLoadComplete hn, if_neg (mt hpasses.mp hp)]
    rfl

end Sys2Proof.Machine
end

section
/-!
# The changes of node state (O9)

An inversion of `exec` for CFL: all commands but those of start-up leave the node state or end JOINING with both join
conditions true (`State.Joins`), and each command of start-up makes its own change (table of section 11.1).
-/

namespace Sys2Proof.Machine
namespace State

/-- CFL is told of the two join conditions at most: neither turns false, and the node state stays, or JOINING ends in RUN
with both true (R180). -/
structure Joins (s t : State) : Prop where
  node : t.cfl.node = s.cfl.node ∨
    (s.cfl.node = .joining ∧ t.cfl.node = .run ∧ t.cfl.trunkJoined = true ∧ t.cfl.airJoined = true)
  trunk : s.cfl.trunkJoined = true → t.cfl.trunkJoined = true
  air : s.cfl.airJoined = true → t.cfl.airJoined = true

variable {s t u : State}

theorem joins_of_cfl (h : t.cfl = s.cfl) : s.Joins t := ⟨.inl (h ▸ rfl), h ▸ id, h ▸ id⟩

theorem Joins.refl (s : State) : s.Joins s := joins_of_cfl rfl

theorem Joins.trans (h : s.Joins t) (g : t.Joins u) : s.Joins u where
  node := by
    rcases h.node with hst | ⟨hs, ht, htrunk, hair⟩
    · rw [← hst]
      exact g.node
    · rcases g.node with hu | ⟨hj, -⟩
      · exact .inr ⟨hs, hu.trans ht, g.trunk htrunk, g.air hair⟩
      · rw [ht] at hj
        cases hj
  trunk := g.trunk ∘ h.trunk
  air := g.air ∘ h.air

theorem Joins.ite {c : Prop} [Decidable c] (ht : s.Joins t) (hu : s.Joins u) : s.Joins (if c then t else u) := by
  split
  · exact ht
  · exact hu

/-- What leaves CFL as it was goes before a change of CFL. -/
theorem Joins.after (h : t.cfl = s.cfl) (g : t.Joins u) : s.Joins u := (joins_of_cfl h).trans g

theorem Stays.joins (h : s.Stays t) : s.Joins t := joins_of_cfl h.cfl

theorem joins_whenRun {f : Settings → State → State} (h : ∀ cfg, s.Joins (f cfg s)) : s.Joins (s.whenRun f) := by
  unfold whenRun
  split
  · exact h _
  · exact .refl s

/-! ## The reports to CFL (R97, R134, R180) -/

theorem joins_runIfJoined (s : State) : s.Joins s.runIfJoined := by
  unfold runIfJoined
  split
  · next hn htrunk hair _ => exact ⟨.inr ⟨hn, rfl, htrunk, hair⟩, id, id⟩
  · exact .refl s

theorem joins_reportTrunk (s : State) : s.Joins s.reportTrunk := by
  unfold reportTrunk
  split
  · exact .trans (t := s.onCfl fun c => { c with trunkJoined := true }) ⟨.inl rfl, fun _ => rfl, id⟩
      (joins_runIfJoined _)
  · exact .refl s

theorem joins_reportAir (s : State) : s.Joins s.reportAir :=
  .trans (t := s.onCfl fun c => { c with airJoined := true }) ⟨.inl rfl, id, fun _ => rfl⟩ (joins_runIfJoined _)

theorem joins_reportEntry (s : State) : s.Joins s.reportEntry := by
  unfold reportEntry
  split
  · exact joins_reportTrunk s
  · exact joins_reportTrunk s
  all_goals exact .refl s

theorem joins_cycleMark {record : List Byte} (h : exec (.cycleMark record) s = .next t) : s.Joins t := by
  cases h
  split
  · exact .refl s
  · refine .ite (.refl s) ?_
    split
    · exact (stays_noteCycle _ s).joins.trans (joins_reportAir _)
    · exact ((stays_noteCycle _ s).trans (stays_whenRun _ _ fun cfg => stays_mark cfg _)).joins
    all_goals exact .refl s

/-! ## The line -/

/-- A symbol reports to CFL where it leads TLC into IDLE or RECEIVING (R134). -/
theorem joins_hear (x : LineSymbol) (s : State) : s.Joins (s.hear x) := by
  have stick : s.Joins (s.onTlc fun t => (t.elapse 1).read x).stickIfHeld := joins_of_cfl (stickIfHeld_cfl _)
  have report (f : Tlc → Tlc) : s.Joins ((s.onTlc fun t => (t.elapse 1).read x).onTlc f).reportEntry :=
    .after (by rfl) (joins_reportEntry _)
  unfold hear
  dsimp only
  split
  · exact .refl s
  · exact stick
  · exact stick
  · exact stick
  · exact .ite (report _) (.ite (report _) stick)
  · exact .ite (joins_of_cfl rfl) stick
  · exact .ite (report _) ((report _).trans (joins_of_cfl (stickIfHeld_cfl _)))
  · exact .ite (report _) (joins_of_cfl rfl)

theorem joins_hearAll (line : List LineSymbol) (s : State) : s.Joins (s.hearAll line) := by
  induction line generalizing s with
  | nil => exact .refl s
  | cons x xs ih => exact (joins_hear x s).trans (ih _)

/-! ## Attempts and frames -/

/-- The owner of a message is told its outcome (R151). -/
theorem joins_outcome (delivered : Bool) (m : Queued) (h : t.cfl = s.cfl) :
    s.Joins (t.whenRun fun cfg s => s.tellOwner cfg delivered m) :=
  .after h (stays_whenRun _ _ fun cfg => stays_tellOwner cfg delivered m _).joins

theorem joins_failAttempt (a : Attempt) (h : t.cfl = s.cfl) : s.Joins (t.failAttempt a) := by
  refine .after h ?_
  unfold failAttempt
  split
  · exact .ite (joins_of_cfl rfl) (joins_outcome false _ rfl)
  · exact .ite (joins_of_cfl rfl) (.refl t)

theorem joins_delivered (h : exec .delivered s = .next t) : s.Joins t := by
  cases h
  split
  · dsimp only
    split
    · exact .ite (joins_of_cfl rfl) (joins_outcome true _ rfl)
    · exact joins_of_cfl rfl
  · exact .refl s

theorem joins_trunkAttemptStart {line : List LineSymbol} (h : exec (.trunkAttemptStart line) s = .next t) :
    s.Joins t := by
  cases h
  split
  · have heard := joins_hearAll line s
    refine .ite ?_ heard
    split
    · exact heard.trans (joins_of_cfl rfl)
    · exact heard
  · exact .refl s

theorem joins_offerFrame (cfg : Settings) (p : Placed) (s : State) : s.Joins (s.offerFrame cfg p) := by
  unfold offerFrame
  refine .ite ?_ (.ite (.refl s) (.ite (joins_of_cfl rfl) (joins_of_cfl rfl)))
  split
  · exact .ite (joins_of_cfl rfl) (.refl s)
  · exact .refl s

theorem joins_frameReceived {bits : Nat} {a : BitVec 13} {d : Node} {payload : List Byte} {crc : Byte}
    (h : exec (.frameReceived bits a d payload crc) s = .next t) : s.Joins t := by
  cases h
  split
  · next r _ _ =>
    have read : s.Joins (s.crcRead bits r) := joins_of_cfl rfl
    refine .ite (.refl s) (.ite (joins_of_cfl rfl) (.ite (joins_of_cfl rfl) (.ite read ?_)))
    exact read.trans (joins_whenRun fun cfg => .ite (joins_offerFrame cfg _ _) (.refl _))
  · exact .refl s

theorem joins_framingFault {bits : Nat} {cause : FramingCause} (h : exec (.framingFault bits cause) s = .next t) :
    s.Joins t := by
  cases h
  dsimp only
  split
  · exact .ite (joins_of_cfl rfl) (.ite (joins_of_cfl rfl) (.refl s))
  · exact .ite (joins_of_cfl rfl) (.refl s)
  · exact .refl s

/-! ## Handlings (R158, R159) -/

theorem joins_handle {p : Placed → Bool} {f : Settings → Placed → State → State}
    (hf : ∀ cfg m u, Joins u (f cfg m u)) : s.Joins (s.handle p f) :=
  joins_whenRun fun cfg => by
    split
    · exact .ite (.after (by rfl) (hf cfg _ _)) (.refl s)
    · exact .refl s

theorem joins_queueReply (s : State) : s.Joins s.queueReply := by
  unfold queueReply
  split
  · exact joins_of_cfl (by dsimp only; split <;> rfl)
  · exact .refl s

theorem joins_handlingComplete (h : exec .handlingComplete s = .next t) : s.Joins t := by
  cases h
  refine joins_whenRun fun cfg => ?_
  split
  · have replied := joins_queueReply (s.onTqu (Tqu.freeBuffer cfg.node))
    have completed : s.Joins (s.completed cfg) := .trans (.after (by rfl) replied) (joins_of_cfl (by rfl))
    exact .ite (completed.trans (stays_decideEvict _).joins) (.refl s)
  · exact .refl s

theorem joins_of_handlesPool {c : Instr} (hc : handlesPool c = true) (h : exec c s = .next t) : s.Joins t := by
  cases c with
  | takenHandling =>
    cases h
    exact joins_handle fun cfg _ u => by split <;> [exact (stays_handleTaken cfg _ _ _ u).joins; exact .refl u]
  | claimHandling =>
    cases h
    exact joins_handle fun cfg _ u => by
      split <;> [exact .ite (joins_of_cfl (guards_handleClaim cfg _ _ u).cfl) (.refl u); exact .refl u]
  | seekClaimHandling =>
    cases h
    exact joins_handle fun cfg _ u => by
      split <;> [exact .ite (stays_handleSeekClaim cfg _ _ u).joins (.refl u); exact .refl u]
  | yieldHandling =>
    cases h
    exact joins_handle fun cfg _ u => by split <;> [exact (stays_handleYield cfg _ _ u).joins; exact .refl u]
  | declineHandling =>
    cases h
    exact joins_handle fun _ _ u => by split <;> [exact (stays_handleDecline _ _ _ u).joins; exact .refl u]
  | standingHandling =>
    cases h
    exact joins_handle fun cfg m u => by
      split <;> [exact (stays_foldl _ (stays_handleNaming cfg m.sender) _ u).joins; exact .refl u]
  | handlingComplete => exact joins_handlingComplete h
  | _ => cases hc

/-! ## Every command -/

/-- All that a command `c` can do to the node state. -/
inductive NodeTurn (c : Instr) (s t : State) : Prop
  | joins (h : s.Joins t)
  | reset (hc : c = .powerOn ∨ c = .resetLineAsserted) (ht : t.cfl.node = .standby)
  | released (hc : c = .resetLineReleased) (hs : s.cfl.node = .standby) (ht : t.cfl.node = .loading)
  | loadEnds {image : List Byte} (hc : c = .configLoadComplete image) (hs : s.cfl.node = .loading)
      (ht : t.cfl.node = .joining ∨ t.cfl.node = .fault)
  | restarts {record : List Byte} (hc : c = .restart record) (hs : s.cfl.node = .joining ∨ s.cfl.node = .run)
      (ht : t.cfl.node = .joining)

theorem nodeTurn_of_cfl {c : Instr} (h : t.cfl = s.cfl) : NodeTurn c s t := .joins (joins_of_cfl h)

theorem nodeTurn_configLoadComplete {image : List Byte} (h : exec (.configLoadComplete image) s = .next t) :
    NodeTurn (.configLoadComplete image) s t := by
  by_cases hn : s.cfl.node = .loading
  · rw [next_configLoadComplete hn] at h
    cases h
    split
    · exact .loadEnds rfl hn (.inl rfl)
    · exact .loadEnds rfl hn (.inr rfl)
  · rw [next_configLoadComplete_other hn] at h
    cases h
    exact nodeTurn_of_cfl rfl

/-- A matrix record turns the node state as its act does; one that is not sound is counted at most (R163). -/
theorem nodeTurn_takeRecord {c : Instr} {kind : Byte} {need : Nat} {record : List Byte} {act : List Byte → State → State}
    (ha : ∀ body, NodeTurn c s (act body s)) : NodeTurn c s (s.takeRecord kind need record act) := by
  unfold takeRecord
  split
  · exact nodeTurn_of_cfl rfl
  all_goals
    split
    · exact nodeTurn_of_cfl rfl
    · exact nodeTurn_of_cfl rfl
    · exact ha _

theorem cfl_takeEvict (body : List Byte) (s : State) : (s.takeEvict body).cfl = s.cfl := by
  rcases takeEvict_cases body s with hs | ⟨-, -, -, he⟩
  · exact hs.cfl
  · rw [he]
    rfl

/-- The inversion of `exec` by what it does to the node state. -/
theorem exec_nodeTurn {c : Instr} (h : exec c s = .next t) : NodeTurn c s t := by
  cases c with
  | powerOn => cases h; exact .reset (.inl rfl) rfl
  | resetLineAsserted => cases h; exact .reset (.inr rfl) rfl
  | resetLineReleased =>
    cases h
    split
    · next hn => exact .released rfl hn rfl
    all_goals exact nodeTurn_of_cfl rfl
  | configLoadComplete image => exact nodeTurn_configLoadComplete h
  | restart record =>
    cases h
    refine nodeTurn_takeRecord fun body => ?_
    split
    · next hn => exact .restarts rfl (.inl hn) rfl
    · next hn => exact .restarts rfl (.inr hn) rfl
    all_goals exact nodeTurn_of_cfl rfl
  | groupFrame record =>
    cases h
    exact nodeTurn_takeRecord fun body => nodeTurn_of_cfl (by split <;> first | exact cfl_groupFrame s _ _ _ | rfl)
  | statusQuery record => cases h; exact nodeTurn_takeRecord fun body => nodeTurn_of_cfl (by split <;> rfl)
  | clear record => cases h; exact nodeTurn_takeRecord fun body => nodeTurn_of_cfl (by split <;> rfl)
  | evict record => cases h; exact nodeTurn_takeRecord fun body => nodeTurn_of_cfl (cfl_takeEvict body s)
  | cycleMark record => exact .joins (joins_cycleMark h)
  | trunkAttemptStart line => exact .joins (joins_trunkAttemptStart h)
  | bitFault cause =>
    cases h
    split
    · exact .joins (.ite (joins_failAttempt _ rfl) (.refl s))
    · exact nodeTurn_of_cfl rfl
  | acknowledgeFailure x =>
    cases h
    split
    · exact .joins (.ite (.refl s) (joins_failAttempt _ rfl))
    · exact nodeTurn_of_cfl rfl
  | delivered => exact .joins (joins_delivered h)
  | frameReceived bits a d payload crc => exact .joins (joins_frameReceived h)
  | framingFault bits cause => exact .joins (joins_framingFault h)
  | arbitrationLost | arbitrationWon | frameEnd | outboundRecordStart =>
    cases h
    split <;> exact nodeTurn_of_cfl rfl
  | backoffEnd line | waitIdleExit line | stuckExit line | anotherNodesStartBit line =>
    cases h
    split <;> first | exact .joins (joins_hearAll _ s) | exact nodeTurn_of_cfl rfl
  | stuckEntry line => cases h; exact .joins (joins_hearAll line s)
  | takenHandling | claimHandling | seekClaimHandling | yieldHandling | declineHandling | standingHandling
  | handlingComplete => exact .joins (joins_of_handlesPool rfl h)
  | _ => exact .joins (stays_of_runOnly rfl rfl h).joins

end State

/-- Settles O9: of all that a command can do to the node state, each change is a row of the table of section 11.1. -/
theorem nodeStateChanges : Obligations.NodeStateChanges := by
  unfold Obligations.NodeStateChanges
  intro c s t h hne
  cases State.exec_nodeTurn h with
  | joins hj => exact .inr (.inr (.inr (.inl (hj.node.resolve_left hne))))
  | reset hc ht => exact .inl ⟨ht, hc⟩
  | released hc hs ht => exact .inr (.inl ⟨hs, ht, hc⟩)
  | loadEnds hc hs ht => exact .inr (.inr (.inl ⟨hs, ht, _, hc⟩))
  | restarts hc hs ht =>
    have hrun := hs.resolve_left fun hj => hne (ht.trans hj.symm)
    exact .inr (.inr (.inr (.inr ⟨hrun, ht, _, hc⟩)))

end Sys2Proof.Machine
end

section
/-!
# The step and the front of the queue (O1)

It turns what is known of `exec` of a command into what is known of the step that takes it (assumption 1).
-/

namespace Sys2Proof.Machine

/-- Settles O1: with a command at the front, the queue's case split in `step` takes its second branch. -/
theorem stepTakesFront : Obligations.StepTakesFront := by
  unfold Obligations.StepTakesFront
  intro c rest s hfront
  unfold step
  rw [hfront]

end Sys2Proof.Machine
end
